-- ==== Sys2Proof/Word.lean ====
section
/-! DEFINITION. The word types of the block and the one table constructor the state uses.
spec/00_scope.md R7 (widths), R8 (`uN`, `iN`). -/

namespace Sys2Proof

/-- A bus datum, `DATA_BITS = 8` (00_scope.md R7). -/
abbrev Byte := BitVec 8

/-- A bus address, `ADDR_BITS = 16` (00_scope.md R7). -/
abbrev Addr := BitVec 16

/-- A device handle, a `u8` (10_state.md R22). -/
abbrev Handle := BitVec 8

/-- A 32-bit register: `u32`, or `i32` read through `BitVec.toInt` (00_scope.md R8). -/
abbrev Word32 := BitVec 32

/-- A 64-bit counter, `u64` (00_scope.md R8). -/
abbrev Word64 := BitVec 64

/-- The host command word, format H (30_encoding.md R104). -/
abbrev CommandWord := BitVec 64

/-- The bus transaction word, format B (30_encoding.md R103). -/
abbrev BusWord := BitVec 25

/-- A finite byte sequence: a host buffer, a ROM image, a collaborator's image. -/
abbrev Bytes := List Byte

/-- The list `f i, f (i+1), …` of `n` entries. -/
def tableFrom {α : Type} (f : Nat → α) : Nat → Nat → List α
  | _, 0 => []
  | i, n + 1 => f i :: tableFrom f (i + 1) n

@[simp] theorem tableFrom_length {α : Type} (f : Nat → α) (i n : Nat) :
    (tableFrom f i n).length = n := by
  induction n generalizing i with
  | zero => rfl
  | succ n ih => simp [tableFrom, ih]

theorem tableFrom_get {α : Type} (f : Nat → α) (i n k : Nat)
    (h : k < (tableFrom f i n).length) : (tableFrom f i n)[k] = f (i + k) := by
  induction n generalizing i k with
  | zero => simp at h
  | succ n ih =>
    cases k with
    | zero => simp [tableFrom]
    | succ k =>
      simp only [tableFrom, List.getElem_cons_succ, ih]
      congr 1
      omega

/-- A table of `n` entries given by a function of the index. -/
def table {α : Type} (n : Nat) (f : Nat → α) : Vector α n :=
  ⟨(tableFrom f 0 n).toArray, by simp⟩

@[simp] theorem table_get {α : Type} (n : Nat) (f : Nat → α) (k : Nat) (h : k < n) :
    (table n f)[k] = f k := by
  simp [table, tableFrom_get]

end Sys2Proof
end

