-- ==== Sys2Proof/Config.lean ====
section
/-! DEFINITION. The parameters of the block (spec/00_scope.md R7), the default variant table
(41_cart_family.md R183), the fixed map (43_scheduler.md R282), and the collaborators: what they
are asked and what they answer. Their answers are FREE VALUES: opaque constants with no body
(assumption log 5). PRESUMED: where R7 takes a value from outside the source, the spec's default is
the value here (log 21). -/

namespace Sys2Proof

namespace Config

/-- `ADDR_BITS`, the width of a bus address (00_scope.md R7). -/
abbrev addrBits : Nat := 16
/-- `Addr` has that width: the rules are written with the number (20_memory.md R71). -/
theorem addr_width : Addr = BitVec addrBits := rfl
/-- `ADDR_MASK`, `2^ADDR_BITS - 1` (00_scope.md R7, 20_memory.md R71). -/
abbrev addrMask : Nat := 0xFFFF
/-- `PAGE_BITS`, log2 of the page size (00_scope.md R7, 20_memory.md R70). -/
abbrev pageBits : Nat := 6
/-- `NPAGES`, `2^(ADDR_BITS - PAGE_BITS)` page-table entries (00_scope.md R7, 10_state.md R27). -/
abbrev npages : Nat := 1024
/-- The constraint R7 puts on `NPAGES`. -/
theorem npages_eq : npages = 2 ^ (addrBits - pageBits) := rfl
/-- `DATA_BITS`, the width of a bus datum (00_scope.md R7). -/
abbrev dataBits : Nat := 8
/-- `Byte` has that width. -/
theorem byte_width : Byte = BitVec dataBits := rfl
/-- `NDEV`, the device-handle space (00_scope.md R7, 10_state.md R22). -/
abbrev ndev : Nat := 256
/-- `NCH`, the data-fetcher channels (00_scope.md R7, 42_cart_datafetcher.md R244). -/
abbrev nch : Nat := 8
/-- `CPU_REG_BYTES`, the length of the CPU's register image (00_scope.md R7, 44_serializer.md R354). -/
abbrev cpuRegBytes : Nat := 5
/-- `M`, clock units per CPU cycle (43_scheduler.md R284). -/
def m : Nat := 4
/-- `SCANLINE_CYCLES` (R7, 43_scheduler.md R295). -/
def scanlineCycles : Nat := 114
/-- `FIRST_SLICE_CYCLES` (R7, 43_scheduler.md R297). -/
def firstSliceCycles : Nat := 7
/-- `SCANLINES_NTSC` (R7). -/
def scanlinesNtsc : Nat := 262
/-- `SCANLINES_PAL` (R7). -/
def scanlinesPal : Nat := 312
/-- `DMA_ALIGN` (43_scheduler.md R304). -/
def dmaAlign : Nat := 4
/-- `FIX_SCANLINE_NTSC` (43_scheduler.md R301). -/
def fixScanlineNtsc : Nat := 203
/-- `FIX_SCANLINE_PAL` (43_scheduler.md R301). -/
def fixScanlinePal : Nat := 228
/-- `FIX_DMA_CLOCKS_NTSC` (43_scheduler.md R301). -/
def fixDmaClocksNtsc : Nat := 152
/-- `FIX_DMA_CLOCKS_PAL` (43_scheduler.md R301). -/
def fixDmaClocksPal : Nat := 162
/-- `FIX_DELTA` (43_scheduler.md R301). -/
def fixDelta : Int := -4
/-- `CPU_MAX_INSN_CYCLES` (43_scheduler.md R287). -/
def cpuMaxInsnCycles : Nat := 7
/-- `PREEMPT_ENDS_CALL` (43_scheduler.md R308, conflict C1). -/
def preemptEndsCall : Bool := true
/-- `DEBUG_CHECKS` (43_scheduler.md R311). -/
def debugChecks : Bool := false
/-- `MAGIC` (44_serializer.md R351). -/
def magic : Nat := 0x78000087
/-- `MAX_BYTES` (44_serializer.md R349). -/
def maxBytes : Nat := 262144
/-- The classes of versioned stream objects (44_serializer.md R351). -/
inductive StreamClass where
  | machine | cpu | addressSpace | dma | input | cart | dataFetcher | chip
  deriving DecidableEq, Repr
/-- `VERSIONS(class)`, `[1]` for every class (44_serializer.md R351). -/
def versions : StreamClass → List Int
  | .machine | .cpu | .addressSpace | .dma | .input | .cart | .dataFetcher | .chip => [1]
/-- The version `SAVE` writes (44_serializer.md R351). -/
def writtenVersion : Nat := 1
/-- The longest discriminant text (44_serializer.md R348). -/
def maxStringLength : Nat := 64
/-- `RAM_INIT` (10_state.md R24, R34). -/
def ramInit : Byte := 0
/-- `RESET_BANK` (10_state.md R33). -/
def resetBank : Nat := 0
/-- `BIOS_SIZES` (43_scheduler.md R280). -/
def biosSizes : List Nat := [4096]
/-- `BIOS_BASE` (43_scheduler.md R282). -/
def biosBase : Addr := 0xF000
/-- `CART_BASE` (43_scheduler.md R282). -/
def cartBase : Addr := 0x4000
/-- `CART_SIZE` (43_scheduler.md R282). -/
def cartSize : Nat := 0xC000
/-- `GEN_NUM` (42_cart_datafetcher.md R252). -/
def genNum : Nat := 20000
/-- `GEN_DEN` (42_cart_datafetcher.md R252). -/
def genDen : Nat := 1193182
/-- `LFSR_SEED` (42_cart_datafetcher.md R250). -/
def lfsrSeed : Word32 := 0x2B435044
/-- The word the LFSR step exclusive-ors in (42_cart_datafetcher.md R249). -/
def lfsrTap : Word32 := 0x10ADAB1E

end Config

/-! ### Machine types and cart variants -/

/-- The machine types (43_scheduler.md R281). -/
inductive MachType where
  | bare
  | ntsc
  | pal
  deriving DecidableEq, Repr, Inhabited

/-- The variants a cart can be: the tags of 30_encoding.md R109 other than `Unknown`, which is
never a cart's variant (41_cart_family.md R180). -/
inductive CartTag where
  | f2k | f4k | l8k | l16k | l32k | l8kr | l16kr | l32kr | ls8k | c16kp | df12k | mc4k
  | f8k | f16k | f32k
  deriving DecidableEq, Repr, Inhabited

/-- The decode families (41_cart_family.md R183). -/
inductive Family where
  | fixed
  | bankLatch
  | ramShadow
  | chipAug
  | multicart
  | dataFetcher
  deriving DecidableEq, Repr

/-- The window of an embedded chip (41_cart_family.md R208). -/
structure ChipWindow where
  id   : Byte
  base : Addr
  size : Nat
  mask : Addr
  deriving DecidableEq, Repr

/-- One row of `CART_TABLE` (41_cart_family.md R183). A column the family does not use is 0. -/
structure Variant where
  family      : Family
  romlens     : List Nat
  nb          : Nat := 0
  bankSize    : Nat := 0
  trigBase    : Nat := 0
  trigCount   : Nat := 0
  trigMask    : Addr := 0
  rs          : Nat := 0
  wport       : Nat := 0
  rport       : Nat := 0
  wantsSnoop  : Bool := false
  selfMaps    : Bool := false
  chip        : Option ChipWindow := none
  selfWindows : List (Addr × Nat) := []
  deriving DecidableEq, Repr

namespace Config

/-- A row of the fixed family. -/
def fixedRow (len : Nat) : Variant := { family := .fixed, romlens := [len] }

/-- A row of the bank-latch family. -/
def latchRow (len trigBase trigCount : Nat) : Variant :=
  { family := .bankLatch, romlens := [len], nb := 1, bankSize := 0x1000,
    trigBase := trigBase, trigCount := trigCount, trigMask := 0x0FFF }

/-- A row of the RAM-shadow family. -/
def shadowRow (len trigBase trigCount : Nat) : Variant :=
  { latchRow len trigBase trigCount with
    family := .ramShadow, rs := 0x80, wport := 0x000, rport := 0x080 }

/-- `CART_TABLE` (41_cart_family.md R183, R218). -/
def cartTable : CartTag → Variant
  | .f2k   => fixedRow 0x800
  | .f4k   => fixedRow 0x1000
  | .f8k   => fixedRow 0x2000
  | .f16k  => fixedRow 0x4000
  | .f32k  => fixedRow 0x8000
  | .l8k   => latchRow 0x2000 0xFF8 2
  | .l16k  => latchRow 0x4000 0xFF6 4
  | .l32k  => latchRow 0x8000 0xFF4 8
  | .ls8k  => { latchRow 0x2000 0xFF8 2 with wantsSnoop := true }
  | .l8kr  => shadowRow 0x2000 0xFF8 2
  | .l16kr => shadowRow 0x4000 0xFF6 4
  | .l32kr => shadowRow 0x8000 0xFF4 8
  | .c16kp =>
    { family := .chipAug, romlens := [0x4000], selfMaps := true,
      chip := some { id := 1, base := 0x4000, size := 0x4000, mask := 0x000F },
      selfWindows := [(0x4000, 0x4000), (0xC000, 0x4000)] }
  | .df12k => { latchRow 0x3000 0xFF8 2 with family := .dataFetcher }
  | .mc4k  =>
    { family := .multicart, nb := 1, bankSize := 0x1000,
      romlens := [0x2000, 0x4000, 0x8000, 0x10000, 0x20000, 0x40000] }

/-- The length of the display-data area, the last part of a data-fetcher image
(42_cart_datafetcher.md R243). -/
def displaySize : Nat := 0x1000

/-- `INFER_SIZES` and the variant each infers (41_cart_family.md R181). -/
def inferTable : List (Nat × CartTag) :=
  [(2048, .f2k), (4096, .f4k), (8192, .l8k), (16384, .l16k), (32768, .l32k)]

/-- The tag codes other than 0 = `Unknown` (30_encoding.md R109). -/
def tagCodes : List (Nat × CartTag) :=
  [(1, .f2k), (2, .f4k), (3, .l8k), (4, .l16k), (5, .l32k), (6, .l8kr), (7, .l16kr), (8, .l32kr),
   (9, .ls8k), (10, .c16kp), (11, .df12k), (12, .mc4k), (13, .f8k), (14, .f16k), (15, .f32k)]

/-- The largest tag code (30_encoding.md R109). -/
def maxTagCode : Nat := 15

/-- The text of a list of printable characters, as the stream holds it (44_serializer.md R348). -/
def ascii (cs : List Char) : Bytes := cs.map fun c => BitVec.ofNat 8 c.toNat

/-- A cart's discriminant text: the name of its tag (30_encoding.md R109). -/
def cartName : CartTag → Bytes
  | .f2k   => ascii ['F', '2', 'K']
  | .f4k   => ascii ['F', '4', 'K']
  | .l8k   => ascii ['L', '8', 'K']
  | .l16k  => ascii ['L', '1', '6', 'K']
  | .l32k  => ascii ['L', '3', '2', 'K']
  | .l8kr  => ascii ['L', '8', 'K', 'R']
  | .l16kr => ascii ['L', '1', '6', 'K', 'R']
  | .l32kr => ascii ['L', '3', '2', 'K', 'R']
  | .ls8k  => ascii ['L', 'S', '8', 'K']
  | .c16kp => ascii ['C', '1', '6', 'K', 'P']
  | .df12k => ascii ['D', 'F', '1', '2', 'K']
  | .mc4k  => ascii ['M', 'C', '4', 'K']
  | .f8k   => ascii ['F', '8', 'K']
  | .f16k  => ascii ['F', '1', '6', 'K']
  | .f32k  => ascii ['F', '3', '2', 'K']

/-- The closed dispatch table of cart discriminants (44_serializer.md R359). -/
def cartNames : List (Bytes × CartTag) := tagCodes.map fun p => (cartName p.2, p.2)

/-- The machine type codes (30_encoding.md R108). -/
def typeCodes : List (Nat × MachType) := [(0, .bare), (1, .ntsc), (2, .pal)]

/-- A machine type's discriminant text; `BARE` has none (30_encoding.md R108). -/
def typeName : MachType → Bytes
  | .bare => []
  | .ntsc => ascii ['M', '7', '8', '0', '0', 'N', 'T', 'S', 'C']
  | .pal  => ascii ['M', '7', '8', '0', '0', 'P', 'A', 'L']

/-- The closed dispatch table of machine discriminants (44_serializer.md R353). -/
def typeNames : List (Bytes × MachType) := [(typeName .ntsc, .ntsc), (typeName .pal, .pal)]

/-- `MACH.scanlines`, a constant of the type (10_state.md R38); `BARE` has no frame. -/
def scanlines : MachType → Nat
  | .bare => 0
  | .ntsc => scanlinesNtsc
  | .pal  => scanlinesPal

/-- `MACH.ram`, the handles of the fixed RAM banks (43_scheduler.md R282). -/
def ramBanks : List Handle := [2, 3]

/-- The size of a fixed RAM bank (43_scheduler.md R282). -/
def ramBankSize : Nat := 0x0800

/-- What a fixed-map entry creates (43_scheduler.md R282). -/
inductive FixedDevice where
  | ram (size : Nat)
  | adapter (chip : Byte) (mask : Addr)
  deriving DecidableEq, Repr

/-- One entry of `FIXED_MAP` (43_scheduler.md R282). -/
structure FixedEntry where
  handle  : Handle
  device  : FixedDevice
  windows : List (Addr × Nat)
  deriving DecidableEq, Repr

/-- `FIXED_MAP(type)`: the same table serves both real types (43_scheduler.md R282, orders 1 to 4;
orders 5 and 6, the BIOS and the cart, are steps of construction, R280). -/
def fixedMap : List FixedEntry :=
  [{ handle := 2, device := .ram ramBankSize, windows := [(0x1800, 0x0800)] },
   { handle := 3, device := .ram ramBankSize,
     windows := [(0x2000, 0x0800), (0x0040, 0x00C0), (0x0140, 0x00C0)] },
   { handle := 4, device := .adapter 2 0x003F, windows := [(0x0000, 0x0040)] },
   { handle := 5, device := .adapter 3 0x007F, windows := [(0x0280, 0x0080)] }]

/-- The handle of an optional BIOS (43_scheduler.md R280). -/
def biosHandle : Handle := 6

/-- `LFSR_NEXT` (42_cart_datafetcher.md R249): rotate right by 11; exclusive-or the tap word if
bit 10 of the old value is 1. -/
def lfsrNext (x : Word32) : Word32 :=
  ((x >>> 11) ||| (x <<< 21)) ^^^ (if x.getLsbD 10 then lfsrTap else 0)

/-- `rotl11` (42_cart_datafetcher.md R250). -/
def rotl11 (y : Word32) : Word32 := (y <<< 11) ||| (y >>> 21)

/-- `LFSR_PREV` (42_cart_datafetcher.md R250). -/
def lfsrPrev (x : Word32) : Word32 :=
  if x.getLsbD 31 then rotl11 (x ^^^ lfsrTap) else rotl11 x

/-- `DF_FLAG_REL`: unsigned `>` on bytes (42_cart_datafetcher.md R246). -/
def dfFlagRel (x y : Byte) : Bool := decide (y.toNat < x.toNat)

/-- The registers of the coprocessor's read region (42_cart_datafetcher.md R255). -/
inductive DfRead where
  | rndf
  | rnd (byte : Nat)
  | rndb
  | wave
  | data
  | dataMasked
  | dataFraction
  | flag
  | reserved
  deriving DecidableEq, Repr

/-- `DF_REGMAP`, read region, `o < 0x40` (42_cart_datafetcher.md R255). -/
def dfReadMap (o : Nat) : DfRead :=
  if o = 0x00 then .rndf
  else if o ≤ 0x03 then .rnd o
  else if o = 0x04 then .rndb
  else if o = 0x05 then .wave
  else if o < 0x08 then .reserved
  else if o < 0x10 then .data
  else if o < 0x18 then .dataMasked
  else if o < 0x20 then .dataFraction
  else if o < 0x28 then .flag
  else .reserved

/-- The registers of the coprocessor's write region (42_cart_datafetcher.md R255). -/
inductive DfWrite where
  | top
  | bot
  | ctrLow
  | ctrHigh
  | finc
  | fsync
  | vfreq (voice : Fin 3)
  | rndReset
  | rndByte (byte : Nat)
  | reserved
  deriving DecidableEq, Repr

/-- `DF_REGMAP`, write region, `0x40 <= o < 0x80` (42_cart_datafetcher.md R255). -/
def dfWriteMap (o : Nat) : DfWrite :=
  if o < 0x48 then .top
  else if o < 0x50 then .bot
  else if o < 0x58 then .ctrLow
  else if o < 0x60 then .ctrHigh
  else if o < 0x68 then .finc
  else if o < 0x70 then .fsync
  else if o = 0x70 then .vfreq 0
  else if o = 0x71 then .vfreq 1
  else if o = 0x72 then .vfreq 2
  else if o = 0x73 then .rndReset
  else if o < 0x78 then .rndByte (o - 0x74)
  else .reserved

/-- `WAVE[i]`: the default triangle (42_cart_datafetcher.md R253). -/
def wave (i : Nat) : Byte := if i < 16 then BitVec.ofNat 8 i else BitVec.ofNat 8 (31 - i)

end Config

/-! ### The collaborators

What crosses the boundary (43_scheduler.md R284 to R290, 41_cart_family.md R216,
93_implementation_defined.md U8 to U12). -/

/-- What a sound chip or adapted chip is asked (41_cart_family.md R216, 40_address_space.md R146). -/
inductive ChipOp where
  | create
  | reset
  | startFrame
  | endFrame
  | read (reg : Addr)
  | update (reg : Addr) (value : Byte)
  | loadState (image : Bytes)
  deriving DecidableEq, Repr

/-- What the CPU is asked (43_scheduler.md R280, R283, R285). `instruction` is one round of
`Execute`'s loop. `loadState` hands it the registers a stream carries (44_serializer.md R354). -/
inductive CpuOp where
  | create
  | reset
  | execute
  | instruction (budget : Word32)
  | loadState (pc : Addr) (regs : Vector Byte Config.cpuRegBytes)
  deriving DecidableEq, Repr

/-- What the video-DMA chip is asked (43_scheduler.md R290, 44_serializer.md R356). -/
inductive DmaOp where
  | create
  | reset
  | startFrame
  | endFrame
  | doProcessing
  | loadState (image : Bytes)
  deriving DecidableEq, Repr

/-- The two bus masters inside the machine (20_memory.md R73). -/
inductive Master where
  | cpu
  | dma
  deriving DecidableEq, Repr

/-- One thing that passes between the block and a collaborator: a contract call, or a bus access a
collaborator makes, with the byte it moved. -/
inductive CallKind where
  | chip (id : Byte) (op : ChipOp)
  | cpu (op : CpuOp)
  | dma (op : DmaOp)
  | inputLoad (image : Bytes)
  | busRead (who : Master) (addr : Nat) (value : Byte)
  | busWrite (who : Master) (addr : Nat) (value : Byte)
  deriving DecidableEq, Repr

/-- An entry of the record `calls`: what passed, and the two registers a collaborator may look at,
`AS.lbv` and `CPU.clock`, at that moment (40_address_space.md R146, 41_cart_family.md R216). -/
structure Call where
  kind  : CallKind
  lbv   : Byte
  clock : Word64
  deriving DecidableEq, Repr

/-- What a collaborator does on the bus during one call, ending in an answer: a finite tree, since
an access may depend on the bytes read before it (assumption log 6). An address is a `Nat` because
a master may compute it in a wider type (20_memory.md R71). -/
inductive BusProgram (α : Type) where
  | done (answer : α)
  | read (addr : Nat) (next : Byte → BusProgram α)
  | write (addr : Nat) (value : Byte) (next : BusProgram α)
  deriving Inhabited

/-- `CPU.pc` and `CPU.regs` (10_state.md R39). -/
structure CpuRegs where
  pc   : Addr
  regs : Vector Byte Config.cpuRegBytes
  deriving DecidableEq, Repr, Inhabited

/-- How one CPU instruction ends (43_scheduler.md R285): the cycles it took, the flags it set, the
registers it left. -/
structure InsnEnd where
  cycles  : Nat
  jam     : Bool
  preempt : Bool
  regs    : CpuRegs
  deriving DecidableEq, Repr, Inhabited

/-- Who has an image in a save state (44_serializer.md R356, R361). -/
inductive ImageOwner where
  | dma
  | input
  | chip
  deriving DecidableEq, Repr

/-- The answers of every collaborator. Each is a function of the record of what passed between the
block and its collaborators, the call being answered at its head (assumption log 5; what does not
enter the record, log 27, log 28). -/
structure Collaborators where
  /-- `Chip[id].Read(reg)` (41_cart_family.md R216, 93_implementation_defined.md U8). -/
  chipRead   : List Call → Byte
  /-- `CPU.pc` and `CPU.regs` after `CPU.Create` (93_implementation_defined.md U10). -/
  cpuCreate  : List Call → CpuRegs
  /-- `CPU.Reset()` (43_scheduler.md R283, U10). -/
  cpuReset   : List Call → BusProgram CpuRegs
  /-- One instruction of `CPU.Execute()` (43_scheduler.md R285, U9). -/
  cpuInsn    : List Call → BusProgram InsnEnd
  /-- `DMA.Reset()`, `StartFrame()`, `EndFrame()` (43_scheduler.md R290). -/
  dmaCall    : List Call → BusProgram Unit
  /-- `DMA.DoDmaProcessing()`, its count an `i32` (43_scheduler.md R290, U11). -/
  dmaProcess : List Call → BusProgram Word32
  /-- Whether the DMA chip `DMA.Create` makes keeps its contract, that is, never returns a negative
  count (43_scheduler.md R290, log 26). -/
  dmaHonest  : List Call → Bool
  /-- The image a collaborator's `SaveState()` would give now (44_serializer.md R356, U12). -/
  image      : ImageOwner → List Call → Bytes
  /-- Whether a collaborator's `LoadState()` takes an image (44_serializer.md R356). -/
  accepts    : ImageOwner → Bytes → Bool

namespace Config

/-- FREE VALUE (log 5). -/
opaque chipRead : List Call → Byte
/-- FREE VALUE (log 5). -/
opaque cpuCreate : List Call → CpuRegs
/-- FREE VALUE (log 5). -/
opaque cpuReset : List Call → BusProgram CpuRegs
/-- FREE VALUE (log 5). -/
opaque cpuInsn : List Call → BusProgram InsnEnd
/-- FREE VALUE (log 5). -/
opaque dmaCall : List Call → BusProgram Unit
/-- FREE VALUE (log 5). -/
opaque dmaProcess : List Call → BusProgram Word32
/-- FREE VALUE (log 26). -/
opaque dmaHonest : List Call → Bool
/-- FREE VALUE (log 5, log 9). -/
opaque image : ImageOwner → List Call → Bytes
/-- FREE VALUE (log 10). -/
opaque accepts : ImageOwner → Bytes → Bool

end Config

/-- What a run is given besides the state: the collaborators and the two parameters of 00_scope.md R7
that select a behaviour. The operations take it as an argument so that a test can run them with
scripted collaborators; every meaning uses `Env.hw`. -/
structure Env where
  collab          : Collaborators
  preemptEndsCall : Bool
  debugChecks     : Bool

/-- This hardware: the free collaborators and the values of 00_scope.md R7. -/
def Env.hw : Env where
  collab :=
    { chipRead := Config.chipRead, cpuCreate := Config.cpuCreate, cpuReset := Config.cpuReset,
      cpuInsn := Config.cpuInsn, dmaCall := Config.dmaCall, dmaProcess := Config.dmaProcess,
      dmaHonest := Config.dmaHonest,
      image := Config.image, accepts := Config.accepts }
  preemptEndsCall := Config.preemptEndsCall
  debugChecks := Config.debugChecks

end Sys2Proof
end

