-- ==== Sys2Proof/Syntax.lean ====
section
/-! DEFINITION. The operations of the block: one constructor per row of spec/opcode_table.json
(30_encoding.md R103, R104). Addresses, masks and data are bit vectors; codes and sizes are numbers,
whose ranges Sys2Proof/WellFormed.lean checks. -/

namespace Sys2Proof

/-- The 17 host commands and the 2 bus transactions, operands as 30_encoding.md R107 assembles them. -/
inductive Instr where
  /-- `MKMACH type [, cart] [, bios]` -/
  | mkmach (type : Nat) (useCart hasBios : Bool)
  /-- `MKCART tag` -/
  | mkcart (tag : Nat)
  /-- `MKRAM d, size` -/
  | mkram (dev : Handle) (size : Nat)
  /-- `MKROM d` -/
  | mkrom (dev : Handle)
  /-- `MKADP d, mask, chip` -/
  | mkadp (dev : Handle) (mask : Addr) (chip : Byte)
  /-- `ATTACH d1` -/
  | attach (dev : Handle)
  /-- `MAP base, size, d` -/
  | map (dev : Handle) (base : Addr) (size : Nat)
  /-- `MAPC base, size, d1` -/
  | mapc (dev : Handle) (base : Addr) (size : Nat)
  /-- `SELFMAP d1` -/
  | selfmap (dev : Handle)
  /-- `DRESET d` -/
  | dreset (dev : Handle)
  /-- `MRESET` -/
  | mreset
  /-- `RD addr` -/
  | rd (addr : Addr)
  /-- `WR addr, value` -/
  | wr (addr : Addr) (value : Byte)
  /-- `FRAME` -/
  | frame
  /-- `POLL` -/
  | poll
  /-- `SAVE` -/
  | save
  /-- `RESTORE` -/
  | restore
  /-- `BUS.RD addr` -/
  | busRd (addr : Addr)
  /-- `BUS.WR addr, data` -/
  | busWr (addr : Addr) (data : Byte)
  deriving DecidableEq, Repr

end Sys2Proof
end

