-- ==== Sys2Proof/WellFormed.lean ====
section
/-! DEFINITION. Which instructions an encoding exists for: codes fit `arg[7:0]`, sizes fit `arg[31:0]`
(30_encoding.md R104, R107). What a code or size outside its LEGAL set does is the instruction's own
rule, not a check here (R112). -/

namespace Sys2Proof

/-- A code operand fits its eight bits. -/
abbrev codeFits (n : Nat) : Prop := n < 2 ^ 8

/-- A size operand fits its thirty-two bits. -/
abbrev sizeFits (n : Nat) : Prop := n < 2 ^ 32

/-- The instruction has an encoding. -/
def Instr.wellFormed : Instr → Bool
  | .mkmach type _ _ => decide (codeFits type)
  | .mkcart tag => decide (codeFits tag)
  | .mkram _ size => decide (sizeFits size)
  | .map _ _ size => decide (sizeFits size)
  | .mapc _ _ size => decide (sizeFits size)
  | .mkrom _ | .mkadp _ _ _ | .attach _ | .selfmap _ | .dreset _ | .mreset | .rd _ | .wr _ _
  | .frame | .poll | .save | .restore | .busRd _ | .busWr _ _ => true

end Sys2Proof
end

