-- ==== Sys2Proof/Decode.lean ====
section
/-! DEFINITION. Formats H and B (30_encoding.md R103 to R105, R112): the decoder, total, rejecting by
name; then the encoder, from the same tables. -/

namespace Sys2Proof

/-- A request as it is presented: a host command word or a bus transaction word (R100). -/
inductive Request where
  | command (w : CommandWord)
  | bus (w : BusWord)
  deriving DecidableEq, Repr

/-- Why a request is no instruction (R112, R103). -/
inductive DecodeError where
  /-- The `op` field is not in the table of R104. -/
  | unknownOp
  /-- A bit the command does not use is 1 (R105). -/
  | unusedBits
  /-- A format B read with data bits (R103). -/
  | busReadData
  deriving DecidableEq, Repr

/-! ### The fields of a format H word (R104) -/

/-- `w[63:56]` -/
def opField (w : CommandWord) : BitVec 8 := w.extractLsb' 56 8
/-- `w[55:48]` -/
def devField (w : CommandWord) : Handle := w.extractLsb' 48 8
/-- `w[47:32]` -/
def addrField (w : CommandWord) : Addr := w.extractLsb' 32 16
/-- `w[31:0]` -/
def argField (w : CommandWord) : Word32 := w.extractLsb' 0 32

/-- The operands of a command word. -/
structure Operands where
  dev  : Handle
  addr : Addr
  arg  : Word32
  deriving DecidableEq, Repr

/-- The operand fields of a word. -/
def operandsOf (w : CommandWord) : Operands :=
  { dev := devField w, addr := addrField w, arg := argField w }

/-- An instruction if the unused bits are 0, else the rejection of R105. -/
def ifUnusedZero (unusedZero : Bool) (i : Instr) : Except DecodeError Instr :=
  if unusedZero then .ok i else .error .unusedBits

/-- `arg[7:0]` as a code (R107). -/
def argCode (f : Operands) : Nat := f.arg.toNat % 2 ^ 8

/-- `arg[7:0]` as a byte (R107). -/
def argByte (f : Operands) : Byte := f.arg.setWidth 8

/-- `arg[31:n]` is 0 (R105). -/
def argFits (f : Operands) (n : Nat) : Bool := decide (f.arg.toNat < 2 ^ n)

/-- The command of an operation code with its operands, by the table of R104; unknown codes first,
then unused bits (60_exceptions.md R410). -/
def decodeOp (op : Nat) (f : Operands) : Except DecodeError Instr :=
  match op with
  | 0x01 => ifUnusedZero (f.dev == 0 && f.addr == 0 && argFits f 10)
      (.mkmach (argCode f) (f.arg.getLsbD 8) (f.arg.getLsbD 9))
  | 0x02 => ifUnusedZero (f.dev == 0 && f.addr == 0 && argFits f 8) (.mkcart (argCode f))
  | 0x03 => ifUnusedZero (f.addr == 0) (.mkram f.dev f.arg.toNat)
  | 0x04 => ifUnusedZero (f.addr == 0 && f.arg == 0) (.mkrom f.dev)
  | 0x05 => ifUnusedZero (argFits f 8) (.mkadp f.dev f.addr (argByte f))
  | 0x06 => ifUnusedZero (f.addr == 0 && f.arg == 0) (.attach f.dev)
  | 0x07 => .ok (.map f.dev f.addr f.arg.toNat)
  | 0x08 => .ok (.mapc f.dev f.addr f.arg.toNat)
  | 0x09 => ifUnusedZero (f.addr == 0 && f.arg == 0) (.selfmap f.dev)
  | 0x0A => ifUnusedZero (f.addr == 0 && f.arg == 0) (.dreset f.dev)
  | 0x10 => ifUnusedZero (f.dev == 0 && f.addr == 0 && f.arg == 0) .mreset
  | 0x11 => ifUnusedZero (f.dev == 0 && f.arg == 0) (.rd f.addr)
  | 0x12 => ifUnusedZero (f.dev == 0 && argFits f 8) (.wr f.addr (argByte f))
  | 0x13 => ifUnusedZero (f.dev == 0 && f.addr == 0 && f.arg == 0) .frame
  | 0x14 => ifUnusedZero (f.dev == 0 && f.addr == 0 && f.arg == 0) .poll
  | 0x20 => ifUnusedZero (f.dev == 0 && f.addr == 0 && f.arg == 0) .save
  | 0x21 => ifUnusedZero (f.dev == 0 && f.addr == 0 && f.arg == 0) .restore
  | _ => .error .unknownOp

/-- Decode a format H word. -/
def decodeCommand (w : CommandWord) : Except DecodeError Instr :=
  decodeOp (opField w).toNat (operandsOf w)

/-- `w[23:8]` of a format B word (R103). -/
def busAddrField (w : BusWord) : Addr := w.extractLsb' 8 16
/-- `w[7:0]` of a format B word (R103). -/
def busDataField (w : BusWord) : Byte := w.extractLsb' 0 8

/-- Decode a format B word: bit 24 chooses; a read carries no data (R103). -/
def decodeBus (w : BusWord) : Except DecodeError Instr :=
  if w.getLsbD 24 then .ok (.busWr (busAddrField w) (busDataField w))
  else if busDataField w == 0 then .ok (.busRd (busAddrField w))
  else .error .busReadData

/-- Decode a request. -/
def decode : Request → Except DecodeError Instr
  | .command w => decodeCommand w
  | .bus w => decodeBus w

/-! ### The encoder -/

/-- A format H word from its four fields (R104). -/
def packCommand (op : BitVec 8) (dev : Handle) (addr : Addr) (arg : Word32) : CommandWord :=
  op ++ dev ++ addr ++ arg

/-- A format B word from its three fields (R103). -/
def packBus (write : Bool) (addr : Addr) (data : Byte) : BusWord :=
  BitVec.ofBool write ++ addr ++ data

/-- `arg` of `MKMACH`: type in `[7:0]`, use_cart in `[8]`, has_bios in `[9]` (R104). -/
def machArg (type : Nat) (useCart hasBios : Bool) : Word32 :=
  BitVec.ofNat 32 (type + 2 ^ 8 * useCart.toNat + 2 ^ 9 * hasBios.toNat)

/-- The word of a well-formed instruction. -/
def encode : Instr → Request
  | .mkmach type useCart hasBios => .command (packCommand 0x01 0 0 (machArg type useCart hasBios))
  | .mkcart tag => .command (packCommand 0x02 0 0 (BitVec.ofNat 32 tag))
  | .mkram dev size => .command (packCommand 0x03 dev 0 (BitVec.ofNat 32 size))
  | .mkrom dev => .command (packCommand 0x04 dev 0 0)
  | .mkadp dev mask chip => .command (packCommand 0x05 dev mask (chip.setWidth 32))
  | .attach dev => .command (packCommand 0x06 dev 0 0)
  | .map dev base size => .command (packCommand 0x07 dev base (BitVec.ofNat 32 size))
  | .mapc dev base size => .command (packCommand 0x08 dev base (BitVec.ofNat 32 size))
  | .selfmap dev => .command (packCommand 0x09 dev 0 0)
  | .dreset dev => .command (packCommand 0x0A dev 0 0)
  | .mreset => .command (packCommand 0x10 0 0 0)
  | .rd addr => .command (packCommand 0x11 0 addr 0)
  | .wr addr value => .command (packCommand 0x12 0 addr (value.setWidth 32))
  | .frame => .command (packCommand 0x13 0 0 0)
  | .poll => .command (packCommand 0x14 0 0 0)
  | .save => .command (packCommand 0x20 0 0 0)
  | .restore => .command (packCommand 0x21 0 0 0)
  | .busRd addr => .bus (packBus false addr 0)
  | .busWr addr data => .bus (packBus true addr data)

/-! ### Words as the opcode table numbers them -/

/-- The request a table word stands for: a row of at most 32 bits is a 25-bit bus transaction (its
byte container's upper bits do not exist on the bus), any other a host command. -/
def tableRequest (nbits w : Nat) : Request :=
  if nbits ≤ 32 then .bus (BitVec.ofNat 25 w) else .command (BitVec.ofNat 64 w)

/-- What the decoder reads from a word of spec/opcode_table.json. -/
def decodeTableWord (nbits w : Nat) : Option Instr :=
  match decode (tableRequest nbits w) with
  | .ok i => some i
  | .error _ => none

end Sys2Proof
end

