-- ==== Sys2Proof/Machine/State.lean ====
section
/-! DEFINITION. The state of the block (10_state.md R20 to R50), the reasons a step can stop, and the
state right after power-on (70_reset_and_hazards.md R441). -/

namespace Sys2Proof.Machine

/-! ### Storage and devices -/

/-- Writable storage: its cells as (index, byte) pairs in one canonical form, indexes strictly rising
and no pair holding what an unlisted cell reads as (log 24). -/
abbrev Memory := List Host.Cell

/-- One data-fetcher channel (42_cart_datafetcher.md R244). -/
structure Channel where
  ctr  : BitVec 12
  fctr : BitVec 20
  finc : Byte
  top  : Byte
  bot  : Byte
  deriving DecidableEq, Repr

/-- The coprocessor's register files (10_state.md R37); three voices. -/
structure DataFetcher where
  channels : Vector Channel Config.nch
  lfsr     : Word32
  vphase   : Vector Word32 3
  vfreq    : Vector Word32 3
  rem      : Nat
  last     : Word64
  deriving DecidableEq, Repr

/-- A cart (10_state.md R31 to R37). `chip` is the embedded chip, by its image, absent until it is
created; `df` is present in a data-fetcher variant. `attached` also says that `CART.clockref` is
there (log 20). -/
structure Cart where
  tag      : CartTag
  rom      : Bytes
  bank     : List Word32
  ram      : Memory
  attached : Bool
  chip     : Option Bytes
  df       : Option DataFetcher
  deriving DecidableEq, Repr

/-- A device-table entry (10_state.md R22). `absent` is the kind `NONE`. -/
inductive Device where
  | absent
  | null
  | ram (size : Nat) (mem : Memory)
  | rom (img : Bytes)
  | adapter (chip : Byte) (mask : Addr)
  | cart (c : Cart)
  deriving DecidableEq, Repr

/-! ### The scheduler position and the collaborators' registers -/

/-- `SCHED.phase` (10_state.md R40). -/
inductive SchedPhase where
  | idle | notStarted | slice1 | dma | slice2 | jammed | halted | preempted | frameComplete
  deriving DecidableEq, Repr

/-- `SCHED` (10_state.md R40): `sl`, `start` (the rule's `S`) and `rem` hold no value between
commands (log 25). -/
structure Sched where
  phase : SchedPhase
  sl    : Option Nat
  start : Option Word64
  rem   : Option Word32
  deriving DecidableEq, Repr

/-- The scheduler between commands. -/
def Sched.idle : Sched := { phase := .idle, sl := none, start := none, rem := none }

/-- The opaque registers of the collaborators a running machine has: `CPU.pc` and `CPU.regs`
(10_state.md R39), `DMA.state` and `INPUT.state` (R41). `dmaHonest`, the model's own field, says
whether the DMA chip keeps its contract (log 26). -/
structure Chips where
  cpu       : CpuRegs
  dma       : Bytes
  input     : Bytes
  dmaHonest : Bool
  deriving DecidableEq, Repr

/-! ### The console: what exists from `MKMACH` on -/

/-- Everything that exists once a machine or a bare address space has been constructed: `DEV` (R22),
`AS` (R27 to R29), `MACH` (R38), the scheduler's CPU registers (R39), `SCHED` (R40), the collaborators'
registers (R39, R41), absent on the bench, and the record of what passed between the block and its
collaborators, newest first (log 5). -/
structure Console where
  dev     : Vector Device Config.ndev
  page    : Vector Handle Config.npages
  snooper : Handle
  lbv     : Byte
  type    : MachType
  halt    : Bool
  frame   : Word64
  hasBios : Bool
  clock   : Word64
  budget  : Word32
  jammed  : Bool
  preempt : Bool
  sched   : Sched
  chips   : Option Chips
  calls   : List Call
  deriving DecidableEq, Repr

/-! ### Outcomes -/

/-- The outcome codes a command can leave in `STATUS` (60_exceptions.md R401). The three `Fault` codes
of that table are the constructors of `Fault`: no state follows them (log 11). -/
inductive Status where
  | ok
  | refusedPhase | refusedBadCommand | refusedBadHandle | refusedBadOperand
  | badMachineTag | badCartTag | badRomSize
  | badMagic | badVersion | badDiscriminant | badLength | overCap | truncated | badBool | badString
  | badValue | trailingData
  deriving DecidableEq, Repr

/-- Why the machine stops. -/
inductive Fault where
  /-- `Fault.ChipNotAttached` (60_exceptions.md R401, 41_cart_family.md R217, 42_cart_datafetcher.md
  R252): raised by a cart access before attach. Safe: the state after it is not defined (R407). -/
  | chipNotAttached
  /-- `Fault.BadDmaClocks` (R401, 43_scheduler.md R290): raised by the scanline procedure. Safe. -/
  | badDmaClocks
  /-- `Fault.DebugAssert` (R401, 43_scheduler.md R311): raised only with `DEBUG_CHECKS`. Safe. -/
  | debugAssert
  /-- An index outside a ROM image (log 12): raised by a read of a ROM block or a cart. Safe: no run
  reaches it. -/
  | storageIndex
  /-- An access through a handle whose entry is `NONE` (40_address_space.md R141 "cannot occur",
  log 12). Safe: no run reaches it. -/
  | noDevice
  /-- The halving loop would run for ever (44_serializer.md R354, log 13): raised by the scanline
  procedure when the rest of the line is negative. Safe: no run reaches it. -/
  | endlessHalving
  deriving DecidableEq, Repr

/-- Why a request has no step. -/
inductive Refusal where
  /-- The instruction has no meaning yet; raised by exec's arms only. Safe. -/
  | notModelled (mnemonic : String)
  /-- A bus transaction where no address space exists (10_state.md R21, R441, log 16): raised by
  `BUS.RD` and `BUS.WR` in phase `EMPTY`. Safe. -/
  | noAddressSpace
  /-- A format B word that is not a bus transaction (30_encoding.md R103, log 17): raised by fetch.
  Safe. -/
  | notATransaction
  deriving DecidableEq, Repr

/-! ### The whole state -/

/-- What the host presents: a request at a port, or the filling of a buffer (10_state.md R43, R44). -/
inductive HostInput where
  | request (r : Request)
  | romPort (bytes : Bytes)
  | sin (bytes : Bytes)
  deriving DecidableEq, Repr

/-- The state of the block. -/
structure State where
  /-- The machine or bare address space; absent in phase `EMPTY` (70_reset_and_hazards.md R441). -/
  console : Option Console
  /-- `STAGE` (10_state.md R50). -/
  stage   : Option Cart
  /-- `FCTX.mc_sel` (10_state.md R42). -/
  mcSel   : Word32
  /-- `ROMPORT`, `SIN`, `SOUT` (10_state.md R43). -/
  romPort : Bytes
  sin     : Bytes
  sout    : Bytes
  /-- `CUR.pos`, live only inside `SAVE` and `RESTORE` (10_state.md R43, log 25). -/
  cur     : Option Nat
  /-- `CMD`, `STATUS`, `RESULT` (10_state.md R44). -/
  cmd     : CommandWord
  status  : Status
  result  : Byte
  /-- The data field of the last bus transaction's response (30_encoding.md R103, log 3). -/
  busData : Byte
  /-- The host's inputs not yet presented, the model's own field (log 1). -/
  queue   : List HostInput
  deriving DecidableEq, Repr

/-- Power-on (70_reset_and_hazards.md R441). `cmd`, `busData` and `queue` are DESIGN CHOICES (log 2,
log 3, log 1). -/
def State.reset : State where
  console := none
  stage := none
  mcSel := 0
  romPort := []
  sin := []
  sout := []
  cur := none
  cmd := 0
  status := .ok
  result := 0
  busData := 0
  queue := []

/-- `PHASE` (10_state.md R21). -/
inductive Phase where
  | empty | bench | run
  deriving DecidableEq, Repr

end Sys2Proof.Machine
end

