-- ==== Sys2Proof/Machine/Flags.lean ====
section
/-! DEFINITION. The one flag the block computes (10_state.md R45): the data-fetcher flag of a channel,
combinational, never stored (42_cart_datafetcher.md R246). The stored flags (`halt`, `jammed`,
`preempt`, `attached`) are set where their rules set them. -/

namespace Sys2Proof.Machine

/-- The relation of the flag, `DF_FLAG_REL` (42_cart_datafetcher.md R246). -/
def flagRelation (x y : Byte) : Bool := Config.dfFlagRel x y

/-- `Flag(n)`: the 8-bit differences `top - (ctr & 0xFF)` and `top - bot`, compared
(42_cart_datafetcher.md R246). -/
def channelFlag (c : Channel) : Bool :=
  flagRelation (c.top - c.ctr.setWidth 8) (c.top - c.bot)

end Sys2Proof.Machine
end

