-- ==== Sys2Proof/Machine/Memory.lean ====
section
/-! DEFINITION. Writable storage: reading, writing, the canonical form, and the two conversions the
serializer needs. 10_state.md R24, R34. -/

namespace Sys2Proof.Machine

/-- What an unlisted cell reads as: `RAM_INIT`, the content of every cell after construction
(10_state.md R24, R34; log 24). -/
def unlisted : Byte := Config.ramInit

/-- The byte of cell `i`. -/
def Memory.read : Memory → Nat → Byte
  | [], _ => unlisted
  | (k, v) :: rest, i => if i = k then v else Memory.read rest i

/-- Put the pair `(i, v)` before `rest`, unless an unlisted cell already reads so. -/
def Memory.list (i : Nat) (v : Byte) (rest : Memory) : Memory :=
  if v = unlisted then rest else (i, v) :: rest

/-- Store `v` in cell `i`, keeping the canonical form. -/
def Memory.write : Memory → Nat → Byte → Memory
  | [], i, v => Memory.list i v []
  | (k, x) :: rest, i, v =>
    if i < k then Memory.list i v ((k, x) :: rest)
    else if i = k then Memory.list i v rest
    else (k, x) :: Memory.write rest i v

/-- Indexes strictly rise from `lo` on and stay below `size`, and no entry holds what an unlisted cell
reads as. -/
def Memory.canonical (size : Nat) : Nat → Memory → Bool
  | _, [] => true
  | lo, (k, v) :: rest =>
    decide (lo ≤ k) && decide (k < size) && decide (v ≠ unlisted) && Memory.canonical size (k + 1) rest

/-- The canonical form of a storage of `size` cells. -/
def Memory.wf (size : Nat) (mem : Memory) : Bool := Memory.canonical size 0 mem

/-- The storage whose cells from `i` on are the given bytes. -/
def Memory.ofBytesFrom : Nat → Bytes → Memory
  | _, [] => []
  | i, b :: bs => Memory.list i b (Memory.ofBytesFrom (i + 1) bs)

/-- The storage holding an image. -/
def Memory.ofBytes (bs : Bytes) : Memory := Memory.ofBytesFrom 0 bs

/-- The image of a storage of `size` cells. -/
def Memory.toBytes (size : Nat) (mem : Memory) : Bytes := tableFrom mem.read 0 size

end Sys2Proof.Machine
end

