-- ==== Sys2Proof/Machine/Operands.lean ====
section
/-! DEFINITION. How an address and an operand are cut: 20_memory.md R70, R71; 30_encoding.md R101,
R107; 41_cart_family.md R184; 40_address_space.md R143, R147. -/

namespace Sys2Proof.Machine

/-- Address reduction, `addr & ADDR_MASK` (20_memory.md R71). -/
def reduceAddr (addr : Nat) : Addr := BitVec.ofNat 16 (addr &&& Config.addrMask)

/-- The page index `a[15:6]` (20_memory.md R70). -/
def pageIndex (a : Addr) : Nat := a.toNat / 2 ^ Config.pageBits

/-- An address reduced by a power-of-two size, `a & (size - 1)` (41_cart_family.md R184). -/
def reduceBy (size : Nat) (a : Addr) : Nat := a.toNat &&& (size - 1)

/-- The window offset `o = a & 0x0FFF` of the 4096-byte-window variants (41_cart_family.md R184). -/
def windowOffset (a : Addr) : Nat := a.toNat &&& 0x0FFF

/-- The bank a trigger address selects, if the address is in the trigger range
(41_cart_family.md R197). -/
def triggeredBank (v : Variant) (a : Addr) : Option Nat :=
  let t := (a &&& v.trigMask).toNat
  if v.trigBase ≤ t ∧ t < v.trigBase + v.trigCount then some (t - v.trigBase) else none

/-- `InChip(a)` (41_cart_family.md R208). -/
def inChip (w : ChipWindow) (a : Addr) : Bool :=
  a &&& ~~~(BitVec.ofNat 16 (w.size - 1)) == w.base

/-- `port <= o < port + RS` (41_cart_family.md R203, R204). -/
def inPort (port size o : Nat) : Bool := decide (port ≤ o ∧ o < port + size)

/-- The legal sizes of a RAM or ROM block: the powers of two from 64 to 65536 (10_state.md R24,
40_address_space.md R143, R144). -/
def blockSizes : List Nat :=
  [64, 128, 256, 512, 1024, 2048, 4096, 8192, 16384, 32768, 65536]

/-- How many pages `Map` claims (40_address_space.md R147): `min(last - first + 1, NPAGES)`. -/
def mapCount (base : Addr) (size : Nat) : Nat :=
  min ((base.toNat + size - 1) / 2 ^ Config.pageBits - pageIndex base + 1) Config.npages

/-- Whether page `p` is `(first + i) mod NPAGES` for some `i` below the count (40_address_space.md R147);
nothing is when the size is 0 (R148). -/
def mapClaims (base : Addr) (size p : Nat) : Bool :=
  decide (size ≠ 0 ∧ (p + Config.npages - pageIndex base) % Config.npages < mapCount base size)

/-- The variant a `MKCART` builds, or why none (41_cart_family.md R180 to R182): the tag before the
length. -/
def selectVariant (tag romlen : Nat) : Except Status CartTag :=
  if Config.maxTagCode < tag then .error .badCartTag
  else
    let chosen :=
      if tag = 0 then Config.inferTable.lookup romlen else Config.tagCodes.lookup tag
    match chosen with
    | none => .error .badRomSize
    | some t => if romlen ∈ (Config.cartTable t).romlens then .ok t else .error .badRomSize

end Sys2Proof.Machine
end

