-- ==== Sys2Proof/Machine/Ops.lean ====
section
/-! DEFINITION. The shared operations: outcomes (the block's only form of exception, 60_exceptions.md
R411), the phase, the console's accessors, the collaborator calls, and fetching a request. -/

namespace Sys2Proof.Machine

/-- The result type of a meaning. -/
abbrev StepResult := Host.Outcome State Fault Refusal

/-! ### Outcome codes (60_exceptions.md R401) -/

/-- The `u8` in `STATUS`. -/
def Status.code : Status → Byte
  | .ok => 0x00
  | .refusedPhase => 0x10
  | .refusedBadCommand => 0x11
  | .refusedBadHandle => 0x12
  | .refusedBadOperand => 0x13
  | .badMachineTag => 0x20
  | .badCartTag => 0x21
  | .badRomSize => 0x22
  | .badMagic => 0x30
  | .badVersion => 0x31
  | .badDiscriminant => 0x32
  | .badLength => 0x33
  | .overCap => 0x34
  | .truncated => 0x35
  | .badBool => 0x36
  | .badString => 0x37
  | .badValue => 0x38
  | .trailingData => 0x39

/-- The code of a fault, where the table of R401 gives one. -/
def Fault.code : Fault → Option Byte
  | .chipNotAttached => some 0xF0
  | .badDmaClocks => some 0xF1
  | .debugAssert => some 0xF2
  | .storageIndex | .noDevice | .endlessHalving => none

/-! ### Delivering an outcome

TAKING AN EXCEPTION on this hardware: an `Error` or `Refused` outcome is delivered by writing `STATUS`
and ending the command, with no other effect; there is no vector, no saved program counter and no mode
change (60_exceptions.md R411). There is no return operation: the next command overwrites `STATUS`
(R412). -/

/-- `raise`: an `Error` or `Refused` outcome (00_scope.md R9, R10). -/
def raise (code : Status) (s : State) : StepResult := .next { s with status := code }

/-- The command completed: `STATUS` is `OK` (60_exceptions.md R401). -/
def complete (s : State) : StepResult := .next { s with status := .ok }

/-- The command completed with a byte in `RESULT` (10_state.md R44). -/
def completeWith (result : Byte) (s : State) : StepResult :=
  .next { s with status := .ok, result := result }

/-- A one-bit answer as the byte in `RESULT`. -/
def bit (b : Bool) : Byte := if b then 1 else 0

/-! ### Phase (10_state.md R21) -/

/-- `BENCH` has no CPU and no DMA chip; `RUN` has them. -/
def Console.phase (c : Console) : Phase :=
  match c.chips with
  | none => .bench
  | some _ => .run

/-- `PHASE`: `EMPTY` while neither machine nor address space exists. -/
def State.phase (s : State) : Phase :=
  match s.console with
  | none => .empty
  | some c => c.phase

/-- The console, if the phase is `BENCH`. -/
def State.bench (s : State) : Option Console := s.console.filter fun c => c.phase = .bench

/-- The console, if the phase is `RUN`. -/
def State.running (s : State) : Option Console := s.console.filter fun c => c.phase = .run

/-- `SCHED.phase`: `Idle` from power-on (10_state.md R40, R48). -/
def State.schedPhase (s : State) : SchedPhase :=
  match s.console with
  | none => .idle
  | some c => c.sched.phase

/-! ### The device table and the page table -/

/-- `DEV` at power-on: the null device at handle 0, nothing else (10_state.md R22). -/
def powerOnDevices : Vector Device Config.ndev :=
  (Vector.replicate Config.ndev Device.absent).set 0 .null

/-- `DEV[h]` (10_state.md R22). -/
def Console.device (c : Console) (h : Handle) : Device := c.dev[h.toNat]'h.isLt

/-- `DEV[h]` of the block: the power-on table while no console exists. -/
def State.device (s : State) (h : Handle) : Device :=
  match s.console with
  | none => powerOnDevices[h.toNat]'h.isLt
  | some c => c.device h

/-- Write `DEV[h]`. -/
def Console.setDevice (c : Console) (h : Handle) (d : Device) : Console :=
  { c with dev := c.dev.set h.toNat d h.isLt }

/-- The kinds of 10_state.md R22. -/
inductive DeviceKind where
  | none | null | ram | rom | adp | cart
  deriving DecidableEq, Repr

/-- `DEV[h].kind`. -/
def Device.kind : Device → DeviceKind
  | .absent => .none
  | .null => .null
  | .ram _ _ => .ram
  | .rom _ => .rom
  | .adapter _ _ => .adp
  | .cart _ => .cart

/-- `AS.page[p]`; a page index is below `NPAGES`. -/
def Console.pageAt (c : Console) (p : Nat) : Handle := c.page[p]?.getD 0

/-- The handle of the mapped device of a reduced address (20_memory.md R72). -/
def Console.mappedHandle (c : Console) (a : Addr) : Handle := c.pageAt (pageIndex a)

/-- The handle of the cart (10_state.md R22). -/
def cartHandle : Handle := 1

/-- The cart in `DEV[1]`. -/
def Console.cart? (c : Console) : Option Cart :=
  match c.device cartHandle with
  | .cart k => some k
  | _ => none

/-- Write the cart back to `DEV[1]`. -/
def Console.setCart (c : Console) (k : Cart) : Console := c.setDevice cartHandle (.cart k)

/-! ### Cart accessors (10_state.md R31 to R36) -/

/-- The constants of the cart's variant. -/
def Cart.variant (k : Cart) : Variant := Config.cartTable k.tag

/-- `CART.bank[0]`, the bank base (10_state.md R33). -/
def Cart.bankBase (k : Cart) : Nat := (k.bank.getD 0 0).toNat

/-- Write `CART.bank[0]`. -/
def Cart.setBank (k : Cart) (base : Nat) : Cart := { k with bank := k.bank.set 0 (BitVec.ofNat 32 base) }

/-- A byte of an image, `img[i]` (log 12). -/
def romByte (img : Bytes) (i : Nat) : Except Fault Byte :=
  match img[i]? with
  | some b => .ok b
  | none => .error .storageIndex

/-! ### Collaborators (log 5, 8, 9, 10) -/

/-- Record what passes between the block and a collaborator. -/
def Console.note (c : Console) (k : CallKind) : Console :=
  { c with calls := { kind := k, lbv := c.lbv, clock := c.clock } :: c.calls }

/-- An image a collaborator would give now, kept to the contract: at most `MAX_BYTES` bytes
(41_cart_family.md R216) and one its own `LoadState` takes; else empty (log 8, log 10). -/
def ownImage (E : Env) (who : ImageOwner) (calls : List Call) : Bytes :=
  let img := E.collab.image who calls
  if img.length ≤ Config.maxBytes && E.collab.accepts who img then img else []

/-- Whether `LoadState` takes an image; the empty image always (log 10). -/
def imageAccepted (E : Env) (who : ImageOwner) (img : Bytes) : Bool :=
  img.isEmpty || E.collab.accepts who img

/-- The state images a machine's collaborators have after the calls of the record (log 9). -/
def Chips.refresh (E : Env) (calls : List Call) (ch : Chips) : Chips :=
  { ch with dma := ownImage E .dma calls, input := ownImage E .input calls }

/-- The opaque images may have changed (log 9). -/
def Console.refreshImages (E : Env) (c : Console) : Console :=
  { c with chips := c.chips.map (Chips.refresh E c.calls) }

/-- `call X()` on a chip: it is recorded, and the opaque images may have changed after it. -/
def Console.call (E : Env) (k : CallKind) (c : Console) : Console := (c.note k).refreshImages E

/-- `call Chip[id].Read(reg)` (40_address_space.md R146, 41_cart_family.md R216). -/
def chipRead (E : Env) (id : Byte) (reg : Addr) (c : Console) : Byte × Console :=
  let c := c.call E (.chip id (.read reg))
  (E.collab.chipRead c.calls, c)

/-- The embedded chip's image after the calls of the record (10_state.md R35). -/
def Cart.refreshChip (E : Env) (c : Console) (k : Cart) : Cart :=
  { k with chip := k.chip.map fun _ => ownImage E .chip c.calls }

/-- A call of the embedded chip: the call, and the chip's image after it. -/
def callEmbedded (E : Env) (id : Byte) (op : ChipOp) (k : Cart) (c : Console) : Cart × Console :=
  let c := c.call E (.chip id op)
  (k.refreshChip E c, c)

/-- Write what the CPU left in its registers (10_state.md R39). -/
def Console.setCpuRegs (r : CpuRegs) (c : Console) : Console :=
  { c with chips := c.chips.map fun ch => { ch with cpu := r } }

/-! ### Fetching

A request is taken from the host's inputs, never from the bus (30_encoding.md R100). -/

/-- What a step has to do. -/
inductive Fetched where
  /-- Run an instruction. -/
  | run (i : Instr) (s : State)
  /-- Nothing to run: the outcome. -/
  | ended (r : StepResult)

/-- The next request of the host (10_state.md R43, R44). A command word is latched in `CMD` and decoded
before the phase is looked at (60_exceptions.md R410); a word that decodes to nothing is
`Refused.BadCommand` (30_encoding.md R112). A format B word that is no transaction is refused (R103).
With no input left the block idles (00_scope.md R11, log 1). -/
def fetch (s : State) : Fetched :=
  match s.queue with
  | [] => .ended (.next s)
  | .romPort bs :: rest => .ended (.next { s with queue := rest, romPort := bs })
  | .sin bs :: rest => .ended (.next { s with queue := rest, sin := bs })
  | .request (.command w) :: rest =>
    match decodeCommand w with
    | .ok i => .run i { s with queue := rest, cmd := w }
    | .error _ => .ended (raise .refusedBadCommand { s with queue := rest, cmd := w })
  | .request (.bus w) :: rest =>
    match decodeBus w with
    | .ok i => .run i { s with queue := rest }
    | .error _ => .ended (.refused .notATransaction)

end Sys2Proof.Machine
end

