-- ==== Sys2Proof/Machine/DataFetcher.lean ====
section
/-! DEFINITION. The coprocessor of a data-fetcher cart (42_cart_datafetcher.md): channels, LFSR,
waveform generator, register map. The bank latch it sits over is in Machine/Cart.lean. -/

namespace Sys2Proof.Machine

/-- A channel after construction or reset (R241, R258). -/
def Channel.zero : Channel := { ctr := 0, fctr := 0, finc := 0, top := 0, bot := 0 }

/-- The register files after construction (R241: `last = 0`) or reset (R258: `last` the clock). -/
def DataFetcher.initial (last : Word64) : DataFetcher where
  channels := Vector.replicate Config.nch Channel.zero
  lfsr := Config.lfsrSeed
  vphase := Vector.replicate 3 0
  vfreq := Vector.replicate 3 0
  rem := 0
  last := last

/-- The channel number in a register offset, `n = o & 7` (R255). -/
def channelNumber (o : Nat) : Fin Config.nch := ⟨o % Config.nch, Nat.mod_lt _ (by decide)⟩

/-- Channel `n`. -/
def DataFetcher.channel (d : DataFetcher) (n : Fin Config.nch) : Channel := d.channels[n.val]

/-- Write channel `n`. -/
def DataFetcher.setChannel (d : DataFetcher) (n : Fin Config.nch) (c : Channel) : DataFetcher :=
  { d with channels := d.channels.set n.val c }

/-- `StepCtr(n)`: up by one, 12 bits (R245). -/
def Channel.stepCtr (c : Channel) : Channel := { c with ctr := c.ctr + 1 }

/-- `StepFctr(n)`: up by the increment, 20 bits (R245). -/
def Channel.stepFctr (c : Channel) : Channel := { c with fctr := c.fctr + c.finc.setWidth 20 }

/-- `Disp(i)`: the last 4096 bytes of the image (R243). -/
def display (rom : Bytes) (i : Nat) : Except Fault Byte :=
  romByte rom (rom.length - Config.displaySize + i)

/-- Byte `i` of the LFSR (R259). -/
def lfsrByte (x : Word32) (i : Nat) : Byte := x.extractLsb' (8 * i) 8

/-- The LFSR with byte `i` replaced (R259). -/
def setLfsrByte (x : Word32) (i : Nat) (v : Byte) : Word32 :=
  (x &&& ~~~((0xFF : Word32) <<< (8 * i))) ||| (v.setWidth 32 <<< (8 * i))

/-- The ticks of an invocation, and the remainder it leaves, for `e` elapsed cycles (R252). -/
def generatorTicks (e rem : Nat) : Nat × Nat :=
  let total := e * Config.genNum + rem
  (total / Config.genDen, total % Config.genDen)

/-- `GenAdvance()` (R252): `e` is `CPU.clock - DF.last`, never negative on a run (log 14). -/
def genAdvance (clock : Word64) (d : DataFetcher) : DataFetcher :=
  let (ticks, rem) := generatorTicks (clock - d.last).toNat d.rem
  let advance (k : Fin 3) : Word32 := d.vphase[k] + d.vfreq[k] * BitVec.ofNat 32 ticks
  { d with last := clock, rem := rem, vphase := #v[advance 0, advance 1, advance 2] }

/-- One voice's sample: the top five bits of its phase select the table entry (R253). -/
def voiceSample (phase : Word32) : Byte := Config.wave (phase >>> 27).toNat

/-- The sum of the three voices (R253). -/
def waveSample (d : DataFetcher) : Byte :=
  voiceSample d.vphase[0] + voiceSample d.vphase[1] + voiceSample d.vphase[2]

/-- `RegRead(o)`, `o < 0x40` (R255). Before attach `WAVE` is `Fault.ChipNotAttached` (R252). -/
def regRead (attached : Bool) (clock : Word64) (rom : Bytes) (o : Nat) (d : DataFetcher) :
    Except Fault (Byte × DataFetcher) :=
  let n := channelNumber o
  let c := d.channel n
  match Config.dfReadMap o with
  | .rndf =>                                                   -- R259
    let x := Config.lfsrNext d.lfsr
    .ok (lfsrByte x 0, { d with lfsr := x })
  | .rnd i => .ok (lfsrByte d.lfsr i, d)                       -- R259
  | .rndb =>                                                   -- R259
    let x := Config.lfsrPrev d.lfsr
    .ok (lfsrByte x 0, { d with lfsr := x })
  | .wave =>                                                   -- R253
    if attached then
      let d := genAdvance clock d
      .ok (waveSample d, d)
    else .error .chipNotAttached
  | .data => do                                                -- R247
    let v ← display rom c.ctr.toNat
    .ok (v, d.setChannel n c.stepCtr)
  | .dataMasked => do                                          -- R248
    let v ← display rom c.ctr.toNat
    .ok (if channelFlag c then v else 0, d.setChannel n c.stepCtr)
  | .dataFraction => do                                        -- R251
    let v ← display rom (c.fctr >>> 8).toNat
    .ok (v, d.setChannel n c.stepFctr)
  | .flag => .ok (if channelFlag c then 0xFF else 0x00, d)     -- R254
  | .reserved => .ok (0, d)

/-- Write `VFREQ[k]`: the generator is advanced first (R253). -/
def writeVfreq (attached : Bool) (clock : Word64) (k : Fin 3) (v : Byte) (d : DataFetcher) :
    Except Fault DataFetcher :=
  if attached then
    let d := genAdvance clock d
    .ok { d with vfreq := d.vfreq.set k.val (BitVec.ofNat 32 (v.toNat * 2 ^ 20)) }
  else .error .chipNotAttached

/-- `RegWrite(o, v)`, `0x40 <= o < 0x80` (R255). -/
def regWrite (attached : Bool) (clock : Word64) (o : Nat) (v : Byte) (d : DataFetcher) :
    Except Fault DataFetcher :=
  let n := channelNumber o
  let c := d.channel n
  match Config.dfWriteMap o with
  | .top => .ok (d.setChannel n { c with top := v })
  | .bot => .ok (d.setChannel n { c with bot := v })
  | .ctrLow => .ok (d.setChannel n { c with ctr := (c.ctr &&& 0xF00) ||| v.setWidth 12 })
  | .ctrHigh =>
    .ok (d.setChannel n { c with ctr := (v.setWidth 12 &&& 0x00F) <<< 8 ||| (c.ctr &&& 0x0FF) })
  | .finc => .ok (d.setChannel n { c with finc := v })
  | .fsync => .ok (d.setChannel n { c with fctr := c.ctr.setWidth 20 <<< 8 })
  | .vfreq k => writeVfreq attached clock k v d                -- R253
  | .rndReset => .ok { d with lfsr := Config.lfsrSeed }        -- R259
  | .rndByte i => .ok { d with lfsr := setLfsrByte d.lfsr i v }    -- R259
  | .reserved => .ok d

end Sys2Proof.Machine
end

