-- ==== Sys2Proof/Machine/Cart.lean ====
section
/-! DEFINITION. The cart as a device, its hooks and its factory (41_cart_family.md; the data-fetcher
family's dispatch, 42_cart_datafetcher.md R256 to R258). The cart commands that map are in
Machine/CartCommands.lean. -/

namespace Sys2Proof.Machine

/-! ### Bank latch and ports -/

/-- `UpdateBank(a)` (R197). The byte of a write plays no part. -/
def Cart.updateBank (a : Addr) (k : Cart) : Cart :=
  match triggeredBank k.variant a with
  | some n => k.setBank (n * k.variant.bankSize)
  | none => k

/-- The ROM byte at a local offset of the selected bank (R198). -/
def Cart.bankedByte (a : Addr) (k : Cart) : Except Fault Byte :=
  romByte k.rom (k.bankBase + reduceBy k.variant.bankSize a)

/-- The ROM byte of the fixed family: the address masked into the buffer (R193). -/
def Cart.fixedByte (a : Addr) (k : Cart) : Except Fault Byte :=
  romByte k.rom (reduceBy k.rom.length a)

/-- A read through the bank latch: latch first, then the byte of the bank then selected (R198). -/
def Cart.latchedRead (a : Addr) (k : Cart) : Except Fault (Byte × Cart) := do
  let k := k.updateBank a
  let v ← k.bankedByte a
  .ok (v, k)

/-- The registers of the coprocessor; a data-fetcher variant always has them (10_state.md R37,
log 12). -/
def Cart.fetcher (k : Cart) : Except Fault DataFetcher :=
  match k.df with
  | some d => .ok d
  | none => .error .noDevice

/-! ### Read and write (R191) -/

/-- `DevRead(1, a)`: R193, R198, R205, R209, R212 and 42_cart_datafetcher.md R256. -/
def cartRead (E : Env) (a : Addr) (k : Cart) (c : Console) : Except Fault (Byte × Cart × Console) :=
  match k.variant.family with
  | .fixed => do
    let v ← k.fixedByte a
    .ok (v, k, c)
  | .bankLatch => do
    let (v, k) ← k.latchedRead a
    .ok (v, k, c)
  | .ramShadow => do
    let o := windowOffset a
    if inPort k.variant.rport k.variant.rs o then .ok (k.ram.read (o - k.variant.rport), k, c)
    else
      let (v, k) ← k.latchedRead a
      .ok (v, k, c)
  | .chipAug => do
    match k.variant.chip.filter (inChip · a) with
    | some w =>
      if k.attached then
        let (v, c) := chipRead E w.id (a &&& w.mask) c
        .ok (v, k.refreshChip E c, c)
      else .error .chipNotAttached
    | none =>
      let v ← k.fixedByte a
      .ok (v, k, c)
  | .multicart => do
    let v ← k.bankedByte a
    .ok (v, k, c)
  | .dataFetcher => do
    let o := windowOffset a
    if o < 0x040 then
      let d ← k.fetcher
      let (v, d) ← regRead k.attached c.clock k.rom o d
      .ok (v, { k with df := some d }, c)
    else if o < 0x080 then .ok (0x00, k, c)
    else
      let k := k.updateBank a
      let v ← romByte k.rom (k.bankBase + o)
      .ok (v, k, c)

/-- `DevWrite(1, a, v)`: R195, R199, R206, R210, R212 and 42_cart_datafetcher.md R257. ROM is never
written (R190). -/
def cartWrite (E : Env) (a : Addr) (v : Byte) (k : Cart) (c : Console) :
    Except Fault (Cart × Console) :=
  match k.variant.family with
  | .fixed => .ok (k, c)
  | .bankLatch => .ok (k.updateBank a, c)
  | .ramShadow =>
    let o := windowOffset a
    if inPort k.variant.wport k.variant.rs o then
      .ok ({ k with ram := k.ram.write (o - k.variant.wport) v }, c)
    else .ok (k.updateBank a, c)
  | .chipAug =>
    match k.variant.chip.filter (inChip · a) with
    | some w =>
      if k.attached then .ok (callEmbedded E w.id (.update (a &&& w.mask) v) k c)
      else .error .chipNotAttached
    | none => .ok (k, c)
  | .multicart => .ok (k, c)
  | .dataFetcher => do
    let o := windowOffset a
    if o < 0x040 then .ok (k, c)
    else if o < 0x080 then
      let d ← k.fetcher
      let d ← regWrite k.attached c.clock o v d
      .ok ({ k with df := some d }, c)
    else .ok (k.updateBank a, c)

/-! ### Reset and hooks -/

/-- The bank registers at `RESET_BANK * bank_size` (10_state.md R33). -/
def Cart.resetBank (k : Cart) : Cart := k.setBank (Config.resetBank * k.variant.bankSize)

/-- `DevReset(1)` (R192, 42_cart_datafetcher.md R258). -/
def cartReset (E : Env) (k : Cart) (c : Console) : Cart × Console :=
  match k.variant.family with
  | .fixed => (k, c)
  | .bankLatch => (k.resetBank, c)
  | .ramShadow => (k.resetBank, c)
  | .chipAug =>
    match k.variant.chip with
    | some w => if k.attached then callEmbedded E w.id .reset k c else (k, c)
    | none => (k, c)
  | .multicart => (k, c)
  | .dataFetcher =>
    let last := if k.attached then c.clock else 0
    ({ k.resetBank with df := k.df.map fun _ => DataFetcher.initial last }, c)

/-- A frame hook of the cart: only an embedded chip has one (R187, R188). -/
def cartHook (E : Env) (op : ChipOp) (c : Console) : Console :=
  match c.cart? with
  | none => c
  | some k =>
    match k.variant.chip with
    | none => c
    | some w =>
      let (k, c) := callEmbedded E w.id op k c
      c.setCart k

/-- `CartStartFrame()` (R187). -/
def cartStartFrame (E : Env) (c : Console) : Console := cartHook E .startFrame c

/-- `CartEndFrame()` (R188). -/
def cartEndFrame (E : Env) (c : Console) : Console := cartHook E .endFrame c

/-- `Attach()` on a cart (R186): the flag, the embedded chip's creation, the generator's clock. -/
def attachCart (E : Env) (k : Cart) (c : Console) : Cart × Console :=
  let k := { k with attached := true }
  let (k, c) :=
    match k.variant.chip with
    | some w =>
      let c := c.call E (.chip w.id .create)
      ({ k with chip := some (ownImage E .chip c.calls) }, c)
    | none => (k, c)
  if k.variant.family = .dataFetcher then
    ({ k with df := k.df.map fun d => { d with last := c.clock } }, c)
  else (k, c)

/-- `Attach()` on the console's cart, if it has one. -/
def attach (E : Env) (c : Console) : Console :=
  match c.cart? with
  | none => c
  | some k =>
    let (k, c) := attachCart E k c
    c.setCart k

/-! ### Factory (R180, R211, 42_cart_datafetcher.md R241) -/

/-- The bank a new multicart shows (R211). -/
def multicartBank (mcSel : Word32) (romlen bankSize : Nat) : Nat :=
  mcSel.toNat % (romlen / bankSize) * bankSize

/-- The cart the factory builds from an image of a legal length (R180). -/
def newCart (tag : CartTag) (rom : Bytes) (mcSel : Word32) : Cart :=
  let v := Config.cartTable tag
  let bank := if v.family = .multicart then multicartBank mcSel rom.length v.bankSize else 0
  { tag := tag, rom := rom, bank := List.replicate v.nb (BitVec.ofNat 32 bank), ram := [],
    attached := false, chip := none,
    df := if v.family = .dataFetcher then some (DataFetcher.initial 0) else none }

/-- `FCTX.mc_sel` after building a variant: counted up by a multicart (R211). -/
def nextMcSel (tag : CartTag) (mcSel : Word32) : Word32 :=
  if (Config.cartTable tag).family = .multicart then mcSel + 1 else mcSel

/-- `MKCART tag` (R180): legal in every phase; on an error nothing changes but `STATUS`. -/
def execMkcart (tag : Nat) (s : State) : StepResult :=
  match selectVariant tag s.romPort.length with
  | .error e => raise e s
  | .ok t =>
    complete { s with stage := some (newCart t s.romPort s.mcSel), mcSel := nextMcSel t s.mcSel }

end Sys2Proof.Machine
end

