-- ==== Sys2Proof/Machine/AddressSpace.lean ====
section
/-! DEFINITION. The address space: the device capability, the two-phase access, mapping, and the
commands MKRAM, MKROM, MKADP, MAP, MAPC, DRESET, RD, WR and the bus transactions BUS.RD, BUS.WR
(20_memory.md, 40_address_space.md). -/

namespace Sys2Proof.Machine

/-! ### Device capability (40_address_space.md R141) -/

/-- `DevRead(h, a)`: R142, R154, R145, R146; the cart, 41_cart_family.md R191. -/
def devRead (E : Env) (h : Handle) (a : Addr) (c : Console) : Except Fault (Byte × Console) :=
  match c.device h with
  | .absent => .error .noDevice
  | .null => .ok (0x00, c)
  | .ram size mem => .ok (mem.read (reduceBy size a), c)
  | .rom img => do
    let v ← romByte img (reduceBy img.length a)
    .ok (v, c)
  | .adapter chip mask => .ok (chipRead E chip (a &&& mask) c)
  | .cart k => do
    let (v, k, c) ← cartRead E a k c
    .ok (v, c.setDevice h (.cart k))

/-- `DevWrite(h, a, v)`. -/
def devWrite (E : Env) (h : Handle) (a : Addr) (v : Byte) (c : Console) : Except Fault Console :=
  match c.device h with
  | .absent => .error .noDevice
  | .null => .ok c
  | .ram size mem => .ok (c.setDevice h (.ram size (mem.write (reduceBy size a) v)))
  | .rom _ => .ok c
  | .adapter chip mask => .ok (c.call E (.chip chip (.update (a &&& mask) v)))
  | .cart k => do
    let (k, c) ← cartWrite E a v k c
    .ok (c.setDevice h (.cart k))

/-- `DevReset(h)`; nothing for `NONE`, which `DRESET` refuses and machine reset skips. -/
def devReset (E : Env) (h : Handle) (c : Console) : Console :=
  match c.device h with
  | .absent | .null | .ram _ _ | .rom _ => c
  | .adapter chip _ => c.call E (.chip chip .reset)
  | .cart k =>
    let (k, c) := cartReset E k c
    c.setDevice h (.cart k)

/-! ### Two-phase access (20_memory.md R76, R77) -/

/-- `AS.lbv <- v`. -/
def Console.latch (c : Console) (v : Byte) : Console := { c with lbv := v }

/-- `MemRead(addr, 1)`: the snooper first, its byte latched and not returned; then the mapped device,
its byte latched and returned (R76). -/
def memRead (E : Env) (addr : Nat) (c : Console) : Except Fault (Byte × Console) := do
  let a := reduceAddr addr
  let (s, c) ← devRead E c.snooper a c
  let c := c.latch s
  let (v, c) ← devRead E (c.mappedHandle a) a c
  .ok (v, c.latch v)

/-- `MemWrite(addr, 1, v)`: the byte is latched, then the snooper and the mapped device get it (R77). -/
def memWrite (E : Env) (addr : Nat) (v : Byte) (c : Console) : Except Fault Console := do
  let a := reduceAddr addr
  let c := c.latch v
  let c ← devWrite E c.snooper a v c
  devWrite E (c.mappedHandle a) a v c

/-- Run what a collaborator does on the bus (R73), recording each access (log 5, log 6). -/
def runProgram (E : Env) (who : Master) {α : Type} :
    BusProgram α → Console → Except Fault (α × Console)
  | .done x, c => .ok (x, c)
  | .read addr next, c => do
    let (v, c) ← memRead E addr c
    runProgram E who (next v) (c.note (.busRead who addr v))
  | .write addr v next, c => do
    let c ← memWrite E addr v c
    runProgram E who next (c.note (.busWrite who addr v))

/-! ### Mapping (40_address_space.md R147 to R150) -/

/-- `Map(base, size, h)` (R147, R148): every page of the range names `h`. -/
def mapPages (base : Addr) (size : Nat) (h : Handle) (c : Console) : Console :=
  { c with page := table Config.npages fun p => if mapClaims base size p then h else c.pageAt p }

/-- `MapCart(base, size)` (R149): map the cart; a cart that wants snooping becomes the snooper. -/
def mapCart (base : Addr) (size : Nat) (c : Console) : Console :=
  let c := mapPages base size cartHandle c
  match c.cart? with
  | some k => if k.variant.wantsSnoop then { c with snooper := cartHandle } else c
  | none => c

/-! ### Device construction (R143, R144, R146) -/

/-- Whether a constructor may write the entry: `h >= 2` and kind `NONE`. -/
def Console.freeHandle (c : Console) (h : Handle) : Bool :=
  decide (2 ≤ h.toNat) && decide (c.device h = .absent)

/-- A new RAM block, every cell `RAM_INIT` (R143). -/
def newRam (size : Nat) : Device := .ram size []

/-- `MKRAM d, size` (R143). -/
def execMkram (dev : Handle) (size : Nat) (s : State) : StepResult :=
  match s.bench with
  | none => raise .refusedPhase s
  | some c =>
    if c.freeHandle dev then
      if size ∈ blockSizes then
        complete { s with console := some (c.setDevice dev (newRam size)) }
      else raise .refusedBadOperand s
    else raise .refusedBadHandle s

/-- `MKROM d` (R144): the image is a copy of `ROMPORT`. -/
def execMkrom (dev : Handle) (s : State) : StepResult :=
  match s.bench with
  | none => raise .refusedPhase s
  | some c =>
    if c.freeHandle dev then
      if s.romPort.length ∈ blockSizes then
        complete { s with console := some (c.setDevice dev (.rom s.romPort)) }
      else raise .refusedBadOperand s
    else raise .refusedBadHandle s

/-- `MKADP d, mask, chip` (R146): chip 0 is reserved (30_encoding.md R110). -/
def execMkadp (dev : Handle) (mask : Addr) (chip : Byte) (s : State) : StepResult :=
  match s.bench with
  | none => raise .refusedPhase s
  | some c =>
    if c.freeHandle dev then
      if chip = 0 then raise .refusedBadOperand s
      else complete { s with console := some (c.setDevice dev (.adapter chip mask)) }
    else raise .refusedBadHandle s

/-! ### MAP, MAPC, DRESET -/

/-- `MAP base, size, d` (R147). -/
def execMap (dev : Handle) (base : Addr) (size : Nat) (s : State) : StepResult :=
  match s.bench with
  | none => raise .refusedPhase s
  | some c =>
    if c.device dev = .absent then raise .refusedBadHandle s
    else complete { s with console := some (mapPages base size dev c) }

/-- `MAPC base, size, d1` (R149). -/
def execMapc (dev : Handle) (base : Addr) (size : Nat) (s : State) : StepResult :=
  match s.bench with
  | none => raise .refusedPhase s
  | some c =>
    if dev = cartHandle ∧ c.cart?.isSome then
      complete { s with console := some (mapCart base size c) }
    else raise .refusedBadHandle s

/-- `DRESET d` (R151). -/
def execDreset (dev : Handle) (s : State) : StepResult :=
  match s.bench with
  | none => raise .refusedPhase s
  | some c =>
    if c.device dev = .absent then raise .refusedBadHandle s
    else complete { s with console := some (devReset Env.hw dev c) }

/-! ### RD, WR, BUS.RD, BUS.WR (R152, R153) -/

/-- `RD addr`: legal in `BENCH` and `RUN`; the byte goes to `RESULT`. -/
def execRd (addr : Addr) (s : State) : StepResult :=
  match s.console with
  | none => raise .refusedPhase s
  | some c =>
    match memRead Env.hw addr.toNat c with
    | .ok (v, c) => completeWith v { s with console := some c }
    | .error f => .fault f

/-- `WR addr, value`: legal in `BENCH` and `RUN`. -/
def execWr (addr : Addr) (value : Byte) (s : State) : StepResult :=
  match s.console with
  | none => raise .refusedPhase s
  | some c =>
    match memWrite Env.hw addr.toNat value c with
    | .ok c => complete { s with console := some c }
    | .error f => .fault f

/-- `BUS.RD addr`: a bus master's read; the byte goes to the response's data field
(30_encoding.md R103). It is no host command: `STATUS` and `RESULT` are not written (log 17). DESIGN
CHOICE: the spec is silent on whether the CPU's and the DMA chip's later answers may depend on an
access of another bus master; here an access that is a step of its own (this one, `BUS.WR`, `RD`, `WR`)
does not itself enter the record `calls`, only the chip calls it causes do (log 27). -/
def execBusRd (addr : Addr) (s : State) : StepResult :=
  match s.console with
  | none => .refused .noAddressSpace
  | some c =>
    match memRead Env.hw addr.toNat c with
    | .ok (v, c) => .next { s with console := some c, busData := v }
    | .error f => .fault f

/-- `BUS.WR addr, data`: a bus master's write; what `execBusRd` says of `STATUS` and of the record holds
here too (log 17, log 27). -/
def execBusWr (addr : Addr) (data : Byte) (s : State) : StepResult :=
  match s.console with
  | none => .refused .noAddressSpace
  | some c =>
    match memWrite Env.hw addr.toNat data c with
    | .ok c => .next { s with console := some c }
    | .error f => .fault f

end Sys2Proof.Machine
end

