-- ==== Sys2Proof/Machine/CartCommands.lean ====
section
/-! DEFINITION. The cart commands that act on the console: ATTACH and SELFMAP (41_cart_family.md R186,
R189). MKCART is in Machine/Cart.lean. -/

namespace Sys2Proof.Machine

/-- The console's cart, if the handle operand names it (R186, R189: `dev = 1` and `DEV[1]` a cart). -/
def Console.namedCart (c : Console) (dev : Handle) : Option Cart :=
  if dev = cartHandle then c.cart? else none

/-- `ATTACH d1` (R186): once only. -/
def execAttach (dev : Handle) (s : State) : StepResult :=
  match s.bench with
  | none => raise .refusedPhase s
  | some c =>
    match c.namedCart dev with
    | none => raise .refusedBadHandle s
    | some k =>
      if k.attached then raise .refusedBadOperand s
      else complete { s with console := some (attach Env.hw c) }

/-- Map the cart into each window, in table order (R189). -/
def mapWindows (windows : List (Addr × Nat)) (c : Console) : Console :=
  windows.foldl (fun c w => mapCart w.1 w.2 c) c

/-- `SelfMap()` (R189): whether the cart mapped itself, and the console after it. -/
def selfMap (c : Console) : Bool × Console :=
  match c.cart? with
  | some k => if k.variant.selfMaps then (true, mapWindows k.variant.selfWindows c) else (false, c)
  | none => (false, c)

/-- `SELFMAP d1` (R189). -/
def execSelfmap (dev : Handle) (s : State) : StepResult :=
  match s.bench with
  | none => raise .refusedPhase s
  | some c =>
    match c.namedCart dev with
    | none => raise .refusedBadHandle s
    | some _ =>
      let (mapped, c) := selfMap c
      completeWith (bit mapped) { s with console := some c }

end Sys2Proof.Machine
end

