-- ==== Sys2Proof/Machine/Scheduler.lean ====
section
/-! DEFINITION. Machine construction and reset, the collaborator contracts, the scanline procedure and
FRAME, POLL (43_scheduler.md). -/

namespace Sys2Proof.Machine

/-! ### Construction (R280, R282) -/

/-- A console at its construction values, before any device or map (10_state.md R48). -/
def freshConsole (type : MachType) (hasBios : Bool) (calls : List Call) : Console where
  dev := powerOnDevices
  page := Vector.replicate Config.npages 0
  snooper := 0
  lbv := 0x00
  type := type
  halt := false
  frame := 0
  hasBios := hasBios
  clock := 0
  budget := 0
  jammed := false
  preempt := false
  sched := Sched.idle
  chips := none
  calls := calls

/-- The device an entry of the fixed map creates (R282). -/
def fixedDevice : Config.FixedDevice → Device
  | .ram size => newRam size
  | .adapter chip mask => .adapter chip mask

/-- One entry of the fixed map: its device if the handle is still free, then its windows in order
(R280, R282). -/
def installEntry (c : Console) (e : Config.FixedEntry) : Console :=
  let c := if c.device e.handle = .absent then c.setDevice e.handle (fixedDevice e.device) else c
  e.windows.foldl (fun c w => mapPages w.1 w.2 e.handle c) c

/-- The BIOS, if there is one (R280). -/
def installBios (bios : Option Bytes) (c : Console) : Console :=
  match bios with
  | none => c
  | some img =>
    mapPages Config.biosBase img.length Config.biosHandle
      (c.setDevice Config.biosHandle (.rom img))

/-- The cart's single mapping step: its own windows, or the machine's cart window (R280,
41_cart_family.md R185). -/
def mapCartOnce (c : Console) : Console :=
  let (mapped, c) := selfMap c
  if mapped then c else mapCart Config.cartBase Config.cartSize c

/-- Attach the cart, then map it (R280). -/
def installCart (E : Env) (c : Console) : Console :=
  match c.cart? with
  | none => c
  | some _ => mapCartOnce (attach E c)

/-- The calls `CPU.Create` and `DMA.Create`: the collaborators exist from here on (R280). `CPU.Create`
makes no bus access (log 19). -/
def giveChips (E : Env) (c : Console) : Console :=
  let c := c.note (.cpu .create)
  let cpu := E.collab.cpuCreate c.calls
  let c := c.note (.dma .create)
  let chips : Chips :=
    { cpu := cpu, dma := ownImage E .dma c.calls, input := ownImage E .input c.calls,
      dmaHonest := E.collab.dmaHonest c.calls }
  { c with chips := some chips }

/-- What the DMA chip does on the bus inside the contract call just recorded (20_memory.md R73). -/
def dmaProgram (E : Env) (c : Console) : Except Fault Console := do
  let (_, c) ← runProgram E .dma (E.collab.dmaCall c.calls) c
  .ok (c.refreshImages E)

/-- `CPU.Create`, then `DMA.Create`, inside which the DMA chip may use the bus (R280, 20_memory.md
R73). -/
def createChips (E : Env) (c : Console) : Except Fault Console := dmaProgram E (giveChips E c)

/-- The console with the cart in `DEV[1]`, if one is given. -/
def placeCart (cart : Option Cart) (c : Console) : Console :=
  match cart with
  | none => c
  | some k => c.setCart k

/-- Construction before the collaborators are created: the devices, the maps and the attached cart
(R280). -/
def hull (E : Env) (type : MachType) (cart : Option Cart) (bios : Option Bytes)
    (calls : List Call) : Console :=
  let c := placeCart cart (freshConsole type bios.isSome calls)
  match type with
  | .bare => c
  | .ntsc | .pal => installCart E (installBios bios (Config.fixedMap.foldl installEntry c))

/-- Construction up to, but without, the machine reset (R280). -/
def construct (E : Env) (type : MachType) (cart : Option Cart) (bios : Option Bytes)
    (calls : List Call) : Except Fault Console :=
  match type with
  | .bare => .ok (hull E type cart bios calls)
  | .ntsc | .pal => createChips E (hull E type cart bios calls)

/-! ### Machine reset (R283) -/

/-- A contract call of the DMA chip: `Reset()`, `StartFrame()`, `EndFrame()` (R290), `LoadState(image)`
(44_serializer.md R356). The chip may use the bus inside (20_memory.md R73). -/
def dmaCall (E : Env) (op : DmaOp) (c : Console) : Except Fault Console :=
  dmaProgram E (c.call E (.dma op))

/-- `CPU.Reset()` (R283): it may use the bus inside. -/
def cpuReset (E : Env) (c : Console) : Except Fault Console := do
  let c := c.note (.cpu .reset)
  let (r, c) ← runProgram E .cpu (E.collab.cpuReset c.calls) c
  .ok (c.setCpuRegs r)

/-- Every device reset, ascending handles (R283); an empty entry has nothing to reset. -/
def resetDevices (E : Env) (c : Console) : Console :=
  (List.range Config.ndev).foldl (fun c h => devReset E (BitVec.ofNat 8 h) c) c

/-- `MachineReset()`: devices, then the DMA chip, then the CPU (R283). -/
def machineReset (E : Env) (c : Console) : Except Fault Console := do
  let c ← dmaCall E .reset (resetDevices E c)
  cpuReset E c

/-- The machine a `MKMACH` builds: a real type ends with the machine reset (R280). -/
def buildMachine (E : Env) (type : MachType) (cart : Option Cart) (bios : Option Bytes)
    (calls : List Call) : Except Fault Console := do
  let c ← construct E type cart bios calls
  match type with
  | .bare => .ok c
  | .ntsc | .pal => machineReset E c

/-- The record of what has passed between the block and its collaborators (log 22). -/
def State.calls (s : State) : List Call :=
  match s.console with
  | none => []
  | some c => c.calls

/-- `MKMACH type [, cart] [, bios]` (R280), the tests in the rule's order. -/
def execMkmach (type : Nat) (useCart hasBios : Bool) (s : State) : StepResult :=
  match Config.typeCodes.lookup type with
  | none => raise .badMachineTag s
  | some t =>
    if useCart = true ∧ s.stage = none then raise .refusedBadOperand s
    else if hasBios = true ∧ t = .bare then raise .refusedBadOperand s
    else if hasBios = true ∧ s.romPort.length ∉ Config.biosSizes then raise .badRomSize s
    else
      match buildMachine Env.hw t (if useCart then s.stage else none)
          (if hasBios then some s.romPort else none) s.calls with
      | .ok c =>
        complete { s with console := some c, stage := if useCart then none else s.stage }
      | .error f => .fault f

/-- `MRESET` (R283). -/
def execMreset (s : State) : StepResult :=
  match s.running with
  | none => raise .refusedPhase s
  | some c =>
    match machineReset Env.hw c with
    | .ok c => complete { s with console := some c }
    | .error f => .fault f

/-! ### The CPU contract (R285) -/

/-- Add clocks to `CPU.budget`: exact, then narrowed to the `i32` (R294, log 15). -/
def Console.addBudget (d : Int) (c : Console) : Console :=
  { c with budget := BitVec.ofInt 32 (c.budget.toInt + d) }

/-- The cycles of an instruction, `1 <= k <= CPU_MAX_INSN_CYCLES` (R285, log 8). -/
def insnCycles (n : Nat) : Nat := max 1 (min n Config.cpuMaxInsnCycles)

/-- One instruction of `Execute` (R285): its bus accesses, then its cycles, then its flags. -/
def cpuInstruction (E : Env) (c : Console) : Except Fault Console := do
  let c := c.note (.cpu (.instruction c.budget))
  let (r, c) ← runProgram E .cpu (E.collab.cpuInsn c.calls) c
  let k := insnCycles r.cycles
  let c := (c.addBudget (-(k * Config.m : Nat))).setCpuRegs r.regs
  .ok { c with
    clock := c.clock + BitVec.ofNat 64 k
    jammed := c.jammed || r.jam
    preempt := c.preempt || r.preempt }

/-- `Execute`'s loop (R285). Each round takes at least one clock unit, so as many rounds as the budget
has clocks are enough. -/
def executeLoop (E : Env) : Nat → Console → Except Fault Console
  | 0, c => .ok c
  | n + 1, c =>
    if 0 < c.budget.toInt ∧ c.jammed = false ∧ c.preempt = false then do
      let c ← cpuInstruction E c
      executeLoop E n c
    else .ok c

/-- `CPU.Execute()` (R285): a preempt request lasts one `Execute`. -/
def execute (E : Env) (c : Console) : Except Fault Console :=
  let c := { c.note (.cpu .execute) with preempt := false }
  executeLoop E c.budget.toInt.toNat c

/-! ### The DMA contract (R290) -/

/-- Whether the machine's DMA chip keeps its contract (log 26). -/
def Console.dmaHonest (c : Console) : Bool :=
  match c.chips with
  | none => true
  | some ch => ch.dmaHonest

/-- The `i32` a DMA chip returns: one that keeps its contract never returns a negative count
(R290, log 26). -/
def returnedClocks (honest : Bool) (x : Word32) : Word32 := if honest then x &&& 0x7FFFFFFF else x

/-- `DMA.DoDmaProcessing()`: the clocks it took; a negative count is `Fault.BadDmaClocks`. -/
def dmaProcessing (E : Env) (c : Console) : Except Fault (Nat × Console) := do
  let c := c.call E (.dma .doProcessing)
  let (x, c) ← runProgram E .dma (E.collab.dmaProcess c.calls) c
  let x := returnedClocks c.dmaHonest x
  if x.toInt < 0 then .error .badDmaClocks else .ok (x.toNat, c.refreshImages E)

/-! ### The scanline procedure (R293 to R307) -/

/-- The nominal clock `NOM = CPU.clock + CPU.budget / M` (R293), in the `u64` of 10_state.md R40.
DESIGN CHOICE: after a `RESTORE` whose clock is below its overrun the sum is negative; the spec states
no value there and the model takes it modulo `2^64` (log 14). -/
def Console.nominal (c : Console) : Word64 :=
  c.clock + BitVec.ofInt 64 (c.budget.toInt / Config.m)

/-- `SCHED.rem`, the part of the line's budget not yet granted (10_state.md R40). -/
def Console.lineRest (c : Console) : Int :=
  match c.sched.rem with
  | some r => r.toInt
  | none => 0

/-- The rest of a line after the first slice, `107 * M` clocks (R296). -/
def restClocks : Nat := (Config.scanlineCycles - Config.firstSliceCycles) * Config.m

/-- Whether a debug check of R311 fails at the top of line `i`. -/
def debugFails (i : Nat) (start : Word64) (c : Console) : Bool :=
  decide (0 < c.budget.toInt) || decide (c.budget.toInt % Config.m ≠ 0) ||
    (decide (0 < i) &&
      decide (c.sched.start.map (· + BitVec.ofNat 64 Config.scanlineCycles) ≠ some start))

/-- `FixApplies(i, d)` (R301). -/
def fixApplies (lines i d : Nat) : Bool :=
  (decide (lines = Config.scanlinesNtsc) && decide (i = Config.fixScanlineNtsc) &&
      decide (d = Config.fixDmaClocksNtsc)) ||
    (decide (lines = Config.scanlinesPal) && decide (i = Config.fixScanlinePal) &&
      decide (d = Config.fixDmaClocksPal))

/-- The corrected count (R301). -/
def correctClocks (lines i d : Nat) : Nat :=
  if fixApplies lines i d then ((d : Int) + Config.fixDelta).toNat else d

/-- Floor halving while the count exceeds what is left of the line (R303), at most `n` times. -/
def halveClocks (avail : Nat) : Nat → Nat → Nat
  | 0, d => d
  | n + 1, d => if avail < d then halveClocks avail n (d / 2) else d

/-- The halving of R303: a count is below `2^31`, so 31 halvings are enough. A negative rest would
halve for ever (44_serializer.md R354, log 13). -/
def limitClocks (avail : Int) (d : Nat) : Except Fault Nat :=
  if avail < 0 then .error .endlessHalving else .ok (halveClocks avail.toNat 31 d)

/-- The count rounded up to a multiple of `DMA_ALIGN` (R304). -/
def roundClocks (d : Nat) : Nat := (d + (Config.dmaAlign - 1)) / Config.dmaAlign * Config.dmaAlign

/-- The steal (R306). -/
def Console.steal (d : Nat) (c : Console) : Console :=
  { c.addBudget (-(d : Int)) with clock := c.clock + BitVec.ofNat 64 (d / Config.m) }

/-- The fast-forward to the end of the line that began at `start` (R299, R307). -/
def Console.fastForward (start : Word64) (c : Console) : Console :=
  { c with clock := start + BitVec.ofNat 64 Config.scanlineCycles, budget := 0 }

/-- `SCHED.phase <- p`. -/
def Console.enter (p : SchedPhase) (c : Console) : Console :=
  { c with sched := { c.sched with phase := p } }

/-- How a scanline ends (R296). -/
inductive LineEnd where
  | goOn | jammed | preempted
  deriving DecidableEq, Repr

/-- What a preempt ends: the call, or only the line (R308). -/
def preemptEnd (E : Env) : LineEnd := if E.preemptEndsCall then .preempted else .goOn

/-- Setting the halt flag, at a jam only (R302). -/
def Console.setHalt (c : Console) : Console := { c with halt := true }

/-- Step 1 (R297): the first slice is granted and run. -/
def firstSlice (E : Env) (i : Nat) (start : Word64) (c : Console) : Except Fault Console :=
  let line : Sched :=
    { phase := .slice1, sl := some i, start := some start, rem := some (BitVec.ofNat 32 restClocks) }
  execute E ({ c with sched := line }.addBudget (Config.firstSliceCycles * Config.m : Nat))

/-- Step 3 (R299): one DMA step, its count discarded, then the fast-forward. -/
def preemptedLine (E : Env) (start : Word64) (c : Console) : Except Fault (LineEnd × Console) := do
  let (_, c) ← dmaProcessing E c
  .ok (preemptEnd E, c.fastForward start)

/-- Step 4 (R300): the DMA step; correction, halving, rounding, steal, in this order. -/
def dmaSlice (E : Env) (i : Nat) (c : Console) : Except Fault Console := do
  let (d, c) ← dmaProcessing E (c.enter .dma)
  let d ← limitClocks (c.budget.toInt + c.lineRest) (correctClocks (Config.scanlines c.type) i d)
  .ok (c.steal (roundClocks d))

/-- Step 5 (R307): the rest is granted and run; jam and preempt are looked at again, without a second
DMA step (conflict C6). -/
def secondSlice (E : Env) (start : Word64) (c : Console) : Except Fault (LineEnd × Console) := do
  let c := c.enter .slice2
  let c ← execute E (c.addBudget c.lineRest)
  if c.jammed then .ok (.jammed, c.setHalt)
  else if c.preempt then .ok (preemptEnd E, c.fastForward start)
  else .ok (.goOn, c)

/-- `Scanline(i)` (R296). -/
def scanline (E : Env) (i : Nat) (c : Console) : Except Fault (LineEnd × Console) := do
  let start := c.nominal
  if E.debugChecks && debugFails i start c then .error .debugAssert
  else
    let c ← firstSlice E i start c
    if c.jammed then .ok (.jammed, c.setHalt)
    else if c.preempt then preemptedLine E start c
    else
      let c ← dmaSlice E i c
      secondSlice E start c

/-! ### FRAME and POLL (R291, R310) -/

/-- The scanlines from `i` on, `n` of them, unless one ends the call (R308). -/
def frameLines (E : Env) : Nat → Nat → Console → Except Fault (LineEnd × Console)
  | 0, _, c => .ok (.goOn, c)
  | n + 1, i, c => do
    let (t, c) ← scanline E i c
    match t with
    | .goOn => frameLines E n (i + 1) c
    | .jammed => .ok (.jammed, c)
    | .preempted => .ok (.preempted, c)

/-- The terminal phase of a call (R308). -/
def LineEnd.phase : LineEnd → SchedPhase
  | .goOn => .frameComplete
  | .jammed => .jammed
  | .preempted => .preempted

/-- What `FRAME` reports (R309). -/
def LineEnd.code : LineEnd → Byte
  | .goOn => 0
  | .jammed => 2
  | .preempted => 3

/-- One frame-advance call on a machine that is neither halted nor jammed (R291, R292, R305). -/
def runFrame (E : Env) (c : Console) : Except Fault (LineEnd × Console) := do
  let c := { c with frame := c.frame + 1 }.enter .notStarted
  let c ← dmaCall E .startFrame c
  let c := cartStartFrame E c
  let (t, c) ← frameLines E (Config.scanlines c.type) 0 c
  let c := cartEndFrame E (c.enter t.phase)
  let c ← dmaCall E .endFrame c
  .ok (t, { c with sched := Sched.idle })

/-- `RESULT` of the no-op entry, `Halted` (R309, R314). -/
def haltedCode : Byte := 1

/-- `FRAME` (R291); on a halted or jammed machine it changes nothing and reports `Halted` (R314). -/
def execFrame (s : State) : StepResult :=
  match s.running with
  | none => raise .refusedPhase s
  | some c =>
    if c.halt || c.jammed then completeWith haltedCode s
    else
      match runFrame Env.hw c with
      | .ok (t, c) => completeWith t.code { s with console := some c }
      | .error f => .fault f

/-- `POLL` (R310). -/
def execPoll (s : State) : StepResult :=
  match s.running with
  | none => raise .refusedPhase s
  | some c => completeWith (bit c.halt) s

end Sys2Proof.Machine
end

