-- ==== Sys2Proof/Machine/Serializer.lean ====
section
/-! DEFINITION. The save-state stream: tokens, grammar, SAVE and RESTORE (44_serializer.md). A reader
works on the unread rest of `SIN`: `CUR.pos` is the length of `SIN` less the length of that rest
(R340, log 25). -/

namespace Sys2Proof.Machine

/-! ### Writing tokens (R341 to R351) -/

/-- An `n`-byte integer, least significant byte first (R341). -/
def putInt : Nat → Nat → Bytes
  | 0, _ => []
  | n + 1, v => BitVec.ofNat 8 (v % 256) :: putInt n (v / 256)

/-- `U8` (R342). -/
def putU8 (v : Byte) : Bytes := [v]
/-- `BOOL` (R343). -/
def putBool (b : Bool) : Bytes := [bit b]
/-- `U16` (R344). -/
def putU16 (v : BitVec 16) : Bytes := putInt 2 v.toNat
/-- `I32` and `U32` (R345, R346): the same four bytes. -/
def putU32 (v : Word32) : Bytes := putInt 4 v.toNat
/-- `U64` (R347). -/
def putU64 (v : Word64) : Bytes := putInt 8 v.toNat
/-- `STR` (R348). -/
def putStr (text : Bytes) : Bytes := BitVec.ofNat 8 text.length :: text
/-- `BYTES` (R349). -/
def putBytes (bs : Bytes) : Bytes := putInt 4 bs.length ++ bs
/-- `WriteHdr(class)` (R351). -/
def putHeader (_ : Config.StreamClass) : Bytes :=
  putInt 4 Config.magic ++ putInt 4 Config.writtenVersion
/-- A boolean and, when it is true, the optional object (R343). -/
def putOption {α : Type} (put : α → Bytes) : Option α → Bytes
  | none => putBool false
  | some x => putBool true ++ put x

/-! ### Writing objects (R353 to R361) -/

/-- One channel (R360). -/
def putChannel (c : Channel) : Bytes :=
  putU16 (c.ctr.setWidth 16) ++ (putU32 (c.fctr.setWidth 32) ++
    (putU8 c.finc ++ (putU8 c.top ++ putU8 c.bot)))

/-- One voice (R360). -/
def putVoice (v : Word32 × Word32) : Bytes := putU32 v.1 ++ putU32 v.2

/-- The three voices' phase and frequency. -/
def DataFetcher.voices (d : DataFetcher) : List (Word32 × Word32) :=
  [(d.vphase[0], d.vfreq[0]), (d.vphase[1], d.vfreq[1]), (d.vphase[2], d.vfreq[2])]

/-- `DFOBJ` (R360). -/
def putFetcher (d : DataFetcher) : Bytes :=
  putHeader .dataFetcher ++ (d.channels.toList.flatMap putChannel ++ (putU32 d.lfsr ++
    (d.voices.flatMap putVoice ++ (putInt 4 d.rem ++ putU64 d.last))))

/-- `CHIPOBJ` (R361). -/
def putChip (img : Bytes) : Bytes := putHeader .chip ++ putBytes img

/-- The overlay's image, for a variant that has one (R359). -/
def Cart.overlay (k : Cart) : Option Bytes :=
  if 0 < k.variant.rs then some (k.ram.toBytes k.variant.rs) else none

/-- `CART` (R359). -/
def putCart (k : Cart) : Bytes :=
  putStr (Config.cartName k.tag) ++ (putHeader .cart ++ (putBytes k.rom ++
    (k.bank.flatMap putU32 ++ (putOption putBytes k.overlay ++
      (putOption putFetcher k.df ++ putOption putChip k.chip)))))

/-- `CPUOBJ` (R354). -/
def putCpu (c : Console) (r : CpuRegs) : Bytes :=
  putHeader .cpu ++ (putU64 c.clock ++ (putU32 c.budget ++ (putBool c.jammed ++
    (putBool c.preempt ++ (putU16 r.pc ++ putBytes r.regs.toList)))))

/-- A RAM bank's bytes (R357). -/
def Console.bankImage (c : Console) (h : Handle) : Bytes :=
  match c.device h with
  | .ram size mem => mem.toBytes size
  | _ => []

/-- The BIOS image, if the machine has one (R358). -/
def Console.biosImage (c : Console) : Option Bytes :=
  if c.hasBios then
    match c.device Config.biosHandle with
    | .rom img => some img
    | _ => none
  else none

/-- `ROOT` (R353). -/
def putRoot (c : Console) (ch : Chips) : Bytes :=
  putStr (Config.typeName c.type) ++ (putHeader .machine ++ (putBool c.halt ++ (putU64 c.frame ++
    (putCpu c ch.cpu ++ ((putHeader .addressSpace ++ putU8 c.lbv) ++
      ((putHeader .dma ++ putBytes ch.dma) ++
        (Config.ramBanks.flatMap (fun h => putBytes (c.bankImage h)) ++
          (putOption putBytes c.biosImage ++ ((putHeader .input ++ putBytes ch.input) ++
            putOption putCart c.cart?)))))))))

/-! ### Reading tokens (R340 to R351) -/

/-- A reader: it takes bytes from the unread rest, or ends the command with an error. -/
abbrev Reader := StateT Bytes (Except Status)

/-- End with an error of the stream. -/
def failWith {α : Type} (e : Status) : Reader α := fun _ => .error e

/-- Go on only if a check holds. -/
def ensure (b : Bool) (e : Status) : Reader Unit := if b then pure () else failWith e

/-- The next `n` bytes; too few are `Truncated` (R340). -/
def getRaw (n : Nat) : Reader Bytes := fun bs =>
  if bs.length < n then .error .truncated else .ok (bs.take n, bs.drop n)

/-- The value of bytes, least significant first (R341). -/
def intOf : Bytes → Nat
  | [] => 0
  | b :: bs => b.toNat + 256 * intOf bs

/-- An `n`-byte integer. -/
def getInt (n : Nat) : Reader Nat := do
  let bs ← getRaw n
  pure (intOf bs)

/-- `U8` (R342). -/
def getU8 : Reader Byte := do
  let v ← getInt 1
  pure (BitVec.ofNat 8 v)
/-- `U16` (R344). -/
def getU16 : Reader (BitVec 16) := do
  let v ← getInt 2
  pure (BitVec.ofNat 16 v)
/-- `I32` and `U32` (R345, R346). -/
def getU32 : Reader Word32 := do
  let v ← getInt 4
  pure (BitVec.ofNat 32 v)
/-- `U64` (R347). -/
def getU64 : Reader Word64 := do
  let v ← getInt 8
  pure (BitVec.ofNat 64 v)

/-- `BOOL`: strictly 0 or 1 (R343). -/
def getBool : Reader Bool := do
  let v ← getU8
  if v = 0 then pure false else if v = 1 then pure true else failWith .badBool

/-- A printable character's byte (R348). -/
def printable (b : Byte) : Bool := decide (0x20 ≤ b.toNat ∧ b.toNat ≤ 0x7E)

/-- `STR` (R348): the length, then the bytes, then their range (log 18). -/
def getStr : Reader Bytes := do
  let n ← getU8
  ensure (decide (1 ≤ n.toNat ∧ n.toNat ≤ Config.maxStringLength)) .badString
  let bs ← getRaw n.toNat
  ensure (bs.all printable) .badString
  pure bs

/-- The length of a `BYTES`: its sign, then the cap (R349). -/
def getLength : Reader Nat := do
  let n ← getU32
  ensure (decide (0 ≤ n.toInt)) .badLength
  ensure (decide (n.toNat ≤ Config.maxBytes)) .overCap
  pure n.toNat

/-- `BYTES` (R349). -/
def getBytes : Reader Bytes := do
  let n ← getLength
  getRaw n

/-- `BYTES_EXPECT(A)` (R350): the cap, then the allow-list, then the bytes. -/
def getBytesOf (allowed : List Nat) : Reader Bytes := do
  let n ← getLength
  ensure (decide (n ∈ allowed)) .badLength
  getRaw n

/-- `ReadHdr(class)` (R351): the magic, then the version. -/
def getHeader (cls : Config.StreamClass) : Reader Unit := do
  let m ← getInt 4
  ensure (decide (m = Config.magic)) .badMagic
  let v ← getU32
  ensure (decide (v.toInt ∈ Config.versions cls)) .badVersion

/-- A boolean that must have a given value, then the object it announces (R359, R358). -/
def getAnnounced {α : Type} (present : Bool) (get : Reader α) : Reader (Option α) :=
  if present then do
    let x ← get
    pure (some x)
  else pure none

/-- An optional object whose presence the variant fixes: a boolean that disagrees is `BadValue`
(R359). -/
def getFixedOption {α : Type} (present : Bool) (get : Reader α) : Reader (Option α) := do
  let b ← getBool
  ensure (b == present) .badValue
  getAnnounced b get

/-- An optional object (R358). -/
def getOption {α : Type} (get : Reader α) : Reader (Option α) := do
  let b ← getBool
  getAnnounced b get

/-- `n` objects in a row. -/
def getMany {α : Type} (get : Reader α) : Nat → Reader (List α)
  | 0 => pure []
  | n + 1 => do
    let x ← get
    let xs ← getMany get n
    pure (x :: xs)

/-- A collaborator's image; one it rejects is `BadValue` (R356, log 10). -/
def getImage (E : Env) (who : ImageOwner) : Reader Bytes := do
  let img ← getBytes
  ensure (imageAccepted E who img) .badValue
  pure img

/-! ### Reading objects (R353 to R361) -/

/-- One channel, each field checked as it is read (R360). -/
def getChannel : Reader Channel := do
  let ctr ← getU16
  ensure (decide (ctr.toNat ≤ 0x0FFF)) .badValue
  let fctr ← getU32
  ensure (decide (fctr.toNat < 2 ^ 20)) .badValue
  let finc ← getU8
  let top ← getU8
  let bot ← getU8
  pure { ctr := ctr.setWidth 12, fctr := fctr.setWidth 20, finc := finc, top := top, bot := bot }

/-- One voice (R360). -/
def getVoice : Reader (Word32 × Word32) := do
  let phase ← getU32
  let freq ← getU32
  pure (phase, freq)

/-- `DFOBJ` (R360); `clock` is the one read in `CPUOBJ`. -/
def getFetcher (clock : Word64) : Reader DataFetcher := do
  getHeader .dataFetcher
  let channels ← getMany getChannel Config.nch
  let lfsr ← getU32
  let voices ← getMany getVoice 3
  let rem ← getInt 4
  ensure (decide (rem < Config.genDen)) .badValue
  let last ← getU64
  ensure (decide (last.toNat ≤ clock.toNat)) .badValue
  pure
    { channels := table Config.nch fun i => channels.getD i Channel.zero
      lfsr := lfsr
      vphase := table 3 fun i => (voices.getD i (0, 0)).1
      vfreq := table 3 fun i => (voices.getD i (0, 0)).2
      rem := rem
      last := last }

/-- `CHIPOBJ` (R361). -/
def getChip (E : Env) : Reader Bytes := do
  getHeader .chip
  getImage E .chip

/-- The part of an image the bank registers select from: for a data-fetcher, the program part (R359,
42_cart_datafetcher.md R240). -/
def bankedLength (v : Variant) (romlen : Nat) : Nat :=
  if v.family = .dataFetcher then romlen - Config.displaySize else romlen

/-- What a bank register may hold (R359): `0 <= b`, a multiple of the bank size, the bank inside the
image. -/
def bankLegal (v : Variant) (romlen : Nat) (b : Word32) : Bool :=
  decide (0 ≤ b.toInt) && decide (b.toNat % v.bankSize = 0) &&
    decide (b.toNat + v.bankSize ≤ bankedLength v romlen)

/-- One bank register (R359). -/
def getBank (v : Variant) (romlen : Nat) : Reader Word32 := do
  let b ← getU32
  ensure (bankLegal v romlen b) .badValue
  pure b

/-- A discriminant looked up in its closed table (R353, R359). -/
def getNamed {α : Type} (names : List (Bytes × α)) : Reader α := do
  let name ← getStr
  match names.lookup name with
  | none => failWith .badDiscriminant
  | some x => pure x

/-- `CART` (R359). A cart in a machine is attached. -/
def getCart (E : Env) (clock : Word64) : Reader Cart := do
  let tag ← getNamed Config.cartNames
  let v := Config.cartTable tag
  getHeader .cart
  let rom ← getBytesOf v.romlens
  let bank ← getMany (getBank v rom.length) v.nb
  let ram ← getFixedOption (decide (0 < v.rs)) (getBytesOf [v.rs])
  let df ← getFixedOption (decide (v.family = .dataFetcher)) (getFetcher clock)
  let chip ← getFixedOption v.chip.isSome (getChip E)
  pure
    { tag := tag, rom := rom, bank := bank, ram := Memory.ofBytes (ram.getD []), attached := true,
      chip := chip, df := df }

/-- `CPUOBJ` (R354). -/
structure CpuRecord where
  clock   : Word64
  budget  : Word32
  jammed  : Bool
  preempt : Bool
  regs    : CpuRegs
  deriving DecidableEq, Repr

/-- The range of a streamed budget (R354): the carry of 43_scheduler.md R294, wider for a jammed CPU. -/
def budgetLegal (budget : Word32) (jammed : Bool) : Bool :=
  decide (budget.toInt % Config.m = 0) &&
    decide (-((Config.cpuMaxInsnCycles * Config.m : Nat) : Int) < budget.toInt) &&
    decide (budget.toInt ≤ if jammed then (restClocks : Int) else 0)

/-- The register image from its bytes (R354). -/
def regsOf (bs : Bytes) : Vector Byte Config.cpuRegBytes := table Config.cpuRegBytes fun i => bs.getD i 0

/-- `CPUOBJ`; the budget is checked when the whole object has been read (R354). -/
def getCpu : Reader CpuRecord := do
  getHeader .cpu
  let clock ← getU64
  let budget ← getU32
  let jammed ← getBool
  let preempt ← getBool
  let pc ← getU16
  let regs ← getBytesOf [Config.cpuRegBytes]
  ensure (budgetLegal budget jammed) .badValue
  pure
    { clock := clock, budget := budget, jammed := jammed, preempt := preempt,
      regs := { pc := pc, regs := regsOf regs } }

/-- What a stream says: the candidate record of R371. -/
structure Root where
  type  : MachType
  halt  : Bool
  frame : Word64
  cpu   : CpuRecord
  lbv   : Byte
  dma   : Bytes
  banks : List Bytes
  bios  : Option Bytes
  input : Bytes
  cart  : Option Cart
  deriving DecidableEq, Repr

/-- `ROOT` (R353). -/
def getRoot (E : Env) : Reader Root := do
  let type ← getNamed Config.typeNames
  getHeader .machine
  let halt ← getBool
  let frame ← getU64
  let cpu ← getCpu
  getHeader .addressSpace
  let lbv ← getU8
  getHeader .dma
  let dma ← getImage E .dma
  let banks ← getMany (getBytesOf [Config.ramBankSize]) Config.ramBanks.length
  let bios ← getOption (getBytesOf Config.biosSizes)
  getHeader .input
  let input ← getImage E .input
  let cart ← getOption (getCart E cpu.clock)
  pure
    { type := type, halt := halt, frame := frame, cpu := cpu, lbv := lbv, dma := dma,
      banks := banks, bios := bios, input := input, cart := cart }

/-- A whole stream: `ROOT` and nothing after it (R352). -/
def parseStream (E : Env) (stream : Bytes) : Except Status Root :=
  match getRoot E stream with
  | .error e => .error e
  | .ok (r, []) => .ok r
  | .ok (_, _ :: _) => .error .trailingData

/-! ### SAVE and RESTORE (R370, R371) -/

/-- `SAVE` (R370): it writes `SOUT` only, and since no state of the machine changes, `SaveState()` makes
no bus access. DESIGN CHOICE: the spec is silent on whether a collaborator's later answers may depend
on having been asked for its state; here a `SaveState()` call does not enter the record `calls`
(log 28). -/
def execSave (s : State) : StepResult :=
  match s.console with
  | none => raise .refusedPhase s
  | some c =>
    match c.chips with
    | none => raise .refusedPhase s
    | some ch => complete { s with sout := putRoot c ch }

/-- The RAM banks from their images (R357). -/
def loadBanks (banks : List Bytes) (c : Console) : Console :=
  (Config.ramBanks.zip banks).foldl
    (fun c b => c.setDevice b.1 (.ram Config.ramBankSize (Memory.ofBytes b.2))) c

/-- What the stream carries, put in its place: the cart, the RAM banks, `MACH.halt`, `MACH.frame`,
`CPU.*`, `AS.lbv` and the collaborators' images (R371 "load"). -/
def loadRecord (r : Root) (c : Console) : Console :=
  let c := loadBanks r.banks (placeCart r.cart c)
  { c with
    halt := r.halt
    frame := r.frame
    clock := r.cpu.clock
    budget := r.cpu.budget
    jammed := r.cpu.jammed
    preempt := r.cpu.preempt
    lbv := r.lbv
    chips := c.chips.map fun ch => { ch with cpu := r.cpu.regs, dma := r.dma, input := r.input } }

/-- `Chip.LoadState()` of the restored cart's embedded chip, which its attaching created (R361). -/
def loadChip (E : Env) (cart : Option Cart) (c : Console) : Console :=
  match cart with
  | none => c
  | some k =>
    match k.variant.chip, k.chip with
    | some w, some img => c.call E (.chip w.id (.loadState img))
    | _, _ => c

/-- The machine of a record (R371): constructed as `MKMACH` does, without the machine reset, then
loaded. DESIGN CHOICE (log 23): the spec fixes no order among the collaborators. Here the block's own
registers and the cart are loaded first, as R371 lists them, then the CPU, the DMA chip, the input
collaborator and the embedded chip are handed their images, in the order of the stream; so a chip sees
the restored clock and last bus value. The DMA chip may use the bus inside its `LoadState()`
(20_memory.md R73); since the machine equals the stream in every serialized field (R371, R374), the
record is put in place again after it. -/
def restoreMachine (E : Env) (r : Root) (calls : List Call) : Except Fault Console := do
  let c ← construct E r.type r.cart r.bios calls
  let c := (loadRecord r c).note (.cpu (.loadState r.cpu.regs.pc r.cpu.regs.regs))
  let c ← dmaCall E (.loadState r.dma) c
  .ok (loadRecord r (loadChip E r.cart (c.call E (.inputLoad r.input))))

/-- `RESTORE` (R371): legal in every phase; on an error nothing changes but `STATUS`. `CUR.pos` starts
at 0 and holds no value after the command. -/
def execRestore (s : State) : StepResult :=
  match parseStream Env.hw s.sin with
  | .error e => raise e s
  | .ok r =>
    match restoreMachine Env.hw r s.calls with
    | .ok c => complete { s with console := some c, cur := none }
    | .error f => .fault f

end Sys2Proof.Machine
end

