-- ==== Sys2Proof/Machine/Dispatch.lean ====
section
/-! DEFINITION. One arm per operation of spec/opcode_table.json. -/

namespace Sys2Proof.Machine

def exec (i : Instr) (s : State) : Host.Outcome State Fault Refusal :=
  match i with
  -- construction, reset, frame advance (43_scheduler.md)
  | .mkmach type useCart hasBios => Sys2Proof.Machine.execMkmach type useCart hasBios s
  -- cart factory and cart commands (41_cart_family.md)
  | .mkcart tag => Sys2Proof.Machine.execMkcart tag s
  -- devices and mapping (40_address_space.md)
  | .mkram dev size => Sys2Proof.Machine.execMkram dev size s
  | .mkrom dev => Sys2Proof.Machine.execMkrom dev s
  | .mkadp dev mask chip => Sys2Proof.Machine.execMkadp dev mask chip s
  | .attach dev => Sys2Proof.Machine.execAttach dev s
  | .map dev base size => Sys2Proof.Machine.execMap dev base size s
  | .mapc dev base size => Sys2Proof.Machine.execMapc dev base size s
  | .selfmap dev => Sys2Proof.Machine.execSelfmap dev s
  | .dreset dev => Sys2Proof.Machine.execDreset dev s
  | .mreset => Sys2Proof.Machine.execMreset s
  | .rd addr => Sys2Proof.Machine.execRd addr s
  | .wr addr value => Sys2Proof.Machine.execWr addr value s
  | .frame => Sys2Proof.Machine.execFrame s
  | .poll => Sys2Proof.Machine.execPoll s
  -- serializer (44_serializer.md)
  | .save => Sys2Proof.Machine.execSave s
  | .restore => Sys2Proof.Machine.execRestore s
  -- bus transactions (30_encoding.md R103)
  | .busRd addr => Sys2Proof.Machine.execBusRd addr s
  | .busWr addr data => Sys2Proof.Machine.execBusWr addr data s

end Sys2Proof.Machine
end

