-- ==== Sys2Proof/Machine/Step.lean ====
section
/-! DEFINITION. One step: the host's next input, run to its outcome (log 1). -/

namespace Sys2Proof.Machine

/-- One step of the block. -/
def step (s : State) : Host.Outcome State Fault Refusal :=
  match fetch s with
  | .run i s => exec i s
  | .ended r => r

/-- The state whose next input is the given word of spec/opcode_table.json: the program of this block is
what the host presents, so the word is put in front of the host's inputs (log 1). -/
def State.withFetchWord (s : State) (nbits w : Nat) : State :=
  { s with queue := .request (tableRequest nbits w) :: s.queue }

end Sys2Proof.Machine
end

