-- ==== Sys2Proof/Machine/Run.lean ====
section
/-! DEFINITION. How a run ends (70_reset_and_hazards.md R449; 00_scope.md R11, "end of a run"). -/

namespace Sys2Proof.Machine

/-- `MACH.halt = 1`, the machine-level terminal state (R449). -/
def State.halted (s : State) : Bool :=
  match s.console with
  | none => false
  | some c => c.halt

/-- The "run until done" predicate (R449): `MACH.halt = 1`, or the host's inputs are exhausted. -/
def State.done (s : State) : Bool := s.halted || s.queue.isEmpty

/-- At most `n` steps, until done. A fault or a refusal ends the run: its state is never final (R449,
60_exceptions.md R407). -/
def runFor : Nat → State → StepResult
  | 0, s => .next s
  | n + 1, s =>
    if s.done then .next s
    else
      match step s with
      | .next t => runFor n t
      | .fault f => .fault f
      | .refused r => .refused r

/-- Run until done (R449). Every step takes an input, so as many steps as there are inputs are
enough. -/
def runUntilDone (s : State) : StepResult := runFor s.queue.length s

end Sys2Proof.Machine
end

