-- ==== Sys2Proof/Safety.lean ====
section
/-! DEFINITION. The vocabulary of the claims: what a well-formed machine is (the invariant of the
block), what an operation leaves alone, which cells a write stores to, and the tables of spec/ that a
claim compares the machine with. -/

namespace Sys2Proof

/-- The instruction is a host command (30_encoding.md R104), not a bus transaction (R103). -/
def Instr.isCommand : Instr → Bool
  | .busRd _ | .busWr _ _ => false
  | .mkmach _ _ _ | .mkcart _ | .mkram _ _ | .mkrom _ | .mkadp _ _ _ | .attach _ | .map _ _ _
  | .mapc _ _ _ | .selfmap _ | .dreset _ | .mreset | .rd _ | .wr _ _ | .frame | .poll | .save
  | .restore => true

/-- The instruction replaces the machine when it succeeds (43_scheduler.md R280, 44_serializer.md
R371). -/
def Instr.replacesMachine : Instr → Bool
  | .mkmach _ _ _ | .restore => true
  | .mkcart _ | .mkram _ _ | .mkrom _ | .mkadp _ _ _ | .attach _ | .map _ _ _ | .mapc _ _ _
  | .selfmap _ | .dreset _ | .mreset | .rd _ | .wr _ _ | .frame | .poll | .save | .busRd _
  | .busWr _ _ => false

/-! ### Entries of the record -/

/-- What one master's bus accesses put in the record: the accesses, and the register calls of chips they
reach (20_memory.md R73, 40_address_space.md R146, log 5). -/
def CallKind.byBus (who : Master) : CallKind → Prop
  | .busRead w _ _ | .busWrite w _ _ => w = who
  | .chip _ (.read _) | .chip _ (.update _ _) => True
  | .chip _ .create | .chip _ .reset | .chip _ .startFrame | .chip _ .endFrame
  | .chip _ (.loadState _) | .cpu _ | .dma _ | .inputLoad _ => False

/-- A frame hook (43_scheduler.md R292, R305, 41_cart_family.md R187, R188). -/
def CallKind.isHook : CallKind → Bool
  | .dma .startFrame | .dma .endFrame | .chip _ .startFrame | .chip _ .endFrame => true
  | .dma .create | .dma .reset | .dma .doProcessing | .dma (.loadState _) | .chip _ .create
  | .chip _ .reset | .chip _ (.read _) | .chip _ (.update _ _) | .chip _ (.loadState _)
  | .cpu _ | .inputLoad _ | .busRead _ _ _ | .busWrite _ _ _ => false

/-! ### The rows of spec/opcode_table.json -/

/-- One row of the opcode table: how many bits a word of the format has, which of them the row fixes,
and to what. -/
structure OpcodeRow where
  bits    : Nat
  fixed   : Nat
  pattern : Nat
  deriving DecidableEq, Repr

/-- An instruction's row (30_encoding.md R103, R104: the operation code and the unused bits are
fixed). -/
def Instr.row : Instr → OpcodeRow
  | .mkmach _ _ _ => ⟨64, 0xFFFFFFFFFFFFFC00, 0x0100000000000000⟩
  | .mkcart _ => ⟨64, 0xFFFFFFFFFFFFFF00, 0x0200000000000000⟩
  | .mkram _ _ => ⟨64, 0xFF00FFFF00000000, 0x0300000000000000⟩
  | .mkrom _ => ⟨64, 0xFF00FFFFFFFFFFFF, 0x0400000000000000⟩
  | .mkadp _ _ _ => ⟨64, 0xFF000000FFFFFF00, 0x0500000000000000⟩
  | .attach _ => ⟨64, 0xFF00FFFFFFFFFFFF, 0x0600000000000000⟩
  | .map _ _ _ => ⟨64, 0xFF00000000000000, 0x0700000000000000⟩
  | .mapc _ _ _ => ⟨64, 0xFF00000000000000, 0x0800000000000000⟩
  | .selfmap _ => ⟨64, 0xFF00FFFFFFFFFFFF, 0x0900000000000000⟩
  | .dreset _ => ⟨64, 0xFF00FFFFFFFFFFFF, 0x0A00000000000000⟩
  | .mreset => ⟨64, 0xFFFFFFFFFFFFFFFF, 0x1000000000000000⟩
  | .rd _ => ⟨64, 0xFFFF0000FFFFFFFF, 0x1100000000000000⟩
  | .wr _ _ => ⟨64, 0xFFFF0000FFFFFF00, 0x1200000000000000⟩
  | .frame => ⟨64, 0xFFFFFFFFFFFFFFFF, 0x1300000000000000⟩
  | .poll => ⟨64, 0xFFFFFFFFFFFFFFFF, 0x1400000000000000⟩
  | .save => ⟨64, 0xFFFFFFFFFFFFFFFF, 0x2000000000000000⟩
  | .restore => ⟨64, 0xFFFFFFFFFFFFFFFF, 0x2100000000000000⟩
  | .busRd _ => ⟨25, 0x10000FF, 0x0000000⟩
  | .busWr _ _ => ⟨25, 0x1000000, 0x1000000⟩

/-- The word of a request fits a row. -/
def Request.fits (row : OpcodeRow) : Request → Prop
  | .command w => row.bits = 64 ∧ w &&& BitVec.ofNat 64 row.fixed = BitVec.ofNat 64 row.pattern
  | .bus w => row.bits = 25 ∧ w &&& BitVec.ofNat 25 row.fixed = BitVec.ofNat 25 row.pattern

end Sys2Proof

namespace Sys2Proof.Machine

/-! ### The variants, as the spec's tables give them

Written out here, so that a claim compares the machine with the tables and not with its own
configuration. -/

/-- The tag codes (30_encoding.md R109). -/
def tagTable : List (Nat × CartTag) :=
  [(1, .f2k), (2, .f4k), (3, .l8k), (4, .l16k), (5, .l32k), (6, .l8kr), (7, .l16kr), (8, .l32kr),
   (9, .ls8k), (10, .c16kp), (11, .df12k), (12, .mc4k), (13, .f8k), (14, .f16k), (15, .f32k)]

/-- The lengths that infer a variant under tag `Unknown` (41_cart_family.md R181). -/
def inferTable : List (Nat × CartTag) :=
  [(2048, .f2k), (4096, .f4k), (8192, .l8k), (16384, .l16k), (32768, .l32k)]

/-- The image lengths of a variant (41_cart_family.md R183, `romlens`). -/
def romLengths : CartTag → List Nat
  | .f2k => [0x800]
  | .f4k => [0x1000]
  | .f8k | .l8k | .ls8k | .l8kr => [0x2000]
  | .f16k | .l16k | .l16kr | .c16kp => [0x4000]
  | .f32k | .l32k | .l32kr => [0x8000]
  | .df12k => [0x3000]
  | .mc4k => [0x2000, 0x4000, 0x8000, 0x10000, 0x20000, 0x40000]

/-- The fixed variants (41_cart_family.md R183). -/
def fixedTags : List CartTag := [.f2k, .f4k, .f8k, .f16k, .f32k]
/-- The bank-latch variants (41_cart_family.md R183). -/
def latchTags : List CartTag := [.l8k, .l16k, .l32k, .ls8k]
/-- The RAM-shadow variants (41_cart_family.md R183). -/
def shadowTags : List CartTag := [.l8kr, .l16kr, .l32kr]

/-- Where a variant's trigger range begins in the low 12 bits of an address, and its length
(41_cart_family.md R183, R197). -/
def triggerRange : CartTag → Nat × Nat
  | .l8k | .ls8k | .l8kr | .df12k => (0xFF8, 2)
  | .l16k | .l16kr => (0xFF6, 4)
  | .l32k | .l32kr => (0xFF4, 8)
  | .f2k | .f4k | .f8k | .f16k | .f32k | .c16kp | .mc4k => (0, 0)

/-! ### One cell of storage -/

/-- The byte in cell `i` of a device's storage: RAM, ROM, or a cart's overlay. -/
def Device.cell : Device → Nat → Byte
  | .ram _ mem, i => mem.read i
  | .rom img, i => img.getD i 0
  | .cart k, i => k.ram.read i
  | .absent, _ | .null, _ | .adapter _ _, _ => 0

/-- The byte in cell `i` of `DEV[h]`. -/
def State.cell (s : State) (h : Handle) (i : Nat) : Byte := (s.device h).cell i

/-- The cell that `DevWrite(h, a, v)` stores to, if it stores to any (40_address_space.md R154; the
write port of an overlay, 41_cart_family.md R183, R203, R206). -/
def Console.storedCell (c : Console) (h : Handle) (a : Addr) : Option (Handle × Nat) :=
  match c.device h with
  | .ram size _ => some (h, reduceBy size a)
  | .cart k =>
    if k.tag ∈ shadowTags ∧ a.toNat % 0x1000 < 0x80 then some (h, a.toNat % 0x1000) else none
  | .absent | .null | .rom _ | .adapter _ _ => none

/-- The cells a bus write of address `a` stores to: the snooper's and the mapped device's
(20_memory.md R77). -/
def Console.stores (c : Console) (a : Addr) (h : Handle) (i : Nat) : Prop :=
  c.storedCell c.snooper a = some (h, i) ∨ c.storedCell (c.mappedHandle a) a = some (h, i)

/-- No bus write of a record stores to the cell. -/
def Console.neverStored (c : Console) (h : Handle) (i : Nat) (calls : List Call) : Prop :=
  ∀ x ∈ calls, ∀ who addr v, x.kind = .busWrite who addr v → ¬c.stores (BitVec.ofNat 16 addr) h i

/-! ### What stays the same -/

/-- A device with everything that can change in it blanked out: what is left is its identity and its
constants (10_state.md R22 to R26, R31, R32, R35). -/
def Device.constants : Device → Device
  | .ram size _ => .ram size []
  | .cart k => .cart { k with bank := [], ram := [], chip := none, df := none }
  | .absent => .absent
  | .null => .null
  | .rom img => .rom img
  | .adapter chip mask => .adapter chip mask

/-- The topology of an address space and the constants of a machine (10_state.md R21, R22, R38). -/
structure Console.SameTopology (c d : Console) : Prop where
  page    : d.page = c.page
  snooper : d.snooper = c.snooper
  type    : d.type = c.type
  hasBios : d.hasBios = c.hasBios
  devices : ∀ h : Handle, (d.device h).constants = (c.device h).constants

/-- The scheduler's registers (10_state.md R38 to R40). -/
structure Console.SameScheduler (c d : Console) : Prop where
  halt    : d.halt = c.halt
  frame   : d.frame = c.frame
  clock   : d.clock = c.clock
  budget  : d.budget = c.budget
  jammed  : d.jammed = c.jammed
  preempt : d.preempt = c.preempt
  sched   : d.sched = c.sched

/-- The CPU's own registers and the kind of DMA chip; not the opaque images, which a collaborator may
change at a call (log 9). -/
def Console.collaborators (c : Console) : Option (CpuRegs × Bool) :=
  c.chips.map fun ch => (ch.cpu, ch.dmaHonest)

/-- Everything of the state but the console, `STATUS`, `RESULT` and the bus response data. -/
structure State.SameHost (s t : State) : Prop where
  stage   : t.stage = s.stage
  mcSel   : t.mcSel = s.mcSel
  romPort : t.romPort = s.romPort
  sin     : t.sin = s.sin
  sout    : t.sout = s.sout
  cur     : t.cur = s.cur
  cmd     : t.cmd = s.cmd
  queue   : t.queue = s.queue

/-! ### Well-formed machines -/

/-- A cart as the factory, a restore, a reset and every bus access leave it. -/
structure Cart.Ok (E : Env) (k : Cart) : Prop where
  /-- 41_cart_family.md R182 -/
  romLength : k.rom.length ∈ k.variant.romlens
  /-- 10_state.md R33 -/
  bankCount : k.bank.length = k.variant.nb
  /-- 10_state.md R33, 41_cart_family.md R197 -/
  banks     : ∀ b ∈ k.bank, bankLegal k.variant k.rom.length b = true
  /-- 10_state.md R34 -/
  overlay   : k.ram.wf k.variant.rs = true
  /-- 10_state.md R37 -/
  fetcher   : k.df.isSome = decide (k.variant.family = .dataFetcher)
  /-- 42_cart_datafetcher.md R252 -/
  remainder : ∀ d, k.df = some d → d.rem < Config.genDen
  /-- 10_state.md R35 -/
  chipThere : k.chip.isSome = (k.variant.chip.isSome && k.attached)
  /-- 41_cart_family.md R216, log 10 -/
  chipImage : ∀ img, k.chip = some img →
    img.length ≤ Config.maxBytes ∧ imageAccepted E .chip img = true

/-- A device as its constructor and every access leave it (10_state.md R24 to R26). -/
def Device.Ok (E : Env) : Device → Prop
  | .ram size mem => size ∈ blockSizes ∧ mem.wf size = true
  | .rom img => img.length ∈ blockSizes
  | .adapter chip _ => chip ≠ 0
  | .cart k => k.Ok E
  | .absent | .null => True

/-- The device table and the page table hang together (10_state.md R22, R30). -/
structure Console.Wired (E : Env) (c : Console) : Prop where
  nullDevice : c.device 0 = .null
  cartSlot   : (c.device 1).kind = .none ∨ (c.device 1).kind = .cart
  otherSlots : ∀ h : Handle, h ≠ 0 → h ≠ 1 → (c.device h).kind ≠ .null ∧ (c.device h).kind ≠ .cart
  devices    : ∀ h : Handle, (c.device h).Ok E
  pages      : ∀ p, p < 1024 → c.device (c.pageAt p) ≠ .absent
  snooper    : c.device c.snooper ≠ .absent

/-- No access can reach an embedded chip or a waveform generator before it is attached
(41_cart_family.md R217, 42_cart_datafetcher.md R252). -/
def Console.CartReady (c : Console) : Prop :=
  ∀ k, c.cart? = some k → k.attached = true ∨ (k.variant.chip = none ∧ k.df = none)

/-- The budget carry between scanlines and between commands (43_scheduler.md R294). -/
def Console.carryLegal (c : Console) : Prop := budgetLegal c.budget c.jammed = true

/-- The pages the fixed map gives to devices 2 to 5 (43_scheduler.md R282), by page number. -/
def fixedPage (p : Nat) : Handle :=
  if p = 0x000 then 4
  else if p ≤ 0x003 then 3
  else if p = 0x004 then 0
  else if p ≤ 0x007 then 3
  else if p = 0x00A ∨ p = 0x00B then 5
  else if 0x060 ≤ p ∧ p ≤ 0x07F then 2
  else if 0x080 ≤ p ∧ p ≤ 0x09F then 3
  else 0

/-- The pages the cart claims (43_scheduler.md R282, 41_cart_family.md R218). -/
def cartClaims (tag : CartTag) (p : Nat) : Bool :=
  if tag = .c16kp then decide ((0x100 ≤ p ∧ p ≤ 0x1FF) ∨ (0x300 ≤ p ∧ p ≤ 0x3FF))
  else decide (0x100 ≤ p ∧ p ≤ 0x3FF)

/-- The page table of a constructed machine: a function of the BIOS flag and the cart's variant alone
(44_serializer.md R355). The cart is mapped last and wins (43_scheduler.md R280). -/
def machinePage (hasBios : Bool) (cart : Option CartTag) (p : Nat) : Handle :=
  if cart.any (cartClaims · p) then 1
  else if hasBios ∧ 0x3C0 ≤ p then 6
  else fixedPage p

/-- The snooper of a constructed machine (40_address_space.md R149): `LS8K` is the only variant that
wants snooping (41_cart_family.md R183). -/
def machineSnooper (cart : Option CartTag) : Handle := if cart = some .ls8k then 1 else 0

/-- The variant of the machine's cart. -/
def Console.cartTag (c : Console) : Option CartTag := c.cart?.map Cart.tag

/-- A running machine, between commands (43_scheduler.md R280, R282). -/
structure Console.RunOk (E : Env) (c : Console) (ch : Chips) : Prop where
  real     : c.type ≠ .bare
  attached : ∀ k, c.cart? = some k → k.attached = true
  banks    : ∀ h ∈ Config.ramBanks, ∃ mem, c.device h = .ram Config.ramBankSize mem
  adapters : c.device 4 = .adapter 2 0x003F ∧ c.device 5 = .adapter 3 0x007F
  bios     : c.hasBios = true →
    ∃ img, c.device Config.biosHandle = .rom img ∧ img.length ∈ Config.biosSizes
  noBios   : c.hasBios = false → c.device Config.biosHandle = .absent
  others   : ∀ h : Handle, 7 ≤ h.toNat → c.device h = .absent
  topology : ∀ p, p < 1024 → c.pageAt p = machinePage c.hasBios c.cartTag p
  snoops   : c.snooper = machineSnooper c.cartTag
  dma      : ch.dma.length ≤ Config.maxBytes ∧ imageAccepted E .dma ch.dma = true
  input    : ch.input.length ≤ Config.maxBytes ∧ imageAccepted E .input ch.input = true

/-- A console between commands. -/
structure Console.Ok (E : Env) (c : Console) : Prop where
  wired   : c.Wired E
  carry   : c.carryLegal
  idle    : c.sched = Sched.idle
  bench   : c.chips = none → c.type = .bare
  running : ∀ ch, c.chips = some ch → c.RunOk E ch

/-- The invariant of the block: it holds after power-on and every step keeps it. -/
structure State.Inv (s : State) : Prop where
  console : ∀ c, s.console = some c → c.Ok Env.hw
  stage   : ∀ k, s.stage = some k → k.Ok Env.hw ∧ k.attached = false
  cursor  : s.cur = none

/-- The generator has not been advanced past the clock (44_serializer.md R360). It holds of every run
in which the 64-bit clock does not wrap (43_scheduler.md R315, log 14). -/
def Console.Saveable (c : Console) : Prop :=
  ∀ k d, c.cart? = some k → k.df = some d → d.last.toNat ≤ c.clock.toNat

/-! ### Expected results -/

/-- The device a machine of the given parts has at a handle when it is built (43_scheduler.md R280,
R282). -/
def builtDevice (cart : Option Cart) (bios : Option Bytes) (h : Handle) : Device :=
  if h = 0 then .null
  else if h = 1 then
    match cart with
    | some k => .cart { k with attached := true }
    | none => .absent
  else if h = 2 ∨ h = 3 then .ram 0x0800 []
  else if h = 4 then .adapter 2 0x003F
  else if h = 5 then .adapter 3 0x007F
  else if h = 6 then
    match bios with
    | some img => .rom img
    | none => .absent
  else .absent

/-- A byte of `[base, base+size)`, counted without wrap, lies in page `p` of the wrapped space
(40_address_space.md R147, R148). -/
def overlapsPage (base : Addr) (size p : Nat) : Prop :=
  ∃ k, k < size ∧ (base.toNat + k) / 64 % 1024 = p

/-- The bank base a cart shows after an access of address `a` (41_cart_family.md R197). -/
def bankAfter (k : Cart) (a : Addr) : Nat :=
  let (base, count) := triggerRange k.tag
  let t := a.toNat % 0x1000
  if base ≤ t ∧ t < base + count then (t - base) * 0x1000 else k.bankBase

/-- The cart with a bank base in `CART.bank[0]`, everything else as it was. -/
def Cart.showing (k : Cart) (base : Nat) : Cart := { k with bank := [BitVec.ofNat 32 base] }

/-- What a device is after its reset (40_address_space.md R142, R145, R146, R154, 41_cart_family.md R192,
42_cart_datafetcher.md R258). The image of an embedded chip is the chip's own (log 9). -/
def Device.ResetTo (clock : Word64) (d d' : Device) : Prop :=
  match d with
  | .absent | .null | .ram _ _ | .rom _ | .adapter _ _ => d' = d
  | .cart k =>
    match k.tag with
    | .f2k | .f4k | .f8k | .f16k | .f32k | .mc4k => d' = d
    | .l8k | .l16k | .l32k | .ls8k | .l8kr | .l16kr | .l32kr => d' = .cart (k.showing 0)
    | .c16kp => if k.attached then ∃ chip, d' = .cart { k with chip := chip } else d' = d
    | .df12k =>
      ∃ df : DataFetcher, d' = .cart { k.showing 0 with df := some df } ∧
        df.lfsr = 0x2B435044 ∧ df.rem = 0 ∧ df.last = (if k.attached then clock else 0) ∧
        (∀ n : Fin 8, df.channel n = { ctr := 0, fctr := 0, finc := 0, top := 0, bot := 0 }) ∧
        ∀ v : Fin 3, df.vphase[v] = 0 ∧ df.vfreq[v] = 0

/-- The chip call a device's reset makes (40_address_space.md R146, 41_cart_family.md R192). -/
def Device.resetCall : Device → List CallKind
  | .adapter chip _ => [.chip chip .reset]
  | .cart k => if k.tag = .c16kp ∧ k.attached = true then [.chip 1 .reset] else []
  | .absent | .null | .ram _ _ | .rom _ => []

/-- An entry of the record made now. -/
def Console.entry (c : Console) (k : CallKind) : Call := { kind := k, lbv := c.lbv, clock := c.clock }

/-- An entry made during construction: `AS.lbv` and `CPU.clock` are 0 (43_scheduler.md R280). -/
def firstEntry (k : CallKind) : Call := { kind := k, lbv := 0, clock := 0 }

/-- The entries a call of the cart's embedded chip makes; only `C16KP` has one (41_cart_family.md R183, R187,
R188, R192). -/
def Console.embeddedEntries (c : Console) (op : ChipOp) : List Call :=
  if c.cartTag = some .c16kp then [c.entry (.chip 1 op)] else []

/-- How many DMA steps the record holds (43_scheduler.md R290). -/
def Console.dmaSteps (c : Console) : Nat :=
  (c.calls.filter fun x => decide (x.kind = .dma .doProcessing)).length

/-- Run commands one after the other; none if one of them stops the machine. -/
def runAll : List Instr → State → Option State
  | [], s => some s
  | i :: is, s =>
    match exec i s with
    | .next t => runAll is t
    | .fault _ => none
    | .refused _ => none

/-- Invoke the generator once per elapsed time of the list: the ticks delivered, and the remainder
(42_cart_datafetcher.md R252). -/
def generatorRun : List Nat → Nat → Nat × Nat
  | [], rem => (0, rem)
  | e :: es, rem =>
    let (ticks, rem) := generatorTicks e rem
    let (more, rem) := generatorRun es rem
    (ticks + more, rem)

/-! ### The layout of a stream (44_serializer.md R353 to R361)

Token by token, with the literal bytes of headers and names; `putInt` is pinned by a claim of its
own (R341). -/

/-- `HDR(class)`, of every class (R351). -/
def layoutHeader : Bytes := [0x87, 0x00, 0x00, 0x78, 0x01, 0x00, 0x00, 0x00]
/-- `BOOL` (R343). -/
def layoutFlag (b : Bool) : Bytes := [if b then 1 else 0]
/-- `STR` (R348). -/
def layoutText (text : Bytes) : Bytes := BitVec.ofNat 8 text.length :: text
/-- `BYTES` (R349). -/
def layoutBytes (bs : Bytes) : Bytes := putInt 4 bs.length ++ bs

/-- A machine type's name (R353); `BARE` has none. -/
def typeText : MachType → Bytes
  | .bare => []
  | .ntsc => [0x4D, 0x37, 0x38, 0x30, 0x30, 0x4E, 0x54, 0x53, 0x43]
  | .pal => [0x4D, 0x37, 0x38, 0x30, 0x30, 0x50, 0x41, 0x4C]

/-- A tag's name (30_encoding.md R109). -/
def tagText : CartTag → Bytes
  | .f2k => [0x46, 0x32, 0x4B]
  | .f4k => [0x46, 0x34, 0x4B]
  | .l8k => [0x4C, 0x38, 0x4B]
  | .l16k => [0x4C, 0x31, 0x36, 0x4B]
  | .l32k => [0x4C, 0x33, 0x32, 0x4B]
  | .l8kr => [0x4C, 0x38, 0x4B, 0x52]
  | .l16kr => [0x4C, 0x31, 0x36, 0x4B, 0x52]
  | .l32kr => [0x4C, 0x33, 0x32, 0x4B, 0x52]
  | .ls8k => [0x4C, 0x53, 0x38, 0x4B]
  | .c16kp => [0x43, 0x31, 0x36, 0x4B, 0x50]
  | .df12k => [0x44, 0x46, 0x31, 0x32, 0x4B]
  | .mc4k => [0x4D, 0x43, 0x34, 0x4B]
  | .f8k => [0x46, 0x38, 0x4B]
  | .f16k => [0x46, 0x31, 0x36, 0x4B]
  | .f32k => [0x46, 0x33, 0x32, 0x4B]

/-- `CPUOBJ` (R354). -/
def layoutCpu (r : CpuRecord) : Bytes :=
  layoutHeader ++ putInt 8 r.clock.toNat ++ putInt 4 r.budget.toNat ++ layoutFlag r.jammed ++
    layoutFlag r.preempt ++ putInt 2 r.regs.pc.toNat ++ layoutBytes r.regs.regs.toList

/-- One channel of `DFOBJ` (R360). -/
def layoutChannel (c : Channel) : Bytes :=
  putInt 2 c.ctr.toNat ++ putInt 4 c.fctr.toNat ++ [c.finc, c.top, c.bot]

/-- `DFOBJ` (R360). -/
def layoutFetcher (d : DataFetcher) : Bytes :=
  layoutHeader ++ d.channels.toList.flatMap layoutChannel ++ putInt 4 d.lfsr.toNat ++
    putInt 4 d.vphase[0].toNat ++ putInt 4 d.vfreq[0].toNat ++
    putInt 4 d.vphase[1].toNat ++ putInt 4 d.vfreq[1].toNat ++
    putInt 4 d.vphase[2].toNat ++ putInt 4 d.vfreq[2].toNat ++
    putInt 4 d.rem ++ putInt 8 d.last.toNat

/-- `CART`, orders 1 to 4 (R359). -/
def layoutCartHead (k : Cart) : Bytes :=
  layoutText (tagText k.tag) ++ layoutHeader ++ layoutBytes k.rom ++
    k.bank.flatMap fun b => putInt 4 b.toNat
/-- `CART`, order 5: the overlay (R359). -/
def layoutOverlay (k : Cart) : Bytes :=
  if k.tag ∈ shadowTags then layoutFlag true ++ layoutBytes (tableFrom k.ram.read 0 0x80)
  else layoutFlag false
/-- `CART`, order 6: the coprocessor (R359). -/
def layoutCoprocessor (k : Cart) : Bytes :=
  match k.df with
  | some d => layoutFlag true ++ layoutFetcher d
  | none => layoutFlag false
/-- `CART`, order 7: the embedded chip (R359, R361). -/
def layoutChip (k : Cart) : Bytes :=
  match k.chip with
  | some img => layoutFlag true ++ layoutHeader ++ layoutBytes img
  | none => layoutFlag false
/-- `CART` (R359). -/
def layoutCart (k : Cart) : Bytes :=
  layoutCartHead k ++ layoutOverlay k ++ layoutCoprocessor k ++ layoutChip k

/-- What a machine's `CPUOBJ` says (R354). -/
def Console.cpuRecord (c : Console) (r : CpuRegs) : CpuRecord :=
  { clock := c.clock, budget := c.budget, jammed := c.jammed, preempt := c.preempt, regs := r }

/-- `BIOSOPT` (R358). -/
def layoutBios (c : Console) : Bytes :=
  match c.device 6 with
  | .rom img => layoutFlag true ++ layoutBytes img
  | .absent | .null | .ram _ _ | .adapter _ _ | .cart _ => layoutFlag false

/-- `CARTOPT` (R358). -/
def layoutCartOption (c : Console) : Bytes :=
  match c.device 1 with
  | .cart k => layoutFlag true ++ layoutCart k
  | .absent | .null | .ram _ _ | .rom _ | .adapter _ _ => layoutFlag false

/-- `ROOT` (R353), with `ASOBJ` (R355), `DMAOBJ`, `INPUTOBJ` (R356) and `RAMBANKS` (R357) in it. -/
def layoutRoot (c : Console) (ch : Chips) : Bytes :=
  layoutText (typeText c.type) ++ layoutHeader ++ layoutFlag c.halt ++ putInt 8 c.frame.toNat ++
    layoutCpu (c.cpuRecord ch.cpu) ++
    layoutHeader ++ [c.lbv] ++
    layoutHeader ++ layoutBytes ch.dma ++
    layoutBytes (tableFrom (c.device 2).cell 0 0x800) ++
    layoutBytes (tableFrom (c.device 3).cell 0 0x800) ++
    layoutBios c ++
    layoutHeader ++ layoutBytes ch.input ++
    layoutCartOption c

/-! ### Tables of the spec -/

/-- The phases in which a host command is legal (30_encoding.md R106). A bus transaction is no host
command: no phase is checked (40_address_space.md R152, R153). -/
def phaseAllows (p : Phase) : Instr → Bool
  | .mkmach _ _ _ | .mkcart _ | .restore => true
  | .mkram _ _ | .mkrom _ | .mkadp _ _ _ | .attach _ | .map _ _ _ | .mapc _ _ _ | .selfmap _
  | .dreset _ => decide (p = .bench)
  | .rd _ | .wr _ _ => decide (p ≠ .empty)
  | .mreset | .frame | .poll | .save => decide (p = .run)
  | .busRd _ | .busWr _ _ => true

/-- The outcome codes a host command can report (60_exceptions.md R401, column "raised by"). -/
def outcomesOf : Instr → List Status
  | .mkmach _ _ _ => [.ok, .refusedBadOperand, .badMachineTag, .badRomSize]
  | .mkcart _ => [.ok, .badCartTag, .badRomSize]
  | .mkram _ _ | .mkrom _ | .mkadp _ _ _ | .attach _ =>
    [.ok, .refusedPhase, .refusedBadHandle, .refusedBadOperand]
  | .map _ _ _ | .mapc _ _ _ | .selfmap _ | .dreset _ => [.ok, .refusedPhase, .refusedBadHandle]
  | .mreset | .rd _ | .wr _ _ | .frame | .poll | .save => [.ok, .refusedPhase]
  | .restore =>
    [.ok, .badMagic, .badVersion, .badDiscriminant, .badLength, .overCap, .truncated, .badBool,
      .badString, .badValue, .trailingData]
  | .busRd _ | .busWr _ _ => []

/-- The faults an instruction can raise in a phase (60_exceptions.md R401, R408). -/
def faultsOf (p : Phase) : Instr → List Fault
  | .rd _ | .wr _ _ | .busRd _ | .busWr _ _ => if p = .bench then [.chipNotAttached] else []
  | .frame => [.badDmaClocks]
  | .mkmach _ _ _ | .mkcart _ | .mkram _ _ | .mkrom _ | .mkadp _ _ _ | .attach _ | .map _ _ _
  | .mapc _ _ _ | .selfmap _ | .dreset _ | .mreset | .poll | .save | .restore => []

/-- The bits of a format H word that the command of an operation code uses, its operation code among
them (30_encoding.md R104); none where the code is reserved (R112). -/
def usedBits : Nat → Option CommandWord
  | 0x01 => some 0xFF000000000003FF
  | 0x02 => some 0xFF000000000000FF
  | 0x03 => some 0xFFFF0000FFFFFFFF
  | 0x04 => some 0xFFFF000000000000
  | 0x05 => some 0xFFFFFFFF000000FF
  | 0x06 => some 0xFFFF000000000000
  | 0x07 => some 0xFFFFFFFFFFFFFFFF
  | 0x08 => some 0xFFFFFFFFFFFFFFFF
  | 0x09 => some 0xFFFF000000000000
  | 0x0A => some 0xFFFF000000000000
  | 0x10 => some 0xFF00000000000000
  | 0x11 => some 0xFF00FFFF00000000
  | 0x12 => some 0xFF00FFFF000000FF
  | 0x13 => some 0xFF00000000000000
  | 0x14 => some 0xFF00000000000000
  | 0x20 => some 0xFF00000000000000
  | 0x21 => some 0xFF00000000000000
  | _ => none

end Sys2Proof.Machine
end

