-- ==== Sys2Proof/Certificates/Slice0/Obligations.lean ====
section
/-! DEFINITION. The statements about the block, each after a rule of spec/. A clause that rests on a
choice of the model says so and names its log entry. -/

open Sys2Proof Sys2Proof.Machine

/-! ### Encoding and fetching -/

/-- 30_encoding.md R103 to R107: no operand bit of a well-formed instruction is dropped. -/
def Obligations.EncodeThenDecodeIsIdentity : Prop :=
  ∀ i : Instr, i.wellFormed = true → decode (encode i) = .ok i

/-- 30_encoding.md R105: decode is injective; a word that decodes is the one word of a well-formed
instruction. -/
def Obligations.DecodedWordEncodesBack : Prop :=
  ∀ (r : Request) (i : Instr), decode r = .ok i → i.wellFormed = true ∧ encode i = r

/-- 30_encoding.md R105, R112: a format H word is a command exactly when its operation code is in the
table and every bit the command does not use is 0; any other word is `Refused.BadCommand` and has no
effect. That the word is latched in `CMD` and taken off the host's queue is the model's (log 1,
log 2). -/
def Obligations.CommandWordsOutsideTheTableAreRefused : Prop :=
  ∀ w : CommandWord,
    (match usedBits (opField w).toNat with
      | none => decodeCommand w = .error .unknownOp
      | some used =>
        (w &&& ~~~used = 0 → ∃ i, decodeCommand w = .ok i ∧ i.isCommand = true) ∧
          (w &&& ~~~used ≠ 0 → decodeCommand w = .error .unusedBits)) ∧
    ∀ (s : State) (rest : List HostInput), s.queue = .request (.command w) :: rest →
      (∀ used, usedBits (opField w).toNat = some used → w &&& ~~~used ≠ 0) →
      step s = .next { s with queue := rest, cmd := w, status := .refusedBadCommand }

/-- 30_encoding.md R103, R104: one word of every operation, written out field by field. -/
def Obligations.SampleWordsDecode : Prop :=
  decodeCommand 0x0100000000000301 = .ok (.mkmach 1 true true) ∧
  decodeCommand 0x0200000000000007 = .ok (.mkcart 7) ∧
  decodeCommand 0x0302000000000800 = .ok (.mkram 2 0x800) ∧
  decodeCommand 0x0403000000000000 = .ok (.mkrom 3) ∧
  decodeCommand 0x0509000F00000021 = .ok (.mkadp 9 0x000F 0x21) ∧
  decodeCommand 0x0601000000000000 = .ok (.attach 1) ∧
  decodeCommand 0x0702180000000800 = .ok (.map 2 0x1800 0x800) ∧
  decodeCommand 0x0801F00000001000 = .ok (.mapc 1 0xF000 0x1000) ∧
  decodeCommand 0x0901000000000000 = .ok (.selfmap 1) ∧
  decodeCommand 0x0A01000000000000 = .ok (.dreset 1) ∧
  decodeCommand 0x1000000000000000 = .ok .mreset ∧
  decodeCommand 0x1100123400000000 = .ok (.rd 0x1234) ∧
  decodeCommand 0x12001805000000AB = .ok (.wr 0x1805 0xAB) ∧
  decodeCommand 0x1300000000000000 = .ok .frame ∧
  decodeCommand 0x1400000000000000 = .ok .poll ∧
  decodeCommand 0x2000000000000000 = .ok .save ∧
  decodeCommand 0x2100000000000000 = .ok .restore ∧
  decodeBus 0x0FFF900 = .ok (.busRd 0xFFF9) ∧
  decodeBus 0x1FFF85A = .ok (.busWr 0xFFF8 0x5A)

/-- The model's fetch (log 1, log 2, log 17): a request at the head of the host's queue is decoded and
run; a buffer filling is a step of its own; with nothing left the block idles; a format B word that is
no transaction is refused (30_encoding.md R103). -/
def Obligations.StepRunsTheDecodedInstruction : Prop :=
  (∀ (s : State) (r : Request) (rest : List HostInput) (i : Instr),
    s.queue = .request r :: rest → decode r = .ok i →
    step s = exec i
      (match r with
        | .command w => { s with queue := rest, cmd := w }
        | .bus _ => { s with queue := rest })) ∧
  (∀ s : State, s.queue = [] → step s = .next s) ∧
  (∀ (s : State) (bs : Bytes) (rest : List HostInput), s.queue = .romPort bs :: rest →
    step s = .next { s with queue := rest, romPort := bs }) ∧
  (∀ (s : State) (bs : Bytes) (rest : List HostInput), s.queue = .sin bs :: rest →
    step s = .next { s with queue := rest, sin := bs }) ∧
  ∀ (s : State) (w : BusWord) (rest : List HostInput), s.queue = .request (.bus w) :: rest →
    w.getLsbD 24 = false → busDataField w ≠ 0 → step s = .refused .notATransaction

/-! ### Outcomes -/

/-- 30_encoding.md R106. -/
def Obligations.PhaseTableIsEnforced : Prop :=
  ∀ (i : Instr) (s : State), i.isCommand = true →
    (phaseAllows s.phase i = false → exec i s = .next { s with status := .refusedPhase }) ∧
    ∀ t, phaseAllows s.phase i = true → exec i s = .next t → t.status ≠ .refusedPhase

/-- 60_exceptions.md R406, R402, R403: a refused command or an error leaves everything but `STATUS`. -/
def Obligations.RefusalsAndErrorsChangeOnlyStatus : Prop :=
  ∀ (i : Instr) (s t : State), i.isCommand = true → exec i s = .next t → t.status ≠ .ok →
    t = { s with status := t.status }

/-- 60_exceptions.md R401, R408: which outcome codes and which faults an operation can report. The
refusal of a bus transaction in `EMPTY` is the model's (log 16). -/
def Obligations.OutcomesAreThoseOfTheTable : Prop :=
  ∀ (i : Instr) (s : State), s.Inv →
    match exec i s with
    | .next t => i.isCommand = true → t.status ∈ outcomesOf i
    | .fault f => f ∈ faultsOf s.phase i
    | .refused r => r = .noAddressSpace ∧ i.isCommand = false ∧ s.phase = .empty

/-- 70_reset_and_hazards.md R441: the values power-on gives, what is absent, and which commands are not
refused. -/
def Obligations.ResetIsPowerOn : Prop :=
  State.reset.phase = .empty ∧ State.reset.console = none ∧
  (∀ h : Handle, State.reset.device h = if h = 0 then .null else .absent) ∧
  State.reset.stage = none ∧ State.reset.mcSel = 0 ∧ State.reset.status = .ok ∧
  State.reset.status.code = 0 ∧ State.reset.result = 0 ∧ State.reset.schedPhase = .idle ∧
  State.reset.romPort = [] ∧ State.reset.sin = [] ∧ State.reset.sout = [] ∧
  ∀ i : Instr, i.isCommand = true → (∀ ty a b, i ≠ .mkmach ty a b) → (∀ tag, i ≠ .mkcart tag) →
    i ≠ .restore → exec i State.reset = .next { State.reset with status := .refusedPhase }

/-! ### The invariant -/

/-- The invariant holds after power-on. -/
def Obligations.ResetSatisfiesTheInvariant : Prop := State.reset.Inv

/-- 10_state.md R22, R30, R33, R34, R40, 43_scheduler.md R282, R294, 44_serializer.md R355: every step,
of any state that satisfies the invariant, keeps it. -/
def Obligations.EveryStepKeepsTheInvariant : Prop :=
  ∀ s t : State, s.Inv → step s = .next t → t.Inv

/-- 10_state.md R21, R22, R32, 41_cart_family.md R190, 70_reset_and_hazards.md R450: in `RUN` no
operation but `MKMACH` and `RESTORE` changes the page table, the snooper, a device's identity or
constants, or a byte of ROM. -/
def Obligations.TopologyIsFixedInRun : Prop :=
  ∀ (i : Instr) (s t : State) (c : Console), s.Inv → s.running = some c →
    i.replacesMachine = false → exec i s = .next t →
    ∃ d, t.running = some d ∧ c.SameTopology d

/-- 10_state.md R42, R43, R44, R50, 30_encoding.md R103: which operation writes which register of the
host interface, the factory and the stage. `CMD` and the queue are written by fetching only (log 1,
log 2); that a bus transaction leaves `STATUS` and `RESULT` is the model's (log 17). -/
def Obligations.HostRegistersHaveTheirWriters : Prop :=
  ∀ (i : Instr) (s t : State), exec i s = .next t →
    t.queue = s.queue ∧ t.cmd = s.cmd ∧ t.romPort = s.romPort ∧ t.sin = s.sin ∧
    (i ≠ .save → t.sout = s.sout) ∧
    ((∀ tag, i ≠ .mkcart tag) → t.mcSel = s.mcSel) ∧
    ((∀ tag, i ≠ .mkcart tag) → (∀ ty b, i ≠ .mkmach ty true b) → t.stage = s.stage) ∧
    ((∀ a, i ≠ .rd a) → (∀ h, i ≠ .selfmap h) → i ≠ .frame → i ≠ .poll → t.result = s.result) ∧
    ((∀ a, i ≠ .busRd a) → t.busData = s.busData) ∧
    (i.isCommand = false → t.status = s.status)

/-! ### Construction -/

/-- 43_scheduler.md R280: the tests of `MKMACH`, in their order; a failed one changes `STATUS` only. -/
def Obligations.MkmachTestsInOrder : Prop :=
  ∀ (s : State) (type : Nat) (useCart hasBios : Bool),
    (2 < type → exec (.mkmach type useCart hasBios) s = .next { s with status := .badMachineTag }) ∧
    (type ≤ 2 → useCart = true → s.stage = none →
      exec (.mkmach type useCart hasBios) s = .next { s with status := .refusedBadOperand }) ∧
    (type ≤ 2 → (useCart = true → s.stage ≠ none) → hasBios = true → type = 0 →
      exec (.mkmach type useCart hasBios) s = .next { s with status := .refusedBadOperand }) ∧
    (type ≤ 2 → (useCart = true → s.stage ≠ none) → hasBios = true → type ≠ 0 →
      s.romPort.length ≠ 4096 →
      exec (.mkmach type useCart hasBios) s = .next { s with status := .badRomSize })

/-- 43_scheduler.md R280, R281: `MKMACH BARE` completes with a fresh bare address space; the record of
what passed goes on (log 22). -/
def Obligations.MkmachBareMakesABench : Prop :=
  ∀ (s : State) (useCart : Bool), (useCart = true → s.stage ≠ none) →
    ∃ c : Console,
      exec (.mkmach 0 useCart false) s = .next
        { s with console := some c, stage := if useCart then none else s.stage, status := .ok } ∧
      c.phase = .bench ∧ c.type = .bare ∧ c.hasBios = false ∧ c.halt = false ∧ c.frame = 0 ∧
      c.clock = 0 ∧ c.budget = 0 ∧ c.jammed = false ∧ c.preempt = false ∧ c.sched = Sched.idle ∧
      c.lbv = 0 ∧ c.snooper = 0 ∧ (∀ p, p < 1024 → c.pageAt p = 0) ∧ c.calls = s.calls ∧
      ∀ h : Handle, c.device h =
        if h = 0 then .null
        else if h = 1 then
          match (if useCart then s.stage else none) with
          | some k => .cart k
          | none => .absent
        else .absent

/-- 43_scheduler.md R280, R281, R282, 41_cart_family.md R218: `MKMACH` of a real type completes; the
machine has the devices, the page table and the snooper of the fixed map, every scheduler register at
its construction value, and its cart attached. Its last step is the machine reset (R283), which
`MresetLeavesTheAccounts` and `CellsChangeOnlyByBusWrites` pin. Before that reset (10_state.md R24, R29,
R48, 70_reset_and_hazards.md R442): the record (newest first, log 5) gains the embedded chip's creation,
`CPU.Create`, and `DMA.Create` with that chip's bus accesses (log 19); a cell that none of these writes
stores to is as it was built, so 0 in the RAM banks, and any other holds the byte of the last one; and
where `DMA.Create` makes no bus access, `AS.lbv` is 0, every device is as it was built, and the cart is
the given one, attached, its generator's clock 0. -/
def Obligations.MkmachMakesTheMachine : Prop :=
  (∀ (s : State) (type : Nat) (useCart hasBios : Bool), s.Inv → type = 1 ∨ type = 2 →
    (useCart = true → s.stage ≠ none) → (hasBios = true → s.romPort.length = 4096) →
    ∃ c : Console,
      exec (.mkmach type useCart hasBios) s = .next
        { s with console := some c, stage := if useCart then none else s.stage, status := .ok } ∧
      (∃ c₀ : Console, construct Env.hw (if type = 1 then .ntsc else .pal)
          (if useCart then s.stage else none) (if hasBios then some s.romPort else none) s.calls =
            .ok c₀ ∧ machineReset Env.hw c₀ = .ok c) ∧
      c.phase = .run ∧ c.type = (if type = 1 then .ntsc else .pal) ∧ c.hasBios = hasBios ∧
      c.halt = false ∧ c.frame = 0 ∧ c.clock = 0 ∧ c.budget = 0 ∧ c.jammed = false ∧
      c.preempt = false ∧ c.sched = Sched.idle ∧
      (∀ h : Handle, (c.device h).constants =
        (builtDevice (if useCart then s.stage else none)
          (if hasBios then some s.romPort else none) h).constants) ∧
      (∀ p, p < 1024 → c.pageAt p =
        machinePage hasBios ((if useCart then s.stage else none).map Cart.tag) p) ∧
      c.snooper = machineSnooper ((if useCart then s.stage else none).map Cart.tag)) ∧
  ∀ (E : Env) (type : MachType) (cart : Option Cart) (bios : Option Bytes) (calls : List Call)
    (c : Console), type ≠ .bare → (∀ k, cart = some k → k.Ok E ∧ k.attached = false) →
    (∀ img, bios = some img → img.length = 4096) → construct E type cart bios calls = .ok c →
    ∃ dmaBus : List Call,
      c.calls = dmaBus ++ (firstEntry (.dma .create) :: firstEntry (.cpu .create) ::
        ((if cart.map Cart.tag = some .c16kp then [firstEntry (.chip 1 .create)] else []) ++ calls)) ∧
      (∀ x ∈ dmaBus, x.kind.byBus .dma) ∧
      (∀ h ∈ [(2 : Handle), 3], ∀ j, (builtDevice cart bios h).cell j = 0) ∧
      (∀ h j,
        (c.neverStored h j dmaBus → (c.device h).cell j = (builtDevice cart bios h).cell j) ∧
        ∀ (newer older : List Call) (x : Call) (who : Master) (addr : Nat) (v : Byte),
          dmaBus = newer ++ x :: older → x.kind = .busWrite who addr v →
          c.stores (BitVec.ofNat 16 addr) h j → c.neverStored h j newer →
          (c.device h).cell j = v) ∧
      (dmaBus = [] → c.lbv = 0 ∧ (∀ h, h ≠ 1 → c.device h = builtDevice cart bios h) ∧
        (cart = none → c.device 1 = .absent) ∧
        ∀ k, cart = some k → ∃ chip : Option Bytes,
          c.device 1 = .cart
            { k with
              attached := true
              chip := chip
              df := k.df.map fun d => { d with last := 0 } } ∧
          chip.isSome = decide (k.tag = .c16kp))

/-- 41_cart_family.md R180, R181, R182, R183, 30_encoding.md R109: the tag is tested before the length; under tag `Unknown` five
lengths infer a variant and every other is an error; an explicit tag takes its own lengths only. -/
def Obligations.MkcartTestsTagThenLength : Prop :=
  ∀ (s : State) (tag : Nat),
    (15 < tag → exec (.mkcart tag) s = .next { s with status := .badCartTag }) ∧
    (∀ t : CartTag,
      (s.romPort.length, t) ∈ inferTable →
      ∃ k, exec (.mkcart 0) s = .next { s with stage := some k, status := .ok } ∧ k.tag = t) ∧
    (s.romPort.length ∉ [2048, 4096, 8192, 16384, 32768] →
      exec (.mkcart 0) s = .next { s with status := .badRomSize }) ∧
    ∀ t : CartTag, (tag, t) ∈ tagTable → s.romPort.length ∉ romLengths t →
      exec (.mkcart tag) s = .next { s with status := .badRomSize }

/-- 41_cart_family.md R180, R181, R183, R211, 30_encoding.md R109, 42_cart_datafetcher.md R241: the cart
that is staged, under a variant's own tag and, where the length infers a variant, under tag `Unknown`
(code 0): the two stage the same cart. -/
def Obligations.MkcartStagesANewCart : Prop :=
  ∀ (s : State) (tag : Nat) (t : CartTag),
    ((tag, t) ∈ tagTable ∧ s.romPort.length ∈ romLengths t) ∨
      (tag = 0 ∧ (s.romPort.length, t) ∈ inferTable) →
    (∀ code, (code, t) ∈ tagTable → exec (.mkcart tag) s = exec (.mkcart code) s) ∧
    ∃ k : Cart,
      exec (.mkcart tag) s = .next
        { s with
          stage := some k
          mcSel := if t = .mc4k then s.mcSel + 1 else s.mcSel
          status := .ok } ∧
      k.tag = t ∧ k.rom = s.romPort ∧ k.attached = false ∧ k.chip = none ∧
      (∀ i, k.ram.read i = 0) ∧
      k.bank =
        (if t = .mc4k then
          [BitVec.ofNat 32 (s.mcSel.toNat % (s.romPort.length / 0x1000) * 0x1000)]
        else if t ∈ fixedTags ∨ t = .c16kp then [] else [0]) ∧
      (t ≠ .df12k → k.df = none) ∧
      (t = .df12k → ∃ d, k.df = some d ∧ d.lfsr = 0x2B435044 ∧ d.rem = 0 ∧ d.last = 0 ∧
        (∀ n : Fin 8, d.channel n = { ctr := 0, fctr := 0, finc := 0, top := 0, bot := 0 }) ∧
        ∀ v : Fin 3, d.vphase[v] = 0 ∧ d.vfreq[v] = 0)

/-! ### Devices and mapping on the bench -/

/-- 40_address_space.md R143, R144, R146: `MKRAM`, `MKROM` and `MKADP` fill a free handle above 1 and
change nothing else; the handle is tested before the operand. -/
def Obligations.ConstructorsFillAFreeHandle : Prop :=
  ∀ (s : State) (c : Console) (h : Handle) (size : Nat) (mask : Addr) (chip : Byte),
    s.bench = some c →
    ((h.toNat < 2 ∨ c.device h ≠ .absent) →
      exec (.mkram h size) s = .next { s with status := .refusedBadHandle } ∧
      exec (.mkrom h) s = .next { s with status := .refusedBadHandle } ∧
      exec (.mkadp h mask chip) s = .next { s with status := .refusedBadHandle }) ∧
    (2 ≤ h.toNat → c.device h = .absent →
      ((∃ n, 6 ≤ n ∧ n ≤ 16 ∧ size = 2 ^ n) → ∃ mem : Memory, (∀ i, mem.read i = 0) ∧
        exec (.mkram h size) s = .next
          { s with console := some (c.setDevice h (.ram size mem)), status := .ok }) ∧
      ((¬∃ n, 6 ≤ n ∧ n ≤ 16 ∧ size = 2 ^ n) →
        exec (.mkram h size) s = .next { s with status := .refusedBadOperand }) ∧
      ((∃ n, 6 ≤ n ∧ n ≤ 16 ∧ s.romPort.length = 2 ^ n) →
        exec (.mkrom h) s = .next
          { s with console := some (c.setDevice h (.rom s.romPort)), status := .ok }) ∧
      ((¬∃ n, 6 ≤ n ∧ n ≤ 16 ∧ s.romPort.length = 2 ^ n) →
        exec (.mkrom h) s = .next { s with status := .refusedBadOperand }) ∧
      (chip ≠ 0 → exec (.mkadp h mask chip) s = .next
        { s with console := some (c.setDevice h (.adapter chip mask)), status := .ok }) ∧
      (chip = 0 → exec (.mkadp h mask chip) s = .next { s with status := .refusedBadOperand }))

/-- 40_address_space.md R147, R148: `MAP` gives the device every page that a byte of the range lies in,
and writes nothing else. -/
def Obligations.MapClaimsOverlappedPages : Prop :=
  ∀ (s : State) (h : Handle) (base : Addr) (size : Nat),
    (s.phase ≠ .bench → exec (.map h base size) s = .next { s with status := .refusedPhase }) ∧
    ∀ c : Console, s.bench = some c →
      (c.device h = .absent → exec (.map h base size) s = .next { s with status := .refusedBadHandle }) ∧
      (c.device h ≠ .absent → ∃ page : Vector Handle 1024,
        exec (.map h base size) s = .next
          { s with console := some { c with page := page }, status := .ok } ∧
        ∀ p (hp : p < 1024), (overlapsPage base size p → page[p] = h) ∧
          (¬overlapsPage base size p → page[p] = c.page[p]))

/-- 40_address_space.md R149, R150, 41_cart_family.md R183: `MAPC` maps the cart, and makes it the snooper
exactly when its variant wants snooping, which only `LS8K` does, whatever the size. -/
def Obligations.MapcInstallsTheSnooper : Prop :=
  ∀ (s : State) (h : Handle) (base : Addr) (size : Nat),
    (s.phase ≠ .bench → exec (.mapc h base size) s = .next { s with status := .refusedPhase }) ∧
    ∀ c : Console, s.bench = some c →
      ((h ≠ 1 ∨ ∀ k, c.device 1 ≠ .cart k) →
        exec (.mapc h base size) s = .next { s with status := .refusedBadHandle }) ∧
      ∀ k : Cart, h = 1 → c.device 1 = .cart k → ∃ page : Vector Handle 1024,
        exec (.mapc h base size) s = .next
          { s with
            console := some
              { c with page := page, snooper := if k.tag = .ls8k then 1 else c.snooper }
            status := .ok } ∧
        ∀ p (hp : p < 1024), (overlapsPage base size p → page[p] = 1) ∧
          (¬overlapsPage base size p → page[p] = c.page[p])

/-- 41_cart_family.md R189, R218: `SELFMAP` of a `C16KP` cart claims its two windows and returns 1; of
any other cart it returns 0 and maps nothing. -/
def Obligations.SelfmapMapsTheWindows : Prop :=
  ∀ (s : State) (c : Console) (h : Handle), s.bench = some c →
    ((h ≠ 1 ∨ ∀ k, c.device 1 ≠ .cart k) →
      exec (.selfmap h) s = .next { s with status := .refusedBadHandle }) ∧
    ∀ k : Cart, h = 1 → c.device 1 = .cart k →
      (k.tag ≠ .c16kp → exec (.selfmap h) s = .next { s with status := .ok, result := 0 }) ∧
      (k.tag = .c16kp → ∃ page : Vector Handle 1024,
        exec (.selfmap h) s = .next
          { s with console := some { c with page := page }, status := .ok, result := 1 } ∧
        ∀ p (hp : p < 1024),
          ((0x100 ≤ p ∧ p ≤ 0x1FF) ∨ (0x300 ≤ p ∧ p ≤ 0x3FF) → page[p] = 1) ∧
          (¬((0x100 ≤ p ∧ p ≤ 0x1FF) ∨ (0x300 ≤ p ∧ p ≤ 0x3FF)) → page[p] = c.page[p]))

/-- 41_cart_family.md R186: `ATTACH` sets the flag once, creates the embedded chip, and sets the
generator's clock. What the chip's first image is, and that other images may change at the call, is
the model's (log 5, log 9). -/
def Obligations.AttachHappensOnce : Prop :=
  ∀ (s : State) (c : Console) (h : Handle), s.bench = some c →
    ((h ≠ 1 ∨ ∀ k, c.device 1 ≠ .cart k) →
      exec (.attach h) s = .next { s with status := .refusedBadHandle }) ∧
    ∀ k : Cart, h = 1 → c.device 1 = .cart k →
      (k.attached = true → exec (.attach h) s = .next { s with status := .refusedBadOperand }) ∧
      (k.attached = false → ∃ (c' : Console) (chip : Option Bytes),
        exec (.attach h) s = .next { s with console := some c', status := .ok } ∧
        c'.device 1 = .cart
          { k with
            attached := true
            chip := chip
            df := if k.tag = .df12k then k.df.map fun d => { d with last := c.clock } else k.df } ∧
        (k.tag ≠ .c16kp → chip = k.chip ∧ c'.calls = c.calls) ∧
        (k.tag = .c16kp → chip.isSome = true ∧
          c'.calls = { kind := .chip 1 .create, lbv := c.lbv, clock := c.clock } :: c.calls) ∧
        (∀ g, g ≠ 1 → c'.device g = c.device g) ∧ c'.page = c.page ∧ c'.snooper = c.snooper ∧
        c'.lbv = c.lbv ∧ c'.type = c.type ∧ c'.hasBios = c.hasBios ∧ c.SameScheduler c' ∧
        c'.chips = none)

/-- 40_address_space.md R151, 41_cart_family.md R192, 42_cart_datafetcher.md R258,
70_reset_and_hazards.md R444: `DRESET` completes on every device and does what its kind says
(`Device.ResetTo`, `Device.resetCall`); it never touches the page table, the snooper or the last bus
value. That a chip's call enters the record is the model's (log 5). -/
def Obligations.DresetActsByKind : Prop :=
  ∀ (s : State) (c : Console) (h : Handle), s.Inv → s.bench = some c →
    (c.device h = .absent → exec (.dreset h) s = .next { s with status := .refusedBadHandle }) ∧
    (c.device h ≠ .absent → ∃ c' : Console,
      exec (.dreset h) s = .next { s with console := some c', status := .ok } ∧
      (c.device h).ResetTo c.clock (c'.device h) ∧
      c'.calls = (c.device h).resetCall.map c.entry ++ c.calls ∧
      (∀ g, g ≠ h → c'.device g = c.device g) ∧ c'.page = c.page ∧ c'.snooper = c.snooper ∧
      c'.lbv = c.lbv ∧ c'.type = c.type ∧ c'.hasBios = c.hasBios ∧ c.SameScheduler c' ∧
      c'.chips = none)

/-! ### The bus -/

/-- 20_memory.md R71, R76, R77, 40_address_space.md R152, R153: the snooper first, the mapped device
second, the last bus value in between and after; the four access operations perform exactly this. -/
def Obligations.BusAccessesAreTwoPhase : Prop :=
  (∀ (E : Env) (addr : Nat) (c c₁ c₂ : Console) (s v : Byte),
    devRead E c.snooper (BitVec.ofNat 16 addr) c = .ok (s, c₁) →
    devRead E (c₁.pageAt ((BitVec.ofNat 16 addr).toNat / 64)) (BitVec.ofNat 16 addr)
      { c₁ with lbv := s } = .ok (v, c₂) →
    memRead E addr c = .ok (v, { c₂ with lbv := v })) ∧
  (∀ (E : Env) (addr : Nat) (v : Byte) (c c₁ c₂ : Console),
    devWrite E c.snooper (BitVec.ofNat 16 addr) v { c with lbv := v } = .ok c₁ →
    devWrite E (c₁.pageAt ((BitVec.ofNat 16 addr).toNat / 64)) (BitVec.ofNat 16 addr) v c₁ = .ok c₂ →
    memWrite E addr v c = .ok c₂) ∧
  (∀ (s : State) (c c' : Console) (a : Addr) (v : Byte), s.console = some c →
    memRead Env.hw a.toNat c = .ok (v, c') →
    exec (.rd a) s = .next { s with console := some c', status := .ok, result := v } ∧
    exec (.busRd a) s = .next { s with console := some c', busData := v }) ∧
  ∀ (s : State) (c c' : Console) (a : Addr) (v : Byte), s.console = some c →
    memWrite Env.hw a.toNat v c = .ok c' →
    exec (.wr a v) s = .next { s with console := some c', status := .ok } ∧
    exec (.busWr a v) s = .next { s with console := some c' }

/-- 40_address_space.md R142, R154, R145: what the null device, a RAM block and a ROM block answer and
change. The sizes are powers of two, so the reduction is the remainder. -/
def Obligations.SimpleDevicesReadAndWrite : Prop :=
  ∀ (E : Env) (c : Console) (h : Handle) (a : Addr) (v : Byte), c.Wired E →
    (c.device h = .null →
      devRead E h a c = .ok (0x00, c) ∧ devWrite E h a v c = .ok c ∧ devReset E h c = c) ∧
    (∀ size mem, c.device h = .ram size mem →
      devRead E h a c = .ok (mem.read (a.toNat % size), c) ∧ devReset E h c = c ∧
      ∃ mem', devWrite E h a v c = .ok (c.setDevice h (.ram size mem')) ∧
        ∀ i, mem'.read i = if i = a.toNat % size then v else mem.read i) ∧
    ∀ img, c.device h = .rom img →
      devRead E h a c = .ok (img.getD (a.toNat % img.length) 0, c) ∧
      devWrite E h a v c = .ok c ∧ devReset E h c = c

/-- 40_address_space.md R146, 41_cart_family.md R208, R209, R210, R216: an adapter and the window of an
embedded chip call their chip with the masked address and return its answer; the chip sees the record
up to the call (log 5). The cart's other addresses are its base family's. -/
def Obligations.ChipAccessesCallTheChip : Prop :=
  (∀ (E : Env) (c : Console) (h : Handle) (a mask : Addr) (v chip : Byte),
    c.device h = .adapter chip mask →
    (∃ c', devRead E h a c = .ok (E.collab.chipRead c'.calls, c') ∧ c'.dev = c.dev ∧
      c'.lbv = c.lbv ∧ c'.calls =
        { kind := .chip chip (.read (a &&& mask)), lbv := c.lbv, clock := c.clock } :: c.calls) ∧
    ∃ c', devWrite E h a v c = .ok c' ∧ c'.dev = c.dev ∧ c'.lbv = c.lbv ∧ c'.calls =
      { kind := .chip chip (.update (a &&& mask) v), lbv := c.lbv, clock := c.clock } :: c.calls) ∧
  ∀ (E : Env) (c : Console) (k : Cart) (a : Addr) (v : Byte), k.Ok E → k.tag = .c16kp →
    (0x4000 ≤ a.toNat ∧ a.toNat < 0x8000 →
      (k.attached = false → cartRead E a k c = .error .chipNotAttached ∧
        cartWrite E a v k c = .error .chipNotAttached) ∧
      (k.attached = true →
        (∃ k' c', cartRead E a k c = .ok (E.collab.chipRead c'.calls, k', c') ∧
          k' = { k with chip := k'.chip } ∧ c'.dev = c.dev ∧ c'.calls =
            { kind := .chip 1 (.read (a &&& 0x000F)), lbv := c.lbv, clock := c.clock } :: c.calls) ∧
        ∃ k' c', cartWrite E a v k c = .ok (k', c') ∧
          k' = { k with chip := k'.chip } ∧ c'.dev = c.dev ∧ c'.calls =
            { kind := .chip 1 (.update (a &&& 0x000F) v), lbv := c.lbv, clock := c.clock } ::
              c.calls)) ∧
    (¬(0x4000 ≤ a.toNat ∧ a.toNat < 0x8000) →
      cartRead E a k c = .ok (k.rom.getD (a.toNat % 0x4000) 0, k, c) ∧
      cartWrite E a v k c = .ok (k, c))

/-- 20_memory.md R74, 41_cart_family.md R217, 60_exceptions.md R408: an access completes whenever no
unattached cart needs its machine, and always in `RUN`; it leaves the byte moved in `AS.lbv`, and
changes no page, no snooper, no device's constants, no scheduler register and no CPU register. -/
def Obligations.BusAccessesComplete : Prop :=
  ∀ (s : State) (c : Console) (a : Addr) (v : Byte), s.Inv → s.console = some c →
    c.CartReady ∨ s.phase = .run →
    (∃ c' b, exec (.rd a) s = .next { s with console := some c', status := .ok, result := b } ∧
      c'.lbv = b ∧ c.SameTopology c' ∧ c.SameScheduler c' ∧ c'.collaborators = c.collaborators) ∧
    (∃ c' b, exec (.busRd a) s = .next { s with console := some c', busData := b } ∧
      c'.lbv = b ∧ c.SameTopology c' ∧ c.SameScheduler c' ∧ c'.collaborators = c.collaborators) ∧
    (∃ c', exec (.wr a v) s = .next { s with console := some c', status := .ok } ∧
      c'.lbv = v ∧ c.SameTopology c' ∧ c.SameScheduler c' ∧ c'.collaborators = c.collaborators) ∧
    ∃ c', exec (.busWr a v) s = .next { s with console := some c' } ∧
      c'.lbv = v ∧ c.SameTopology c' ∧ c.SameScheduler c' ∧ c'.collaborators = c.collaborators

/-- 41_cart_family.md R217, 42_cart_datafetcher.md R252: an access to the chip window or the waveform
registers of a cart that was never attached is `Fault.ChipNotAttached`. -/
def Obligations.UnattachedAccessFaults : Prop :=
  ∀ (s : State) (c : Console) (k : Cart) (a : Addr) (v : Byte), s.Inv → s.bench = some c →
    c.device 1 = .cart k → k.attached = false → c.snooper = 0 → c.mappedHandle a = 1 →
    (k.tag = .c16kp → 0x4000 ≤ a.toNat → a.toNat < 0x8000 →
      exec (.rd a) s = .fault .chipNotAttached ∧ exec (.wr a v) s = .fault .chipNotAttached ∧
      exec (.busRd a) s = .fault .chipNotAttached ∧ exec (.busWr a v) s = .fault .chipNotAttached) ∧
    (k.tag = .df12k → a.toNat % 0x1000 = 0x005 →
      exec (.rd a) s = .fault .chipNotAttached ∧ exec (.busRd a) s = .fault .chipNotAttached) ∧
    (k.tag = .df12k → 0x070 ≤ a.toNat % 0x1000 → a.toNat % 0x1000 ≤ 0x072 →
      exec (.wr a v) s = .fault .chipNotAttached ∧ exec (.busWr a v) s = .fault .chipNotAttached)

/-- 20_memory.md R77, R84, 40_address_space.md R154, 41_cart_family.md R190, R203: a write changes
exactly the cells its two device writes store to, which then hold the byte; a read changes no cell. -/
def Obligations.AccessesStoreExactlyTheirCells : Prop :=
  ∀ (s t : State) (c : Console) (a : Addr) (v : Byte), s.Inv → s.console = some c →
    (exec (.wr a v) s = .next t ∨ exec (.busWr a v) s = .next t →
      ∀ h i, (c.stores a h i → t.cell h i = v) ∧ (¬c.stores a h i → t.cell h i = s.cell h i)) ∧
    (exec (.rd a) s = .next t ∨ exec (.busRd a) s = .next t → ∀ h i, t.cell h i = s.cell h i)

/-- 20_memory.md R87: a byte written to a page of RAM is the byte read back from it. -/
def Obligations.RamWriteThenReadReturnsTheByte : Prop :=
  ∀ (s : State) (c : Console) (a : Addr) (v : Byte) (size : Nat) (mem : Memory), s.Inv →
    s.console = some c → c.CartReady → c.device (c.mappedHandle a) = .ram size mem →
    ∃ t u, exec (.wr a v) s = .next t ∧ exec (.rd a) t = .next u ∧ u.result = v ∧ u.status = .ok

/-- 43_scheduler.md R283, R285, R290, 20_memory.md R77, 70_reset_and_hazards.md R445: a frame and a machine
reset, whatever the collaborators do, change a cell of storage only by bus writes of the CPU or the DMA
chip, each of which stands in the record, newest first (log 5): a cell that no write of the record
stores to is as it was, and any other holds the byte of the last write that stores to it. `FRAME` and
`MRESET` are these two with the hardware's collaborators. -/
def Obligations.CellsChangeOnlyByBusWrites : Prop :=
  (∀ (E : Env) (c d : Console) (t : LineEnd) (new : List Call),
    runFrame E c = .ok (t, d) ∨ machineReset E c = .ok d → d.calls = new ++ c.calls →
    ((∀ x ∈ new, ∀ who addr v, x.kind ≠ .busWrite who addr v) →
      ∀ h j, (d.device h).cell j = (c.device h).cell j) ∧
    (c.Wired E → ∀ h j,
      (c.neverStored h j new → (d.device h).cell j = (c.device h).cell j) ∧
      ∀ (newer older : List Call) (x : Call) (who : Master) (addr : Nat) (v : Byte),
        new = newer ++ x :: older → x.kind = .busWrite who addr v →
        c.stores (BitVec.ofNat 16 addr) h j → c.neverStored h j newer →
        (d.device h).cell j = v)) ∧
  ∀ (s : State) (c d : Console), s.running = some c →
    (machineReset Env.hw c = .ok d →
      exec .mreset s = .next { s with console := some d, status := .ok }) ∧
    ∀ t : LineEnd, c.halt = false → c.jammed = false → runFrame Env.hw c = .ok (t, d) →
      exec .frame s = .next { s with console := some d, status := .ok, result := t.code }

/-! ### Cart families -/

/-- 41_cart_family.md R183, R197, R198, R199: any access latches the bank its address selects, and a read
returns the byte of the bank then selected. -/
def Obligations.BankLatchActsOnAnyAccess : Prop :=
  ∀ (E : Env) (c : Console) (k : Cart) (a : Addr) (v : Byte), k.Ok E →
    k.tag ∈ latchTags →
    bankAfter k a + 0x1000 ≤ k.rom.length ∧
    cartWrite E a v k c = .ok (k.showing (bankAfter k a), c) ∧
    cartRead E a k c = .ok
      (k.rom.getD (bankAfter k a + a.toNat % 0x1000) 0, k.showing (bankAfter k a), c)

/-- 41_cart_family.md R183, R203, R204, R205, R206: the write port stores in the overlay, the read port shows
it, and every other access is the bank latch's. -/
def Obligations.RamShadowPortsReachTheOverlay : Prop :=
  ∀ (E : Env) (c : Console) (k : Cart) (a : Addr) (v : Byte), k.Ok E →
    k.tag ∈ shadowTags →
    (a.toNat % 0x1000 < 0x80 → ∃ ram, cartWrite E a v k c = .ok ({ k with ram := ram }, c) ∧
      ∀ i, ram.read i = if i = a.toNat % 0x1000 then v else k.ram.read i) ∧
    (0x80 ≤ a.toNat % 0x1000 → cartWrite E a v k c = .ok (k.showing (bankAfter k a), c)) ∧
    (0x80 ≤ a.toNat % 0x1000 → a.toNat % 0x1000 < 0x100 →
      cartRead E a k c = .ok (k.ram.read (a.toNat % 0x1000 - 0x80), k, c)) ∧
    (a.toNat % 0x1000 < 0x80 ∨ 0x100 ≤ a.toNat % 0x1000 →
      cartRead E a k c = .ok
        (k.rom.getD (bankAfter k a + a.toNat % 0x1000) 0, k.showing (bankAfter k a), c))

/-- 41_cart_family.md R183, R193, R195, R212: the fixed family shows the address masked into the image, a
multicart the bank chosen at construction; neither changes on any access. -/
def Obligations.FixedAndMulticartNeverChange : Prop :=
  ∀ (E : Env) (c : Console) (k : Cart) (a : Addr) (v : Byte), k.Ok E →
    (k.tag ∈ fixedTags →
      cartRead E a k c = .ok (k.rom.getD (a.toNat % k.rom.length) 0, k, c) ∧
      cartWrite E a v k c = .ok (k, c)) ∧
    (k.tag = .mc4k →
      cartRead E a k c = .ok (k.rom.getD (k.bankBase + a.toNat % 0x1000) 0, k, c) ∧
      cartWrite E a v k c = .ok (k, c))

/-- 41_cart_family.md R200, R213, 20_memory.md R86: a snooping bank-latch cart latches the bank on every
bus access whose low 12 bits are a trigger address, whatever page the address is in. -/
def Obligations.SnoopingCartLatchesEverywhere : Prop :=
  ∀ (s : State) (c : Console) (k : Cart) (a : Addr) (v : Byte), s.Inv → s.console = some c →
    c.snooper = 1 → c.device 1 = .cart k → k.tag = .ls8k →
    ∀ i, i = .rd a ∨ i = .wr a v ∨ i = .busRd a ∨ i = .busWr a v →
      ∃ t, exec i s = .next t ∧ t.device 1 = .cart (k.showing
        (if a.toNat % 0x1000 = 0xFF8 then 0
          else if a.toNat % 0x1000 = 0xFF9 then 0x1000 else k.bankBase))

/-- 41_cart_family.md R201, 20_memory.md R72: a cart that is neither the snooper nor the mapped device of
the address is not reached by the access. -/
def Obligations.UnaddressedCartIsUntouched : Prop :=
  ∀ (s t : State) (c : Console) (k : Cart) (a : Addr) (v : Byte), s.Inv → s.console = some c →
    c.device 1 = .cart k → c.snooper ≠ 1 → c.mappedHandle a ≠ 1 →
    ∀ i, i = .rd a ∨ i = .wr a v ∨ i = .busRd a ∨ i = .busWr a v → exec i s = .next t →
      t.device 1 = .cart k

/-! ### The coprocessor -/

/-- 42_cart_datafetcher.md R242, R256, R257: the two register windows and the program ROM above them. -/
def Obligations.DataFetcherDecodesThreeRegions : Prop :=
  ∀ (E : Env) (c : Console) (k : Cart) (d : DataFetcher) (a : Addr) (v : Byte), k.Ok E →
    k.tag = .df12k → k.df = some d →
    (a.toNat % 0x1000 < 0x40 →
      cartWrite E a v k c = .ok (k, c) ∧
      (∀ b d', regRead k.attached c.clock k.rom (a.toNat % 0x1000) d = .ok (b, d') →
        cartRead E a k c = .ok (b, { k with df := some d' }, c)) ∧
      ∀ f, regRead k.attached c.clock k.rom (a.toNat % 0x1000) d = .error f →
        cartRead E a k c = .error f) ∧
    (0x40 ≤ a.toNat % 0x1000 → a.toNat % 0x1000 < 0x80 →
      cartRead E a k c = .ok (0, k, c) ∧
      (∀ d', regWrite k.attached c.clock (a.toNat % 0x1000) v d = .ok d' →
        cartWrite E a v k c = .ok ({ k with df := some d' }, c)) ∧
      ∀ f, regWrite k.attached c.clock (a.toNat % 0x1000) v d = .error f →
        cartWrite E a v k c = .error f) ∧
    (0x80 ≤ a.toNat % 0x1000 →
      cartWrite E a v k c = .ok (k.showing (bankAfter k a), c) ∧
      cartRead E a k c = .ok
        (k.rom.getD (bankAfter k a + a.toNat % 0x1000) 0, k.showing (bankAfter k a), c))

/-- 42_cart_datafetcher.md R249, R250: the two LFSR steps are the spec's functions, and each other's
inverse. -/
def Obligations.LfsrStepsAreInverse : Prop :=
  (∀ x : Word32, Config.lfsrPrev (Config.lfsrNext x) = x ∧ Config.lfsrNext (Config.lfsrPrev x) = x) ∧
  (∀ x : Word32,
    Config.lfsrNext x =
      ((x >>> 11) ||| (x <<< 21)) ^^^ (if x.getLsbD 10 then 0x10ADAB1E else 0) ∧
    Config.lfsrPrev x =
      if x.getLsbD 31 then ((x ^^^ 0x10ADAB1E) <<< 11) ||| ((x ^^^ 0x10ADAB1E) >>> 21)
      else (x <<< 11) ||| (x >>> 21)) ∧
  Config.lfsrSeed = 0x2B435044 ∧
  Config.lfsrNext 0x00000001 = 0x00200000 ∧ Config.lfsrNext 0x00000400 = 0x90ADAB1E ∧
  Config.lfsrNext 0x2B435044 = 0x0885686A ∧ Config.lfsrPrev 0x00000001 = 0x00000800 ∧
  Config.lfsrPrev 0x2B435044 = 0x1A82215A ∧ Config.lfsrNext 0 = 0 ∧ Config.lfsrPrev 0 = 0

/-- 42_cart_datafetcher.md R246, R247, R248, R251, R254, R255, R259: every register of the read window
but `WAVE`, on an image of the data-fetcher's length. -/
def Obligations.CoprocessorReadRegisters : Prop :=
  ∀ (att : Bool) (clock : Word64) (rom : Bytes) (d : DataFetcher) (n : Fin 8),
    rom.length = 0x3000 →
    let c := d.channel n
    let shown (i : Nat) : Byte := rom.getD (0x2000 + i) 0
    let flag : Prop := (c.top.toNat + 256 - c.bot.toNat) % 256 <
      (c.top.toNat + 256 - c.ctr.toNat % 256) % 256
    let get (o : Nat) := regRead att clock rom o d
    (∃ b, get 0x00 = .ok (b, { d with lfsr := Config.lfsrNext d.lfsr }) ∧
      b.toNat = (Config.lfsrNext d.lfsr).toNat % 256) ∧
    (∃ b, get 0x01 = .ok (b, d) ∧ b.toNat = d.lfsr.toNat / 2 ^ 8 % 256) ∧
    (∃ b, get 0x02 = .ok (b, d) ∧ b.toNat = d.lfsr.toNat / 2 ^ 16 % 256) ∧
    (∃ b, get 0x03 = .ok (b, d) ∧ b.toNat = d.lfsr.toNat / 2 ^ 24) ∧
    (∃ b, get 0x04 = .ok (b, { d with lfsr := Config.lfsrPrev d.lfsr }) ∧
      b.toNat = (Config.lfsrPrev d.lfsr).toNat % 256) ∧
    get (0x08 + n) = .ok (shown c.ctr.toNat, d.setChannel n { c with ctr := c.ctr + 1 }) ∧
    (flag → get (0x10 + n) =
      .ok (shown c.ctr.toNat, d.setChannel n { c with ctr := c.ctr + 1 })) ∧
    (¬flag → get (0x10 + n) = .ok (0, d.setChannel n { c with ctr := c.ctr + 1 })) ∧
    get (0x18 + n) = .ok (shown (c.fctr.toNat / 256),
      d.setChannel n { c with fctr := BitVec.ofNat 20 (c.fctr.toNat + c.finc.toNat) }) ∧
    (flag → get (0x20 + n) = .ok (0xFF, d)) ∧ (¬flag → get (0x20 + n) = .ok (0x00, d)) ∧
    ∀ o, o = 0x06 ∨ o = 0x07 ∨ (0x28 ≤ o ∧ o < 0x40) → get o = .ok (0, d)

/-- 42_cart_datafetcher.md R255, R259: every register of the write window but `VFREQ`. -/
def Obligations.CoprocessorWriteRegisters : Prop :=
  ∀ (att : Bool) (clock : Word64) (d : DataFetcher) (v : Byte) (n : Fin 8),
    let c := d.channel n
    let put (o : Nat) := regWrite att clock o v d
    put (0x40 + n) = .ok (d.setChannel n { c with top := v }) ∧
    put (0x48 + n) = .ok (d.setChannel n { c with bot := v }) ∧
    put (0x50 + n) = .ok (d.setChannel n
      { c with ctr := BitVec.ofNat 12 (c.ctr.toNat / 256 * 256 + v.toNat) }) ∧
    put (0x58 + n) = .ok (d.setChannel n
      { c with ctr := BitVec.ofNat 12 (v.toNat % 16 * 256 + c.ctr.toNat % 256) }) ∧
    put (0x60 + n) = .ok (d.setChannel n { c with finc := v }) ∧
    put (0x68 + n) = .ok (d.setChannel n { c with fctr := BitVec.ofNat 20 (c.ctr.toNat * 256) }) ∧
    put 0x73 = .ok { d with lfsr := 0x2B435044 } ∧
    (∀ j : Fin 4, ∃ x : Word32, put (0x74 + j) = .ok { d with lfsr := x } ∧
      ∀ i : Nat, i < 4 → x.toNat / 256 ^ i % 256 =
        if i = j then v.toNat else d.lfsr.toNat / 256 ^ i % 256) ∧
    ∀ o, 0x78 ≤ o → o < 0x80 → put o = .ok d

/-- 42_cart_datafetcher.md R252: however an interval is cut into invocations, the ticks delivered are
those of the whole interval. -/
def Obligations.GeneratorCutPointsDoNotMatter : Prop :=
  ∀ (es : List Nat) (r : Nat), r < 1193182 →
    generatorRun es r = ((es.sum * 20000 + r) / 1193182, (es.sum * 20000 + r) % 1193182)

/-- 42_cart_datafetcher.md R252, R253: `WAVE` and `VFREQ` of an attached cart advance the generator first;
before attach they are faults. -/
def Obligations.WaveformAdvancesFirst : Prop :=
  ∀ (clock : Word64) (rom : Bytes) (d : DataFetcher) (v : Byte),
    let total := (clock - d.last).toNat * 20000 + d.rem
    let phase (k : Fin 3) : Nat :=
      (d.vphase[k].toNat + d.vfreq[k].toNat * (total / 1193182)) % 2 ^ 32
    let level (p : Nat) : Nat := if p / 2 ^ 27 < 16 then p / 2 ^ 27 else 31 - p / 2 ^ 27
    ∃ d' : DataFetcher, d'.last = clock ∧ d'.rem = total % 1193182 ∧ d'.channels = d.channels ∧
      d'.lfsr = d.lfsr ∧ d'.vfreq = d.vfreq ∧ (∀ k : Fin 3, d'.vphase[k].toNat = phase k) ∧
      (∃ b : Byte, regRead true clock rom 0x05 d = .ok (b, d') ∧
        b.toNat = level (phase 0) + level (phase 1) + level (phase 2)) ∧
      regRead false clock rom 0x05 d = .error .chipNotAttached ∧
      ∀ k : Fin 3,
        regWrite true clock (0x70 + k) v d =
          .ok { d' with vfreq := d'.vfreq.set k (BitVec.ofNat 32 (v.toNat * 2 ^ 20)) } ∧
        regWrite false clock (0x70 + k) v d = .error .chipNotAttached

/-! ### The scheduler -/

/-- 43_scheduler.md R285, R286, R287: across one `Execute` the clock rises by the cycles run and the
budget falls by `M` times as many, so the nominal clock stands still; the overrun is bounded; it ends
for one of the three reasons. -/
def Obligations.ExecuteKeepsTheAccounts : Prop :=
  ∀ (E : Env) (c d : Console), execute E c = .ok d →
    (∃ k : Nat, d.clock = c.clock + BitVec.ofNat 64 k ∧
      d.budget.toInt = c.budget.toInt - 4 * k ∧ (c.budget.toInt ≤ 0 → k = 0 ∧ d.preempt = false)) ∧
    d.nominal = c.nominal ∧
    (-28 < c.budget.toInt → -28 < d.budget.toInt) ∧
    (d.jammed = true ∨ d.preempt = true ∨ d.budget.toInt ≤ 0) ∧
    d.halt = c.halt ∧ d.frame = c.frame ∧ d.sched = c.sched

/-- 43_scheduler.md R301, R303, R304: the correction, the halving and the rounding of a DMA count. Then
what a scanline does with the count, and how it grants its budget (R290, R291, R296, R297, R300, R306,
R307, R308, R311): a negative count is a fault; the DMA step corrects, halves, rounds and steals, in
this order, so that a raw count of 5 takes 8 clocks; a scanline grants 28 clocks, runs the CPU, and,
unless it jams or is preempted, runs the DMA step, grants 428 clocks and runs the CPU again; a frame's
lines have the indices 0, 1, ... up to 261 or 311. The line's start is taken modulo `2^64` (log 14); a
negative rest of a line, which stops the model (log 13), is left out by a premise. -/
def Obligations.DmaCountArithmetic : Prop :=
  (∀ lines i d : Nat, correctClocks lines i d =
    if (lines = 262 ∧ i = 203 ∧ d = 152) ∨ (lines = 312 ∧ i = 228 ∧ d = 162) then d - 4 else d) ∧
  (∀ (avail : Int) (d : Nat), 0 ≤ avail → d < 2 ^ 31 →
    ∃ n, limitClocks avail d = .ok (d / 2 ^ n) ∧ ((d / 2 ^ n : Nat) : Int) ≤ avail ∧
      ∀ m, m < n → avail < ((d / 2 ^ m : Nat) : Int)) ∧
  (∀ d : Nat, 4 ∣ roundClocks d ∧ d ≤ roundClocks d ∧ roundClocks d < d + 4) ∧
  (∀ (E : Env) (c : Console) (x : Word32), c.dmaHonest = false →
    E.collab.dmaProcess (c.entry (.dma .doProcessing) :: c.calls) = .done x →
    (x.toInt < 0 → dmaProcessing E c = .error .badDmaClocks) ∧
    (0 ≤ x.toInt → ∃ c₁, dmaProcessing E c = .ok (x.toNat, c₁))) ∧
  (∀ (E : Env) (i : Nat) (c : Console) (rest : Word32), c.sched.rem = some rest →
    (∀ f, dmaProcessing E (c.enter .dma) = .error f → dmaSlice E i c = .error f) ∧
    ∀ (c₁ : Console) (x : Nat), dmaProcessing E (c.enter .dma) = .ok (x, c₁) →
      let avail := c.budget.toInt + rest.toInt
      let after (d : Nat) : Console :=
        { c₁ with
          clock := c₁.clock + BitVec.ofNat 64 (d / 4)
          budget := c₁.budget - BitVec.ofNat 32 d }
      c₁.clock = c.clock ∧ c₁.budget = c.budget ∧
      (c.type ≠ .bare → 0 ≤ avail → ∃ n : Nat,
        let raw := correctClocks (if c.type = .ntsc then 262 else 312) i x
        ((raw / 2 ^ n : Nat) : Int) ≤ avail ∧
        (∀ m, m < n → avail < ((raw / 2 ^ m : Nat) : Int)) ∧
        dmaSlice E i c = .ok (after ((raw / 2 ^ n + 3) / 4 * 4))) ∧
      (x = 5 → 5 ≤ avail → dmaSlice E i c = .ok (after 8))) ∧
  (∀ (E : Env) (i : Nat) (c : Console),
    let start := c.nominal
    let line : Sched := { phase := .slice1, sl := some i, start := some start, rem := some 428 }
    let granted : Console := { c with sched := line, budget := c.budget + 28 }
    let sound : Prop := c.budget.toInt ≤ 0 ∧ c.budget.toInt % 4 = 0 ∧
      (0 < i → ∃ p, c.sched.start = some p ∧ start = p + 114)
    let preempted (d : Console) : LineEnd × Console :=
      (if E.preemptEndsCall then .preempted else .goOn, { d with clock := start + 114, budget := 0 })
    (E.debugChecks = true → ¬sound → scanline E i c = .error .debugAssert) ∧
    (E.debugChecks = false ∨ sound →
      (∀ f, execute E granted = .error f → scanline E i c = .error f) ∧
      ∀ c₁, execute E granted = .ok c₁ →
        c₁.sched = line ∧
        (c₁.jammed = true → scanline E i c = .ok (.jammed, { c₁ with halt := true })) ∧
        (c₁.jammed = false → c₁.preempt = true →
          (∀ f, dmaProcessing E c₁ = .error f → scanline E i c = .error f) ∧
          ∀ x c₂, dmaProcessing E c₁ = .ok (x, c₂) → scanline E i c = .ok (preempted c₂)) ∧
        (c₁.jammed = false → c₁.preempt = false →
          (∀ f, dmaSlice E i c₁ = .error f → scanline E i c = .error f) ∧
          ∀ c₂, dmaSlice E i c₁ = .ok c₂ →
            let regranted : Console :=
              { c₂ with sched := { line with phase := .slice2 }, budget := c₂.budget + 428 }
            (∀ f, execute E regranted = .error f → scanline E i c = .error f) ∧
            ∀ c₃, execute E regranted = .ok c₃ → scanline E i c = .ok
              (if c₃.jammed then (.jammed, { c₃ with halt := true })
                else if c₃.preempt then preempted c₃ else (.goOn, c₃))))) ∧
  ∀ (E : Env) (c d : Console) (t : LineEnd), c.type ≠ .bare → runFrame E c = .ok (t, d) →
    ∃ (n : Nat) (line : Nat → Console) (first last : Console),
      n < (if c.type = .ntsc then 262 else 312) ∧
      dmaCall E .startFrame
        { c with frame := c.frame + 1, sched := { c.sched with phase := .notStarted } } = .ok first ∧
      line 0 = cartStartFrame E first ∧
      (∀ k, k < n → scanline E k (line k) = .ok (.goOn, line (k + 1))) ∧
      scanline E n (line n) = .ok (t, line (n + 1)) ∧
      (t = .goOn → n + 1 = if c.type = .ntsc then 262 else 312) ∧
      dmaCall E .endFrame (cartEndFrame E
        { line (n + 1) with sched := { (line (n + 1)).sched with phase := t.phase } }) = .ok last ∧
      d = { last with sched := Sched.idle }

/-- 43_scheduler.md R293, R294, R298, R302: over a scanline that does not jam the nominal clock rises by
exactly 114 and the budget carry stays in its range; one that jams sets the halt flag. The nominal clock
is the model's number modulo `2^64` (DESIGN CHOICE, log 14). -/
def Obligations.ScanlineAdvancesTheNominalClock : Prop :=
  ∀ (E : Env) (i : Nat) (c d : Console) (t : LineEnd), scanline E i c = .ok (t, d) →
    c.jammed = false → c.budget.toInt % 4 = 0 → -28 < c.budget.toInt → c.budget.toInt ≤ 0 →
    d.frame = c.frame ∧ d.budget.toInt % 4 = 0 ∧ -28 < d.budget.toInt ∧
    (t ≠ .jammed → d.nominal = c.nominal + 114 ∧ d.budget.toInt ≤ 0 ∧ d.jammed = false ∧
      d.halt = c.halt) ∧
    (t = .jammed → d.jammed = true ∧ d.halt = true ∧ d.budget.toInt ≤ 424)

/-- 43_scheduler.md R299, R307, R308: a preempted line ends exactly at the line's end, with nothing left
of the budget, and ends the call (`PREEMPT_ENDS_CALL`, 00_scope.md R7). The line's end is reckoned from
the nominal clock, the model's number modulo `2^64` (DESIGN CHOICE, log 14). -/
def Obligations.PreemptFastForwardsTheLine : Prop :=
  ∀ (E : Env) (i : Nat) (c d : Console) (t : LineEnd), E.preemptEndsCall = true →
    scanline E i c = .ok (t, d) → c.jammed = false → c.budget.toInt % 4 = 0 →
    -28 < c.budget.toInt → c.budget.toInt ≤ 0 →
    (t = .preempted ↔ d.jammed = false ∧ d.preempt = true) ∧
    (t = .preempted → d.clock = c.nominal + 114 ∧ d.budget = 0)

/-- 43_scheduler.md R290, R299, R307: one DMA step in every scanline whose first slice does not jam, none
in another. -/
def Obligations.OneDmaStepPerScanline : Prop :=
  ∀ (E : Env) (i : Nat) (c d : Console) (t : LineEnd), scanline E i c = .ok (t, d) →
    ∃ c₁, firstSlice E i c.nominal c = .ok c₁ ∧
      d.dmaSteps = c.dmaSteps + (if c₁.jammed then 0 else 1)

/-- 43_scheduler.md R302, R404, 10_state.md R38: no operation but `MKMACH` and `RESTORE` clears the halt
flag, and only a frame that ends `Jammed` sets it. -/
def Obligations.HaltIsSetOnlyByAJam : Prop :=
  ∀ (i : Instr) (s t : State) (c : Console), i.replacesMachine = false → s.running = some c →
    exec i s = .next t →
    ∃ d, t.running = some d ∧ (c.halt = true → d.halt = true) ∧
      (c.halt = false → (d.halt = true ↔ i = .frame ∧ t.result = 2)) ∧
      (d.halt = true → c.halt = true ∨ d.jammed = true)

/-- 43_scheduler.md R291, R292, R305, R309, R312, R294, 41_cart_family.md R187, R188: `FRAME` on a machine
that is neither halted nor jammed completes whenever its DMA chip keeps its contract (log 26), and
reports one of the three terminal states. On every exit, whatever the collaborators do, the record
(newest first, log 5) holds the frame hooks in their order: `DMA.StartFrame` and the cart's
`StartFrame` before every line, the cart's `EndFrame` and `DMA.EndFrame` after the last, and no hook in
between; inside a DMA hook stand that chip's bus accesses only. -/
def Obligations.FrameCompletes : Prop :=
  (∀ (s : State) (c : Console), s.Inv → s.running = some c → c.halt = false → c.jammed = false →
    c.dmaHonest = true →
    ∃ (t : LineEnd) (d : Console) (r : Byte), runFrame Env.hw c = .ok (t, d) ∧
      exec .frame s = .next { s with console := some d, status := .ok, result := r } ∧
      r = (match t with
        | .goOn => 0
        | .jammed => 2
        | .preempted => 3) ∧
      d.frame = c.frame + 1 ∧ c.SameTopology d ∧ d.sched = Sched.idle) ∧
  ∀ (E : Env) (c d : Console) (t : LineEnd), runFrame E c = .ok (t, d) →
    ∃ (first cartStart lines cartEnd last : List Call) (endFrame : Call),
      d.calls = last ++ endFrame :: (cartEnd ++ (lines ++ (cartStart ++ (first ++
        c.entry (.dma .startFrame) :: c.calls)))) ∧
      (∀ x ∈ first, x.kind.byBus .dma) ∧
      cartStart.map Call.kind = (if c.cartTag = some .c16kp then [.chip 1 .startFrame] else []) ∧
      (∀ x ∈ lines, x.kind.isHook = false) ∧
      cartEnd.map Call.kind = (if c.cartTag = some .c16kp then [.chip 1 .endFrame] else []) ∧
      endFrame.kind = .dma .endFrame ∧ ∀ x ∈ last, x.kind.byBus .dma

/-- 43_scheduler.md R312, R293, conflict C2: over a whole frame, whatever the collaborators do, the
nominal clock advances by exactly 262 or 312 lines, and the clock itself does when the carries before
and after agree. The nominal clock is the model's number modulo `2^64` (DESIGN CHOICE, log 14). -/
def Obligations.WholeFrameAdvancesTheClock : Prop :=
  ∀ (E : Env) (c d : Console), c.type ≠ .bare → c.jammed = false → c.budget.toInt % 4 = 0 →
    -28 < c.budget.toInt → c.budget.toInt ≤ 0 → runFrame E c = .ok (.goOn, d) →
    d.nominal = c.nominal + (if c.type = .ntsc then 29868 else 35568) ∧
    (d.budget = c.budget → d.clock = c.clock + (if c.type = .ntsc then 29868 else 35568)) ∧
    d.frame = c.frame + 1 ∧ d.halt = c.halt ∧ d.jammed = false

/-- 43_scheduler.md R310, R314: `POLL` returns the halt flag and changes nothing else; `FRAME` on a halted
or jammed machine returns 1 and changes nothing else. -/
def Obligations.PollAndHaltedFrameChangeNothing : Prop :=
  (∀ s : State, s.phase ≠ .run →
    exec .poll s = .next { s with status := .refusedPhase }) ∧
  ∀ (s : State) (c : Console), s.running = some c →
    exec .poll s = .next { s with status := .ok, result := if c.halt then 1 else 0 } ∧
    (c.halt = true ∨ c.jammed = true →
      exec .frame s = .next { s with status := .ok, result := 1 })

/-- 70_reset_and_hazards.md R449, 43_scheduler.md R302: once halted, a machine is halted after every
command sequence that holds no `MKMACH` and no successful `RESTORE`: `FRAME` changes nothing and
returns 1, and so does `POLL`. The run-until-done predicate holds exactly of a halted machine and of a
block whose inputs are exhausted; a run until done takes steps while it does not hold, ends where it
holds, and ends with the fault or the refusal of a step that has one. -/
def Obligations.HaltIsForever : Prop :=
  (∀ (is : List Instr) (s t : State) (c : Console), s.running = some c → c.halt = true →
    (∀ i ∈ is, (∀ ty a b, i ≠ .mkmach ty a b) ∧
      (i = .restore → ∃ e, parseStream Env.hw s.sin = .error e)) →
    runAll is s = some t →
    ∃ d, t.running = some d ∧ d.halt = true ∧
      exec .frame t = .next { t with status := .ok, result := 1 } ∧
      exec .poll t = .next { t with status := .ok, result := 1 }) ∧
  (∀ s : State, s.done = true ↔ (∃ c, s.console = some c ∧ c.halt = true) ∨ s.queue = []) ∧
  ∀ s t : State,
    (s.done = true → runUntilDone s = .next s) ∧
    (s.done = false → step s = .next t → runUntilDone s = runUntilDone t) ∧
    (∀ f, s.done = false → step s = .fault f → runUntilDone s = .fault f) ∧
    (∀ r, s.done = false → step s = .refused r → runUntilDone s = .refused r) ∧
    (runUntilDone s = .next t → t.done = true)

/-- 43_scheduler.md R283, 40_address_space.md R142, R145, R146, R154, 41_cart_family.md R192,
42_cart_datafetcher.md R258, 70_reset_and_hazards.md R445: `MRESET` completes and leaves the page table,
the snooper, every device's constants and every scheduler register alone, the halt and jam flags among
them. It resets every device in ascending order, then the DMA chip, then the CPU: the record (newest
first, log 5) holds the resets of the cart's embedded chip and of the two adapters' chips, then
`DMA.Reset` with that chip's bus accesses, then `CPU.Reset` with the CPU's; and where the two make no
bus access, every device, its bank registers and coprocessor registers among it, is as its reset leaves
it, and the last bus value is unchanged. -/
def Obligations.MresetLeavesTheAccounts : Prop :=
  (∀ (s : State) (c : Console), s.Inv → s.running = some c →
    ∃ d : Console, machineReset Env.hw c = .ok d ∧
      exec .mreset s = .next { s with console := some d, status := .ok } ∧
      d.phase = .run ∧ c.SameTopology d ∧ c.SameScheduler d) ∧
  ∀ (E : Env) (c d : Console) (ch : Chips), c.Ok E → c.chips = some ch → machineReset E c = .ok d →
    ∃ (cpuBus dmaBus : List Call) (v : Byte),
      d.calls = cpuBus ++ { kind := .cpu .reset, lbv := v, clock := c.clock } ::
        (dmaBus ++ c.entry (.dma .reset) ::
          ([c.entry (.chip 3 .reset), c.entry (.chip 2 .reset)] ++
            (if c.cartTag = some .c16kp then [c.entry (.chip 1 .reset)] else []) ++ c.calls)) ∧
      (∀ x ∈ cpuBus, x.kind.byBus .cpu) ∧ (∀ x ∈ dmaBus, x.kind.byBus .dma) ∧
      (cpuBus = [] → dmaBus = [] →
        d.lbv = c.lbv ∧ ∀ h, (c.device h).ResetTo c.clock (d.device h))

/-! ### The serializer -/

/-- 44_serializer.md R374, R370, R371, R355: `SAVE` completes and writes `SOUT` only; `RESTORE` of what it
wrote, in any phase, completes with a machine equal in every device, page and register, and a second
save writes the same bytes. -/
def Obligations.RestoreUndoesSave : Prop :=
  ∀ (s : State) (c : Console) (ch : Chips), s.Inv → s.running = some c → c.chips = some ch →
    c.Saveable →
    ∃ out : Bytes, exec .save s = .next { s with sout := out, status := .ok } ∧
      ∀ u : State, u.sin = out → ∃ (d : Console) (dh : Chips),
        exec .restore u = .next { u with console := some d, cur := none, status := .ok } ∧
        d.chips = some dh ∧ d.dev = c.dev ∧ d.page = c.page ∧ d.snooper = c.snooper ∧
        d.lbv = c.lbv ∧ d.type = c.type ∧ d.hasBios = c.hasBios ∧ c.SameScheduler d ∧
        dh.cpu = ch.cpu ∧ dh.dma = ch.dma ∧ dh.input = ch.input ∧
        ∀ t, exec .restore u = .next t → exec .save t = .next { t with sout := out, status := .ok }

/-- 44_serializer.md R370, R353 to R361: `SAVE` completes in `RUN`, on a halted machine too, and changes
nothing of the machine; in every state of the invariant the bytes it writes are the stream of the
grammar, token by token (`layoutRoot`). -/
def Obligations.SaveChangesNoMachine : Prop :=
  ∀ (s : State) (c : Console), s.running = some c →
    ∃ out : Bytes, exec .save s = .next { s with sout := out, status := .ok } ∧ 20 ≤ out.length ∧
      ∀ ch, s.Inv → c.chips = some ch → out = layoutRoot c ch

/-- 44_serializer.md R340, R352: a stream cut anywhere is `Truncated`, and one with a byte after it is
`TrailingData`; either way the machine stays. -/
def Obligations.StreamMustBeWhole : Prop :=
  ∀ (s t u : State) (c : Console), s.Inv → s.running = some c → c.Saveable → exec .save s = .next t →
    (u.sin <+: t.sout → u.sin ≠ t.sout → exec .restore u = .next { u with status := .truncated }) ∧
    ∀ b bs, u.sin = t.sout ++ b :: bs → exec .restore u = .next { u with status := .trailingData }

/-- 44_serializer.md R371, R362, R357, R358, 43_scheduler.md R282, 70_reset_and_hazards.md R443: `RESTORE`
of a stream that parses completes in every phase with a machine that holds what the stream says, RAM
banks, BIOS and cart among it, and, where the stream says nothing, what construction gives; a stream
that does not parse changes `STATUS` only. -/
def Obligations.RestoreBuildsFromTheStream : Prop :=
  ∀ s : State,
    (∀ e, parseStream Env.hw s.sin = .error e → exec .restore s = .next { s with status := e }) ∧
    ∀ r : Root, parseStream Env.hw s.sin = .ok r → ∃ (d : Console) (ch : Chips),
      exec .restore s = .next { s with console := some d, cur := none, status := .ok } ∧
      d.chips = some ch ∧ ch.cpu = r.cpu.regs ∧ ch.dma = r.dma ∧ ch.input = r.input ∧
      d.type = r.type ∧ d.halt = r.halt ∧ d.frame = r.frame ∧ d.clock = r.cpu.clock ∧
      d.budget = r.cpu.budget ∧ d.jammed = r.cpu.jammed ∧ d.preempt = r.cpu.preempt ∧
      d.lbv = r.lbv ∧ d.hasBios = r.bios.isSome ∧ d.sched = Sched.idle ∧ d.cart? = r.cart ∧
      (∀ k, d.cart? = some k → k.attached = true) ∧
      d.device 0 = .null ∧ (r.cart = none → d.device 1 = .absent) ∧
      (∃ (b₀ b₁ : Bytes) (m₀ m₁ : Memory), r.banks = [b₀, b₁] ∧
        d.device 2 = .ram 0x800 m₀ ∧ (∀ i, m₀.read i = b₀.getD i 0) ∧
        d.device 3 = .ram 0x800 m₁ ∧ ∀ i, m₁.read i = b₁.getD i 0) ∧
      d.device 4 = .adapter 2 0x003F ∧ d.device 5 = .adapter 3 0x007F ∧
      d.device 6 = (match r.bios with
        | some img => .rom img
        | none => .absent) ∧
      (∀ h : Handle, 7 ≤ h.toNat → d.device h = .absent) ∧
      (∀ p, p < 1024 → d.pageAt p = machinePage r.bios.isSome (r.cart.map Cart.tag) p) ∧
      d.snooper = machineSnooper (r.cart.map Cart.tag)

/-- 44_serializer.md R341: the bytes of an integer, least significant first, are read back to it. -/
def Obligations.IntegersAreLittleEndian : Prop :=
  ∀ n v i : Nat, i < n →
    (putInt n v).length = n ∧ (putInt n v)[i]? = some (BitVec.ofNat 8 (v / 256 ^ i)) ∧
    (v < 256 ^ n → ∀ rest, getInt n (putInt n v ++ rest) = .ok (v, rest))

/-- 44_serializer.md R343, R348, R349, R350, R351, R353, R354, R359, R360, R372: the tests of the tokens and
of the objects, in their order. A length: its sign, the cap, the allow-list, the bytes there are. A
header: the magic before the version. A boolean is 0 or 1. A text: its length, the bytes there are
(that they are tested before their range is the model's, log 18), their range. A discriminant is one of
the names, and is tested before the header. The budget's range. A cart: the length of its image, the
range of its bank register, and the three booleans, which its variant fixes. The fields of a
coprocessor. Each object that passes is read back whole. -/
def Obligations.LengthsAndHeadersAreTested : Prop :=
  (∀ (n : Word32) (rest : Bytes) (allowed : List Nat),
    (n.toInt < 0 → getBytes (putU32 n ++ rest) = .error .badLength ∧
      getBytesOf allowed (putU32 n ++ rest) = .error .badLength) ∧
    (0 ≤ n.toInt → 262144 < n.toNat → getBytes (putU32 n ++ rest) = .error .overCap ∧
      getBytesOf allowed (putU32 n ++ rest) = .error .overCap) ∧
    (n.toNat ≤ 262144 → n.toNat ∉ allowed →
      getBytesOf allowed (putU32 n ++ rest) = .error .badLength) ∧
    (n.toNat ≤ 262144 → rest.length < n.toNat → getBytes (putU32 n ++ rest) = .error .truncated ∧
      (n.toNat ∈ allowed → getBytesOf allowed (putU32 n ++ rest) = .error .truncated)) ∧
    (n.toNat ≤ 262144 → n.toNat ≤ rest.length →
      getBytes (putU32 n ++ rest) = .ok (rest.take n.toNat, rest.drop n.toNat) ∧
      (n.toNat ∈ allowed →
        getBytesOf allowed (putU32 n ++ rest) = .ok (rest.take n.toNat, rest.drop n.toNat)))) ∧
  (∀ (cls : Config.StreamClass) (m v : Word32) (rest : Bytes),
    (m ≠ 0x78000087 → getHeader cls (putU32 m ++ rest) = .error .badMagic) ∧
    (m = 0x78000087 → v ≠ 1 → getHeader cls (putU32 m ++ (putU32 v ++ rest)) = .error .badVersion) ∧
    (m = 0x78000087 → v = 1 → getHeader cls (putU32 m ++ (putU32 v ++ rest)) = .ok ((), rest)) ∧
    putHeader cls = [0x87, 0x00, 0x00, 0x78, 0x01, 0x00, 0x00, 0x00]) ∧
  (∀ (b : Byte) (rest : Bytes), getBool (b :: rest) =
    if b = 0 then .ok (false, rest) else if b = 1 then .ok (true, rest) else .error .badBool) ∧
  (∀ (n : Byte) (rest : Bytes),
    (n = 0 ∨ 64 < n.toNat → getStr (n :: rest) = .error .badString) ∧
    (n ≠ 0 → n.toNat ≤ 64 → rest.length < n.toNat → getStr (n :: rest) = .error .truncated) ∧
    (n ≠ 0 → n.toNat ≤ 64 → n.toNat ≤ rest.length →
      ((∃ b ∈ rest.take n.toNat, b.toNat < 0x20 ∨ 0x7E < b.toNat) →
        getStr (n :: rest) = .error .badString) ∧
      ((∀ b ∈ rest.take n.toNat, 0x20 ≤ b.toNat ∧ b.toNat ≤ 0x7E) →
        getStr (n :: rest) = .ok (rest.take n.toNat, rest.drop n.toNat)))) ∧
  (∀ (E : Env) (clock : Word64) (text rest : Bytes), 1 ≤ text.length → text.length ≤ 64 →
    (∀ b ∈ text, 0x20 ≤ b.toNat ∧ b.toNat ≤ 0x7E) →
    (text ≠ typeText .ntsc → text ≠ typeText .pal →
      parseStream E (layoutText text ++ rest) = .error .badDiscriminant) ∧
    ((∀ tag, text ≠ tagText tag) →
      getCart E clock (layoutText text ++ rest) = .error .badDiscriminant)) ∧
  (∀ (E : Env) (clock : Word64) (m : Word32) (rest : Bytes), m ≠ 0x78000087 →
    (∀ type, type ≠ .bare →
      parseStream E (layoutText (typeText type) ++ (putU32 m ++ rest)) = .error .badMagic) ∧
    ∀ tag, getCart E clock (layoutText (tagText tag) ++ (putU32 m ++ rest)) = .error .badMagic) ∧
  (∀ (r : CpuRecord) (rest : Bytes), getCpu (layoutCpu r ++ rest) =
    if r.budget.toInt % 4 = 0 ∧ -28 < r.budget.toInt ∧
        r.budget.toInt ≤ (if r.jammed then 428 else 0) then .ok (r, rest)
    else .error .badValue) ∧
  (∀ (E : Env) (clock : Word64) (k : Cart), k.Ok E → k.attached = true →
    (∀ d, k.df = some d → d.last.toNat ≤ clock.toNat) →
    (∀ (n : Word32) (rest : Bytes), n.toNat ≤ 262144 → n.toNat ∉ romLengths k.tag →
      getCart E clock (layoutText (tagText k.tag) ++ (layoutHeader ++ (putU32 n ++ rest))) =
        .error .badLength) ∧
    (k.tag ∉ fixedTags → k.tag ≠ .c16kp → ∀ (b : Word32) (rest : Bytes),
      let read (rest : Bytes) := getCart E clock
        (layoutText (tagText k.tag) ++ (layoutHeader ++ (layoutBytes k.rom ++ (putU32 b ++ rest))))
      let legal : Prop := 0 ≤ b.toInt ∧ b.toNat % 0x1000 = 0 ∧
        b.toNat + 0x1000 ≤ (if k.tag = .df12k then 0x2000 else k.rom.length)
      (legal → read [] = .error .truncated) ∧ (¬legal → read rest = .error .badValue)) ∧
    (∀ (b : Bool) (rest : Bytes),
      (b ≠ decide (k.tag ∈ shadowTags) →
        getCart E clock (layoutCartHead k ++ (layoutFlag b ++ rest)) = .error .badValue) ∧
      (b ≠ decide (k.tag = .df12k) →
        getCart E clock (layoutCartHead k ++ (layoutOverlay k ++ (layoutFlag b ++ rest))) =
          .error .badValue) ∧
      (b ≠ decide (k.tag = .c16kp) →
        getCart E clock (layoutCartHead k ++ (layoutOverlay k ++ (layoutCoprocessor k ++
          (layoutFlag b ++ rest)))) = .error .badValue)) ∧
    ∀ rest, getCart E clock (layoutCart k ++ rest) = .ok (k, rest)) ∧
  ∀ (clock : Word64) (d : DataFetcher) (rest : Bytes),
    (d.rem < 2 ^ 32 → getFetcher clock (layoutFetcher d ++ rest) =
      if d.rem < 1193182 ∧ d.last.toNat ≤ clock.toNat then .ok (d, rest) else .error .badValue) ∧
    ∀ n ctr fctr : Nat, n < 8 →
      let before := layoutHeader ++ (d.channels.toList.take n).flatMap layoutChannel
      (0x0FFF < ctr → ctr < 2 ^ 16 →
        getFetcher clock (before ++ (putInt 2 ctr ++ rest)) = .error .badValue) ∧
      (ctr ≤ 0x0FFF → 2 ^ 20 ≤ fctr → fctr < 2 ^ 32 →
        getFetcher clock (before ++ (putInt 2 ctr ++ (putInt 4 fctr ++ rest))) = .error .badValue)
end

