-- ==== Sys2Proof/Laws/Memory.lean ====
section
/-! SUPPORT. Writable storage: read after write, the canonical form is kept, and a storage is determined
by its image. -/

namespace Sys2Proof.Machine

namespace Memory

theorem canonical_mono {size lo hi : Nat} {mem : Memory} (h : hi ≤ lo)
    (hc : canonical size lo mem = true) : canonical size hi mem = true := by
  cases mem with
  | nil => rfl
  | cons p rest =>
    obtain ⟨k, v⟩ := p
    simp only [canonical, Bool.and_eq_true, decide_eq_true_eq] at hc ⊢
    exact ⟨⟨⟨by omega, hc.1.1.2⟩, hc.1.2⟩, hc.2⟩

/-- Below its lowest entry a canonical storage reads as unlisted. -/
theorem read_below {size lo i : Nat} {mem : Memory} (hc : canonical size lo mem = true)
    (hi : i < lo) : read mem i = unlisted := by
  induction mem generalizing lo with
  | nil => rfl
  | cons p rest ih =>
    obtain ⟨k, v⟩ := p
    simp only [canonical, Bool.and_eq_true, decide_eq_true_eq] at hc
    have hne : i ≠ k := by omega
    simp only [read, hne, if_false]
    exact ih hc.2 (by omega)

theorem read_list (i j : Nat) (v : Byte) (rest : Memory)
    (h : v = unlisted → read rest i = unlisted) :
    read (list i v rest) j = if j = i then v else read rest j := by
  by_cases hv : v = unlisted
  · simp only [list, hv, if_true]
    by_cases hj : j = i
    · simp [hj, h hv]
    · simp [hj]
  · simp [list, hv, read]

theorem canonical_list {size lo i : Nat} {v : Byte} {rest : Memory} (hlo : lo ≤ i)
    (hi : i < size) (hc : canonical size (i + 1) rest = true) :
    canonical size lo (list i v rest) = true := by
  by_cases hv : v = unlisted
  · simpa [list, hv] using canonical_mono (by omega) hc
  · simp [list, hv, canonical, hlo, hi, hc]

theorem canonical_write {size lo i : Nat} {v : Byte} {mem : Memory} (hlo : lo ≤ i)
    (hi : i < size) (hc : canonical size lo mem = true) :
    canonical size lo (write mem i v) = true := by
  induction mem generalizing lo with
  | nil => exact canonical_list hlo hi rfl
  | cons p rest ih =>
    obtain ⟨k, x⟩ := p
    have hc' := hc
    simp only [canonical, Bool.and_eq_true, decide_eq_true_eq] at hc'
    unfold write
    split
    · next hik =>
      exact canonical_list hlo hi (by
        simp only [canonical, Bool.and_eq_true, decide_eq_true_eq]
        exact ⟨⟨⟨by omega, hc'.1.1.2⟩, hc'.1.2⟩, hc'.2⟩)
    · split
      · next hik => subst hik; exact canonical_list hlo hi hc'.2
      · simp only [canonical, Bool.and_eq_true, decide_eq_true_eq]
        exact ⟨hc'.1, ih (by omega) hc'.2⟩

/-- A write into a storage keeps its canonical form. -/
theorem wf_write {size i : Nat} {v : Byte} {mem : Memory} (hi : i < size)
    (hc : mem.wf size = true) : (write mem i v).wf size = true :=
  canonical_write (Nat.zero_le _) hi hc

@[simp] theorem wf_nil (size : Nat) : wf size [] = true := rfl

theorem read_write_of_canonical {size lo : Nat} {mem : Memory}
    (hc : canonical size lo mem = true) (i j : Nat) (v : Byte) :
    read (write mem i v) j = if j = i then v else read mem j := by
  induction mem generalizing lo with
  | nil => exact read_list i j v [] (fun _ => rfl)
  | cons p rest ih =>
    obtain ⟨k, x⟩ := p
    have hc' := hc
    simp only [canonical, Bool.and_eq_true, decide_eq_true_eq] at hc'
    have hrest : ∀ {n}, n ≤ k → read rest n = unlisted := fun h => read_below hc'.2 (by omega)
    unfold write
    split
    · next hik =>
      refine read_list i j v _ (fun _ => ?_)
      have : i ≠ k := by omega
      simp only [read, this, if_false]
      exact hrest (by omega)
    · split
      · next hik =>
        subst hik
        rw [read_list i j v rest (fun _ => hrest (Nat.le_refl _))]
        by_cases hj : j = i <;> simp [hj, read]
      · next h1 h2 =>
        simp only [read, ih hc'.2]
        by_cases hjk : j = k
        · have : ¬ j = i := by omega
          have : ¬ k = i := by omega
          simp_all
        · simp [hjk]

/-- Reading a cell after a write. -/
theorem read_write {size : Nat} {mem : Memory} (hc : mem.wf size = true) (i j : Nat) (v : Byte) :
    read (write mem i v) j = if j = i then v else read mem j :=
  read_write_of_canonical hc i j v

@[simp] theorem read_nil (i : Nat) : read [] i = unlisted := rfl

theorem canonical_ofBytesFrom {size i : Nat} {bs : Bytes} (h : i + bs.length ≤ size) :
    canonical size i (ofBytesFrom i bs) = true := by
  induction bs generalizing i with
  | nil => rfl
  | cons b bs ih =>
    simp only [List.length_cons] at h
    exact canonical_list (Nat.le_refl _) (by omega) (ih (by omega))

/-- The storage of an image is canonical. -/
theorem wf_ofBytes {size : Nat} {bs : Bytes} (h : bs.length ≤ size) :
    (ofBytes bs).wf size = true := canonical_ofBytesFrom (by omega)

theorem read_ofBytesFrom (bs : Bytes) (i j : Nat) :
    read (ofBytesFrom i bs) j = if i ≤ j then bs.getD (j - i) unlisted else unlisted := by
  induction bs generalizing i j with
  | nil => simp [ofBytesFrom]
  | cons b bs ih =>
    have hbelow : read (ofBytesFrom (i + 1) bs) i = unlisted := by
      rw [ih]; simp
    rw [ofBytesFrom, read_list i j b _ (fun _ => hbelow), ih]
    by_cases hj : j = i
    · simp [hj]
    · by_cases hij : i ≤ j
      · have h1 : i + 1 ≤ j := by omega
        have h2 : j - i = (j - (i + 1)) + 1 := by omega
        simp [hj, hij, h1, h2]
      · have h1 : ¬ i + 1 ≤ j := by omega
        simp [hj, hij, h1]

theorem read_ofBytes (j : Nat) (bs : Bytes) : read (ofBytes bs) j = bs.getD j unlisted := by
  simp [ofBytes, read_ofBytesFrom]

/-- Two canonical storages that read alike are equal. -/
theorem ext_of_read {size lo : Nat} {m n : Memory} (hm : canonical size lo m = true)
    (hn : canonical size lo n = true) (h : ∀ i, read m i = read n i) : m = n := by
  induction m generalizing lo n with
  | nil =>
    cases n with
    | nil => rfl
    | cons q rest =>
      obtain ⟨k, v⟩ := q
      have := h k
      simp only [canonical, Bool.and_eq_true, decide_eq_true_eq] at hn
      simp only [read, if_true] at this
      exact absurd this.symm hn.1.2
  | cons p rest ih =>
    obtain ⟨k, v⟩ := p
    have hm' := hm
    simp only [canonical, Bool.and_eq_true, decide_eq_true_eq] at hm'
    cases n with
    | nil =>
      have := h k
      simp only [read, if_true] at this
      exact absurd this hm'.1.2
    | cons q rest' =>
      obtain ⟨l, w⟩ := q
      have hn' := hn
      simp only [canonical, Bool.and_eq_true, decide_eq_true_eq] at hn'
      have hkl : k = l := by
        rcases Nat.lt_trichotomy k l with hlt | heq | hgt
        · have := h k
          have hne : k ≠ l := by omega
          simp only [read, if_true, hne, if_false] at this
          rw [read_below hn'.2 (by omega)] at this
          exact absurd this hm'.1.2
        · exact heq
        · have := h l
          have hne : l ≠ k := by omega
          simp only [read, if_true, hne, if_false] at this
          rw [read_below hm'.2 (by omega)] at this
          exact absurd this.symm hn'.1.2
      subst hkl
      have hv : v = w := by simpa [read] using h k
      subst hv
      congr 1
      refine ih hm'.2 hn'.2 (fun i => ?_)
      rcases Nat.lt_or_ge i (k + 1) with hi | hi
      · rw [read_below hm'.2 hi, read_below hn'.2 hi]
      · have := h i
        have hne : i ≠ k := by omega
        simpa [read, hne] using this

@[simp] theorem length_toBytes (size : Nat) (mem : Memory) : (toBytes size mem).length = size := by
  simp [toBytes]

/-- Beyond its size a canonical storage reads as unlisted. -/
theorem read_beyond {size lo i : Nat} {mem : Memory} (hc : canonical size lo mem = true)
    (hi : size ≤ i) : read mem i = unlisted := by
  induction mem generalizing lo with
  | nil => rfl
  | cons p rest ih =>
    obtain ⟨k, v⟩ := p
    simp only [canonical, Bool.and_eq_true, decide_eq_true_eq] at hc
    have hne : i ≠ k := by omega
    simp only [read, hne, if_false]
    exact ih hc.2

/-- A storage is the storage of its image. -/
theorem ofBytes_toBytes {size : Nat} {mem : Memory} (hc : mem.wf size = true) :
    ofBytes (toBytes size mem) = mem := by
  refine ext_of_read (size := size) (lo := 0) (wf_ofBytes (by simp)) hc (fun i => ?_)
  rw [read_ofBytes]
  rcases Nat.lt_or_ge i size with hi | hi
  · have : i < (toBytes size mem).length := by simpa using hi
    rw [List.getD_eq_getElem _ _ this]
    simp [toBytes, tableFrom_get]
  · rw [read_beyond hc hi, List.getD_eq_default _ _ (by simpa using hi)]

end Memory

end Sys2Proof.Machine
end

