-- ==== Sys2Proof/Laws/State.lean ====
section
/-! SUPPORT. One lemma per field per update of the console, so that no proof unfolds a record update;
the accessors of the state; reading the device table after writing it; the address operations with the
parameters' values in them (00_scope.md R7). -/

namespace Sys2Proof.Machine

/-! ### Addresses -/

/-- 20_memory.md R71: the mask is the reduction to the width. -/
@[simp] theorem reduceAddr_eq (addr : Nat) : reduceAddr addr = BitVec.ofNat 16 addr := by
  apply BitVec.eq_of_toNat_eq
  rw [reduceAddr, BitVec.toNat_ofNat, BitVec.toNat_ofNat, show Config.addrMask = 2 ^ 16 - 1 from rfl,
    Nat.and_two_pow_sub_one_eq_mod, Nat.mod_mod]

/-- 20_memory.md R70 -/
theorem pageIndex_eq (a : Addr) : pageIndex a = a.toNat / 64 := rfl

/-- 40_address_space.md R147 -/
theorem mapCount_eq (base : Addr) (size : Nat) :
    mapCount base size = min ((base.toNat + size - 1) / 64 - base.toNat / 64 + 1) 1024 := rfl

/-- 40_address_space.md R147 -/
theorem mapClaims_eq (base : Addr) (size p : Nat) : mapClaims base size p =
    decide (size ≠ 0 ∧ (p + 1024 - pageIndex base) % 1024 < mapCount base size) := rfl

/-! ### `latch` -/

@[simp] theorem Console.latch_dev (c : Console) (v : Byte) : (c.latch v).dev = c.dev := rfl
@[simp] theorem Console.latch_page (c : Console) (v : Byte) : (c.latch v).page = c.page := rfl
@[simp] theorem Console.latch_snooper (c : Console) (v : Byte) :
    (c.latch v).snooper = c.snooper := rfl
@[simp] theorem Console.latch_lbv (c : Console) (v : Byte) : (c.latch v).lbv = v := rfl
@[simp] theorem Console.latch_type (c : Console) (v : Byte) : (c.latch v).type = c.type := rfl
@[simp] theorem Console.latch_halt (c : Console) (v : Byte) : (c.latch v).halt = c.halt := rfl
@[simp] theorem Console.latch_frame (c : Console) (v : Byte) : (c.latch v).frame = c.frame := rfl
@[simp] theorem Console.latch_hasBios (c : Console) (v : Byte) :
    (c.latch v).hasBios = c.hasBios := rfl
@[simp] theorem Console.latch_clock (c : Console) (v : Byte) : (c.latch v).clock = c.clock := rfl
@[simp] theorem Console.latch_budget (c : Console) (v : Byte) :
    (c.latch v).budget = c.budget := rfl
@[simp] theorem Console.latch_jammed (c : Console) (v : Byte) :
    (c.latch v).jammed = c.jammed := rfl
@[simp] theorem Console.latch_preempt (c : Console) (v : Byte) :
    (c.latch v).preempt = c.preempt := rfl
@[simp] theorem Console.latch_sched (c : Console) (v : Byte) : (c.latch v).sched = c.sched := rfl
@[simp] theorem Console.latch_chips (c : Console) (v : Byte) : (c.latch v).chips = c.chips := rfl
@[simp] theorem Console.latch_calls (c : Console) (v : Byte) : (c.latch v).calls = c.calls := rfl

/-! ### `setDevice` -/

@[simp] theorem Console.setDevice_page (c : Console) (h : Handle) (d : Device) :
    (c.setDevice h d).page = c.page := rfl
@[simp] theorem Console.setDevice_snooper (c : Console) (h : Handle) (d : Device) :
    (c.setDevice h d).snooper = c.snooper := rfl
@[simp] theorem Console.setDevice_lbv (c : Console) (h : Handle) (d : Device) :
    (c.setDevice h d).lbv = c.lbv := rfl
@[simp] theorem Console.setDevice_type (c : Console) (h : Handle) (d : Device) :
    (c.setDevice h d).type = c.type := rfl
@[simp] theorem Console.setDevice_halt (c : Console) (h : Handle) (d : Device) :
    (c.setDevice h d).halt = c.halt := rfl
@[simp] theorem Console.setDevice_frame (c : Console) (h : Handle) (d : Device) :
    (c.setDevice h d).frame = c.frame := rfl
@[simp] theorem Console.setDevice_hasBios (c : Console) (h : Handle) (d : Device) :
    (c.setDevice h d).hasBios = c.hasBios := rfl
@[simp] theorem Console.setDevice_clock (c : Console) (h : Handle) (d : Device) :
    (c.setDevice h d).clock = c.clock := rfl
@[simp] theorem Console.setDevice_budget (c : Console) (h : Handle) (d : Device) :
    (c.setDevice h d).budget = c.budget := rfl
@[simp] theorem Console.setDevice_jammed (c : Console) (h : Handle) (d : Device) :
    (c.setDevice h d).jammed = c.jammed := rfl
@[simp] theorem Console.setDevice_preempt (c : Console) (h : Handle) (d : Device) :
    (c.setDevice h d).preempt = c.preempt := rfl
@[simp] theorem Console.setDevice_sched (c : Console) (h : Handle) (d : Device) :
    (c.setDevice h d).sched = c.sched := rfl
@[simp] theorem Console.setDevice_chips (c : Console) (h : Handle) (d : Device) :
    (c.setDevice h d).chips = c.chips := rfl
@[simp] theorem Console.setDevice_calls (c : Console) (h : Handle) (d : Device) :
    (c.setDevice h d).calls = c.calls := rfl

/-! ### `setCart` -/

@[simp] theorem Console.setCart_page (c : Console) (k : Cart) : (c.setCart k).page = c.page := rfl
@[simp] theorem Console.setCart_snooper (c : Console) (k : Cart) :
    (c.setCart k).snooper = c.snooper := rfl
@[simp] theorem Console.setCart_lbv (c : Console) (k : Cart) : (c.setCart k).lbv = c.lbv := rfl
@[simp] theorem Console.setCart_type (c : Console) (k : Cart) : (c.setCart k).type = c.type := rfl
@[simp] theorem Console.setCart_halt (c : Console) (k : Cart) : (c.setCart k).halt = c.halt := rfl
@[simp] theorem Console.setCart_frame (c : Console) (k : Cart) :
    (c.setCart k).frame = c.frame := rfl
@[simp] theorem Console.setCart_hasBios (c : Console) (k : Cart) :
    (c.setCart k).hasBios = c.hasBios := rfl
@[simp] theorem Console.setCart_clock (c : Console) (k : Cart) :
    (c.setCart k).clock = c.clock := rfl
@[simp] theorem Console.setCart_budget (c : Console) (k : Cart) :
    (c.setCart k).budget = c.budget := rfl
@[simp] theorem Console.setCart_jammed (c : Console) (k : Cart) :
    (c.setCart k).jammed = c.jammed := rfl
@[simp] theorem Console.setCart_preempt (c : Console) (k : Cart) :
    (c.setCart k).preempt = c.preempt := rfl
@[simp] theorem Console.setCart_sched (c : Console) (k : Cart) :
    (c.setCart k).sched = c.sched := rfl
@[simp] theorem Console.setCart_chips (c : Console) (k : Cart) :
    (c.setCart k).chips = c.chips := rfl
@[simp] theorem Console.setCart_calls (c : Console) (k : Cart) :
    (c.setCart k).calls = c.calls := rfl

/-! ### `note` -/

@[simp] theorem Console.note_dev (c : Console) (k : CallKind) : (c.note k).dev = c.dev := rfl
@[simp] theorem Console.note_page (c : Console) (k : CallKind) : (c.note k).page = c.page := rfl
@[simp] theorem Console.note_snooper (c : Console) (k : CallKind) :
    (c.note k).snooper = c.snooper := rfl
@[simp] theorem Console.note_lbv (c : Console) (k : CallKind) : (c.note k).lbv = c.lbv := rfl
@[simp] theorem Console.note_type (c : Console) (k : CallKind) : (c.note k).type = c.type := rfl
@[simp] theorem Console.note_halt (c : Console) (k : CallKind) : (c.note k).halt = c.halt := rfl
@[simp] theorem Console.note_frame (c : Console) (k : CallKind) : (c.note k).frame = c.frame := rfl
@[simp] theorem Console.note_hasBios (c : Console) (k : CallKind) :
    (c.note k).hasBios = c.hasBios := rfl
@[simp] theorem Console.note_clock (c : Console) (k : CallKind) : (c.note k).clock = c.clock := rfl
@[simp] theorem Console.note_budget (c : Console) (k : CallKind) :
    (c.note k).budget = c.budget := rfl
@[simp] theorem Console.note_jammed (c : Console) (k : CallKind) :
    (c.note k).jammed = c.jammed := rfl
@[simp] theorem Console.note_preempt (c : Console) (k : CallKind) :
    (c.note k).preempt = c.preempt := rfl
@[simp] theorem Console.note_sched (c : Console) (k : CallKind) : (c.note k).sched = c.sched := rfl
@[simp] theorem Console.note_chips (c : Console) (k : CallKind) : (c.note k).chips = c.chips := rfl
@[simp] theorem Console.note_calls (c : Console) (k : CallKind) :
    (c.note k).calls = { kind := k, lbv := c.lbv, clock := c.clock } :: c.calls := rfl

/-! ### `refreshImages` -/

@[simp] theorem Console.refreshImages_dev (E : Env) (c : Console) :
    (c.refreshImages E).dev = c.dev := rfl
@[simp] theorem Console.refreshImages_page (E : Env) (c : Console) :
    (c.refreshImages E).page = c.page := rfl
@[simp] theorem Console.refreshImages_snooper (E : Env) (c : Console) :
    (c.refreshImages E).snooper = c.snooper := rfl
@[simp] theorem Console.refreshImages_lbv (E : Env) (c : Console) :
    (c.refreshImages E).lbv = c.lbv := rfl
@[simp] theorem Console.refreshImages_type (E : Env) (c : Console) :
    (c.refreshImages E).type = c.type := rfl
@[simp] theorem Console.refreshImages_halt (E : Env) (c : Console) :
    (c.refreshImages E).halt = c.halt := rfl
@[simp] theorem Console.refreshImages_frame (E : Env) (c : Console) :
    (c.refreshImages E).frame = c.frame := rfl
@[simp] theorem Console.refreshImages_hasBios (E : Env) (c : Console) :
    (c.refreshImages E).hasBios = c.hasBios := rfl
@[simp] theorem Console.refreshImages_clock (E : Env) (c : Console) :
    (c.refreshImages E).clock = c.clock := rfl
@[simp] theorem Console.refreshImages_budget (E : Env) (c : Console) :
    (c.refreshImages E).budget = c.budget := rfl
@[simp] theorem Console.refreshImages_jammed (E : Env) (c : Console) :
    (c.refreshImages E).jammed = c.jammed := rfl
@[simp] theorem Console.refreshImages_preempt (E : Env) (c : Console) :
    (c.refreshImages E).preempt = c.preempt := rfl
@[simp] theorem Console.refreshImages_sched (E : Env) (c : Console) :
    (c.refreshImages E).sched = c.sched := rfl
@[simp] theorem Console.refreshImages_chips (E : Env) (c : Console) :
    (c.refreshImages E).chips = c.chips.map (Chips.refresh E c.calls) := rfl
@[simp] theorem Console.refreshImages_calls (E : Env) (c : Console) :
    (c.refreshImages E).calls = c.calls := rfl

/-! ### `call` -/

@[simp] theorem Console.call_dev (E : Env) (k : CallKind) (c : Console) :
    (c.call E k).dev = c.dev := rfl
@[simp] theorem Console.call_page (E : Env) (k : CallKind) (c : Console) :
    (c.call E k).page = c.page := rfl
@[simp] theorem Console.call_snooper (E : Env) (k : CallKind) (c : Console) :
    (c.call E k).snooper = c.snooper := rfl
@[simp] theorem Console.call_lbv (E : Env) (k : CallKind) (c : Console) :
    (c.call E k).lbv = c.lbv := rfl
@[simp] theorem Console.call_type (E : Env) (k : CallKind) (c : Console) :
    (c.call E k).type = c.type := rfl
@[simp] theorem Console.call_halt (E : Env) (k : CallKind) (c : Console) :
    (c.call E k).halt = c.halt := rfl
@[simp] theorem Console.call_frame (E : Env) (k : CallKind) (c : Console) :
    (c.call E k).frame = c.frame := rfl
@[simp] theorem Console.call_hasBios (E : Env) (k : CallKind) (c : Console) :
    (c.call E k).hasBios = c.hasBios := rfl
@[simp] theorem Console.call_clock (E : Env) (k : CallKind) (c : Console) :
    (c.call E k).clock = c.clock := rfl
@[simp] theorem Console.call_budget (E : Env) (k : CallKind) (c : Console) :
    (c.call E k).budget = c.budget := rfl
@[simp] theorem Console.call_jammed (E : Env) (k : CallKind) (c : Console) :
    (c.call E k).jammed = c.jammed := rfl
@[simp] theorem Console.call_preempt (E : Env) (k : CallKind) (c : Console) :
    (c.call E k).preempt = c.preempt := rfl
@[simp] theorem Console.call_sched (E : Env) (k : CallKind) (c : Console) :
    (c.call E k).sched = c.sched := rfl
@[simp] theorem Console.call_calls (E : Env) (k : CallKind) (c : Console) :
    (c.call E k).calls = { kind := k, lbv := c.lbv, clock := c.clock } :: c.calls := rfl

/-! ### `setCpuRegs` -/

@[simp] theorem Console.setCpuRegs_dev (r : CpuRegs) (c : Console) :
    (c.setCpuRegs r).dev = c.dev := rfl
@[simp] theorem Console.setCpuRegs_page (r : CpuRegs) (c : Console) :
    (c.setCpuRegs r).page = c.page := rfl
@[simp] theorem Console.setCpuRegs_snooper (r : CpuRegs) (c : Console) :
    (c.setCpuRegs r).snooper = c.snooper := rfl
@[simp] theorem Console.setCpuRegs_lbv (r : CpuRegs) (c : Console) :
    (c.setCpuRegs r).lbv = c.lbv := rfl
@[simp] theorem Console.setCpuRegs_type (r : CpuRegs) (c : Console) :
    (c.setCpuRegs r).type = c.type := rfl
@[simp] theorem Console.setCpuRegs_halt (r : CpuRegs) (c : Console) :
    (c.setCpuRegs r).halt = c.halt := rfl
@[simp] theorem Console.setCpuRegs_frame (r : CpuRegs) (c : Console) :
    (c.setCpuRegs r).frame = c.frame := rfl
@[simp] theorem Console.setCpuRegs_hasBios (r : CpuRegs) (c : Console) :
    (c.setCpuRegs r).hasBios = c.hasBios := rfl
@[simp] theorem Console.setCpuRegs_clock (r : CpuRegs) (c : Console) :
    (c.setCpuRegs r).clock = c.clock := rfl
@[simp] theorem Console.setCpuRegs_budget (r : CpuRegs) (c : Console) :
    (c.setCpuRegs r).budget = c.budget := rfl
@[simp] theorem Console.setCpuRegs_jammed (r : CpuRegs) (c : Console) :
    (c.setCpuRegs r).jammed = c.jammed := rfl
@[simp] theorem Console.setCpuRegs_preempt (r : CpuRegs) (c : Console) :
    (c.setCpuRegs r).preempt = c.preempt := rfl
@[simp] theorem Console.setCpuRegs_sched (r : CpuRegs) (c : Console) :
    (c.setCpuRegs r).sched = c.sched := rfl
@[simp] theorem Console.setCpuRegs_chips (r : CpuRegs) (c : Console) :
    (c.setCpuRegs r).chips = c.chips.map fun ch => { ch with cpu := r } := rfl
@[simp] theorem Console.setCpuRegs_calls (r : CpuRegs) (c : Console) :
    (c.setCpuRegs r).calls = c.calls := rfl

/-! ### `addBudget` -/

@[simp] theorem Console.addBudget_dev (x : Int) (c : Console) : (c.addBudget x).dev = c.dev := rfl
@[simp] theorem Console.addBudget_page (x : Int) (c : Console) :
    (c.addBudget x).page = c.page := rfl
@[simp] theorem Console.addBudget_snooper (x : Int) (c : Console) :
    (c.addBudget x).snooper = c.snooper := rfl
@[simp] theorem Console.addBudget_lbv (x : Int) (c : Console) : (c.addBudget x).lbv = c.lbv := rfl
@[simp] theorem Console.addBudget_type (x : Int) (c : Console) :
    (c.addBudget x).type = c.type := rfl
@[simp] theorem Console.addBudget_halt (x : Int) (c : Console) :
    (c.addBudget x).halt = c.halt := rfl
@[simp] theorem Console.addBudget_frame (x : Int) (c : Console) :
    (c.addBudget x).frame = c.frame := rfl
@[simp] theorem Console.addBudget_hasBios (x : Int) (c : Console) :
    (c.addBudget x).hasBios = c.hasBios := rfl
@[simp] theorem Console.addBudget_clock (x : Int) (c : Console) :
    (c.addBudget x).clock = c.clock := rfl
@[simp] theorem Console.addBudget_budget (x : Int) (c : Console) :
    (c.addBudget x).budget = BitVec.ofInt 32 (c.budget.toInt + x) := rfl
@[simp] theorem Console.addBudget_jammed (x : Int) (c : Console) :
    (c.addBudget x).jammed = c.jammed := rfl
@[simp] theorem Console.addBudget_preempt (x : Int) (c : Console) :
    (c.addBudget x).preempt = c.preempt := rfl
@[simp] theorem Console.addBudget_sched (x : Int) (c : Console) :
    (c.addBudget x).sched = c.sched := rfl
@[simp] theorem Console.addBudget_chips (x : Int) (c : Console) :
    (c.addBudget x).chips = c.chips := rfl
@[simp] theorem Console.addBudget_calls (x : Int) (c : Console) :
    (c.addBudget x).calls = c.calls := rfl

/-! ### `enter` -/

@[simp] theorem Console.enter_dev (p : SchedPhase) (c : Console) : (c.enter p).dev = c.dev := rfl
@[simp] theorem Console.enter_page (p : SchedPhase) (c : Console) :
    (c.enter p).page = c.page := rfl
@[simp] theorem Console.enter_snooper (p : SchedPhase) (c : Console) :
    (c.enter p).snooper = c.snooper := rfl
@[simp] theorem Console.enter_lbv (p : SchedPhase) (c : Console) : (c.enter p).lbv = c.lbv := rfl
@[simp] theorem Console.enter_type (p : SchedPhase) (c : Console) :
    (c.enter p).type = c.type := rfl
@[simp] theorem Console.enter_halt (p : SchedPhase) (c : Console) :
    (c.enter p).halt = c.halt := rfl
@[simp] theorem Console.enter_frame (p : SchedPhase) (c : Console) :
    (c.enter p).frame = c.frame := rfl
@[simp] theorem Console.enter_hasBios (p : SchedPhase) (c : Console) :
    (c.enter p).hasBios = c.hasBios := rfl
@[simp] theorem Console.enter_clock (p : SchedPhase) (c : Console) :
    (c.enter p).clock = c.clock := rfl
@[simp] theorem Console.enter_budget (p : SchedPhase) (c : Console) :
    (c.enter p).budget = c.budget := rfl
@[simp] theorem Console.enter_jammed (p : SchedPhase) (c : Console) :
    (c.enter p).jammed = c.jammed := rfl
@[simp] theorem Console.enter_preempt (p : SchedPhase) (c : Console) :
    (c.enter p).preempt = c.preempt := rfl
@[simp] theorem Console.enter_sched (p : SchedPhase) (c : Console) :
    (c.enter p).sched = { c.sched with phase := p } := rfl
@[simp] theorem Console.enter_chips (p : SchedPhase) (c : Console) :
    (c.enter p).chips = c.chips := rfl
@[simp] theorem Console.enter_calls (p : SchedPhase) (c : Console) :
    (c.enter p).calls = c.calls := rfl

/-! ### `setHalt` -/

@[simp] theorem Console.setHalt_dev (c : Console) : c.setHalt.dev = c.dev := rfl
@[simp] theorem Console.setHalt_page (c : Console) : c.setHalt.page = c.page := rfl
@[simp] theorem Console.setHalt_snooper (c : Console) : c.setHalt.snooper = c.snooper := rfl
@[simp] theorem Console.setHalt_lbv (c : Console) : c.setHalt.lbv = c.lbv := rfl
@[simp] theorem Console.setHalt_type (c : Console) : c.setHalt.type = c.type := rfl
@[simp] theorem Console.setHalt_halt (c : Console) : c.setHalt.halt = true := rfl
@[simp] theorem Console.setHalt_frame (c : Console) : c.setHalt.frame = c.frame := rfl
@[simp] theorem Console.setHalt_hasBios (c : Console) : c.setHalt.hasBios = c.hasBios := rfl
@[simp] theorem Console.setHalt_clock (c : Console) : c.setHalt.clock = c.clock := rfl
@[simp] theorem Console.setHalt_budget (c : Console) : c.setHalt.budget = c.budget := rfl
@[simp] theorem Console.setHalt_jammed (c : Console) : c.setHalt.jammed = c.jammed := rfl
@[simp] theorem Console.setHalt_preempt (c : Console) : c.setHalt.preempt = c.preempt := rfl
@[simp] theorem Console.setHalt_sched (c : Console) : c.setHalt.sched = c.sched := rfl
@[simp] theorem Console.setHalt_chips (c : Console) : c.setHalt.chips = c.chips := rfl
@[simp] theorem Console.setHalt_calls (c : Console) : c.setHalt.calls = c.calls := rfl

/-! ### `steal` -/

@[simp] theorem Console.steal_dev (n : Nat) (c : Console) : (c.steal n).dev = c.dev := rfl
@[simp] theorem Console.steal_page (n : Nat) (c : Console) : (c.steal n).page = c.page := rfl
@[simp] theorem Console.steal_snooper (n : Nat) (c : Console) :
    (c.steal n).snooper = c.snooper := rfl
@[simp] theorem Console.steal_lbv (n : Nat) (c : Console) : (c.steal n).lbv = c.lbv := rfl
@[simp] theorem Console.steal_type (n : Nat) (c : Console) : (c.steal n).type = c.type := rfl
@[simp] theorem Console.steal_halt (n : Nat) (c : Console) : (c.steal n).halt = c.halt := rfl
@[simp] theorem Console.steal_frame (n : Nat) (c : Console) : (c.steal n).frame = c.frame := rfl
@[simp] theorem Console.steal_hasBios (n : Nat) (c : Console) :
    (c.steal n).hasBios = c.hasBios := rfl
@[simp] theorem Console.steal_clock (n : Nat) (c : Console) :
    (c.steal n).clock = c.clock + BitVec.ofNat 64 (n / Config.m) := rfl
@[simp] theorem Console.steal_budget (n : Nat) (c : Console) :
    (c.steal n).budget = BitVec.ofInt 32 (c.budget.toInt + -(n : Int)) := rfl
@[simp] theorem Console.steal_jammed (n : Nat) (c : Console) : (c.steal n).jammed = c.jammed := rfl
@[simp] theorem Console.steal_preempt (n : Nat) (c : Console) :
    (c.steal n).preempt = c.preempt := rfl
@[simp] theorem Console.steal_sched (n : Nat) (c : Console) : (c.steal n).sched = c.sched := rfl
@[simp] theorem Console.steal_chips (n : Nat) (c : Console) : (c.steal n).chips = c.chips := rfl
@[simp] theorem Console.steal_calls (n : Nat) (c : Console) : (c.steal n).calls = c.calls := rfl

/-! ### `fastForward` -/

@[simp] theorem Console.fastForward_dev (start : Word64) (c : Console) :
    (c.fastForward start).dev = c.dev := rfl
@[simp] theorem Console.fastForward_page (start : Word64) (c : Console) :
    (c.fastForward start).page = c.page := rfl
@[simp] theorem Console.fastForward_snooper (start : Word64) (c : Console) :
    (c.fastForward start).snooper = c.snooper := rfl
@[simp] theorem Console.fastForward_lbv (start : Word64) (c : Console) :
    (c.fastForward start).lbv = c.lbv := rfl
@[simp] theorem Console.fastForward_type (start : Word64) (c : Console) :
    (c.fastForward start).type = c.type := rfl
@[simp] theorem Console.fastForward_halt (start : Word64) (c : Console) :
    (c.fastForward start).halt = c.halt := rfl
@[simp] theorem Console.fastForward_frame (start : Word64) (c : Console) :
    (c.fastForward start).frame = c.frame := rfl
@[simp] theorem Console.fastForward_hasBios (start : Word64) (c : Console) :
    (c.fastForward start).hasBios = c.hasBios := rfl
@[simp] theorem Console.fastForward_clock (start : Word64) (c : Console) :
    (c.fastForward start).clock = start + BitVec.ofNat 64 Config.scanlineCycles := rfl
@[simp] theorem Console.fastForward_budget (start : Word64) (c : Console) :
    (c.fastForward start).budget = 0 := rfl
@[simp] theorem Console.fastForward_jammed (start : Word64) (c : Console) :
    (c.fastForward start).jammed = c.jammed := rfl
@[simp] theorem Console.fastForward_preempt (start : Word64) (c : Console) :
    (c.fastForward start).preempt = c.preempt := rfl
@[simp] theorem Console.fastForward_sched (start : Word64) (c : Console) :
    (c.fastForward start).sched = c.sched := rfl
@[simp] theorem Console.fastForward_chips (start : Word64) (c : Console) :
    (c.fastForward start).chips = c.chips := rfl
@[simp] theorem Console.fastForward_calls (start : Word64) (c : Console) :
    (c.fastForward start).calls = c.calls := rfl

/-! ### `mapPages` -/

@[simp] theorem mapPages_dev (base : Addr) (size : Nat) (h : Handle) (c : Console) :
    (mapPages base size h c).dev = c.dev := rfl
@[simp] theorem mapPages_snooper (base : Addr) (size : Nat) (h : Handle) (c : Console) :
    (mapPages base size h c).snooper = c.snooper := rfl
@[simp] theorem mapPages_lbv (base : Addr) (size : Nat) (h : Handle) (c : Console) :
    (mapPages base size h c).lbv = c.lbv := rfl
@[simp] theorem mapPages_type (base : Addr) (size : Nat) (h : Handle) (c : Console) :
    (mapPages base size h c).type = c.type := rfl
@[simp] theorem mapPages_halt (base : Addr) (size : Nat) (h : Handle) (c : Console) :
    (mapPages base size h c).halt = c.halt := rfl
@[simp] theorem mapPages_frame (base : Addr) (size : Nat) (h : Handle) (c : Console) :
    (mapPages base size h c).frame = c.frame := rfl
@[simp] theorem mapPages_hasBios (base : Addr) (size : Nat) (h : Handle) (c : Console) :
    (mapPages base size h c).hasBios = c.hasBios := rfl
@[simp] theorem mapPages_clock (base : Addr) (size : Nat) (h : Handle) (c : Console) :
    (mapPages base size h c).clock = c.clock := rfl
@[simp] theorem mapPages_budget (base : Addr) (size : Nat) (h : Handle) (c : Console) :
    (mapPages base size h c).budget = c.budget := rfl
@[simp] theorem mapPages_jammed (base : Addr) (size : Nat) (h : Handle) (c : Console) :
    (mapPages base size h c).jammed = c.jammed := rfl
@[simp] theorem mapPages_preempt (base : Addr) (size : Nat) (h : Handle) (c : Console) :
    (mapPages base size h c).preempt = c.preempt := rfl
@[simp] theorem mapPages_sched (base : Addr) (size : Nat) (h : Handle) (c : Console) :
    (mapPages base size h c).sched = c.sched := rfl
@[simp] theorem mapPages_chips (base : Addr) (size : Nat) (h : Handle) (c : Console) :
    (mapPages base size h c).chips = c.chips := rfl
@[simp] theorem mapPages_calls (base : Addr) (size : Nat) (h : Handle) (c : Console) :
    (mapPages base size h c).calls = c.calls := rfl

/-! ### Reading what was written -/

@[simp] theorem Console.device_setDevice_same (c : Console) (h : Handle) (d : Device) :
    (c.setDevice h d).device h = d := by
  simp [Console.device, Console.setDevice]

theorem Console.device_setDevice_ne (c : Console) {h g : Handle} (d : Device) (hne : g ≠ h) :
    (c.setDevice h d).device g = c.device g := by
  have : h.toNat ≠ g.toNat := fun e => hne (BitVec.eq_of_toNat_eq e.symm)
  simp [Console.device, Console.setDevice, this]

theorem Console.device_setDevice (c : Console) (h g : Handle) (d : Device) :
    (c.setDevice h d).device g = if g = h then d else c.device g := by
  split
  · next e => subst e; exact c.device_setDevice_same g d
  · next hne => exact c.device_setDevice_ne d hne

/-- A console's devices depend on its table only. -/
theorem Console.device_congr {c d : Console} (e : d.dev = c.dev) (h : Handle) :
    d.device h = c.device h := by simp [Console.device, e]

/-- A console's page entries depend on its page table only. -/
theorem Console.pageAt_congr {c d : Console} (e : d.page = c.page) (p : Nat) :
    d.pageAt p = c.pageAt p := by simp [Console.pageAt, e]

@[simp] theorem Console.pageAt_mapPages (base : Addr) (size : Nat) (h : Handle) (c : Console)
    {p : Nat} (hp : p < 1024) :
    (mapPages base size h c).pageAt p = if mapClaims base size p then h else c.pageAt p := by
  simp only [Console.pageAt, mapPages, Vector.getElem?_eq_getElem hp, table_get, Option.getD_some]

theorem Console.cart?_eq_some {c : Console} {k : Cart} :
    c.cart? = some k ↔ c.device cartHandle = .cart k := by
  unfold Console.cart?
  split <;> simp_all

@[simp] theorem Console.cart?_setCart (c : Console) (k : Cart) : (c.setCart k).cart? = some k := by
  simp [Console.cart?_eq_some, Console.setCart]

/-! ### Writing what is there -/

@[simp] theorem Console.setDevice_device (c : Console) (h : Handle) :
    c.setDevice h (c.device h) = c := by
  simp [Console.setDevice, Console.device]

/-! ### Outcomes -/

@[simp] theorem complete_eq (s : State) : complete s = .next { s with status := .ok } := rfl
@[simp] theorem completeWith_eq (v : Byte) (s : State) :
    completeWith v s = .next { s with status := .ok, result := v } := rfl
@[simp] theorem raise_eq (e : Status) (s : State) : raise e s = .next { s with status := e } := rfl

/-! ### Phases -/

theorem Console.phase_bench {c : Console} : c.phase = .bench ↔ c.chips = none := by
  unfold Console.phase; split <;> simp_all

theorem Console.phase_run {c : Console} : c.phase = .run ↔ ∃ ch, c.chips = some ch := by
  unfold Console.phase; split <;> simp_all

theorem State.bench_eq_some {s : State} {c : Console} :
    s.bench = some c ↔ s.console = some c ∧ c.phase = .bench := by
  simp [State.bench, Option.filter_eq_some_iff]

theorem State.running_eq_some {s : State} {c : Console} :
    s.running = some c ↔ s.console = some c ∧ c.phase = .run := by
  simp [State.running, Option.filter_eq_some_iff]

theorem State.phase_empty {s : State} : s.phase = .empty ↔ s.console = none := by
  unfold State.phase; split
  · simp_all
  · simp_all [Console.phase]; split <;> simp

theorem State.phase_of_console {s : State} {c : Console} (h : s.console = some c) :
    s.phase = c.phase := by simp [State.phase, h]

end Sys2Proof.Machine
end

