-- ==== Sys2Proof/Laws/Cart.lean ====
section
/-! SUPPORT. What the cart as a device can do (41_cart_family.md, 42_cart_datafetcher.md): one lemma per
shared operation: the constants it keeps, that a well-formed cart stays so, and that no access to one
fails once it is attached. -/

namespace Sys2Proof.Machine

/-! ### Sequencing -/

theorem Except.bind_ok_iff {ε α β : Type} {x : Except ε α} {f : α → Except ε β} {r : β} :
    (x >>= f) = .ok r ↔ ∃ a, x = .ok a ∧ f a = .ok r := by
  cases x <;> simp [bind, Except.bind]

@[simp] theorem Except.ok_bind {ε α β : Type} (a : α) (f : α → Except ε β) :
    ((Except.ok a : Except ε α) >>= f) = f a := rfl

@[simp] theorem Except.error_bind {ε α β : Type} (e : ε) (f : α → Except ε β) :
    ((Except.error e : Except ε α) >>= f) = .error e := rfl

/-! ### Images -/

theorem romByte_of_lt {img : Bytes} {i : Nat} (h : i < img.length) :
    romByte img i = .ok (img.getD i 0) := by
  simp [romByte, List.getElem?_eq_getElem h]

theorem romByte_eq_ok {img : Bytes} {i : Nat} {v : Byte} (h : romByte img i = .ok v) :
    img.getD i 0 = v := by
  unfold romByte at h
  split at h
  · next b hb => simp_all
  · cases h

theorem reduceBy_lt {n : Nat} (a : Addr) (h : 0 < n) : reduceBy n a < n := by
  have : reduceBy n a ≤ n - 1 := Nat.and_le_right
  omega

theorem windowOffset_lt (a : Addr) : windowOffset a < 0x1000 := by
  have : windowOffset a ≤ 0x0FFF := Nat.and_le_right
  omega

/-- Reduction by a power of two is the remainder. -/
theorem reduceBy_two_pow (n : Nat) (a : Addr) : reduceBy (2 ^ n) a = a.toNat % 2 ^ n :=
  Nat.and_two_pow_sub_one_eq_mod _ _

theorem windowOffset_eq (a : Addr) : windowOffset a = a.toNat % 0x1000 :=
  Nat.and_two_pow_sub_one_eq_mod _ 12

/-! ### The variants (41_cart_family.md R183) -/

theorem romlens_pos {tag : CartTag} {n : Nat} (h : n ∈ (Config.cartTable tag).romlens) : 0 < n := by
  cases tag <;> simp [Config.cartTable, Config.fixedRow, Config.latchRow, Config.shadowRow] at h <;>
    omega

/-- The tables of the spec are the configuration's (30_encoding.md R109, 41_cart_family.md R183). -/
theorem tagTable_eq : tagTable = Config.tagCodes := rfl

theorem romLengths_eq (tag : CartTag) : romLengths tag = (Config.cartTable tag).romlens := by
  cases tag <;> rfl

theorem mem_fixedTags {tag : CartTag} :
    tag ∈ fixedTags ↔ (Config.cartTable tag).family = .fixed := by cases tag <;> decide

theorem mem_latchTags {tag : CartTag} :
    tag ∈ latchTags ↔ (Config.cartTable tag).family = .bankLatch := by cases tag <;> decide

theorem mem_shadowTags {tag : CartTag} :
    tag ∈ shadowTags ↔ (Config.cartTable tag).family = .ramShadow := by cases tag <;> decide

theorem multicart_iff {tag : CartTag} :
    tag = .mc4k ↔ (Config.cartTable tag).family = .multicart := by cases tag <;> decide

theorem wantsSnoop_iff {tag : CartTag} :
    (Config.cartTable tag).wantsSnoop = true ↔ tag = .ls8k := by cases tag <;> decide

theorem selfMaps_iff {tag : CartTag} :
    (Config.cartTable tag).selfMaps = true ↔ tag = .c16kp := by cases tag <;> decide

/-- Only `C16KP` has an embedded chip, chip 1 (41_cart_family.md R183). -/
theorem chip_eq (tag : CartTag) : (Config.cartTable tag).chip =
    if tag = .c16kp then some { id := 1, base := 0x4000, size := 0x4000, mask := 0x000F } else none := by
  cases tag <;> rfl

/-- The overlay's size and ports (41_cart_family.md R183). -/
theorem overlay_eq {tag : CartTag} (h : tag ∈ shadowTags) : (Config.cartTable tag).rs = 0x80 ∧
    (Config.cartTable tag).wport = 0 ∧ (Config.cartTable tag).rport = 0x80 := by
  simp only [shadowTags, List.mem_cons, List.not_mem_nil, or_false] at h
  rcases h with rfl | rfl | rfl <;> decide

theorem rs_pos_iff {tag : CartTag} : 0 < (Config.cartTable tag).rs ↔ tag ∈ shadowTags := by
  cases tag <;> decide

/-- The bank a trigger address selects, by the trigger ranges of the table (41_cart_family.md R183,
R197). -/
theorem triggeredBank_eq (tag : CartTag) (a : Addr) : triggeredBank (Config.cartTable tag) a =
    if (triggerRange tag).1 ≤ a.toNat % 0x1000 ∧
        a.toNat % 0x1000 < (triggerRange tag).1 + (triggerRange tag).2 then
      some (a.toNat % 0x1000 - (triggerRange tag).1) else none := by
  have h : (a &&& 0x0FFF).toNat = a.toNat % 0x1000 := by
    rw [BitVec.toNat_and]; exact Nat.and_two_pow_sub_one_eq_mod _ 12
  have h0 : (a &&& 0).toNat = 0 := by simp
  unfold triggeredBank
  cases tag <;>
    simp only [Config.cartTable, Config.fixedRow, Config.latchRow, Config.shadowRow, triggerRange, h,
      h0] <;> rfl

theorem triggeredBank_lt {v : Variant} {a : Addr} {n : Nat} (h : triggeredBank v a = some n) :
    n < v.trigCount := by
  unfold triggeredBank at h
  simp only [Option.ite_none_right_eq_some, Option.some.injEq] at h
  omega

/-- Every bank the trigger range can select is a legal bank of the image (R197, "Invariant kept"). -/
theorem bankLegal_of_trigger {tag : CartTag} {len n : Nat}
    (hlen : len ∈ (Config.cartTable tag).romlens) (hn : n < (Config.cartTable tag).trigCount) :
    bankLegal (Config.cartTable tag) len
      (BitVec.ofNat 32 (n * (Config.cartTable tag).bankSize)) = true := by
  cases tag <;>
    simp [Config.cartTable, Config.fixedRow, Config.latchRow, Config.shadowRow] at hlen hn ⊢ <;>
    subst hlen <;> interval_cases n <;> decide

/-- The reset bank is a legal bank of every variant that has banks (R192). -/
theorem bankLegal_reset {tag : CartTag} {len : Nat} (hlen : len ∈ (Config.cartTable tag).romlens)
    (hnb : (Config.cartTable tag).nb = 1) :
    bankLegal (Config.cartTable tag) len
      (BitVec.ofNat 32 (Config.resetBank * (Config.cartTable tag).bankSize)) = true := by
  cases tag <;>
    simp [Config.cartTable, Config.fixedRow, Config.latchRow, Config.shadowRow] at hlen hnb ⊢ <;>
    (try rcases hlen with rfl | rfl | rfl | rfl | rfl | rfl) <;> decide

/-- The bank a new multicart shows is a legal bank (R211). -/
theorem bankLegal_multicart {len : Nat} (hlen : len ∈ (Config.cartTable .mc4k).romlens)
    (sel : Word32) :
    bankLegal (Config.cartTable .mc4k) len
      (BitVec.ofNat 32 (multicartBank sel len (Config.cartTable .mc4k).bankSize)) = true := by
  have key : ∀ m b : Nat, 0 < m → m ≤ 64 → b = sel.toNat % m * 0x1000 →
      bankLegal (Config.cartTable .mc4k) (m * 0x1000) (BitVec.ofNat 32 b) = true := by
    intro m b hm hm' hb
    have hlt : sel.toNat % m < m := Nat.mod_lt _ hm
    have hb' : b < 2 ^ 31 := by omega
    simp only [bankLegal, Config.cartTable, bankedLength, BitVec.toInt_eq_toNat_cond,
      BitVec.toNat_ofNat, Bool.and_eq_true, decide_eq_true_eq]
    have e : b % 2 ^ 32 = b := Nat.mod_eq_of_lt (by omega)
    refine ⟨⟨?_, ?_⟩, ?_⟩
    · rw [e]; split <;> omega
    · rw [e]; omega
    · rw [e]; simp; omega
  simp only [Config.cartTable, List.mem_cons, List.not_mem_nil, or_false] at hlen
  rcases hlen with rfl | rfl | rfl | rfl | rfl | rfl
  · exact key 2 _ (by decide) (by decide) rfl
  · exact key 4 _ (by decide) (by decide) rfl
  · exact key 8 _ (by decide) (by decide) rfl
  · exact key 16 _ (by decide) (by decide) rfl
  · exact key 32 _ (by decide) (by decide) rfl
  · exact key 64 _ (by decide) (by decide) rfl

/-- Only banked families have a bank register, and then one (10_state.md R33). -/
theorem nb_eq_one {tag : CartTag} (h : (Config.cartTable tag).family ≠ .fixed)
    (h' : (Config.cartTable tag).family ≠ .chipAug) : (Config.cartTable tag).nb = 1 := by
  cases tag <;> simp_all [Config.cartTable, Config.fixedRow, Config.latchRow, Config.shadowRow]

theorem bankSize_eq {tag : CartTag} (h : (Config.cartTable tag).nb = 1) :
    (Config.cartTable tag).bankSize = 0x1000 := by
  cases tag <;> simp_all [Config.cartTable, Config.fixedRow, Config.latchRow, Config.shadowRow]

theorem family_dataFetcher {tag : CartTag} (h : (Config.cartTable tag).family = .dataFetcher) :
    tag = .df12k := by
  cases tag <;> simp_all [Config.cartTable, Config.fixedRow, Config.latchRow, Config.shadowRow]

theorem family_chipAug {tag : CartTag} (h : (Config.cartTable tag).family = .chipAug) :
    tag = .c16kp := by
  cases tag <;> simp_all [Config.cartTable, Config.fixedRow, Config.latchRow, Config.shadowRow]

/-- An image a collaborator gives is always one its own `LoadState` takes (log 8, log 10). -/
theorem ownImage_ok (E : Env) (who : ImageOwner) (calls : List Call) :
    (ownImage E who calls).length ≤ Config.maxBytes ∧
      imageAccepted E who (ownImage E who calls) = true := by
  unfold ownImage
  by_cases h : (decide ((E.collab.image who calls).length ≤ Config.maxBytes) &&
      E.collab.accepts who (E.collab.image who calls)) = true
  · simp only [h, if_true]
    simp only [Bool.and_eq_true, decide_eq_true_eq] at h
    exact ⟨h.1, by simp [imageAccepted, h.2]⟩
  · simp only [h]
    simp [imageAccepted]

/-! ### Well-formed carts -/

namespace Cart

variable {E : Env} {k : Cart}

theorem Ok.rom_pos (h : k.Ok E) : 0 < k.rom.length := romlens_pos h.romLength

/-- The selected bank lies inside the image. -/
theorem Ok.bank_le (h : k.Ok E) (hnb : k.variant.nb = 1) :
    k.bankBase + 0x1000 ≤ bankedLength k.variant k.rom.length := by
  have hsize := bankSize_eq hnb
  have hlen := h.bankCount
  have hb := h.banks
  rw [hnb] at hlen
  obtain ⟨b, hbank⟩ := List.length_eq_one_iff.mp hlen
  have := hb b (by simp [hbank])
  simp only [bankLegal, Bool.and_eq_true, decide_eq_true_eq] at this
  simp only [bankBase, hbank, List.getD_cons_zero]
  have e : k.variant.bankSize = 0x1000 := hsize
  rw [e] at this
  exact this.2

theorem bankedLength_le (v : Variant) (n : Nat) : bankedLength v n ≤ n := by
  unfold bankedLength; split <;> omega

/-- A byte of the selected bank can be read. -/
theorem Ok.bankedByte (h : k.Ok E) (hnb : k.variant.nb = 1) (a : Addr) :
    k.bankedByte a = .ok (k.rom.getD (k.bankBase + a.toNat % 0x1000) 0) := by
  have hle := h.bank_le hnb
  have hsize : k.variant.bankSize = 0x1000 := bankSize_eq hnb
  have hlt : reduceBy 0x1000 a < 0x1000 := reduceBy_lt a (by decide)
  have := bankedLength_le k.variant k.rom.length
  have e : reduceBy 0x1000 a = a.toNat % 0x1000 := reduceBy_two_pow 12 a
  unfold Cart.bankedByte
  rw [hsize, romByte_of_lt (by omega), e]

theorem Ok.fixedByte (h : k.Ok E) (a : Addr) :
    k.fixedByte a = .ok (k.rom.getD (reduceBy k.rom.length a) 0) :=
  romByte_of_lt (reduceBy_lt a h.rom_pos)

theorem Ok.setBank (h : k.Ok E) {n : Nat}
    (hb : k.variant.nb = 1 → bankLegal k.variant k.rom.length (BitVec.ofNat 32 n) = true) :
    (k.setBank n).Ok E := by
  refine ⟨h.romLength, ?_, ?_, h.overlay, h.fetcher, h.remainder, h.chipThere, h.chipImage⟩
  · show (k.bank.set 0 _).length = k.variant.nb
    rw [List.length_set]; exact h.bankCount
  · intro b hmem
    simp only [Cart.setBank] at hmem
    have hnb : k.variant.nb = 0 ∨ k.variant.nb = 1 := by
      show (Config.cartTable k.tag).nb = 0 ∨ (Config.cartTable k.tag).nb = 1
      cases k.tag <;> simp [Config.cartTable, Config.fixedRow, Config.latchRow, Config.shadowRow]
    rcases hnb with h0 | h1
    · have := h.bankCount
      rw [h0] at this
      have : k.bank = [] := List.length_eq_zero_iff.mp this
      simp [this] at hmem
    · rcases List.mem_or_eq_of_mem_set hmem with hm | rfl
      · exact h.banks b hm
      · exact hb h1

theorem Ok.updateBank (h : k.Ok E) (a : Addr) : (k.updateBank a).Ok E := by
  unfold Cart.updateBank
  split
  · next n hn =>
    exact h.setBank fun _ => bankLegal_of_trigger h.romLength (triggeredBank_lt hn)
  · exact h

theorem Ok.resetBank (h : k.Ok E) : k.resetBank.Ok E :=
  h.setBank fun hnb => bankLegal_reset h.romLength hnb

@[simp] theorem updateBank_tag (a : Addr) : (k.updateBank a).tag = k.tag := by
  unfold Cart.updateBank; split <;> rfl
@[simp] theorem updateBank_variant (a : Addr) : (k.updateBank a).variant = k.variant := by
  simp [Cart.variant]
@[simp] theorem updateBank_rom (a : Addr) : (k.updateBank a).rom = k.rom := by
  unfold Cart.updateBank; split <;> rfl
@[simp] theorem updateBank_ram (a : Addr) : (k.updateBank a).ram = k.ram := by
  unfold Cart.updateBank; split <;> rfl
@[simp] theorem updateBank_attached (a : Addr) : (k.updateBank a).attached = k.attached := by
  unfold Cart.updateBank; split <;> rfl
@[simp] theorem updateBank_chip (a : Addr) : (k.updateBank a).chip = k.chip := by
  unfold Cart.updateBank; split <;> rfl
@[simp] theorem updateBank_df (a : Addr) : (k.updateBank a).df = k.df := by
  unfold Cart.updateBank; split <;> rfl

/-- The constants of a cart. -/
def constants (k : Cart) : Cart := { k with bank := [], ram := [], chip := none, df := none }

@[simp] theorem constants_updateBank (a : Addr) : (k.updateBank a).constants = k.constants := by
  simp [constants]
@[simp] theorem constants_setBank (n : Nat) : (k.setBank n).constants = k.constants := rfl
@[simp] theorem constants_resetBank : k.resetBank.constants = k.constants := rfl
@[simp] theorem constants_refreshChip (E : Env) (c : Console) :
    (k.refreshChip E c).constants = k.constants := rfl

theorem constants_eq_iff {k l : Cart} :
    k.constants = l.constants ↔ k.tag = l.tag ∧ k.rom = l.rom ∧ k.attached = l.attached := by
  simp [constants]

theorem Ok.refreshChip (h : k.Ok E) (c : Console) : (k.refreshChip E c).Ok E := by
  refine ⟨h.romLength, h.bankCount, h.banks, h.overlay, h.fetcher, h.remainder, ?_, ?_⟩
  · have := h.chipThere
    simp only [Cart.refreshChip, Option.isSome_map]
    exact this
  · intro img himg
    simp only [Cart.refreshChip, Option.map_eq_some_iff] at himg
    obtain ⟨_, _, rfl⟩ := himg
    exact ownImage_ok E .chip c.calls

end Cart

/-! ### The bank a cart shows (41_cart_family.md R197, R198) -/

theorem bankAfter_eq (k : Cart) (a : Addr) : bankAfter k a =
    match triggeredBank k.variant a with
    | some n => n * 0x1000
    | none => k.bankBase := by
  unfold bankAfter Cart.variant
  rw [triggeredBank_eq]
  simp only
  split <;> rfl

/-- Latching a bank is showing the base the address selects. -/
theorem Cart.Ok.updateBank_showing {k : Cart} (hk : k.Ok E) (hnb : k.variant.nb = 1) (a : Addr) :
    k.updateBank a = k.showing (bankAfter k a) := by
  have hb := hk.bankCount
  rw [hnb] at hb
  obtain ⟨b, hb⟩ := List.length_eq_one_iff.mp hb
  rw [bankAfter_eq]
  unfold Cart.updateBank
  rw [show k.variant.bankSize = 0x1000 from bankSize_eq (tag := k.tag) hnb]
  cases triggeredBank k.variant a with
  | some n => simp [Cart.setBank, Cart.showing, hb]
  | none =>
    simp [Cart.showing, Cart.bankBase, hb]
    cases k; simp_all

theorem Cart.bankBase_showing {k : Cart} (a : Addr) :
    (k.showing (bankAfter k a)).bankBase = bankAfter k a := by
  unfold Cart.showing Cart.bankBase
  simp
  unfold bankAfter
  simp only
  split
  · omega
  · unfold Cart.bankBase
    exact (k.bank.getD 0 0).isLt

/-- The latching read: the bank first, then the byte of the bank then shown. -/
theorem Cart.Ok.latchedRead_showing {k : Cart} (hk : k.Ok E) (hnb : k.variant.nb = 1) (a : Addr) :
    bankAfter k a + 0x1000 ≤ k.rom.length ∧
      k.latchedRead a = .ok (k.rom.getD (bankAfter k a + a.toNat % 0x1000) 0,
        k.showing (bankAfter k a)) := by
  have hle := (hk.updateBank a).bank_le (by simpa using hnb)
  have ht := hk.updateBank_showing hnb a
  rw [ht, Cart.bankBase_showing a] at hle
  have hbs : k.variant.bankSize = 0x1000 := bankSize_eq (tag := k.tag) hnb
  have hbl := Cart.bankedLength_le k.variant k.rom.length
  have hle : bankAfter k a + 0x1000 ≤ bankedLength k.variant k.rom.length := hle
  refine ⟨by omega, ?_⟩
  unfold Cart.latchedRead Cart.bankedByte
  rw [ht]
  have hv : (k.showing (bankAfter k a)).variant = k.variant := rfl
  have hr : (k.showing (bankAfter k a)).rom = k.rom := rfl
  have hw : reduceBy 0x1000 a = a.toNat % 0x1000 := reduceBy_two_pow 12 a
  simp only
  rw [Cart.bankBase_showing a, hv, hbs, hr, hw]
  have : bankAfter k a + a.toNat % 0x1000 < k.rom.length := by omega
  simp only [romByte_of_lt this]
  simp [List.getD, this]

@[simp] theorem Device.constants_cart (k : Cart) :
    (Device.cart k).constants = .cart k.constants := rfl

end Sys2Proof.Machine
end

