-- ==== Sys2Proof/Laws/Bus.lean ====
section
/-! SUPPORT. What a bus access, a reset and a collaborator's program can do, said once: they touch only
device state, the last bus value and the record; they keep a console wired; and none of them fails when
the cart is ready (20_memory.md R74, R76, R77). -/

namespace Sys2Proof.Machine

/-- What bus accesses and contract calls leave alone. -/
structure Console.Touched (c d : Console) : Prop where
  topology : c.SameTopology d
  scheduler : c.SameScheduler d
  collaborators : d.collaborators = c.collaborators
  record : ∃ l, d.calls = l ++ c.calls

/-- The opaque images of a machine are images their collaborators take (log 8, log 10). -/
def Console.ImagesOk (E : Env) (c : Console) : Prop :=
  ∀ ch, c.chips = some ch →
    (ch.dma.length ≤ Config.maxBytes ∧ imageAccepted E .dma ch.dma = true) ∧
      (ch.input.length ≤ Config.maxBytes ∧ imageAccepted E .input ch.input = true)

/-- After a contract call the images are the collaborators' own. -/
theorem Console.imagesOk_refresh (E : Env) (c : Console) : (c.refreshImages E).ImagesOk E := by
  intro ch h
  simp only [Console.refreshImages_chips, Option.map_eq_some_iff] at h
  obtain ⟨_, _, rfl⟩ := h
  exact ⟨ownImage_ok E .dma c.calls, ownImage_ok E .input c.calls⟩

namespace Console

theorem SameTopology.refl (c : Console) : c.SameTopology c := ⟨rfl, rfl, rfl, rfl, fun _ => rfl⟩

theorem SameTopology.trans {c d e : Console} (h : c.SameTopology d) (g : d.SameTopology e) :
    c.SameTopology e :=
  ⟨g.page.trans h.page, g.snooper.trans h.snooper, g.type.trans h.type, g.hasBios.trans h.hasBios,
    fun x => (g.devices x).trans (h.devices x)⟩

theorem SameScheduler.refl (c : Console) : c.SameScheduler c := ⟨rfl, rfl, rfl, rfl, rfl, rfl, rfl⟩

theorem SameScheduler.trans {c d e : Console} (h : c.SameScheduler d) (g : d.SameScheduler e) :
    c.SameScheduler e :=
  ⟨g.halt.trans h.halt, g.frame.trans h.frame, g.clock.trans h.clock, g.budget.trans h.budget,
    g.jammed.trans h.jammed, g.preempt.trans h.preempt, g.sched.trans h.sched⟩

theorem Touched.refl (c : Console) : c.Touched c := ⟨.refl c, .refl c, rfl, [], rfl⟩

theorem Touched.trans {c d e : Console} (h : c.Touched d) (g : d.Touched e) : c.Touched e := by
  obtain ⟨l, hl⟩ := h.record
  obtain ⟨m, hm⟩ := g.record
  exact ⟨h.topology.trans g.topology, h.scheduler.trans g.scheduler,
    g.collaborators.trans h.collaborators, m ++ l, by simp [hm, hl]⟩

@[simp] theorem collaborators_refreshImages (E : Env) (c : Console) :
    (c.refreshImages E).collaborators = c.collaborators := by
  simp [Console.collaborators, Console.refreshImages, Option.map_map, Function.comp_def,
    Chips.refresh]

theorem touched_latch (c : Console) (v : Byte) : c.Touched (c.latch v) :=
  ⟨⟨rfl, rfl, rfl, rfl, fun _ => rfl⟩, ⟨rfl, rfl, rfl, rfl, rfl, rfl, rfl⟩, rfl, [], rfl⟩

theorem touched_note (c : Console) (k : CallKind) : c.Touched (c.note k) :=
  ⟨⟨rfl, rfl, rfl, rfl, fun _ => rfl⟩, ⟨rfl, rfl, rfl, rfl, rfl, rfl, rfl⟩, rfl, [_], rfl⟩

theorem touched_refreshImages (E : Env) (c : Console) : c.Touched (c.refreshImages E) :=
  ⟨⟨rfl, rfl, rfl, rfl, fun _ => rfl⟩, ⟨rfl, rfl, rfl, rfl, rfl, rfl, rfl⟩,
    collaborators_refreshImages E c, [], rfl⟩

theorem touched_call (E : Env) (k : CallKind) (c : Console) : c.Touched (c.call E k) :=
  (touched_note c k).trans (touched_refreshImages E _)

/-- Writing a device with the same constants. -/
theorem touched_setDevice (c : Console) (h : Handle) (d : Device)
    (hd : d.constants = (c.device h).constants) : c.Touched (c.setDevice h d) := by
  refine ⟨⟨rfl, rfl, rfl, rfl, fun g => ?_⟩, ⟨rfl, rfl, rfl, rfl, rfl, rfl, rfl⟩, rfl, [], rfl⟩
  rw [device_setDevice]
  split
  · next e => subst e; exact hd
  · rfl

/-! ### Wired consoles -/

theorem Wired.congr {E : Env} {c d : Console} (h : c.Wired E) (hdev : d.dev = c.dev)
    (hpage : d.page = c.page) (hsnoop : d.snooper = c.snooper) : d.Wired E := by
  have e : ∀ g, d.device g = c.device g := device_congr hdev
  refine ⟨?_, ?_, ?_, ?_, ?_, ?_⟩
  · rw [e]; exact h.nullDevice
  · rw [e]; exact h.cartSlot
  · intro g h0 h1; rw [e]; exact h.otherSlots g h0 h1
  · intro g; rw [e]; exact h.devices g
  · intro p hp; rw [e, pageAt_congr hpage]; exact h.pages p hp
  · rw [e, hsnoop]; exact h.snooper

theorem kind_of_constants {d e : Device} (h : d.constants = e.constants) : d.kind = e.kind := by
  cases d <;> cases e <;> simp_all [Device.constants, Device.kind]

theorem absent_of_constants {d e : Device} (h : d.constants = e.constants) :
    d = .absent ↔ e = .absent := by
  cases d <;> cases e <;> simp_all [Device.constants]

theorem kind_absent {d : Device} : d.kind = .none ↔ d = .absent := by
  cases d <;> simp [Device.kind]

/-- Writing a well-formed device with the same constants keeps a console wired. -/
theorem Wired.setDevice {E : Env} {c : Console} (h : c.Wired E) {g : Handle} {d : Device}
    (hd : d.constants = (c.device g).constants) (hok : d.Ok E) : (c.setDevice g d).Wired E := by
  have key : ∀ x, ((c.setDevice g d).device x).constants = (c.device x).constants :=
    (touched_setDevice c g d hd).topology.devices
  have kinds : ∀ x, ((c.setDevice g d).device x).kind = (c.device x).kind :=
    fun x => kind_of_constants (key x)
  refine ⟨?_, ?_, ?_, ?_, ?_, ?_⟩
  · have := key 0
    rw [h.nullDevice] at this
    revert this
    cases (c.setDevice g d).device 0 <;> simp [Device.constants]
  · rw [kinds]; exact h.cartSlot
  · intro x h0 h1; rw [kinds]; exact h.otherSlots x h0 h1
  · intro x
    rw [device_setDevice]
    split
    · exact hok
    · exact h.devices x
  · intro p hp
    exact fun e => h.pages p hp ((absent_of_constants (key _)).mp e)
  · exact fun e => h.snooper ((absent_of_constants (key _)).mp e)

end Console

/-! ### The data-fetcher's registers -/

/-- A computation that does not fail answers. -/
theorem Except.exists_ok {ε α : Type} {x : Except ε α} (h : ∀ e, x ≠ .error e) : ∃ r, x = .ok r := by
  cases x with
  | error e => exact absurd rfl (h e)
  | ok r => exact ⟨r, rfl⟩

theorem genAdvance_rem (clock : Word64) (d : DataFetcher) : (genAdvance clock d).rem < Config.genDen :=
  Nat.mod_lt _ (by decide)

theorem display_total {rom : Bytes} (hlen : rom.length = 0x3000) {i : Nat} (hi : i < 0x1000) :
    display rom i = .ok (rom.getD (0x2000 + i) 0) := by
  unfold display
  rw [romByte_of_lt (by rw [hlen]; show 0x3000 - 0x1000 + i < 0x3000; omega)]
  simp [hlen, Config.displaySize]

theorem fctr_index_lt (f : BitVec 20) : (f >>> 8).toNat < 0x1000 := by
  rw [BitVec.toNat_ushiftRight, Nat.shiftRight_eq_div_pow]
  have := f.isLt
  omega

theorem regRead_rem {att : Bool} {clock : Word64} {rom : Bytes} {o : Nat} {d d' : DataFetcher}
    {v : Byte} (h : regRead att clock rom o d = .ok (v, d')) (hd : d.rem < Config.genDen) :
    d'.rem < Config.genDen := by
  unfold regRead at h
  simp only at h
  cases hm : Config.dfReadMap o <;> rw [hm] at h <;> simp only at h
  case wave =>
    split at h
    · cases h; exact genAdvance_rem clock d
    · cases h
  case data => obtain ⟨_, _, h⟩ := Except.bind_ok_iff.mp h; cases h; exact hd
  case dataMasked => obtain ⟨_, _, h⟩ := Except.bind_ok_iff.mp h; cases h; exact hd
  case dataFraction => obtain ⟨_, _, h⟩ := Except.bind_ok_iff.mp h; cases h; exact hd
  all_goals cases h; exact hd

theorem regRead_total {clock : Word64} {rom : Bytes} (hlen : rom.length = 0x3000) (o : Nat)
    (d : DataFetcher) : ∃ r, regRead true clock rom o d = .ok r := by
  have h1 : display rom (d.channel (channelNumber o)).ctr.toNat = _ :=
    display_total hlen (d.channel (channelNumber o)).ctr.isLt
  have h2 : display rom ((d.channel (channelNumber o)).fctr >>> 8).toNat = _ :=
    display_total hlen (fctr_index_lt _)
  refine Except.exists_ok fun e h => ?_
  unfold regRead at h
  simp only [h1, h2, Except.ok_bind, if_true] at h
  repeat' split at h
  all_goals cases h

theorem regWrite_rem {att : Bool} {clock : Word64} {o : Nat} {b : Byte} {d d' : DataFetcher}
    (h : regWrite att clock o b d = .ok d') (hd : d.rem < Config.genDen) :
    d'.rem < Config.genDen := by
  have hw : ∀ k, writeVfreq att clock k b d = .ok d' → d'.rem < Config.genDen := by
    intro k h
    unfold writeVfreq at h
    split at h
    · cases h; exact genAdvance_rem clock d
    · cases h
  unfold regWrite at h
  simp only at h
  repeat' split at h
  all_goals first | exact hw _ h | (cases h; exact hd)

theorem regWrite_total (clock : Word64) (o : Nat) (b : Byte) (d : DataFetcher) :
    ∃ r, regWrite true clock o b d = .ok r := by
  refine Except.exists_ok fun e h => ?_
  have hv : ∀ k, writeVfreq true clock k b d ≠ .error e := fun k h => by cases h
  unfold regWrite at h
  simp only at h
  repeat' split at h
  all_goals first | exact hv _ h | cases h

/-! ### The cart -/

theorem Cart.Ok.df_of_fetcher {E : Env} {k : Cart} (h : k.Ok E)
    (hf : k.variant.family = .dataFetcher) : ∃ d, k.df = some d := by
  have := h.fetcher
  rw [hf] at this
  exact Option.isSome_iff_exists.mp (by simpa using this)

theorem Cart.Ok.rom_of_fetcher {E : Env} {k : Cart} (h : k.Ok E)
    (hf : k.variant.family = .dataFetcher) : k.rom.length = 0x3000 := by
  have := h.romLength
  have ht : k.tag = .df12k := family_dataFetcher hf
  rw [Cart.variant, ht] at this
  simpa [Config.cartTable, Config.latchRow] using this

theorem Cart.Ok.setDf {E : Env} {k : Cart} (h : k.Ok E) {d : DataFetcher}
    (hf : k.df.isSome = true) (hd : d.rem < Config.genDen) : ({ k with df := some d } : Cart).Ok E :=
  ⟨h.romLength, h.bankCount, h.banks, h.overlay, h.fetcher ▸ hf.symm,
    fun d' e => by cases e; exact hd, h.chipThere, h.chipImage⟩

theorem Cart.latchedRead_ok {a : Addr} {k k' : Cart} {v : Byte}
    (h : k.latchedRead a = .ok (v, k')) :
    k' = k.updateBank a ∧ (k.updateBank a).bankedByte a = .ok v := by
  unfold Cart.latchedRead at h
  obtain ⟨w, hw, h⟩ := Except.bind_ok_iff.mp h
  cases h
  exact ⟨rfl, hw⟩

/-- What a read of a cart does, said once. -/
structure CartStep (E : Env) (k : Cart) (c : Console) (k' : Cart) (c' : Console) : Prop where
  constants : k'.constants = k.constants
  touched   : c.Touched c'
  dev       : c'.dev = c.dev
  lbv       : c'.lbv = c.lbv
  ok        : k.Ok E → k'.Ok E
  images    : c.ImagesOk E → c'.ImagesOk E

theorem CartStep.refl (E : Env) (k : Cart) (c : Console) : CartStep E k c k c :=
  ⟨rfl, .refl c, rfl, rfl, id, id⟩

theorem CartStep.latch (E : Env) (a : Addr) (k : Cart) (c : Console) :
    CartStep E k c (k.updateBank a) c :=
  ⟨Cart.constants_updateBank a, .refl c, rfl, rfl, fun h => h.updateBank a, id⟩

theorem CartStep.chip (E : Env) (x : CallKind) (k : Cart) (c : Console) :
    CartStep E k c (k.refreshChip E (c.call E x)) (c.call E x) :=
  ⟨rfl, Console.touched_call E x c, rfl, rfl, fun h => h.refreshChip _,
    fun _ => Console.imagesOk_refresh E _⟩

theorem cartRead_step {E : Env} {a : Addr} {k k' : Cart} {c c' : Console} {v : Byte}
    (h : cartRead E a k c = .ok (v, k', c')) : CartStep E k c k' c' ∧ k'.ram = k.ram := by
  unfold cartRead at h
  split at h
  · obtain ⟨w, _, h⟩ := Except.bind_ok_iff.mp h
    cases h; exact ⟨.refl E k c, rfl⟩
  · obtain ⟨⟨w, l⟩, hl, h⟩ := Except.bind_ok_iff.mp h
    cases h
    rw [(Cart.latchedRead_ok hl).1]
    exact ⟨.latch E a k c, by simp⟩
  · simp only at h
    split at h
    · cases h; exact ⟨.refl E k c, rfl⟩
    · obtain ⟨⟨w, l⟩, hl, h⟩ := Except.bind_ok_iff.mp h
      cases h
      rw [(Cart.latchedRead_ok hl).1]
      exact ⟨.latch E a k c, by simp⟩
  · split at h
    · split at h
      · cases h; exact ⟨.chip E _ k c, rfl⟩
      · cases h
    · obtain ⟨w, _, h⟩ := Except.bind_ok_iff.mp h
      cases h; exact ⟨.refl E k c, rfl⟩
  · obtain ⟨w, _, h⟩ := Except.bind_ok_iff.mp h
    cases h; exact ⟨.refl E k c, rfl⟩
  · simp only at h
    split at h
    · obtain ⟨d, hd, h⟩ := Except.bind_ok_iff.mp h
      obtain ⟨⟨w, d'⟩, hr, h⟩ := Except.bind_ok_iff.mp h
      cases h
      have hdf : k.df = some d := by
        unfold Cart.fetcher at hd; split at hd <;> simp_all
      refine ⟨⟨rfl, .refl c, rfl, rfl, fun hk => ?_, id⟩, rfl⟩
      exact hk.setDf (by simp [hdf]) (regRead_rem hr (hk.remainder d hdf))
    · split at h
      · cases h; exact ⟨.refl E k c, rfl⟩
      · obtain ⟨w, _, h⟩ := Except.bind_ok_iff.mp h
        cases h
        exact ⟨.latch E a k c, by simp⟩

theorem cartWrite_step {E : Env} {a : Addr} {b : Byte} {k k' : Cart} {c c' : Console}
    (h : cartWrite E a b k c = .ok (k', c')) : CartStep E k c k' c' := by
  unfold cartWrite at h
  split at h
  · cases h; exact .refl E k c
  · cases h; exact .latch E a k c
  · simp only at h
    split at h
    · next hport =>
      cases h
      refine ⟨rfl, .refl c, rfl, rfl, fun hk => ?_, id⟩
      refine ⟨hk.romLength, hk.bankCount, hk.banks, ?_, hk.fetcher, hk.remainder, hk.chipThere,
        hk.chipImage⟩
      simp only [inPort, decide_eq_true_eq] at hport
      exact Memory.wf_write (by show _ < k.variant.rs; omega) hk.overlay
    · cases h; exact .latch E a k c
  · split at h
    · split at h
      · cases h; exact .chip E _ k c
      · cases h
    · cases h; exact .refl E k c
  · cases h; exact .refl E k c
  · simp only at h
    split at h
    · cases h; exact .refl E k c
    · split at h
      · obtain ⟨d, hd, h⟩ := Except.bind_ok_iff.mp h
        obtain ⟨d', hr, h⟩ := Except.bind_ok_iff.mp h
        cases h
        have hdf : k.df = some d := by
          unfold Cart.fetcher at hd; split at hd <;> simp_all
        refine ⟨rfl, .refl c, rfl, rfl, fun hk => ?_, id⟩
        exact hk.setDf (by simp [hdf]) (regWrite_rem hr (hk.remainder d hdf))
      · cases h; exact .latch E a k c

theorem cartReset_step (E : Env) (k : Cart) (c : Console) :
    CartStep E k c (cartReset E k c).1 (cartReset E k c).2 ∧ (cartReset E k c).1.ram = k.ram := by
  have hbank : CartStep E k c k.resetBank c :=
    ⟨rfl, .refl c, rfl, rfl, fun h => h.resetBank, id⟩
  unfold cartReset
  split
  · exact ⟨.refl E k c, rfl⟩
  · exact ⟨hbank, rfl⟩
  · exact ⟨hbank, rfl⟩
  · split
    · split
      · exact ⟨.chip E _ k c, rfl⟩
      · exact ⟨.refl E k c, rfl⟩
    · exact ⟨.refl E k c, rfl⟩
  · exact ⟨.refl E k c, rfl⟩
  · refine ⟨⟨rfl, .refl c, rfl, rfl, fun hk => ?_, id⟩, rfl⟩
    have hr := hk.resetBank
    refine ⟨hr.romLength, hr.bankCount, hr.banks, hr.overlay, ?_, ?_, hr.chipThere, hr.chipImage⟩
    · have := hk.fetcher
      simp only [Option.isSome_map]
      exact this
    · intro d hd
      simp only [Option.map_eq_some_iff] at hd
      obtain ⟨_, _, rfl⟩ := hd
      show 0 < Config.genDen
      decide

/-- The access of a cart cannot fail (R217: attached, or without embedded chip and generator). -/
def Cart.Ready (k : Cart) : Prop := k.attached = true ∨ (k.variant.chip = none ∧ k.df = none)

theorem Cart.Ok.latchedRead {E : Env} {k : Cart} (h : k.Ok E) (hnb : k.variant.nb = 1) (a : Addr) :
    ∃ r, k.latchedRead a = .ok r := by
  unfold Cart.latchedRead
  simp only [(h.updateBank a).bankedByte (by simpa using hnb) a, Except.ok_bind]
  exact ⟨_, rfl⟩

theorem cartRead_total {E : Env} {k : Cart} (hk : k.Ok E) (hr : k.Ready) (a : Addr) (c : Console) :
    ∃ r, cartRead E a k c = .ok r := by
  have hnb : k.variant.family ≠ .fixed → k.variant.family ≠ .chipAug → k.variant.nb = 1 := nb_eq_one
  unfold cartRead
  split
  · simp only [hk.fixedByte, Except.ok_bind]; exact ⟨_, rfl⟩
  · next hf =>
    obtain ⟨r, e⟩ := hk.latchedRead (hnb (by simp [hf]) (by simp [hf])) a
    rw [e]; exact ⟨_, rfl⟩
  · next hf =>
    obtain ⟨r, e⟩ := hk.latchedRead (hnb (by simp [hf]) (by simp [hf])) a
    simp only [e, Except.ok_bind]
    split <;> exact ⟨_, rfl⟩
  · next hf =>
    split
    · next w hw =>
      have hchip : k.variant.chip = some w := by
        revert hw
        cases hc : k.variant.chip <;> simp [Option.filter]
      have hatt : k.attached = true := by
        rcases hr with h | ⟨h, _⟩
        · exact h
        · rw [hchip] at h; cases h
      simp only [hatt, if_true]; exact ⟨_, rfl⟩
    · simp only [hk.fixedByte, Except.ok_bind]; exact ⟨_, rfl⟩
  · next hf =>
    simp only [hk.bankedByte (hnb (by simp [hf]) (by simp [hf])), Except.ok_bind]; exact ⟨_, rfl⟩
  · next hf =>
    obtain ⟨d, hd⟩ := hk.df_of_fetcher hf
    have hatt : k.attached = true := by
      rcases hr with h | ⟨_, h⟩
      · exact h
      · rw [hd] at h; cases h
    have hlen := hk.rom_of_fetcher hf
    have hlt := windowOffset_lt a
    have hle := (hk.updateBank a).bank_le (by simpa using hnb (by simp [hf]) (by simp [hf]))
    have hbl : bankedLength k.variant k.rom.length = 0x2000 := by
      simp [bankedLength, hf, hlen, Config.displaySize]
    simp only [Cart.updateBank_variant, Cart.updateBank_rom, hbl] at hle
    simp only
    split
    · obtain ⟨⟨w, d'⟩, e⟩ := regRead_total (clock := c.clock) hlen (windowOffset a) d
      simp only [Cart.fetcher, hd, hatt, Except.ok_bind, e]; exact ⟨_, rfl⟩
    · split
      · exact ⟨_, rfl⟩
      · rw [romByte_of_lt (by rw [Cart.updateBank_rom, hlen]; omega)]
        exact ⟨_, rfl⟩

theorem cartWrite_total {E : Env} {k : Cart} (hk : k.Ok E) (hr : k.Ready) (a : Addr) (b : Byte)
    (c : Console) : ∃ r, cartWrite E a b k c = .ok r := by
  unfold cartWrite
  split
  · exact ⟨_, rfl⟩
  · exact ⟨_, rfl⟩
  · simp only; split <;> exact ⟨_, rfl⟩
  · split
    · next w hw =>
      have hchip : k.variant.chip = some w := by
        revert hw
        cases hc : k.variant.chip <;> simp [Option.filter]
      have hatt : k.attached = true := by
        rcases hr with h | ⟨h, _⟩
        · exact h
        · rw [hchip] at h; cases h
      simp only [hatt, if_true]; exact ⟨_, rfl⟩
    · exact ⟨_, rfl⟩
  · exact ⟨_, rfl⟩
  · next hf =>
    obtain ⟨d, hd⟩ := hk.df_of_fetcher hf
    have hatt : k.attached = true := by
      rcases hr with h | ⟨_, h⟩
      · exact h
      · rw [hd] at h; cases h
    simp only
    split
    · exact ⟨_, rfl⟩
    · split
      · obtain ⟨d', e⟩ := regWrite_total c.clock (windowOffset a) b d
        simp only [Cart.fetcher, hd, hatt, Except.ok_bind, e]; exact ⟨_, rfl⟩
      · exact ⟨_, rfl⟩

/-! ### The device capability -/

/-- What one call of the device capability does, said once. -/
structure DeviceStep (E : Env) (c d : Console) : Prop where
  touched : c.Touched d
  wired   : c.Wired E → d.Wired E
  lbv     : d.lbv = c.lbv
  images  : c.ImagesOk E → d.ImagesOk E

theorem DeviceStep.refl (E : Env) (c : Console) : DeviceStep E c c := ⟨.refl c, id, rfl, id⟩

theorem DeviceStep.call (E : Env) (k : CallKind) (c : Console) : DeviceStep E c (c.call E k) :=
  ⟨Console.touched_call E k c, fun h => h.congr rfl rfl rfl, rfl,
    fun _ => Console.imagesOk_refresh E _⟩

theorem DeviceStep.cart {E : Env} {c c' : Console} {h : Handle} {k k' : Cart}
    (hk : c.device h = .cart k) (s : CartStep E k c k' c') :
    DeviceStep E c (c'.setDevice h (.cart k')) := by
  have hdev : c'.device h = .cart k := (Console.device_congr s.dev h).trans hk
  have hcon : (Device.cart k').constants = (c'.device h).constants := by
    rw [hdev]; simp [s.constants]
  refine ⟨s.touched.trans (Console.touched_setDevice c' h _ hcon), fun hw => ?_, s.lbv,
    s.images⟩
  have hw' : c'.Wired E := hw.congr s.dev s.touched.topology.page s.touched.topology.snooper
  have hok : k.Ok E := by have := hw.devices h; rw [hk] at this; exact this
  exact hw'.setDevice hcon (s.ok hok)

theorem devRead_step {E : Env} {h : Handle} {a : Addr} {c c' : Console} {v : Byte}
    (e : devRead E h a c = .ok (v, c')) : DeviceStep E c c' := by
  unfold devRead at e
  split at e
  · cases e
  · cases e; exact .refl E c
  · cases e; exact .refl E c
  · obtain ⟨w, _, e⟩ := Except.bind_ok_iff.mp e
    cases e; exact .refl E c
  · cases e; exact .call E _ c
  · next k hk =>
    obtain ⟨⟨w, k', d⟩, hr, e⟩ := Except.bind_ok_iff.mp e
    cases e; exact .cart hk (cartRead_step hr).1

theorem devWrite_step {E : Env} {h : Handle} {a : Addr} {b : Byte} {c c' : Console}
    (e : devWrite E h a b c = .ok c') : DeviceStep E c c' := by
  unfold devWrite at e
  split at e
  · cases e
  · cases e; exact .refl E c
  · next size mem hram =>
    cases e
    have hcon : (Device.ram size (mem.write (reduceBy size a) b)).constants =
        (c.device h).constants := by rw [hram]; rfl
    refine ⟨Console.touched_setDevice c h _ hcon, fun hw => hw.setDevice hcon ?_, rfl, id⟩
    have hok := hw.devices h
    rw [hram] at hok
    refine ⟨hok.1, Memory.wf_write (reduceBy_lt a ?_) hok.2⟩
    have := hok.1
    simp only [blockSizes, List.mem_cons, List.not_mem_nil, or_false] at this
    omega
  · cases e; exact .refl E c
  · cases e; exact .call E _ c
  · next k hk =>
    obtain ⟨⟨k', d⟩, hr, e⟩ := Except.bind_ok_iff.mp e
    cases e; exact .cart hk (cartWrite_step hr)

theorem devReset_step (E : Env) (h : Handle) (c : Console) : DeviceStep E c (devReset E h c) := by
  unfold devReset
  split
  · exact .refl E c
  · exact .refl E c
  · exact .refl E c
  · exact .refl E c
  · exact .call E _ c
  · next k hk => exact .cart hk (cartReset_step E k c).1

/-- A console whose accesses cannot fail. -/
theorem Console.CartReady.ready {c : Console} (h : c.CartReady) {g : Handle} {k : Cart}
    (hw : c.Wired E) (hk : c.device g = .cart k) : k.Ready := by
  have hg : g = 1 := by
    by_contra hne
    have h0 : g ≠ 0 := by rintro rfl; rw [hw.nullDevice] at hk; cases hk
    have := (hw.otherSlots g h0 hne).2
    rw [hk] at this
    exact this rfl
  subst hg
  exact h k (Console.cart?_eq_some.mpr hk)

theorem devRead_total {E : Env} {h : Handle} {c : Console} (hw : c.Wired E) (hr : c.CartReady)
    (hp : c.device h ≠ .absent) (a : Addr) : ∃ r, devRead E h a c = .ok r := by
  unfold devRead
  have hok := hw.devices h
  split
  · next e => exact absurd e hp
  · exact ⟨_, rfl⟩
  · exact ⟨_, rfl⟩
  · next img e =>
    rw [e] at hok
    have : 0 < img.length := by
      have : img.length ∈ blockSizes := hok
      simp only [blockSizes, List.mem_cons, List.not_mem_nil, or_false] at this
      omega
    rw [romByte_of_lt (reduceBy_lt a this)]; exact ⟨_, rfl⟩
  · exact ⟨_, rfl⟩
  · next k e =>
    obtain ⟨⟨v, k', c'⟩, er⟩ := cartRead_total (by rw [e] at hok; exact hok) (hr.ready hw e) a c
    rw [er]; exact ⟨_, rfl⟩

theorem devWrite_total {E : Env} {h : Handle} {c : Console} (hw : c.Wired E) (hr : c.CartReady)
    (hp : c.device h ≠ .absent) (a : Addr) (b : Byte) : ∃ r, devWrite E h a b c = .ok r := by
  unfold devWrite
  have hok := hw.devices h
  split
  · next e => exact absurd e hp
  · exact ⟨_, rfl⟩
  · exact ⟨_, rfl⟩
  · exact ⟨_, rfl⟩
  · exact ⟨_, rfl⟩
  · next k e =>
    obtain ⟨⟨k', c'⟩, er⟩ := cartWrite_total (by rw [e] at hok; exact hok) (hr.ready hw e) a b c
    rw [er]; exact ⟨_, rfl⟩

/-- Readiness of the cart depends on constants and on what a step keeps. -/
theorem Console.CartReady.step {E : Env} {c d : Console} (h : c.CartReady) (hw : c.Wired E)
    (s : DeviceStep E c d) : d.CartReady := by
  intro k hk
  have hk1 := Console.cart?_eq_some.mp hk
  have hcon := s.touched.topology.devices cartHandle
  rw [hk1] at hcon
  have hslot := hw.cartSlot
  have hc : ∃ l, c.device cartHandle = .cart l := by
    cases hd : c.device cartHandle <;> rw [hd] at hcon <;> simp [Device.constants] at hcon
    exact ⟨_, rfl⟩
  obtain ⟨l, hl⟩ := hc
  rw [hl, Device.constants_cart, Device.constants_cart] at hcon
  have := Cart.constants_eq_iff.mp (Device.cart.inj hcon)
  have hvar : k.variant = l.variant := by simp [Cart.variant, this.1]
  rcases h l (Console.cart?_eq_some.mpr hl) with ha | ⟨hc, hd⟩
  · exact .inl (by rw [this.2.2]; exact ha)
  · refine .inr ⟨by rw [hvar]; exact hc, ?_⟩
    have hokd : k.Ok E := by
      have := (s.wired hw).devices cartHandle; rw [hk1] at this; exact this
    have hokc : l.Ok E := by
      have := hw.devices cartHandle; rw [hl] at this; exact this
    have h1 := hokd.fetcher
    have h2 := hokc.fetcher
    rw [hd] at h2
    rw [hvar, ← h2] at h1
    simpa using h1

/-! ### Bus accesses -/

/-- What a bus access, or any number of them, does. -/
structure BusStep (E : Env) (c d : Console) : Prop where
  touched : c.Touched d
  wired   : c.Wired E → d.Wired E
  images  : c.ImagesOk E → d.ImagesOk E

theorem BusStep.refl (E : Env) (c : Console) : BusStep E c c := ⟨.refl c, id, id⟩

theorem BusStep.trans {E : Env} {c d e : Console} (h : BusStep E c d) (g : BusStep E d e) :
    BusStep E c e := ⟨h.touched.trans g.touched, g.wired ∘ h.wired, g.images ∘ h.images⟩

theorem DeviceStep.bus {E : Env} {c d : Console} (h : DeviceStep E c d) : BusStep E c d :=
  ⟨h.touched, h.wired, h.images⟩

theorem BusStep.latch (E : Env) (c : Console) (v : Byte) : BusStep E c (c.latch v) :=
  ⟨Console.touched_latch c v, fun h => h.congr rfl rfl rfl, id⟩

theorem BusStep.note (E : Env) (c : Console) (k : CallKind) : BusStep E c (c.note k) :=
  ⟨Console.touched_note c k, fun h => h.congr rfl rfl rfl, id⟩

theorem BusStep.refreshImages (E : Env) (c : Console) : BusStep E c (c.refreshImages E) :=
  ⟨Console.touched_refreshImages E c, fun h => h.congr rfl rfl rfl,
    fun _ => Console.imagesOk_refresh E c⟩

theorem BusStep.call (E : Env) (k : CallKind) (c : Console) : BusStep E c (c.call E k) :=
  (DeviceStep.call E k c).bus

theorem BusStep.ready {E : Env} {c d : Console} (h : BusStep E c d) (hw : c.Wired E)
    (hr : c.CartReady) : d.CartReady :=
  -- only the constants and well-formedness matter, so the last bus value may differ
  have s : DeviceStep E c (d.latch c.lbv) :=
    ⟨(h.touched.trans (Console.touched_latch d c.lbv)), fun w => (h.wired w).congr rfl rfl rfl, rfl,
      h.images⟩
  fun k hk => hr.step hw s k hk

theorem memRead_step {E : Env} {addr : Nat} {c c' : Console} {v : Byte}
    (e : memRead E addr c = .ok (v, c')) : BusStep E c c' ∧ c'.lbv = v := by
  unfold memRead at e
  simp only at e
  obtain ⟨⟨s, c1⟩, h1, e⟩ := Except.bind_ok_iff.mp e
  obtain ⟨⟨w, c2⟩, h2, e⟩ := Except.bind_ok_iff.mp e
  cases e
  exact ⟨(((devRead_step h1).bus.trans (.latch E c1 s)).trans (devRead_step h2).bus).trans
    (.latch E c2 _), rfl⟩

theorem memWrite_step {E : Env} {addr : Nat} {b : Byte} {c c' : Console}
    (e : memWrite E addr b c = .ok c') : BusStep E c c' ∧ c'.lbv = b := by
  unfold memWrite at e
  simp only at e
  obtain ⟨c1, h1, e⟩ := Except.bind_ok_iff.mp e
  have s1 := devWrite_step h1
  have s2 := devWrite_step e
  exact ⟨((BusStep.latch E c b).trans s1.bus).trans s2.bus, by rw [s2.lbv, s1.lbv]; rfl⟩

theorem Console.Wired.mapped {E : Env} {c : Console} (h : c.Wired E) (a : Addr) :
    c.device (c.mappedHandle a) ≠ .absent := by
  refine h.pages _ ?_
  have := a.isLt
  rw [pageIndex_eq]
  omega

theorem memRead_total {E : Env} {c : Console} (hw : c.Wired E) (hr : c.CartReady) (addr : Nat) :
    ∃ r, memRead E addr c = .ok r := by
  unfold memRead
  obtain ⟨⟨s, c1⟩, h1⟩ := devRead_total hw hr hw.snooper (reduceAddr addr)
  have s1 := ((devRead_step h1).bus.trans (.latch E c1 s))
  obtain ⟨⟨v, c2⟩, h2⟩ := devRead_total (s1.wired hw) (s1.ready hw hr)
    ((s1.wired hw).mapped (reduceAddr addr)) (reduceAddr addr)
  simp only [h1, h2, Except.ok_bind]
  exact ⟨_, rfl⟩

theorem memWrite_total {E : Env} {c : Console} (hw : c.Wired E) (hr : c.CartReady) (addr : Nat)
    (b : Byte) : ∃ r, memWrite E addr b c = .ok r := by
  have s0 := BusStep.latch E c b
  obtain ⟨c1, h1⟩ := devWrite_total (s0.wired hw) (s0.ready hw hr) (s0.wired hw).snooper
    (reduceAddr addr) b
  have s1 := s0.trans (devWrite_step h1).bus
  obtain ⟨c2, h2⟩ := devWrite_total (s1.wired hw) (s1.ready hw hr)
    ((s1.wired hw).mapped (reduceAddr addr)) (reduceAddr addr) b
  refine ⟨c2, ?_⟩
  show (devWrite E (c.latch b).snooper (reduceAddr addr) b (c.latch b) >>= fun c =>
    devWrite E (c.mappedHandle (reduceAddr addr)) (reduceAddr addr) b c) = _
  rw [h1]
  exact h2

/-! ### A collaborator's program -/

theorem runProgram_step {E : Env} {who : Master} {α : Type} {p : BusProgram α} {c c' : Console}
    {x : α} (e : runProgram E who p c = .ok (x, c')) : BusStep E c c' := by
  induction p generalizing c with
  | done y => cases e; exact .refl E _
  | read addr next ih =>
    obtain ⟨⟨v, c1⟩, h1, e⟩ := Except.bind_ok_iff.mp e
    exact ((memRead_step h1).1.trans (.note E c1 _)).trans (ih v e)
  | write addr b next ih =>
    obtain ⟨c1, h1, e⟩ := Except.bind_ok_iff.mp e
    exact ((memWrite_step h1).1.trans (.note E c1 _)).trans (ih e)

theorem runProgram_total {E : Env} {who : Master} {α : Type} (p : BusProgram α) {c : Console}
    (hw : c.Wired E) (hr : c.CartReady) : ∃ r, runProgram E who p c = .ok r := by
  induction p generalizing c with
  | done y => exact ⟨(y, _), rfl⟩
  | read addr next ih =>
    obtain ⟨⟨v, c1⟩, h1⟩ := memRead_total hw hr addr
    have s := (memRead_step h1).1.trans (.note E c1 (.busRead who addr v))
    obtain ⟨r, e⟩ := ih v (s.wired hw) (s.ready hw hr)
    exact ⟨r, by simp only [runProgram, h1, Except.ok_bind]; exact e⟩
  | write addr b next ih =>
    obtain ⟨c1, h1⟩ := memWrite_total hw hr addr b
    have s := (memWrite_step h1).1.trans (.note E c1 (.busWrite who addr b))
    obtain ⟨r, e⟩ := ih (s.wired hw) (s.ready hw hr)
    exact ⟨r, by simp only [runProgram, h1, Except.ok_bind]; exact e⟩

end Sys2Proof.Machine
end

