-- ==== Sys2Proof/Laws/Construct.lean ====
section
/-! SUPPORT. What construction builds (43_scheduler.md R280, R282; 44_serializer.md R371): the device
table, the page table and the registers of the console that `construct` answers. -/

namespace Sys2Proof.Machine

/-! ### Page ranges -/

/-- A range that does not run past the top of the space claims consecutive pages. -/
theorem mapClaims_range {base : Addr} {size p first count : Nat} (hsize : size ≠ 0)
    (hfirst : pageIndex base = first) (hcount : mapCount base size = count)
    (htop : first + count ≤ 1024) (hp : p < 1024) :
    mapClaims base size p = decide (first ≤ p ∧ p < first + count) := by
  rw [mapClaims_eq, hfirst, hcount]
  simp only [hsize, ne_eq, not_false_eq_true, true_and, decide_eq_decide]
  omega

/-! ### The fresh console -/

theorem fresh_device (type : MachType) (b : Bool) (calls : List Call) (g : Handle) :
    (freshConsole type b calls).device g = if g = 0 then .null else .absent := by
  have : (0 = g.toNat) ↔ g = 0 := by
    constructor
    · intro e; exact BitVec.eq_of_toNat_eq e.symm
    · rintro rfl; rfl
  simp [Console.device, freshConsole, powerOnDevices, Vector.getElem_set, this]

theorem fresh_pageAt (type : MachType) (b : Bool) (calls : List Call) (p : Nat) :
    (freshConsole type b calls).pageAt p = 0 := by
  unfold Console.pageAt freshConsole
  by_cases h : p < 1024
  · simp [h]
  · simp [h]

/-- The device table before the fixed map: the null device, and the cart if there is one. -/
theorem placed_device (type : MachType) (b : Bool) (calls : List Call) (cart : Option Cart)
    (g : Handle) :
    (placeCart cart (freshConsole type b calls)).device g =
      if g = 0 then .null
      else if g = 1 then (match cart with | some k => .cart k | none => .absent)
      else .absent := by
  cases cart with
  | none => simp only [placeCart, fresh_device]; split <;> simp
  | some k =>
    simp only [placeCart, Console.setCart, Console.device_setDevice, fresh_device, cartHandle]
    by_cases h1 : g = 1
    · subst h1; rfl
    · rw [if_neg h1, if_neg h1]

/-- A console is placed: what `placeCart` leaves of a fresh console's registers. -/
theorem placed_eq (type : MachType) (b : Bool) (calls : List Call) (cart : Option Cart) :
    placeCart cart (freshConsole type b calls) =
      { freshConsole type b calls with
        dev := (placeCart cart (freshConsole type b calls)).dev } := by
  cases cart <;> rfl

/-- The console after the fixed map. -/
def mappedConsole (type : MachType) (cart : Option Cart) (b : Bool) (calls : List Call) : Console :=
  Config.fixedMap.foldl installEntry (placeCart cart (freshConsole type b calls))

theorem installEntry_device (c : Console) (e : Config.FixedEntry) (g : Handle) :
    (installEntry c e).device g =
      if g = e.handle ∧ c.device e.handle = .absent then fixedDevice e.device else c.device g := by
  have hfold : ∀ (l : List (Addr × Nat)) (d : Console),
      (l.foldl (fun c w => mapPages w.1 w.2 e.handle c) d).dev = d.dev := by
    intro l
    induction l with
    | nil => intro d; rfl
    | cons w l ih => intro d; rw [List.foldl_cons, ih]; rfl
  unfold installEntry
  rw [Console.device_congr (hfold _ _)]
  by_cases h : c.device e.handle = .absent
  · simp [h, Console.device_setDevice]
  · simp [h]

theorem installEntry_pageAt (c : Console) (e : Config.FixedEntry) {p : Nat} (hp : p < 1024) :
    (installEntry c e).pageAt p =
      if e.windows.any fun w => mapClaims w.1 w.2 p then e.handle else c.pageAt p := by
  have hfold : ∀ (l : List (Addr × Nat)) (d : Console),
      (l.foldl (fun c w => mapPages w.1 w.2 e.handle c) d).pageAt p =
        if l.any fun w => mapClaims w.1 w.2 p then e.handle else d.pageAt p := by
    intro l
    induction l with
    | nil => intro d; simp
    | cons w l ih =>
      intro d
      rw [List.foldl_cons, ih, Console.pageAt_mapPages _ _ _ _ hp, List.any_cons]
      by_cases h1 : mapClaims w.1 w.2 p <;> by_cases h2 : l.any fun w => mapClaims w.1 w.2 p <;>
        simp [h1, h2]
  unfold installEntry
  rw [hfold]
  by_cases h : c.device e.handle = .absent
  · simp only [h, if_true]
    rfl
  · simp [h]

/-- The registers construction never moves after they are set to their first values. -/
structure Console.FreshRegisters (c : Console) (type : MachType) (b : Bool) : Prop where
  lbv     : c.lbv = 0x00
  type    : c.type = type
  halt    : c.halt = false
  frame   : c.frame = 0
  hasBios : c.hasBios = b
  clock   : c.clock = 0
  budget  : c.budget = 0
  jammed  : c.jammed = false
  preempt : c.preempt = false
  sched   : c.sched = Sched.idle

theorem placed_registers (type : MachType) (b : Bool) (calls : List Call) (cart : Option Cart) :
    (placeCart cart (freshConsole type b calls)).FreshRegisters type b := by
  cases cart <;> exact ⟨rfl, rfl, rfl, rfl, rfl, rfl, rfl, rfl, rfl, rfl⟩

/-- Construction's steps touch the tables, the collaborators and the record only. -/
structure Console.Built (c d : Console) : Prop where
  eq : d =
    { c with
      dev := d.dev
      page := d.page
      snooper := d.snooper
      chips := d.chips
      calls := d.calls }

theorem Console.Built.registers {c d : Console} {type : MachType} {b : Bool} (h : c.Built d)
    (r : c.FreshRegisters type b) : d.FreshRegisters type b := by
  rw [h.eq]
  exact ⟨r.lbv, r.type, r.halt, r.frame, r.hasBios, r.clock, r.budget, r.jammed, r.preempt, r.sched⟩

theorem Console.Built.refl (c : Console) : c.Built c := ⟨rfl⟩

theorem Console.Built.trans {c d e : Console} (h : c.Built d) (g : d.Built e) : c.Built e := by
  refine ⟨?_⟩
  rw [g.eq, h.eq]

theorem Built.mapPages (base : Addr) (size : Nat) (h : Handle) (c : Console) :
    c.Built (mapPages base size h c) := ⟨rfl⟩

theorem Built.setDevice (c : Console) (h : Handle) (d : Device) : c.Built (c.setDevice h d) := ⟨rfl⟩

theorem Built.call (E : Env) (k : CallKind) (c : Console) : c.Built (c.call E k) := ⟨rfl⟩

theorem Built.note (k : CallKind) (c : Console) : c.Built (c.note k) := ⟨rfl⟩

theorem Built.mapCart (base : Addr) (size : Nat) (c : Console) : c.Built (mapCart base size c) := by
  unfold Sys2Proof.Machine.mapCart
  simp only
  split
  · split <;> exact ⟨rfl⟩
  · exact ⟨rfl⟩

theorem Built.installEntry (c : Console) (e : Config.FixedEntry) : c.Built (installEntry c e) := by
  have hfold : ∀ (l : List (Addr × Nat)) (d : Console),
      d.Built (l.foldl (fun c w => Machine.mapPages w.1 w.2 e.handle c) d) := by
    intro l
    induction l with
    | nil => intro d; exact .refl d
    | cons w l ih => intro d; exact (Built.mapPages _ _ _ d).trans (ih _)
  unfold Sys2Proof.Machine.installEntry
  simp only
  split
  · exact (Built.setDevice c _ _).trans (hfold _ _)
  · exact hfold _ _

/-! ### Mapping and attaching the cart -/

theorem mapCart_dev (base : Addr) (size : Nat) (c : Console) : (mapCart base size c).dev = c.dev := by
  unfold mapCart
  simp only
  split
  · split <;> rfl
  · rfl

theorem mapCart_pageAt (base : Addr) (size : Nat) (c : Console) {p : Nat} (hp : p < 1024) :
    (mapCart base size c).pageAt p = if mapClaims base size p then 1 else c.pageAt p := by
  have : (mapCart base size c).pageAt p = (mapPages base size cartHandle c).pageAt p := by
    unfold mapCart
    simp only
    split
    · split <;> rfl
    · rfl
  rw [this, Console.pageAt_mapPages _ _ _ _ hp]
  rfl

theorem mapCart_snooper (base : Addr) (size : Nat) (c : Console) {k : Cart} (hk : c.cart? = some k) :
    (mapCart base size c).snooper = if k.variant.wantsSnoop then 1 else c.snooper := by
  have : (mapPages base size cartHandle c).cart? = some k := hk
  unfold mapCart
  simp only [this]
  split <;> rfl

theorem mapCart_cart? (base : Addr) (size : Nat) (c : Console) :
    (mapCart base size c).cart? = c.cart? := by
  unfold Console.cart?
  rw [Console.device_congr (mapCart_dev base size c)]

theorem mapCart_chips (base : Addr) (size : Nat) (c : Console) :
    (mapCart base size c).chips = c.chips := by
  unfold mapCart
  simp only
  split
  · split <;> rfl
  · rfl

theorem mapCart_calls (base : Addr) (size : Nat) (c : Console) :
    (mapCart base size c).calls = c.calls := by
  unfold mapCart
  simp only
  split
  · split <;> rfl
  · rfl

/-- The cart after `Attach()` (41_cart_family.md R186). -/
theorem attachCart_fst (E : Env) (k : Cart) (c : Console) :
    (attachCart E k c).1 =
      { k with
        attached := true
        chip := match k.variant.chip with
          | some w => some (ownImage E .chip (c.call E (.chip w.id .create)).calls)
          | none => k.chip
        df := if k.variant.family = .dataFetcher then k.df.map fun d => { d with last := c.clock }
          else k.df } := by
  unfold attachCart
  simp only
  have hv : ({ k with attached := true } : Cart).variant = k.variant := rfl
  rw [hv]
  by_cases hf : k.variant.family = .dataFetcher
  · have hc : k.variant.chip = none := by
      have := family_dataFetcher hf
      rw [Cart.variant, this]; rfl
    rw [hc]
    simp only [hv, hf, if_true]
  · cases hc : k.variant.chip <;> exact congrArg Prod.fst (if_neg hf) |>.trans (by simp [hf])

/-- The console after `Attach()`: only an embedded chip's creation touches it. -/
theorem attachCart_snd (E : Env) (k : Cart) (c : Console) :
    (attachCart E k c).2 =
      match k.variant.chip with
      | some w => c.call E (.chip w.id .create)
      | none => c := by
  unfold attachCart
  simp only
  have hv : ({ k with attached := true } : Cart).variant = k.variant := rfl
  rw [hv]
  cases k.variant.chip <;> simp only <;> split <;> rfl

theorem attachCart_ok {E : Env} {k : Cart} (hk : k.Ok E) (c : Console) :
    (attachCart E k c).1.Ok E := by
  rw [attachCart_fst]
  refine ⟨hk.romLength, hk.bankCount, hk.banks, hk.overlay, ?_, ?_, ?_, ?_⟩
  · show Option.isSome (if _ then _ else _) = _
    split
    · rw [Option.isSome_map]; exact hk.fetcher
    · exact hk.fetcher
  · intro d hd
    simp only at hd
    split at hd
    · simp only [Option.map_eq_some_iff] at hd
      obtain ⟨d', hd', rfl⟩ := hd
      exact hk.remainder d' hd'
    · exact hk.remainder d hd
  · show Option.isSome (match k.variant.chip with | some w => _ | none => _) =
      (k.variant.chip.isSome && true)
    have := hk.chipThere
    cases hc : k.variant.chip with
    | none => rw [hc] at this; simpa using this
    | some w => rfl
  · intro img himg
    simp only at himg
    split at himg
    · cases himg; exact ownImage_ok E .chip _
    · exact hk.chipImage img himg

theorem attachCart_dev (E : Env) (k : Cart) (c : Console) : (attachCart E k c).2.dev = c.dev := by
  rw [attachCart_snd]; split <;> rfl
theorem attachCart_page (E : Env) (k : Cart) (c : Console) : (attachCart E k c).2.page = c.page := by
  rw [attachCart_snd]; split <;> rfl
theorem attachCart_snooper (E : Env) (k : Cart) (c : Console) :
    (attachCart E k c).2.snooper = c.snooper := by
  rw [attachCart_snd]; split <;> rfl
theorem attachCart_built (E : Env) (k : Cart) (c : Console) : c.Built (attachCart E k c).2 := by
  rw [attachCart_snd]
  split
  · exact Built.call E _ c
  · exact .refl c

theorem attach_eq (E : Env) {c : Console} {k : Cart} (hk : c.cart? = some k) :
    attach E c = (attachCart E k c).2.setCart (attachCart E k c).1 := by
  unfold attach
  rw [hk]

/-! ### The cart's mapping step -/

theorem mapWindows_facts (l : List (Addr × Nat)) (c : Console) {k : Cart} (hk : c.cart? = some k) :
    (mapWindows l c).dev = c.dev ∧ c.Built (mapWindows l c) ∧
      (∀ p, p < 1024 → (mapWindows l c).pageAt p =
        if l.any fun w => mapClaims w.1 w.2 p then 1 else c.pageAt p) ∧
      (mapWindows l c).snooper = (if l ≠ [] ∧ k.variant.wantsSnoop = true then 1 else c.snooper) ∧
      (mapWindows l c).chips = c.chips ∧ (mapWindows l c).calls = c.calls := by
  induction l generalizing c with
  | nil => exact ⟨rfl, .refl c, fun p _ => by simp [mapWindows], by simp [mapWindows], rfl, rfl⟩
  | cons w l ih =>
    have hk' : (mapCart w.1 w.2 c).cart? = some k := by rw [mapCart_cart?]; exact hk
    obtain ⟨h1, h2, h3, h4, h5, h6⟩ := ih (mapCart w.1 w.2 c) hk'
    have e : mapWindows (w :: l) c = mapWindows l (mapCart w.1 w.2 c) := rfl
    rw [e]
    refine ⟨h1.trans (mapCart_dev _ _ c), (Built.mapCart _ _ c).trans h2, fun p hp => ?_, ?_,
      h5.trans (mapCart_chips _ _ c), h6.trans (mapCart_calls _ _ c)⟩
    · rw [h3 p hp, mapCart_pageAt _ _ c hp, List.any_cons]
      by_cases a : mapClaims w.1 w.2 p <;> by_cases b : l.any fun w => mapClaims w.1 w.2 p <;>
        simp [a, b]
    · rw [h4, mapCart_snooper _ _ c hk]
      by_cases a : k.variant.wantsSnoop <;> simp [a]

/-- The windows a cart is mapped into: its own, or the machine's cart window (R280, R282). -/
def cartWindows (v : Variant) : List (Addr × Nat) :=
  if v.selfMaps then v.selfWindows else [(Config.cartBase, Config.cartSize)]

theorem mapCartOnce_eq {c : Console} {k : Cart} (hk : c.cart? = some k) :
    mapCartOnce c = mapWindows (cartWindows k.variant) c := by
  unfold mapCartOnce selfMap cartWindows
  simp only [hk]
  by_cases h : k.variant.selfMaps <;> simp [h, mapWindows]

/-- The windows of the table claim the pages the spec names (R282, R218). -/
theorem cartWindows_claims (tag : CartTag) {p : Nat} (hp : p < 1024) :
    ((cartWindows (Config.cartTable tag)).any fun w => mapClaims w.1 w.2 p) = cartClaims tag p := by
  have h1 : mapClaims 0x4000 0xC000 p = decide (0x100 ≤ p ∧ p < 0x100 + 0x300) :=
    mapClaims_range (by decide) (by decide) (by decide) (by decide) hp
  have h2 : mapClaims 0x4000 0x4000 p = decide (0x100 ≤ p ∧ p < 0x100 + 0x100) :=
    mapClaims_range (by decide) (by decide) (by decide) (by decide) hp
  have h3 : mapClaims 0xC000 0x4000 p = decide (0x300 ≤ p ∧ p < 0x300 + 0x100) :=
    mapClaims_range (by decide) (by decide) (by decide) (by decide) hp
  have hw : cartWindows (Config.cartTable tag) =
      if tag = .c16kp then [(0x4000, 0x4000), (0xC000, 0x4000)] else [(0x4000, 0xC000)] := by
    cases tag <;> rfl
  rw [hw]
  unfold cartClaims
  split
  · simp only [List.any_cons, List.any_nil, h2, h3, Bool.or_false, ← Bool.decide_or,
      decide_eq_decide]
    omega
  · simp only [List.any_cons, List.any_nil, h1, Bool.or_false, decide_eq_decide]
    omega

theorem cartWindows_ne_nil (tag : CartTag) : cartWindows (Config.cartTable tag) ≠ [] := by
  cases tag <;>
    simp [cartWindows, Config.cartTable, Config.fixedRow, Config.latchRow, Config.shadowRow]

/-! ### Before the cart: the fixed map and the BIOS -/

theorem mapped_device (type : MachType) (cart : Option Cart) (b : Bool) (calls : List Call)
    (g : Handle) :
    (mappedConsole type cart b calls).device g =
      if g = 0 then .null
      else if g = 1 then (match cart with | some k => .cart k | none => .absent)
      else if g = 2 then .ram 0x0800 []
      else if g = 3 then .ram 0x0800 []
      else if g = 4 then .adapter 2 0x003F
      else if g = 5 then .adapter 3 0x007F
      else .absent := by
  simp only [mappedConsole, Config.fixedMap, List.foldl_cons, List.foldl_nil, installEntry_device,
    placed_device, fixedDevice, newRam, Config.ramBankSize]
  by_cases h2 : g = 2#8
  · subst h2; rfl
  by_cases h3 : g = 3#8
  · subst h3; rfl
  by_cases h4 : g = 4#8
  · subst h4; rfl
  by_cases h5 : g = 5#8
  · subst h5; rfl
  simp [h2, h3, h4, h5]

theorem mapped_pageAt (type : MachType) (cart : Option Cart) (b : Bool) (calls : List Call) {p : Nat}
    (hp : p < 1024) : (mappedConsole type cart b calls).pageAt p = fixedPage p := by
  have e : ∀ c : Console, c = placeCart cart (freshConsole type b calls) → c.pageAt p = 0 := by
    rintro c rfl
    rw [placed_eq]
    exact fresh_pageAt type b calls p
  have h1 : mapClaims 0x1800 0x0800 p = decide (0x60 ≤ p ∧ p < 0x60 + 0x20) :=
    mapClaims_range (by decide) (by decide) (by decide) (by decide) hp
  have h2 : mapClaims 0x2000 0x0800 p = decide (0x80 ≤ p ∧ p < 0x80 + 0x20) :=
    mapClaims_range (by decide) (by decide) (by decide) (by decide) hp
  have h3 : mapClaims 0x0040 0x00C0 p = decide (1 ≤ p ∧ p < 1 + 3) :=
    mapClaims_range (by decide) (by decide) (by decide) (by decide) hp
  have h4 : mapClaims 0x0140 0x00C0 p = decide (5 ≤ p ∧ p < 5 + 3) :=
    mapClaims_range (by decide) (by decide) (by decide) (by decide) hp
  have h5 : mapClaims 0x0000 0x0040 p = decide (0 ≤ p ∧ p < 0 + 1) :=
    mapClaims_range (by decide) (by decide) (by decide) (by decide) hp
  have h6 : mapClaims 0x0280 0x0080 p = decide (10 ≤ p ∧ p < 10 + 2) :=
    mapClaims_range (by decide) (by decide) (by decide) (by decide) hp
  simp only [mappedConsole, Config.fixedMap, List.foldl_cons, List.foldl_nil,
    installEntry_pageAt _ _ hp, e _ rfl, List.any_cons, List.any_nil, Config.ramBankSize, h1, h2, h3,
    h4, h5, h6, Bool.or_false, fixedPage, Bool.or_eq_true, decide_eq_true_eq]
  by_cases a0 : p = 0
  · subst a0; rfl
  by_cases a1 : p ≤ 3
  · have : 1 ≤ p := by omega
    have e1 : ¬ (10 ≤ p) := by omega
    have e2 : ¬ p < 1 := by omega
    have e3 : p < 4 := by omega
    simp [a0, a1, this, e1, e2, e3]
  by_cases a2 : p = 4
  · subst a2; rfl
  by_cases a3 : p ≤ 7
  · have b1 : 5 ≤ p := by omega
    have b2 : ¬ (10 ≤ p) := by omega
    have b3 : ¬ p < 1 := by omega
    have b4 : p < 8 := by omega
    simp [a0, a1, a2, a3, b1, b2, b3, b4]
  by_cases a4 : p = 10 ∨ p = 11
  · rcases a4 with rfl | rfl <;> rfl
  by_cases a5 : 0x60 ≤ p ∧ p ≤ 0x7F
  · have b1 : ¬ p < 1 := by omega
    have b2 : ¬ p < 12 := by omega
    have b3 : ¬ p < 4 := by omega
    have b4 : ¬ p < 8 := by omega
    have b5 : ¬ 128 ≤ p := by omega
    have b6 : p < 128 := by omega
    simp [a0, a1, a2, a3, a4, a5, b1, b2, b3, b4, b5, b6]
  have b1 : ¬ p < 1 := by omega
  have b2 : ¬ (10 ≤ p ∧ p < 12) := by omega
  have b3 : ¬ p < 4 := by omega
  have b4 : ¬ p < 8 := by omega
  have b5 : ¬ (96 ≤ p ∧ p < 128) := by omega
  have b6 : (128 ≤ p ∧ p < 160) ↔ (128 ≤ p ∧ p ≤ 159) := by omega
  simp [a0, a1, a2, a3, a4, a5, b1, b2, b3, b4, b5, b6]

theorem mapped_built (type : MachType) (cart : Option Cart) (b : Bool) (calls : List Call) :
    (placeCart cart (freshConsole type b calls)).Built (mappedConsole type cart b calls) := by
  unfold mappedConsole
  simp only [Config.fixedMap, List.foldl_cons, List.foldl_nil]
  exact (((Built.installEntry _ _).trans (Built.installEntry _ _)).trans (Built.installEntry _ _)).trans
    (Built.installEntry _ _)

end Sys2Proof.Machine
end

