-- ==== Sys2Proof/Laws/Machine.lean ====
section
/-! SUPPORT. The machine that construction answers is well formed, and a machine reset cannot fail and
keeps it so (43_scheduler.md R280, R283). -/

namespace Sys2Proof.Machine

/-! ### The BIOS -/

/-- The device the BIOS stands in. -/
def biosDevice : Option Bytes → Device
  | some img => .rom img
  | none => .absent

theorem installBios_facts (bios : Option Bytes) (c : Console) :
    c.Built (installBios bios c) ∧
      (∀ g, (installBios bios c).device g =
        if bios.isSome = true ∧ g = 6 then biosDevice bios else c.device g) ∧
      (∀ p, p < 1024 → (∀ img, bios = some img → img.length = 4096) →
        (installBios bios c).pageAt p = if bios.isSome = true ∧ 0x3C0 ≤ p then 6 else c.pageAt p) ∧
      (installBios bios c).snooper = c.snooper ∧ (installBios bios c).chips = c.chips ∧
      (installBios bios c).calls = c.calls := by
  cases bios with
  | none => exact ⟨.refl c, fun _ => by simp [installBios], fun _ _ _ => by simp [installBios], rfl, rfl, rfl⟩
  | some img =>
    refine ⟨(Built.setDevice c _ _).trans (Built.mapPages _ _ _ _), fun g => ?_, fun p hp hl => ?_,
      rfl, rfl, rfl⟩
    · exact (Console.device_setDevice c 6 g (.rom img)).trans (by simp [biosDevice])
    · have hlen := hl img rfl
      have hc : mapClaims 0xF000 4096 p = decide (0x3C0 ≤ p ∧ p < 0x3C0 + 64) :=
        mapClaims_range (by decide) (by decide) (by decide) (by decide) hp
      have e : (installBios (some img) c).pageAt p =
          if mapClaims 0xF000 img.length p then 6 else c.pageAt p :=
        Console.pageAt_mapPages _ _ _ _ hp
      rw [e, hlen, hc]
      have : (0x3C0 ≤ p ∧ p < 0x3C0 + 64) ↔ 0x3C0 ≤ p := by omega
      simp [this]

/-! ### The cart -/

/-- The cart of a constructed machine: the given one, attached. -/
structure AttachedTo (k k' : Cart) : Prop where
  tag      : k'.tag = k.tag
  rom      : k'.rom = k.rom
  bank     : k'.bank = k.bank
  ram      : k'.ram = k.ram
  attached : k'.attached = true
  df       : k'.df = if k.variant.family = .dataFetcher
    then k.df.map fun d => { d with last := 0 } else k.df

theorem installCart_facts {E : Env} {c : Console} {k : Cart} (hk : c.cart? = some k)
    (hclock : c.clock = 0) :
    c.Built (installCart E c) ∧
      (∃ k', (k.Ok E → k'.Ok E) ∧ AttachedTo k k' ∧
        ∀ g, (installCart E c).device g = if g = 1 then .cart k' else c.device g) ∧
      (∀ p, p < 1024 → (installCart E c).pageAt p =
        if cartClaims k.tag p then 1 else c.pageAt p) ∧
      (installCart E c).snooper = (if k.variant.wantsSnoop = true then 1 else c.snooper) ∧
      (c.chips = none → (installCart E c).chips = none) := by
  have e : installCart E c = mapCartOnce (attach E c) := by unfold installCart; rw [hk]
  have ha := attach_eq E hk
  have hcart : (attach E c).cart? = some (attachCart E k c).1 := by rw [ha]; simp
  have hvar : (attachCart E k c).1.variant = k.variant := by rw [attachCart_fst]; rfl
  obtain ⟨h1, h2, h3, h4, h5, _⟩ := mapWindows_facts (cartWindows (attachCart E k c).1.variant)
    (attach E c) hcart
  rw [e, mapCartOnce_eq hcart]
  have hb : c.Built (attach E c) := by
    rw [ha]; exact (attachCart_built E k c).trans (Built.setDevice _ _ _)
  refine ⟨hb.trans h2, ⟨(attachCart E k c).1, fun h => attachCart_ok h c, ?_, fun g => ?_⟩,
    fun p hp => ?_, ?_, fun hn => ?_⟩
  · rw [attachCart_fst]
    exact ⟨rfl, rfl, rfl, rfl, rfl, by rw [hclock]⟩
  · rw [Console.device_congr h1, ha]
    unfold Console.setCart
    rw [Console.device_setDevice, Console.device_congr (attachCart_dev E k c)]
    rfl
  · rw [h3 p hp, hvar, show k.variant = Config.cartTable k.tag from rfl, cartWindows_claims _ hp]
    have : (attach E c).pageAt p = c.pageAt p := by
      rw [ha]; exact Console.pageAt_congr (attachCart_page E k c) p
    rw [this]
  · rw [h4, hvar]
    have hne : cartWindows k.variant ≠ [] := cartWindows_ne_nil k.tag
    have : (attach E c).snooper = c.snooper := by
      rw [ha]; exact attachCart_snooper E k c
    simp [hne, this]
  · rw [h5, ha]
    show (attachCart E k c).2.chips = none
    rw [attachCart_snd]
    split
    · show Option.map _ c.chips = none
      rw [hn]; rfl
    · exact hn

/-! ### The whole of construction -/

/-- A machine of a real type, its collaborators just created (43_scheduler.md R280). -/
structure MachineFacts (E : Env) (type : MachType) (cart : Option Cart) (bios : Option Bytes)
    (c : Console) : Prop where
  registers : c.FreshRegisters type bios.isSome
  null      : c.device 0 = .null
  ram2      : c.device 2 = .ram 0x0800 []
  ram3      : c.device 3 = .ram 0x0800 []
  adapter4  : c.device 4 = .adapter 2 0x003F
  adapter5  : c.device 5 = .adapter 3 0x007F
  device6   : c.device 6 = biosDevice bios
  noCart    : cart = none → c.device 1 = .absent
  device1   : ∀ k, cart = some k →
    ∃ k', c.device 1 = .cart k' ∧ AttachedTo k k' ∧ (k.Ok E → k'.Ok E)
  others    : ∀ g : Handle, 7 ≤ g.toNat → c.device g = .absent
  pages     : ∀ p, p < 1024 → c.pageAt p = machinePage bios.isSome (cart.map Cart.tag) p
  snooper   : c.snooper = machineSnooper (cart.map Cart.tag)
  chips     : ∃ ch, c.chips = some ch
  images    : c.ImagesOk E

theorem fresh_chips (type : MachType) (b : Bool) (calls : List Call) (cart : Option Cart) :
    (placeCart cart (freshConsole type b calls)).chips = none := by cases cart <;> rfl

theorem mapped_chips (type : MachType) (cart : Option Cart) (b : Bool) (calls : List Call) :
    (mappedConsole type cart b calls).chips = none := by
  have hfold : ∀ (h : Handle) (l : List (Addr × Nat)) (d : Console),
      (l.foldl (fun c w => mapPages w.1 w.2 h c) d).chips = d.chips := by
    intro h l
    induction l with
    | nil => intro d; rfl
    | cons w l ih => intro d; rw [List.foldl_cons, ih]; rfl
  have he : ∀ (c : Console) (e : Config.FixedEntry), (installEntry c e).chips = c.chips := by
    intro c e
    unfold installEntry
    rw [hfold]
    split <;> rfl
  simp only [mappedConsole, Config.fixedMap, List.foldl_cons, List.foldl_nil, he, fresh_chips]

theorem mapped_snooper (type : MachType) (cart : Option Cart) (b : Bool) (calls : List Call) :
    (mappedConsole type cart b calls).snooper = 0 := by
  have hfold : ∀ (h : Handle) (l : List (Addr × Nat)) (d : Console),
      (l.foldl (fun c w => mapPages w.1 w.2 h c) d).snooper = d.snooper := by
    intro h l
    induction l with
    | nil => intro d; rfl
    | cons w l ih => intro d; rw [List.foldl_cons, ih]; rfl
  have he : ∀ (c : Console) (e : Config.FixedEntry), (installEntry c e).snooper = c.snooper := by
    intro c e
    unfold installEntry
    rw [hfold]
    split <;> rfl
  have hp : (placeCart cart (freshConsole type b calls)).snooper = 0 := by cases cart <;> rfl
  simp only [mappedConsole, Config.fixedMap, List.foldl_cons, List.foldl_nil, he, hp]

theorem giveChips_facts (E : Env) (c : Console) :
    (giveChips E c).dev = c.dev ∧ (giveChips E c).page = c.page ∧
      (giveChips E c).snooper = c.snooper ∧ (∃ ch, (giveChips E c).chips = some ch) ∧
      (giveChips E c).ImagesOk E ∧
      (∀ type b, c.FreshRegisters type b → (giveChips E c).FreshRegisters type b) := by
  refine ⟨rfl, rfl, rfl, ⟨_, rfl⟩, fun ch h => ?_, fun type b r => ?_⟩
  · have : (giveChips E c).chips = some _ := rfl
    rw [this] at h
    cases h
    exact ⟨ownImage_ok E .dma _, ownImage_ok E .input _⟩
  · exact ⟨r.lbv, r.type, r.halt, r.frame, r.hasBios, r.clock, r.budget, r.jammed, r.preempt, r.sched⟩

/-- The machine just before its cart is attached and mapped. -/
structure UncartedFacts (type : MachType) (cart : Option Cart) (bios : Option Bytes) (B : Console) :
    Prop where
  registers : B.FreshRegisters type bios.isSome
  device0   : B.device 0 = .null
  noCart    : cart = none → B.device 1 = .absent
  device1   : ∀ k, cart = some k → B.device 1 = .cart k
  device2   : B.device 2 = .ram 0x0800 []
  device3   : B.device 3 = .ram 0x0800 []
  device4   : B.device 4 = .adapter 2 0x003F
  device5   : B.device 5 = .adapter 3 0x007F
  device6   : B.device 6 = biosDevice bios
  others    : ∀ g : Handle, 7 ≤ g.toNat → B.device g = .absent
  pages     : ∀ p, p < 1024 → B.pageAt p =
    if bios.isSome = true ∧ 0x3C0 ≤ p then 6 else fixedPage p
  snooper   : B.snooper = 0

theorem uncarted_facts (type : MachType) (cart : Option Cart) (bios : Option Bytes)
    (hbios : ∀ img, bios = some img → img.length ∈ Config.biosSizes) (calls : List Call) :
    UncartedFacts type cart bios
      (installBios bios (mappedConsole type cart bios.isSome calls)) := by
  have hlen : ∀ img, bios = some img → img.length = 4096 := by
    intro img h; simpa [Config.biosSizes] using hbios img h
  have hm := mapped_device type cart bios.isSome calls
  have hp := fun p (h : p < 1024) => mapped_pageAt type cart bios.isSome calls h
  have hs := mapped_snooper type cart bios.isSome calls
  have hr := (mapped_built type cart bios.isSome calls).registers
    (placed_registers type bios.isSome calls cart)
  generalize mappedConsole type cart bios.isSome calls = M at *
  obtain ⟨b1, b2, b3, b4, -, -⟩ := installBios_facts bios M
  have hdev : ∀ g : Handle, g ≠ 6 → (installBios bios M).device g = M.device g := by
    intro g hg
    rw [b2 g]
    simp only [hg, and_false, if_false]
  refine ⟨b1.registers hr, ?_, fun hc => ?_, fun k hc => ?_, ?_, ?_, ?_, ?_, ?_, fun g hg => ?_,
    fun p h => ?_, b4.trans hs⟩
  · rw [hdev 0 (by decide), hm]; rfl
  · rw [hdev 1 (by decide), hm, hc]; rfl
  · rw [hdev 1 (by decide), hm, hc]; rfl
  · rw [hdev 2 (by decide), hm]; rfl
  · rw [hdev 3 (by decide), hm]; rfl
  · rw [hdev 4 (by decide), hm]; rfl
  · rw [hdev 5 (by decide), hm]; rfl
  · rw [b2 6]
    cases bios
    · simp [biosDevice, hm]
    · simp
  · have hne : ∀ n : Nat, n < 7 → g ≠ BitVec.ofNat 8 n := by
      intro n hn e
      rw [e, BitVec.toNat_ofNat] at hg
      omega
    rw [hdev g (hne 6 (by decide)), hm]
    repeat' split
    · next e => exact absurd e (hne 0 (by decide))
    · exact absurd ‹g = 1› (hne 1 (by decide))
    · rfl
    · next e => exact absurd e (hne 2 (by decide))
    · next e => exact absurd e (hne 3 (by decide))
    · next e => exact absurd e (hne 4 (by decide))
    · next e => exact absurd e (hne 5 (by decide))
    · rfl
  · rw [b3 p h hlen, hp p h]

theorem machine_facts {E : Env} {type : MachType} (ht : type ≠ .bare) (cart : Option Cart)
    (bios : Option Bytes) (hbios : ∀ img, bios = some img → img.length ∈ Config.biosSizes)
    (calls : List Call) :
    MachineFacts E type cart bios (giveChips E (hull E type cart bios calls)) := by
  have e : giveChips E (hull E type cart bios calls) =
      giveChips E (installCart E (installBios bios
        (mappedConsole type cart bios.isSome calls))) := by
    cases type
    · exact absurd rfl ht
    · rfl
    · rfl
  have hB := uncarted_facts type cart bios hbios calls
  rw [e]
  generalize installBios bios (mappedConsole type cart bios.isSome calls) = B at *
  clear e
  obtain ⟨c1, c2, c3, c4, c5, c6⟩ := giveChips_facts E (installCart E B)
  generalize giveChips E (installCart E B) = D at *
  cases cart with
  | none =>
    have hnone : B.cart? = none := by
      unfold Console.cart?; rw [show cartHandle = 1 from rfl, hB.noCart rfl]
    have ei : installCart E B = B := by unfold installCart; rw [hnone]
    rw [ei] at c1 c2 c3 c6
    have hd : ∀ g, D.device g = B.device g := Console.device_congr c1
    exact ⟨c6 _ _ hB.registers, (hd 0).trans hB.device0, (hd 2).trans hB.device2,
      (hd 3).trans hB.device3, (hd 4).trans hB.device4, (hd 5).trans hB.device5,
      (hd 6).trans hB.device6, fun h => (hd 1).trans (hB.noCart h), fun k h => (by cases h),
      fun g hg => (hd g).trans (hB.others g hg),
      fun p hp => (Console.pageAt_congr c2 p).trans (hB.pages p hp), c3.trans hB.snooper, c4, c5⟩
  | some k =>
    have hsome : B.cart? = some k := Console.cart?_eq_some.mpr (hB.device1 k rfl)
    obtain ⟨i1, ⟨k', i2, i3, i4⟩, i5, i6, _⟩ := installCart_facts (E := E) hsome hB.registers.clock
    have hd : ∀ g : Handle, g ≠ 1 → D.device g = B.device g := by
      intro g hg
      rw [Console.device_congr c1, i4 g, if_neg hg]
    refine ⟨c6 _ _ (i1.registers hB.registers), (hd 0 (by decide)).trans hB.device0,
      (hd 2 (by decide)).trans hB.device2, (hd 3 (by decide)).trans hB.device3,
      (hd 4 (by decide)).trans hB.device4, (hd 5 (by decide)).trans hB.device5,
      (hd 6 (by decide)).trans hB.device6, fun h => (by cases h), fun l h => ?_, fun g hg => ?_,
      fun p hp => ?_, ?_, c4, c5⟩
    · cases h
      exact ⟨k', by rw [Console.device_congr c1, i4 1, if_pos rfl], i3, i2⟩
    · have : g ≠ 1 := by rintro rfl; exact absurd hg (by decide)
      rw [hd g this, hB.others g hg]
    · rw [Console.pageAt_congr c2, i5 p hp, hB.pages p hp]
      simp [machinePage]
    · rw [c3, i6, hB.snooper]
      simp only [machineSnooper, Cart.variant, Option.map_some, wantsSnoop_iff, Option.some.injEq]

/-- Every handle is one of the machine's own or beyond them. -/
theorem handle_cases (g : Handle) :
    g = 0 ∨ g = 1 ∨ g = 2 ∨ g = 3 ∨ g = 4 ∨ g = 5 ∨ g = 6 ∨ 7 ≤ g.toNat := by
  have : ∀ n, g.toNat = n → n < 256 → g = BitVec.ofNat 8 n := by
    intro n h hn; exact BitVec.eq_of_toNat_eq (by rw [BitVec.toNat_ofNat]; omega)
  rcases Nat.lt_or_ge g.toNat 7 with h | h
  · have h7 : g.toNat = 0 ∨ g.toNat = 1 ∨ g.toNat = 2 ∨ g.toNat = 3 ∨ g.toNat = 4 ∨ g.toNat = 5 ∨
        g.toNat = 6 := by omega
    rcases h7 with h | h | h | h | h | h | h
    · exact .inl (this 0 h (by decide))
    · exact .inr (.inl (this 1 h (by decide)))
    · exact .inr (.inr (.inl (this 2 h (by decide))))
    · exact .inr (.inr (.inr (.inl (this 3 h (by decide)))))
    · exact .inr (.inr (.inr (.inr (.inl (this 4 h (by decide))))))
    · exact .inr (.inr (.inr (.inr (.inr (.inl (this 5 h (by decide)))))))
    · exact .inr (.inr (.inr (.inr (.inr (.inr (.inl (this 6 h (by decide))))))))
  · exact .inr (.inr (.inr (.inr (.inr (.inr (.inr h))))))

/-- Every page of a constructed machine names a handle that has a device. -/
theorem machinePage_cases (b : Bool) (cart : Option CartTag) (p : Nat) :
    (machinePage b cart p = 1 ∧ cart.isSome = true) ∨ (machinePage b cart p = 6 ∧ b = true) ∨
      machinePage b cart p = 0 ∨ machinePage b cart p = 2 ∨ machinePage b cart p = 3 ∨
      machinePage b cart p = 4 ∨ machinePage b cart p = 5 := by
  unfold machinePage
  split
  · next h => left; refine ⟨rfl, ?_⟩; cases cart <;> simp_all
  · split
    · next h => exact .inr (.inl ⟨rfl, h.1⟩)
    · unfold fixedPage
      repeat' split
      all_goals simp

/-- A machine with its devices, pages and snooper in place (43_scheduler.md R282). -/
structure MachineShape (E : Env) (c : Console) : Prop where
  null     : c.device 0 = .null
  cart     : (c.device 1 = .absent ∧ c.cartTag = none) ∨
    ∃ k, c.device 1 = .cart k ∧ k.Ok E ∧ k.attached = true
  ram2     : ∃ mem, c.device 2 = .ram 0x0800 mem ∧ mem.wf 0x0800 = true
  ram3     : ∃ mem, c.device 3 = .ram 0x0800 mem ∧ mem.wf 0x0800 = true
  adapter4 : c.device 4 = .adapter 2 0x003F
  adapter5 : c.device 5 = .adapter 3 0x007F
  bios     : (c.device 6 = .absent ∧ c.hasBios = false) ∨
    ∃ img, c.device 6 = .rom img ∧ img.length ∈ Config.biosSizes ∧ c.hasBios = true
  others   : ∀ g : Handle, 7 ≤ g.toNat → c.device g = .absent
  pages    : ∀ p, p < 1024 → c.pageAt p = machinePage c.hasBios c.cartTag p
  snooper  : c.snooper = machineSnooper c.cartTag

theorem MachineShape.wired {E : Env} {c : Console} (h : MachineShape E c) : c.Wired E := by
  have hblock : ∀ img : Bytes, img.length ∈ Config.biosSizes → img.length ∈ blockSizes := by
    intro img hi
    simp only [Config.biosSizes, List.mem_singleton] at hi
    rw [hi]; decide
  obtain ⟨m2, e2, w2⟩ := h.ram2
  obtain ⟨m3, e3, w3⟩ := h.ram3
  refine ⟨h.null, ?_, ?_, ?_, ?_, ?_⟩
  · rcases h.cart with ⟨e, _⟩ | ⟨k, e, _⟩ <;> rw [e] <;> simp [Device.kind]
  · intro g h0 h1
    rcases handle_cases g with rfl | rfl | rfl | rfl | rfl | rfl | rfl | hg
    · exact absurd rfl h0
    · exact absurd rfl h1
    · rw [e2]; simp [Device.kind]
    · rw [e3]; simp [Device.kind]
    · rw [h.adapter4]; simp [Device.kind]
    · rw [h.adapter5]; simp [Device.kind]
    · rcases h.bios with ⟨e, _⟩ | ⟨img, e, _⟩ <;> rw [e] <;> simp [Device.kind]
    · rw [h.others g hg]; simp [Device.kind]
  · intro g
    rcases handle_cases g with rfl | rfl | rfl | rfl | rfl | rfl | rfl | hg
    · rw [h.null]; trivial
    · rcases h.cart with ⟨e, _⟩ | ⟨k, e, hok, _⟩ <;> rw [e]
      · trivial
      · exact hok
    · rw [e2]; exact ⟨by decide, w2⟩
    · rw [e3]; exact ⟨by decide, w3⟩
    · rw [h.adapter4]; show (2 : Byte) ≠ 0; decide
    · rw [h.adapter5]; show (3 : Byte) ≠ 0; decide
    · rcases h.bios with ⟨e, _⟩ | ⟨img, e, hi, _⟩ <;> rw [e]
      · trivial
      · exact hblock img hi
    · rw [h.others g hg]; trivial
  · intro p hp
    rw [h.pages p hp]
    rcases machinePage_cases c.hasBios c.cartTag p with
      ⟨e, hs⟩ | ⟨e, hs⟩ | e | e | e | e | e <;> rw [e]
    · rcases h.cart with ⟨_, hn⟩ | ⟨k', e, _⟩
      · rw [hn] at hs; cases hs
      · rw [e]; simp
    · rcases h.bios with ⟨_, hn⟩ | ⟨img, e, _⟩
      · rw [hn] at hs; cases hs
      · rw [e]; simp
    · rw [h.null]; simp
    · rw [e2]; simp
    · rw [e3]; simp
    · rw [h.adapter4]; simp
    · rw [h.adapter5]; simp
  · rw [h.snooper]
    unfold machineSnooper
    split
    · next hs =>
      rcases h.cart with ⟨_, hn⟩ | ⟨k', e, _⟩
      · rw [hn] at hs; cases hs
      · rw [e]; simp
    · rw [h.null]; simp

theorem MachineShape.ok {E : Env} {c : Console} (h : MachineShape E c) (ht : c.type ≠ .bare)
    (hcarry : c.carryLegal) (hs : c.sched = Sched.idle) (hch : ∃ ch, c.chips = some ch)
    (hi : c.ImagesOk E) : c.Ok E := by
  refine ⟨h.wired, hcarry, hs, fun hn => ?_, fun ch e => ?_⟩
  · obtain ⟨ch, e⟩ := hch
    rw [e] at hn; cases hn
  · refine ⟨ht, ?_, ?_, ⟨h.adapter4, h.adapter5⟩, ?_, ?_, h.others, h.pages, h.snooper,
      (hi ch e).1, (hi ch e).2⟩
    · intro k hk
      rcases h.cart with ⟨e, _⟩ | ⟨l, e, _, ha⟩ <;>
        rw [show c.device 1 = _ from Console.cart?_eq_some.mp hk] at e <;> cases e
      exact ha
    · intro g hg
      simp only [Config.ramBanks, List.mem_cons, List.not_mem_nil, or_false] at hg
      rcases hg with rfl | rfl
      · obtain ⟨m, e, _⟩ := h.ram2; exact ⟨m, e⟩
      · obtain ⟨m, e, _⟩ := h.ram3; exact ⟨m, e⟩
    · intro hb
      rcases h.bios with ⟨_, hn⟩ | ⟨img, e, hl, _⟩
      · rw [hb] at hn; cases hn
      · exact ⟨img, e, hl⟩
    · intro hb
      rcases h.bios with ⟨e, _⟩ | ⟨_, _, _, hn⟩
      · exact e
      · rw [hb] at hn; cases hn

theorem mapped_calls (type : MachType) (cart : Option Cart) (b : Bool) (calls : List Call) :
    (mappedConsole type cart b calls).calls = calls := by
  have hfold : ∀ (h : Handle) (l : List (Addr × Nat)) (d : Console),
      (l.foldl (fun c w => mapPages w.1 w.2 h c) d).calls = d.calls := by
    intro h l
    induction l with
    | nil => intro d; rfl
    | cons w l ih => intro d; rw [List.foldl_cons, ih]; rfl
  have he : ∀ (c : Console) (e : Config.FixedEntry), (installEntry c e).calls = c.calls := by
    intro c e
    unfold installEntry
    rw [hfold]
    split <;> rfl
  have hp : (placeCart cart (freshConsole type b calls)).calls = calls := by cases cart <;> rfl
  simp only [mappedConsole, Config.fixedMap, List.foldl_cons, List.foldl_nil, he, hp]

/-- Before the CPU and the DMA chip exist, construction calls only the embedded chip of the cart
(43_scheduler.md R280, 41_cart_family.md R183, R186). -/
theorem hull_calls {E : Env} {type : MachType} (ht : type ≠ .bare) (cart : Option Cart) (bios : Option Bytes)
    (hbios : ∀ img, bios = some img → img.length ∈ Config.biosSizes) (calls : List Call) :
    (hull E type cart bios calls).calls =
      (if cart.map Cart.tag = some .c16kp then [firstEntry (.chip 1 .create)] else []) ++ calls := by
  have e : hull E type cart bios calls = installCart E (installBios bios
      (mappedConsole type cart bios.isSome calls)) := by
    cases type
    · exact absurd rfl ht
    · rfl
    · rfl
  have hB := uncarted_facts type cart bios hbios calls
  have hcalls : (installBios bios (mappedConsole type cart bios.isSome calls)).calls = calls := by
    rw [(installBios_facts bios _).2.2.2.2.2, mapped_calls]
  rw [e]
  generalize installBios bios (mappedConsole type cart bios.isSome calls) = B at *
  unfold installCart
  cases cart with
  | none =>
    rw [show B.cart? = none by unfold Console.cart?; rw [show cartHandle = 1 from rfl, hB.noCart rfl]]
    exact hcalls
  | some k =>
    have hk : B.cart? = some k := Console.cart?_eq_some.mpr (hB.device1 k rfl)
    have hcart : (attach E B).cart? = some (attachCart E k B).1 := by rw [attach_eq E hk]; simp
    rw [hk]
    show (mapCartOnce (attach E B)).calls = _
    rw [mapCartOnce_eq hcart, (mapWindows_facts _ _ hcart).2.2.2.2.2, attach_eq E hk]
    show (attachCart E k B).2.calls = _
    rw [attachCart_snd, show k.variant.chip = _ from chip_eq k.tag]
    by_cases h : k.tag = .c16kp
    · rw [if_pos h, if_pos (by rw [Option.map_some, h])]
      show B.entry (.chip 1 .create) :: B.calls = _
      rw [hcalls]
      unfold Console.entry firstEntry
      rw [hB.registers.lbv, hB.registers.clock]
      rfl
    · rw [if_neg h, if_neg (by simpa using h)]
      exact hcalls

/-- The cart of a constructed machine, whole (41_cart_family.md R186). -/
theorem AttachedTo.eq {E : Env} {k k' : Cart} (h : AttachedTo k k') (hk : k.Ok E) :
    k' = { k with
      attached := true
      chip := k'.chip
      df := k.df.map fun d => { d with last := 0 } } := by
  obtain ⟨h1, h2, h3, h4, h5, h6⟩ := h
  have : k'.df = k.df.map fun d => { d with last := 0 } := by
    rw [h6]
    split
    · rfl
    · next hf =>
      have := hk.fetcher
      rw [decide_eq_false hf] at this
      rw [Option.isSome_eq_false_iff, Option.isNone_iff_eq_none] at this
      rw [this]; rfl
  rw [← this]
  cases k'
  simp only at h1 h2 h3 h4 h5
  subst h1 h2 h3 h4 h5
  rfl

/-- The devices just before `DMA.Create` uses the bus. -/
theorem MachineFacts.device_eq {E : Env} {type : MachType} {cart : Option Cart} {bios : Option Bytes}
    {c : Console} (f : MachineFacts E type cart bios c) {h : Handle} (hh : h ≠ 1) :
    c.device h = builtDevice cart bios h := by
  unfold builtDevice
  rcases handle_cases h with rfl | rfl | rfl | rfl | rfl | rfl | rfl | h7
  · exact f.null
  · exact absurd rfl hh
  · exact f.ram2
  · exact f.ram3
  · exact f.adapter4
  · exact f.adapter5
  · exact f.device6.trans (by cases bios <;> rfl)
  · rw [f.others h h7]
    have : ∀ n : Nat, n < 7 → h ≠ BitVec.ofNat 8 n := by
      rintro n hn rfl
      rw [BitVec.toNat_ofNat] at h7
      omega
    rw [if_neg (show ¬h = 0 from this 0 (by omega)), if_neg hh,
      if_neg (show ¬(h = 2 ∨ h = 3) from not_or.mpr ⟨this 2 (by omega), this 3 (by omega)⟩),
      if_neg (show ¬h = 4 from this 4 (by omega)), if_neg (show ¬h = 5 from this 5 (by omega)),
      if_neg (show ¬h = 6 from this 6 (by omega))]
theorem MachineFacts.cart?_eq {E : Env} {type : MachType} {cart : Option Cart} {bios : Option Bytes}
    {c : Console} (h : MachineFacts E type cart bios c) :
    (cart = none ∧ c.cart? = none) ∨
      ∃ k k', cart = some k ∧ c.cart? = some k' ∧ AttachedTo k k' := by
  cases hc : cart with
  | none =>
    refine .inl ⟨rfl, ?_⟩
    unfold Console.cart?
    rw [show cartHandle = 1 from rfl, h.noCart hc]
  | some k =>
    obtain ⟨k', e, ha, _⟩ := h.device1 k hc
    exact .inr ⟨k, k', rfl, Console.cart?_eq_some.mpr e, ha⟩

theorem MachineFacts.cartTag_eq {E : Env} {type : MachType} {cart : Option Cart}
    {bios : Option Bytes} {c : Console} (h : MachineFacts E type cart bios c) :
    c.cartTag = cart.map Cart.tag := by
  unfold Console.cartTag
  rcases h.cart?_eq with ⟨e1, e2⟩ | ⟨k, k', e1, e2, ha⟩
  · rw [e1, e2, Option.map_none]
  · rw [e1, e2]; simp [ha.tag]

theorem MachineFacts.shape {E : Env} {type : MachType} {cart : Option Cart} {bios : Option Bytes}
    {c : Console} (h : MachineFacts E type cart bios c) (hcart : ∀ k, cart = some k → k.Ok E)
    (hbios : ∀ img, bios = some img → img.length ∈ Config.biosSizes) : MachineShape E c := by
  refine ⟨h.null, ?_, ⟨[], h.ram2, rfl⟩, ⟨[], h.ram3, rfl⟩, h.adapter4, h.adapter5, ?_, h.others, ?_, ?_⟩
  · cases hc : cart with
    | none => exact .inl ⟨h.noCart hc, by rw [h.cartTag_eq, hc]; rfl⟩
    | some k =>
      obtain ⟨k', e, ha, hok⟩ := h.device1 k hc
      exact .inr ⟨k', e, hok (hcart k hc), ha.attached⟩
  · have hd := h.device6
    have hb := h.registers.hasBios
    cases e : bios with
    | none => rw [e] at hd hb; exact .inl ⟨hd, hb⟩
    | some img => rw [e] at hd hb; exact .inr ⟨img, hd, hbios img e, hb⟩
  · intro p hp
    rw [h.pages p hp, h.registers.hasBios, h.cartTag_eq]
  · rw [h.snooper, h.cartTag_eq]

theorem MachineFacts.ok {E : Env} {type : MachType} (ht : type ≠ .bare) {cart : Option Cart}
    {bios : Option Bytes} {c : Console} (h : MachineFacts E type cart bios c)
    (hcart : ∀ k, cart = some k → k.Ok E)
    (hbios : ∀ img, bios = some img → img.length ∈ Config.biosSizes) : c.Ok E := by
  refine (h.shape hcart hbios).ok (by rw [h.registers.type]; exact ht) ?_ h.registers.sched h.chips
    h.images
  unfold Console.carryLegal
  rw [h.registers.budget, h.registers.jammed]; decide

/-! ### Keeping a machine well formed -/

theorem Console.SameTopology.cart {c d : Console} (h : c.SameTopology d) {k : Cart}
    (hk : d.cart? = some k) : ∃ l, c.cart? = some l ∧ k.constants = l.constants := by
  have hd := h.devices cartHandle
  rw [Console.cart?_eq_some.mp hk] at hd
  cases hc : c.device cartHandle <;> rw [hc] at hd <;> simp [Device.constants] at hd
  next l =>
  exact ⟨l, Console.cart?_eq_some.mpr hc, Cart.constants_eq_iff.mpr ⟨hd.1, hd.2.1, hd.2.2⟩⟩

theorem Console.SameTopology.cartTag {c d : Console} (h : c.SameTopology d) :
    d.cartTag = c.cartTag := by
  have hd := h.devices cartHandle
  unfold Console.cartTag Console.cart?
  cases hc : c.device cartHandle <;> cases hd' : d.device cartHandle <;>
    (rw [hc, hd'] at hd; try cases hd)
  case cart.cart k l =>
    have : l.tag = k.tag := by simp only [Device.constants, Device.cart.injEq, Cart.mk.injEq] at hd; exact hd.1
    exact congrArg some this

/-- What keeps a machine well formed, apart from the scheduler's registers. -/
theorem Console.RunOk.keep {E : Env} {c d : Console} {ch ch' : Chips} (h : c.RunOk E ch)
    (s : c.SameTopology d) (himages : d.ImagesOk E) (hch : d.chips = some ch')
    : d.RunOk E ch' := by
  have fixed : ∀ g, (c.device g).constants = c.device g → (∀ k, c.device g ≠ .cart k) →
      (∀ n m, c.device g ≠ .ram n m) → d.device g = c.device g := by
    intro g hc hk hr
    have := s.devices g
    rw [hc] at this
    cases hd : d.device g <;> rw [hd] at this <;> simp only [Device.constants] at this
    case ram n m => exact absurd this.symm (hr _ _)
    case cart k => exact absurd this.symm (hk _)
    all_goals exact this
  have absent : ∀ g, c.device g = .absent → d.device g = .absent := fun g e =>
    (fixed g (by rw [e]; rfl) (by rw [e]; simp) (by rw [e]; simp)).trans e
  refine ⟨by rw [s.type]; exact h.real, ?_, ?_, ⟨?_, ?_⟩, ?_, ?_, fun g hg => absent g (h.others g hg),
    ?_, ?_, (himages ch' hch).1, (himages ch' hch).2⟩
  · intro k hk
    obtain ⟨l, hl, he⟩ := s.cart hk
    rw [(Cart.constants_eq_iff.mp he).2.2]
    exact h.attached l hl
  · intro g hg
    obtain ⟨mem, hm⟩ := h.banks g hg
    have := s.devices g
    rw [hm] at this
    cases hd : d.device g <;> rw [hd] at this <;> simp [Device.constants] at this
    subst this
    exact ⟨_, rfl⟩
  · have e := h.adapters.1
    exact (fixed 4 (by rw [e]; rfl) (by rw [e]; simp) (by rw [e]; simp)).trans e
  · have e := h.adapters.2
    exact (fixed 5 (by rw [e]; rfl) (by rw [e]; simp) (by rw [e]; simp)).trans e
  · intro hb
    rw [s.hasBios] at hb
    obtain ⟨img, hi, hl⟩ := h.bios hb
    have := s.devices Config.biosHandle
    rw [hi] at this
    cases hd : d.device Config.biosHandle <;> rw [hd] at this <;> simp [Device.constants] at this
    subst this
    exact ⟨_, rfl, hl⟩
  · intro hb
    rw [s.hasBios] at hb
    exact absent _ (h.noBios hb)
  · intro p hp
    rw [Console.pageAt_congr s.page, s.hasBios, s.cartTag]
    exact h.topology p hp
  · rw [s.snooper, s.cartTag]; exact h.snoops

theorem Console.RunOk.ready {E : Env} {c : Console} {ch : Chips} (h : c.RunOk E ch) : c.CartReady :=
  fun k hk => .inl (h.attached k hk)

/-- A well-formed machine's images are its collaborators'. -/
theorem Console.Ok.images {E : Env} {c : Console} (h : c.Ok E) : c.ImagesOk E :=
  fun ch hch => ⟨(h.running ch hch).dma, (h.running ch hch).input⟩

/-- A bus step keeps a console well formed. -/
theorem Console.Ok.bus {E : Env} {c d : Console} (h : c.Ok E) (s : BusStep E c d) : d.Ok E := by
  have hnone : d.chips = none ↔ c.chips = none := by
    have := s.touched.collaborators
    unfold Console.collaborators at this
    cases hc : c.chips <;> cases hd : d.chips <;> rw [hc, hd] at this <;> simp at this ⊢
  refine ⟨s.wired h.wired, ?_, ?_, ?_, ?_⟩
  · have := h.carry
    unfold Console.carryLegal at this ⊢
    rw [s.touched.scheduler.budget, s.touched.scheduler.jammed]; exact this
  · rw [s.touched.scheduler.sched]; exact h.idle
  · intro hn
    rw [s.touched.topology.type]
    exact h.bench (hnone.mp hn)
  · intro ch hch
    cases hc : c.chips with
    | none => rw [hnone.mpr hc] at hch; cases hch
    | some ch0 => exact (h.running ch0 hc).keep s.touched.topology (s.images h.images) hch

/-! ### Machine reset -/

theorem resetDevices_step (E : Env) (c : Console) : BusStep E c (resetDevices E c) := by
  have : ∀ (l : List Nat) (d : Console),
      BusStep E d (l.foldl (fun c h => devReset E (BitVec.ofNat 8 h) c) d) := by
    intro l
    induction l with
    | nil => intro d; exact .refl E d
    | cons h l ih => intro d; exact (devReset_step E _ d).bus.trans (ih _)
  exact this _ c

theorem dmaProgram_step {E : Env} {c d : Console} (e : dmaProgram E c = .ok d) : BusStep E c d := by
  obtain ⟨⟨_, c1⟩, h1, e⟩ := Except.bind_ok_iff.mp e
  cases e
  exact (runProgram_step h1).trans (.refreshImages E c1)

theorem dmaProgram_total {E : Env} {c : Console} (hw : c.Wired E) (hr : c.CartReady) :
    ∃ d, dmaProgram E c = .ok d := by
  obtain ⟨⟨_, c1⟩, h1⟩ := runProgram_total (who := .dma) (E.collab.dmaCall c.calls) hw hr
  exact ⟨_, by unfold dmaProgram; rw [h1]; rfl⟩

theorem dmaCall_step {E : Env} {op : DmaOp} {c d : Console} (e : dmaCall E op c = .ok d) :
    BusStep E c d := (BusStep.call E _ c).trans (dmaProgram_step e)

theorem dmaCall_total {E : Env} {c : Console} (hw : c.Wired E) (hr : c.CartReady) (op : DmaOp) :
    ∃ d, dmaCall E op c = .ok d :=
  have s := BusStep.call E (.dma op) c
  dmaProgram_total (s.wired hw) (s.ready hw hr)

/-- A real machine is constructed by `DMA.Create` from its parts, which cannot fail (43_scheduler.md
R280, 20_memory.md R73). -/
theorem construct_step {E : Env} {type : MachType} (ht : type ≠ .bare) {cart : Option Cart}
    {bios : Option Bytes} {calls : List Call} {d : Console}
    (e : construct E type cart bios calls = .ok d) :
    BusStep E (giveChips E (hull E type cart bios calls)) d := by
  cases type
  · exact absurd rfl ht
  · exact dmaProgram_step e
  · exact dmaProgram_step e

theorem construct_total {E : Env} {type : MachType} {cart : Option Cart} {bios : Option Bytes}
    (hcart : ∀ k, cart = some k → k.Ok E)
    (hbios : type ≠ .bare → ∀ img, bios = some img → img.length ∈ Config.biosSizes)
    (calls : List Call) : ∃ d, construct E type cart bios calls = .ok d := by
  by_cases ht : type = .bare
  · subst ht; exact ⟨_, rfl⟩
  have f := machine_facts (E := E) ht cart bios (hbios ht) calls
  have ok := f.ok ht hcart (hbios ht)
  obtain ⟨ch, hch⟩ := f.chips
  obtain ⟨d, e⟩ := dmaProgram_total ok.wired (ok.running ch hch).ready
  refine ⟨d, ?_⟩
  cases type
  · exact absurd rfl ht
  · exact e
  · exact e

/-- What the CPU's own registers being written leaves alone. -/
structure CpuStep (E : Env) (c d : Console) : Prop where
  topology  : c.SameTopology d
  scheduler : c.SameScheduler d
  record    : ∃ l, d.calls = l ++ c.calls
  honest    : d.chips.map Chips.dmaHonest = c.chips.map Chips.dmaHonest
  wired     : c.Wired E → d.Wired E
  images    : c.ImagesOk E → d.ImagesOk E

theorem honest_of_collaborators {c d : Console} (h : d.collaborators = c.collaborators) :
    d.chips.map Chips.dmaHonest = c.chips.map Chips.dmaHonest := by
  have := congrArg (Option.map Prod.snd) h
  simpa [Console.collaborators, Option.map_map, Function.comp_def] using this

theorem BusStep.cpu {E : Env} {c d : Console} (h : BusStep E c d) : CpuStep E c d :=
  ⟨h.touched.topology, h.touched.scheduler, h.touched.record,
    honest_of_collaborators h.touched.collaborators, h.wired, h.images⟩

theorem CpuStep.trans {E : Env} {c d e : Console} (h : CpuStep E c d) (g : CpuStep E d e) :
    CpuStep E c e := by
  obtain ⟨l, hl⟩ := h.record
  obtain ⟨m, hm⟩ := g.record
  exact ⟨h.topology.trans g.topology, h.scheduler.trans g.scheduler, ⟨m ++ l, by simp [hm, hl]⟩,
    g.honest.trans h.honest, g.wired ∘ h.wired, g.images ∘ h.images⟩

theorem CpuStep.setCpuRegs (E : Env) (r : CpuRegs) (c : Console) : CpuStep E c (c.setCpuRegs r) := by
  refine ⟨⟨rfl, rfl, rfl, rfl, fun _ => rfl⟩, ⟨rfl, rfl, rfl, rfl, rfl, rfl, rfl⟩, ⟨[], rfl⟩, ?_,
    fun h => h.congr rfl rfl rfl, fun h ch hch => ?_⟩
  · simp [Option.map_map, Function.comp_def]
  · simp only [Console.setCpuRegs_chips, Option.map_eq_some_iff] at hch
    obtain ⟨ch0, h0, rfl⟩ := hch
    exact h ch0 h0

theorem cpuReset_step {E : Env} {c d : Console} (e : cpuReset E c = .ok d) : CpuStep E c d := by
  unfold cpuReset at e
  simp only at e
  obtain ⟨⟨r, c1⟩, h1, e⟩ := Except.bind_ok_iff.mp e
  cases e
  exact ((BusStep.note E c _).trans (runProgram_step h1)).cpu.trans (.setCpuRegs E r c1)

theorem cpuReset_total {E : Env} {c : Console} (hw : c.Wired E) (hr : c.CartReady) :
    ∃ d, cpuReset E c = .ok d := by
  unfold cpuReset
  simp only
  have s := BusStep.note E c (.cpu .reset)
  obtain ⟨⟨r, c1⟩, h1⟩ := runProgram_total (who := .cpu)
    (E.collab.cpuReset (c.note (.cpu .reset)).calls) (s.wired hw) (s.ready hw hr)
  rw [h1]
  exact ⟨_, rfl⟩

theorem machineReset_step {E : Env} {c d : Console} (e : machineReset E c = .ok d) :
    CpuStep E c d := by
  unfold machineReset at e
  obtain ⟨c1, h1, e⟩ := Except.bind_ok_iff.mp e
  exact ((resetDevices_step E c).trans (dmaCall_step h1)).cpu.trans (cpuReset_step e)

theorem machineReset_total {E : Env} {c : Console} (hw : c.Wired E) (hr : c.CartReady) :
    ∃ d, machineReset E c = .ok d := by
  have s0 := resetDevices_step E c
  obtain ⟨c1, h1⟩ := dmaCall_total (s0.wired hw) (s0.ready hw hr) .reset
  have s1 := s0.trans (dmaCall_step h1)
  obtain ⟨d, h2⟩ := cpuReset_total (s1.wired hw) (s1.ready hw hr)
  exact ⟨d, by unfold machineReset; rw [h1]; exact h2⟩

theorem Console.Ok.cpu {E : Env} {c d : Console} (h : c.Ok E) (s : CpuStep E c d) : d.Ok E := by
  have hnone : d.chips = none ↔ c.chips = none := by
    have := s.honest
    cases hc : c.chips <;> cases hd : d.chips <;> rw [hc, hd] at this <;> simp at this ⊢
  refine ⟨s.wired h.wired, ?_, ?_, ?_, ?_⟩
  · have := h.carry
    unfold Console.carryLegal at this ⊢
    rw [s.scheduler.budget, s.scheduler.jammed]; exact this
  · rw [s.scheduler.sched]; exact h.idle
  · intro hn
    rw [s.topology.type]
    exact h.bench (hnone.mp hn)
  · intro ch hch
    cases hc : c.chips with
    | none => rw [hnone.mpr hc] at hch; cases hch
    | some ch0 => exact (h.running ch0 hc).keep s.topology (s.images h.images) hch

end Sys2Proof.Machine
end

