-- ==== Sys2Proof/Laws/Bench.lean ====
section
/-! SUPPORT. The commands that build and arrange: what the factory, construction, mapping and the other
bench operations leave, and that each keeps a console well formed. -/

namespace Sys2Proof.Machine

variable {E : Env}

/-! ### The factory -/

theorem mem_romlens_of_select {tag n : Nat} {t : CartTag} (h : selectVariant tag n = .ok t) :
    n ∈ (Config.cartTable t).romlens := by
  unfold selectVariant at h
  simp only at h
  split at h
  · cases h
  · split at h
    · cases h
    · split at h
      · next hm => cases h; exact hm
      · cases h

/-- A new cart is well formed (41_cart_family.md R180, R211, 42_cart_datafetcher.md R241). -/
theorem newCart_ok {t : CartTag} {rom : Bytes} (h : rom.length ∈ (Config.cartTable t).romlens)
    (sel : Word32) : (newCart t rom sel).Ok E := by
  refine ⟨h, ?_, ?_, rfl, ?_, ?_, ?_, ?_⟩
  · exact List.length_replicate
  · intro b hb
    obtain ⟨hcount, rfl⟩ := List.mem_replicate.mp hb
    show bankLegal (Config.cartTable t) rom.length _ = true
    by_cases hm : (Config.cartTable t).family = .multicart
    · have ht : t = .mc4k := by
        revert hm
        cases t <;> simp [Config.cartTable, Config.fixedRow, Config.latchRow, Config.shadowRow]
      subst ht
      rw [if_pos hm]
      exact bankLegal_multicart h sel
    · rw [if_neg hm]
      have hnb : (Config.cartTable t).nb = 1 := by
        revert hcount
        cases t <;> simp [Config.cartTable, Config.fixedRow, Config.latchRow, Config.shadowRow]
      have := bankLegal_reset (tag := t) h
      simpa [Config.resetBank, hnb] using this
  · show Option.isSome (if (Config.cartTable t).family = .dataFetcher then _ else _) = _
    split
    · next hf => simp [newCart, Cart.variant, hf]
    · next hf => simp [newCart, Cart.variant, hf]
  · intro d hd
    have : (if (Config.cartTable t).family = .dataFetcher then some (DataFetcher.initial 0) else none)
      = some d := hd
    split at this <;> cases this
    show 0 < Config.genDen
    decide
  · simp [newCart]
  · intro img himg; cases himg

/-! ### Construction -/

theorem fresh_wired (type : MachType) (b : Bool) (calls : List Call) {cart : Option Cart}
    (hcart : ∀ k, cart = some k → k.Ok E) :
    (placeCart cart (freshConsole type b calls)).Wired E := by
  have hd := placed_device type b calls cart
  have he := placed_eq type b calls cart
  refine ⟨by rw [hd, if_pos rfl], ?_, fun g h0 h1 => ?_, fun g => ?_, fun p hp => ?_, ?_⟩
  · rw [hd, if_neg (by decide), if_pos rfl]
    cases cart
    · exact .inl rfl
    · exact .inr rfl
  · rw [hd, if_neg h0, if_neg h1]
    simp [Device.kind]
  · rw [hd]
    split
    · trivial
    · split
      · cases cart with
        | none => trivial
        | some k => exact hcart k rfl
      · trivial
  · rw [show (placeCart cart (freshConsole type b calls)).pageAt p = 0 by
      rw [he]; exact fresh_pageAt type b calls p, hd, if_pos rfl]
    exact Device.noConfusion
  · rw [show (placeCart cart (freshConsole type b calls)).snooper = 0 by rw [he]; rfl, hd, if_pos rfl]
    exact Device.noConfusion

/-- A bare address space is well formed (43_scheduler.md R280). -/
theorem bare_ok (calls : List Call) {cart : Option Cart} (hcart : ∀ k, cart = some k → k.Ok E)
    (b : Bool) : (placeCart cart (freshConsole .bare b calls)).Ok E := by
  have he := placed_eq .bare b calls cart
  refine ⟨fresh_wired .bare b calls hcart, ?_, by rw [he]; rfl, fun _ => by rw [he]; rfl, fun ch h => ?_⟩
  · have h : budgetLegal 0 false = true := by decide
    unfold Console.carryLegal
    rw [he]; exact h
  · rw [he] at h
    cases h

/-- A constructed console is well formed (43_scheduler.md R280). -/
theorem construct_ok {type : MachType} {cart : Option Cart} {bios : Option Bytes}
    (hcart : ∀ k, cart = some k → k.Ok E)
    (hbios : type ≠ .bare → ∀ img, bios = some img → img.length ∈ Config.biosSizes)
    {calls : List Call} {d : Console} (e : construct E type cart bios calls = .ok d) : d.Ok E := by
  by_cases ht : type = .bare
  · subst ht
    cases e
    exact bare_ok calls hcart _
  · exact ((machine_facts ht cart bios (hbios ht) calls).ok ht hcart (hbios ht)).bus
      (construct_step ht e)

/-- A real machine is its construction after the machine reset (43_scheduler.md R280). -/
theorem buildMachine_cases {type : MachType} {cart : Option Cart} {bios : Option Bytes}
    {calls : List Call} {d : Console} (e : buildMachine E type cart bios calls = .ok d) :
    ∃ c, construct E type cart bios calls = .ok c ∧
      (type = .bare → d = c) ∧ (type ≠ .bare → machineReset E c = .ok d) := by
  obtain ⟨c, h, e⟩ := Except.bind_ok_iff.mp e
  refine ⟨c, h, fun ht => ?_, fun ht => ?_⟩
  · subst ht; cases e; rfl
  · cases type
    · exact absurd rfl ht
    · exact e
    · exact e

/-- The machine a `MKMACH` builds from legal parts is there (43_scheduler.md R280, R283). -/
theorem buildMachine_total {type : MachType} {cart : Option Cart} {bios : Option Bytes}
    (hcart : ∀ k, cart = some k → k.Ok E)
    (hbios : type ≠ .bare → ∀ img, bios = some img → img.length ∈ Config.biosSizes)
    (calls : List Call) : ∃ c, buildMachine E type cart bios calls = .ok c := by
  obtain ⟨c, hc⟩ := construct_total hcart hbios calls
  unfold buildMachine
  rw [hc]
  by_cases ht : type = .bare
  · subst ht; exact ⟨c, rfl⟩
  have ok := construct_ok hcart hbios hc
  have hch : ∃ ch, c.chips = some ch := by
    obtain ⟨ch, e⟩ := (machine_facts (E := E) ht cart bios (hbios ht) calls).chips
    have := (construct_step ht hc).cpu.honest
    rw [e] at this
    exact Option.isSome_iff_exists.mp (by rw [← Option.isSome_map (f := Chips.dmaHonest), this]; rfl)
  obtain ⟨ch, hch⟩ := hch
  obtain ⟨d, e⟩ := machineReset_total ok.wired (ok.running ch hch).ready
  refine ⟨d, ?_⟩
  cases type
  · exact absurd rfl ht
  · exact e
  · exact e

/-- From its parts with the collaborators just created, a real machine goes by bus accesses and
collaborator calls only (43_scheduler.md R280). -/
theorem buildMachine_real {type : MachType} (ht : type ≠ .bare) {cart : Option Cart}
    {bios : Option Bytes} {calls : List Call} {d : Console}
    (e : buildMachine E type cart bios calls = .ok d) :
    CpuStep E (giveChips E (hull E type cart bios calls)) d := by
  obtain ⟨c, hc, _, h⟩ := buildMachine_cases e
  exact (construct_step ht hc).cpu.trans (machineReset_step (h ht))

theorem buildMachine_ok {type : MachType} {cart : Option Cart} {bios : Option Bytes}
    (hcart : ∀ k, cart = some k → k.Ok E)
    (hbios : type ≠ .bare → ∀ img, bios = some img → img.length ∈ Config.biosSizes)
    {calls : List Call} {d : Console} (e : buildMachine E type cart bios calls = .ok d) :
    d.Ok E := by
  obtain ⟨c, hc, h1, h2⟩ := buildMachine_cases e
  have ok := construct_ok hcart hbios hc
  by_cases ht : type = .bare
  · rw [h1 ht]; exact ok
  · exact ok.cpu (machineReset_step (h2 ht))

/-! ### Bench operations -/

theorem Console.Built.keep {c d : Console} (h : c.Built d) :
    d.lbv = c.lbv ∧ d.type = c.type ∧ d.hasBios = c.hasBios ∧ c.SameScheduler d := by
  rw [h.eq]
  exact ⟨rfl, rfl, rfl, rfl, rfl, rfl, rfl, rfl, rfl, rfl⟩

/-- A bench operation: it touches the tables, the devices and the record, not the scheduler. -/
theorem Console.Ok.bench_keep {c d : Console} (h : c.Ok E) (hc : c.chips = none)
    (hd : d.chips = none) (hw : d.Wired E) (ht : d.type = c.type) (hb : d.budget = c.budget)
    (hj : d.jammed = c.jammed) (hs : d.sched = c.sched) : d.Ok E := by
  refine ⟨hw, ?_, hs.trans h.idle, fun _ => ht.trans (h.bench hc), fun ch hch => ?_⟩
  · have := h.carry
    unfold Console.carryLegal at this ⊢
    rw [hb, hj]; exact this
  · rw [hd] at hch; cases hch

theorem Console.freeHandle_iff {c : Console} {h : Handle} :
    c.freeHandle h = true ↔ 2 ≤ h.toNat ∧ c.device h = .absent := by
  simp [Console.freeHandle]

/-- Filling a free handle with a block or an adapter keeps a console wired. -/
theorem Console.Wired.fill {c : Console} (h : c.Wired E) {g : Handle} (hf : c.freeHandle g = true)
    {d : Device} (hd : d.Ok E) (hk : d.kind ≠ .null ∧ d.kind ≠ .cart ∧ d.kind ≠ .none) :
    (c.setDevice g d).Wired E := by
  obtain ⟨hg, habs⟩ := Console.freeHandle_iff.mp hf
  have g0 : (0 : Handle) ≠ g := by rintro rfl; simp at hg
  have g1 : (1 : Handle) ≠ g := by rintro rfl; simp at hg
  have there : ∀ x, c.device x ≠ .absent → (c.setDevice g d).device x ≠ .absent := by
    intro x hx
    rw [Console.device_setDevice]
    split
    · intro e; rw [e] at hk; exact hk.2.2 rfl
    · exact hx
  refine ⟨?_, ?_, fun x h0 h1 => ?_, fun x => ?_, fun p hp => there _ (h.pages p hp),
    there _ h.snooper⟩
  · rw [Console.device_setDevice_ne _ _ g0]; exact h.nullDevice
  · rw [Console.device_setDevice_ne _ _ g1]; exact h.cartSlot
  · rw [Console.device_setDevice]
    split
    · exact ⟨hk.1, hk.2.1⟩
    · exact h.otherSlots x h0 h1
  · rw [Console.device_setDevice]
    split
    · exact hd
    · exact h.devices x

/-- Mapping a device that is there keeps a console wired. -/
theorem Console.Wired.map {c : Console} (h : c.Wired E) {g : Handle} (hg : c.device g ≠ .absent)
    (base : Addr) (size : Nat) : (mapPages base size g c).Wired E := by
  refine ⟨h.nullDevice, h.cartSlot, h.otherSlots, h.devices, fun p hp => ?_, h.snooper⟩
  rw [Console.pageAt_mapPages base size g c hp]
  show c.device (if _ then _ else _) ≠ .absent
  split
  · exact hg
  · exact h.pages p hp

theorem Console.Wired.mapCart {c : Console} (h : c.Wired E) {k : Cart} (hk : c.cart? = some k)
    (base : Addr) (size : Nat) : (mapCart base size c).Wired E := by
  have h1 : c.device 1 ≠ .absent := by
    rw [show c.device 1 = .cart k from Console.cart?_eq_some.mp hk]
    exact Device.noConfusion
  have e : ∀ g, (Machine.mapCart base size c).device g = c.device g :=
    Console.device_congr (mapCart_dev base size c)
  refine ⟨?_, ?_, fun g h0 h1 => ?_, fun g => ?_, fun p hp => ?_, ?_⟩
  · rw [e]; exact h.nullDevice
  · rw [e]; exact h.cartSlot
  · rw [e]; exact h.otherSlots g h0 h1
  · rw [e]; exact h.devices g
  · rw [e, mapCart_pageAt base size c hp]
    split
    · exact h1
    · exact h.pages p hp
  · rw [e, mapCart_snooper base size c hk]
    split
    · exact h1
    · exact h.snooper

/-- The console after `ATTACH` (41_cart_family.md R186). -/
theorem attach_facts (E : Env) {c : Console} {k : Cart} (hk : c.cart? = some k) :
    c.Built (attach E c) ∧ (attach E c).device 1 = .cart (attachCart E k c).1 ∧
      (∀ g, g ≠ 1 → (attach E c).device g = c.device g) ∧ (attach E c).page = c.page ∧
      (attach E c).snooper = c.snooper ∧ (c.chips = none → (attach E c).chips = none) ∧
      (attach E c).calls = (match k.variant.chip with
        | some w => { kind := .chip w.id .create, lbv := c.lbv, clock := c.clock } :: c.calls
        | none => c.calls) := by
  rw [attach_eq E hk]
  refine ⟨(attachCart_built E k c).trans (Built.setDevice _ _ _), Console.device_setDevice_same _ _ _,
    fun g hg => ?_, attachCart_page E k c, attachCart_snooper E k c, fun hn => ?_, ?_⟩
  · exact (Console.device_setDevice_ne _ _ hg).trans (Console.device_congr (attachCart_dev E k c) g)
  · show (attachCart E k c).2.chips = none
    rw [attachCart_snd]
    split
    · show Option.map _ c.chips = none
      rw [hn]; rfl
    · exact hn
  · show (attachCart E k c).2.calls = _
    rw [attachCart_snd]
    cases k.variant.chip <;> rfl

theorem Console.Wired.attach {c : Console} (h : c.Wired E) {k : Cart} (hk : c.cart? = some k) :
    (attach E c).Wired E := by
  obtain ⟨_, h1, h2, h3, h4, _, _⟩ := attach_facts E hk
  have hk1 : c.device 1 = .cart k := Console.cart?_eq_some.mp hk
  have there : ∀ x, c.device x ≠ .absent → (Machine.attach E c).device x ≠ .absent := by
    intro x hx
    by_cases hx1 : x = 1
    · subst hx1; rw [h1]; exact Device.noConfusion
    · rw [h2 x hx1]; exact hx
  refine ⟨?_, ?_, fun x h0 hx1 => ?_, fun x => ?_, fun p hp => ?_, ?_⟩
  · rw [h2 0 (by decide)]; exact h.nullDevice
  · rw [h1]; exact .inr rfl
  · rw [h2 x hx1]; exact h.otherSlots x h0 hx1
  · by_cases hx1 : x = 1
    · subst hx1
      rw [h1]
      exact attachCart_ok (by have := h.devices 1; rw [hk1] at this; exact this) c
    · rw [h2 x hx1]; exact h.devices x
  · rw [Console.pageAt_congr h3]; exact there _ (h.pages p hp)
  · rw [h4]; exact there _ h.snooper

/-- The console after `SELFMAP` (41_cart_family.md R189). -/
theorem selfMap_facts {c : Console} {k : Cart} (hk : c.cart? = some k) :
    (selfMap c).1 = k.variant.selfMaps ∧
      (k.variant.selfMaps = false → (selfMap c).2 = c) ∧
      (k.variant.selfMaps = true → (selfMap c).2 = mapWindows k.variant.selfWindows c) := by
  unfold selfMap
  rw [hk]
  cases h : k.variant.selfMaps <;> simp [h]

theorem Console.Wired.mapWindows {c : Console} (h : c.Wired E) {k : Cart} (hk : c.cart? = some k)
    (l : List (Addr × Nat)) : (mapWindows l c).Wired E := by
  induction l generalizing c with
  | nil => exact h
  | cons w l ih => exact ih (h.mapCart hk w.1 w.2) (by rw [mapCart_cart?]; exact hk)

theorem Console.Wired.selfMap {c : Console} (h : c.Wired E) {k : Cart} (hk : c.cart? = some k) :
    (selfMap c).2.Wired E := by
  obtain ⟨_, h1, h2⟩ := selfMap_facts hk
  cases hs : k.variant.selfMaps
  · rw [h1 hs]; exact h
  · rw [h2 hs]; exact h.mapWindows hk _

theorem selfMap_built {c : Console} {k : Cart} (hk : c.cart? = some k) :
    c.Built (selfMap c).2 ∧ (selfMap c).2.chips = c.chips := by
  obtain ⟨_, h1, h2⟩ := selfMap_facts hk
  cases hs : k.variant.selfMaps
  · rw [h1 hs]; exact ⟨.refl c, rfl⟩
  · rw [h2 hs]
    obtain ⟨_, b, _, _, h5, _⟩ := mapWindows_facts k.variant.selfWindows c hk
    exact ⟨b, h5⟩

end Sys2Proof.Machine
end

