-- ==== Sys2Proof/Laws/PerInstr.lean ====
section
/-! SUPPORT. Per instruction: the word the encoder gives meets the instruction's row of
spec/opcode_table.json (30_encoding.md R103, R104). -/

namespace Sys2Proof.Laws

theorem fixed_zero {w n : Nat} {x : BitVec w} (h : x.toNat < 2 ^ n) :
    x &&& (BitVec.allOnes w <<< n) = 0#w := by
  ext i hi
  simp only [BitVec.getElem_and, BitVec.getElem_shiftLeft, BitVec.getElem_allOnes,
    BitVec.getElem_zero]
  by_cases hn : i < n
  · simp [hn]
  · have : x[i] = false := by
      rw [← BitVec.getLsbD_eq_getElem, BitVec.getLsbD]
      exact Nat.testBit_lt_two_pow (Nat.lt_of_lt_of_le h (Nat.pow_le_pow_right (by decide) (by omega)))
    simp [this]

theorem packCommand_and (op op' : BitVec 8) (dev dev' : Handle) (addr addr' : Addr)
    (arg arg' : Word32) :
    packCommand op dev addr arg &&& packCommand op' dev' addr' arg' =
      packCommand (op &&& op') (dev &&& dev') (addr &&& addr') (arg &&& arg') := by
  unfold packCommand
  rw [BitVec.and_append, BitVec.and_append, BitVec.and_append]

theorem command_fits {op : BitVec 8} {dev : Handle} {addr : Addr} {arg : Word32} {row : OpcodeRow}
    (d : Handle) (a : Addr) (g : Word32) (hb : row.bits = 64)
    (hf : BitVec.ofNat 64 row.fixed = packCommand 0xFF d a g)
    (hp : BitVec.ofNat 64 row.pattern = packCommand op 0 0 0)
    (hd : dev &&& d = 0) (ha : addr &&& a = 0) (hg : arg &&& g = 0) :
    (Request.command (packCommand op dev addr arg)).fits row := by
  refine ⟨hb, ?_⟩
  rw [hf, hp, packCommand_and, hd, ha, hg]
  congr 1
  exact BitVec.and_allOnes

theorem byte_arg {n : Nat} (h : n < 2 ^ 8) : (BitVec.ofNat 32 n : Word32) &&& 0xFFFFFF00 = 0 := by
  refine fixed_zero (n := 8) ?_
  rw [BitVec.toNat_ofNat]
  exact Nat.lt_of_le_of_lt (Nat.mod_le _ _) h

theorem byte_arg' (b : Byte) : (b.setWidth 32 : Word32) &&& 0xFFFFFF00 = 0 := by
  refine fixed_zero (n := 8) ?_
  rw [BitVec.toNat_setWidth]
  exact Nat.lt_of_le_of_lt (Nat.mod_le _ _) b.isLt

namespace FitsRow

/-- The word of a well-formed instruction fits the instruction's row. -/
def Statement (i : Instr) : Prop := i.wellFormed = true → (encode i).fits i.row

theorem mkmach (type : Nat) (useCart hasBios : Bool) : Statement (.mkmach type useCart hasBios) := by
  intro h
  have ht : type < 2 ^ 8 := by simpa [Instr.wellFormed, codeFits] using h
  refine command_fits 0xFF 0xFFFF 0xFFFFFC00 rfl (by simp only [Instr.row]; decide)
    (by simp only [Instr.row]; decide) (by decide) (by decide) ?_
  refine fixed_zero (n := 10) ?_
  unfold machArg
  rw [BitVec.toNat_ofNat]
  refine Nat.lt_of_le_of_lt (Nat.mod_le _ _) ?_
  have := Bool.toNat_le useCart
  have := Bool.toNat_le hasBios
  omega

theorem mkcart (tag : Nat) : Statement (.mkcart tag) := by
  intro h
  have ht : tag < 2 ^ 8 := by simpa [Instr.wellFormed, codeFits] using h
  exact command_fits 0xFF 0xFFFF 0xFFFFFF00 rfl (by simp only [Instr.row]; decide)
    (by simp only [Instr.row]; decide) (by decide) (by decide)
    (byte_arg ht)

theorem mkram (dev : Handle) (size : Nat) : Statement (.mkram dev size) := fun _ =>
  command_fits 0 0xFFFF 0 rfl (by simp only [Instr.row]; decide)
    (by simp only [Instr.row]; decide) BitVec.and_zero (by decide) BitVec.and_zero

theorem mkrom (dev : Handle) : Statement (.mkrom dev) := fun _ =>
  command_fits 0 0xFFFF 0xFFFFFFFF rfl (by simp only [Instr.row]; decide)
    (by simp only [Instr.row]; decide) BitVec.and_zero (by decide) (by decide)

theorem mkadp (dev : Handle) (mask : Addr) (chip : Byte) : Statement (.mkadp dev mask chip) := fun _ =>
  command_fits 0 0 0xFFFFFF00 rfl (by simp only [Instr.row]; decide)
    (by simp only [Instr.row]; decide) BitVec.and_zero BitVec.and_zero
    (byte_arg' chip)

theorem attach (dev : Handle) : Statement (.attach dev) := fun _ =>
  command_fits 0 0xFFFF 0xFFFFFFFF rfl (by simp only [Instr.row]; decide)
    (by simp only [Instr.row]; decide) BitVec.and_zero (by decide) (by decide)

theorem map (dev : Handle) (base : Addr) (size : Nat) : Statement (.map dev base size) := fun _ =>
  command_fits 0 0 0 rfl (by simp only [Instr.row]; decide)
    (by simp only [Instr.row]; decide) BitVec.and_zero BitVec.and_zero BitVec.and_zero

theorem mapc (dev : Handle) (base : Addr) (size : Nat) : Statement (.mapc dev base size) := fun _ =>
  command_fits 0 0 0 rfl (by simp only [Instr.row]; decide)
    (by simp only [Instr.row]; decide) BitVec.and_zero BitVec.and_zero BitVec.and_zero

theorem selfmap (dev : Handle) : Statement (.selfmap dev) := fun _ =>
  command_fits 0 0xFFFF 0xFFFFFFFF rfl (by simp only [Instr.row]; decide)
    (by simp only [Instr.row]; decide) BitVec.and_zero (by decide) (by decide)

theorem dreset (dev : Handle) : Statement (.dreset dev) := fun _ =>
  command_fits 0 0xFFFF 0xFFFFFFFF rfl (by simp only [Instr.row]; decide)
    (by simp only [Instr.row]; decide) BitVec.and_zero (by decide) (by decide)

theorem mreset : Statement .mreset := fun _ => ⟨rfl, by decide⟩

theorem rd (addr : Addr) : Statement (.rd addr) := fun _ =>
  command_fits 0xFF 0 0xFFFFFFFF rfl (by simp only [Instr.row]; decide)
    (by simp only [Instr.row]; decide) (by decide) BitVec.and_zero (by decide)

theorem wr (addr : Addr) (value : Byte) : Statement (.wr addr value) := fun _ =>
  command_fits 0xFF 0 0xFFFFFF00 rfl (by simp only [Instr.row]; decide)
    (by simp only [Instr.row]; decide) (by decide) BitVec.and_zero
    (byte_arg' value)

theorem frame : Statement .frame := fun _ => ⟨rfl, by decide⟩

theorem poll : Statement .poll := fun _ => ⟨rfl, by decide⟩

theorem save : Statement .save := fun _ => ⟨rfl, by decide⟩

theorem restore : Statement .restore := fun _ => ⟨rfl, by decide⟩

theorem packBus_and (b b' : Bool) (addr addr' : Addr) (data data' : Byte) :
    packBus b addr data &&& packBus b' addr' data' =
      packBus (b && b') (addr &&& addr') (data &&& data') := by
  unfold packBus
  rw [BitVec.and_append, BitVec.and_append]
  cases b <;> cases b' <;> rfl

theorem busRd (addr : Addr) : Statement (.busRd addr) := by
  refine fun _ => ⟨rfl, ?_⟩
  have h1 : BitVec.ofNat 25 0x10000FF = packBus true 0 0xFF := by decide
  have h2 : BitVec.ofNat 25 0x0000000 = packBus false 0 0 := by decide
  show packBus false addr 0 &&& BitVec.ofNat 25 0x10000FF = BitVec.ofNat 25 0x0000000
  rw [h1, h2, packBus_and, show addr &&& 0 = 0 from BitVec.and_zero]
  rfl

theorem busWr (addr : Addr) (data : Byte) : Statement (.busWr addr data) := by
  refine fun _ => ⟨rfl, ?_⟩
  have h1 : BitVec.ofNat 25 0x1000000 = packBus true 0 0 := by decide
  show packBus true addr data &&& BitVec.ofNat 25 0x1000000 = BitVec.ofNat 25 0x1000000
  rw [h1, packBus_and, show addr &&& 0 = 0 from BitVec.and_zero,
    show data &&& 0 = 0 from BitVec.and_zero]
  rfl

end FitsRow

end Sys2Proof.Laws
end

