-- ==== Sys2Proof/Laws/Encoding.lean ====
section
/-! SUPPORT. The four fields of a format H word (30_encoding.md R104): a word is its fields, and its
unused bits are 0 field by field (R105). -/

namespace Sys2Proof.Laws

/-- A word is its four fields. -/
theorem packCommand_fields (w : CommandWord) :
    packCommand (opField w) (devField w) (addrField w) (argField w) = w := by
  apply BitVec.eq_of_getLsbD_eq
  intro i hi
  simp only [packCommand, opField, devField, addrField, argField, BitVec.getLsbD_append,
    BitVec.getLsbD_extractLsb']
  split
  · simp [*]
  · split
    · rename_i h1 h2
      have : 32 + (i - 32) = i := by omega
      simp [this, h2]
    · split
      · rename_i h1 h2 h3
        have : 48 + (i - 32 - 16) = i := by omega
        simp [this, h3]
      · rename_i h1 h2 h3
        have : 56 + (i - 32 - 16 - 8) = i := by omega
        simp [this]; omega

/-- Two concatenations are equal exactly when their parts are. -/
theorem append_inj {m n : Nat} {a a' : BitVec m} {b b' : BitVec n} :
    a ++ b = a' ++ b' ↔ a = a' ∧ b = b' := by
  constructor
  · intro h
    have h' := congrArg BitVec.toNat h
    have hn : (a ++ b).toNat = a.toNat * 2 ^ n + b.toNat := by
      rw [BitVec.toNat_append, ← Nat.shiftLeft_add_eq_or_of_lt b.isLt, Nat.shiftLeft_eq]
    have hn' : (a' ++ b').toNat = a'.toNat * 2 ^ n + b'.toNat := by
      rw [BitVec.toNat_append, ← Nat.shiftLeft_add_eq_or_of_lt b'.isLt, Nat.shiftLeft_eq]
    rw [hn, hn'] at h'
    have hb := congrArg (· % 2 ^ n) h'
    simp only [Nat.mul_add_mod_of_lt, b.isLt, b'.isLt] at hb
    refine ⟨BitVec.eq_of_toNat_eq ?_, BitVec.eq_of_toNat_eq hb⟩
    have : a.toNat * 2 ^ n = a'.toNat * 2 ^ n := by omega
    exact Nat.eq_of_mul_eq_mul_right (Nat.two_pow_pos n) this
  · rintro ⟨rfl, rfl⟩; rfl

/-- A word is 0 exactly when its fields are. -/
theorem packCommand_eq_zero {a : BitVec 8} {b : Handle} {c : Addr} {d : Word32} :
    packCommand a b c d = 0 ↔ a = 0 ∧ b = 0 ∧ c = 0 ∧ d = 0 := by
  have : (0 : CommandWord) = packCommand 0 0 0 0 := rfl
  rw [this]; unfold packCommand
  rw [append_inj, append_inj, append_inj]
  tauto

/-- The upper bits of `arg` are 0 exactly when its value fits the lower ones. -/
theorem argFits_iff {d : Word32} {n : Nat} :
    d &&& (BitVec.allOnes 32 <<< n) = 0 ↔ d.toNat < 2 ^ n := by
  refine ⟨fun h => ?_, fixed_zero⟩
  rcases Nat.lt_or_ge d.toNat (2 ^ n) with h' | h'
  · exact h'
  exfalso
  obtain ⟨i, hi, ht⟩ := Nat.exists_ge_and_testBit_of_ge_two_pow h'
  have hlt : i < 32 := by
    rcases Nat.lt_or_ge i 32 with h | h
    · exact h
    · have := Nat.testBit_lt_two_pow (Nat.lt_of_lt_of_le d.isLt (Nat.pow_le_pow_right (by decide) h))
      simp [this] at ht
  have hb := congrArg (fun x : Word32 => x.getLsbD i) h
  have hd : d.getLsbD i = true := ht
  have hs : (BitVec.allOnes 32 <<< n).getLsbD i = true := by
    rw [BitVec.getLsbD_shiftLeft, BitVec.getLsbD_allOnes]
    simp only [hlt, decide_true, Bool.true_and, Bool.and_eq_true, Bool.not_eq_true',
      decide_eq_false_iff_not, decide_eq_true_eq]
    omega
  simp only [BitVec.getLsbD_and, hd, hs] at hb
  simp at hb

/-- The fields of a packed word. -/
theorem fields_packCommand (op : BitVec 8) (dev : Handle) (addr : Addr) (arg : Word32) :
    opField (packCommand op dev addr arg) = op ∧
      operandsOf (packCommand op dev addr arg) = { dev := dev, addr := addr, arg := arg } := by
  generalize hw : packCommand op dev addr arg = w
  have h := (packCommand_fields w).trans hw.symm
  unfold packCommand at h
  rw [append_inj, append_inj, append_inj] at h
  obtain ⟨⟨⟨h1, h2⟩, h3⟩, h4⟩ := h
  exact ⟨h1, by simp [operandsOf, h2, h3, h4]⟩

/-- The unused bits of a word are 0 exactly when those of each field are (R105). -/
theorem unused_iff (w : CommandWord) (d : Handle) (a : Addr) (g : Word32) (m : CommandWord)
    (hm : ~~~m = packCommand 0 d a g) :
    w &&& ~~~m = 0 ↔ devField w &&& d = 0 ∧ addrField w &&& a = 0 ∧ argField w &&& g = 0 := by
  conv_lhs => rw [← packCommand_fields w, hm, packCommand_and, packCommand_eq_zero]
  simp

end Sys2Proof.Laws
end

