-- ==== Sys2Proof/Laws/Scheduler.lean ====
section
/-! SUPPORT. What `Execute`, the DMA step, a scanline and a frame do to the scheduler's registers, and
that they keep a machine well formed (43_scheduler.md R285 to R308). -/

namespace Sys2Proof.Machine

/-! ### Steps of a running machine -/

/-- What everything inside a frame leaves alone; the scheduler's registers are said apart. -/
structure MachineStep (E : Env) (c d : Console) : Prop where
  topology : c.SameTopology d
  record   : ∃ l, d.calls = l ++ c.calls
  honest   : d.chips.map Chips.dmaHonest = c.chips.map Chips.dmaHonest
  wired    : c.Wired E → d.Wired E
  images   : c.ImagesOk E → d.ImagesOk E

theorem CpuStep.machine {E : Env} {c d : Console} (h : CpuStep E c d) : MachineStep E c d :=
  ⟨h.topology, h.record, h.honest, h.wired, h.images⟩

theorem BusStep.machine {E : Env} {c d : Console} (h : BusStep E c d) : MachineStep E c d :=
  h.cpu.machine

theorem MachineStep.refl (E : Env) (c : Console) : MachineStep E c c := (BusStep.refl E c).machine

theorem MachineStep.trans {E : Env} {c d e : Console} (h : MachineStep E c d)
    (g : MachineStep E d e) : MachineStep E c e := by
  obtain ⟨l, hl⟩ := h.record
  obtain ⟨m, hm⟩ := g.record
  exact ⟨h.topology.trans g.topology, ⟨m ++ l, by simp [hm, hl]⟩, g.honest.trans h.honest,
    g.wired ∘ h.wired, g.images ∘ h.images⟩

/-- Writing the scheduler's registers is a step. -/
theorem MachineStep.registers {E : Env} {c d : Console} (hdev : d.dev = c.dev)
    (hpage : d.page = c.page) (hsnoop : d.snooper = c.snooper) (htype : d.type = c.type)
    (hbios : d.hasBios = c.hasBios) (hchips : d.chips = c.chips) (hcalls : d.calls = c.calls) :
    MachineStep E c d :=
  ⟨⟨hpage, hsnoop, htype, hbios, fun h => by rw [Console.device_congr hdev h]⟩, ⟨[], hcalls⟩,
    by rw [hchips], fun h => h.congr hdev hpage hsnoop,
    fun h ch hch => h ch (by rw [← hchips]; exact hch)⟩

/-- The cart of a running machine is attached (41_cart_family.md R217). -/
def Console.Attached (c : Console) : Prop := ∀ k, c.cart? = some k → k.attached = true

theorem Console.Attached.ready {c : Console} (h : c.Attached) : c.CartReady := fun k hk => .inl (h k hk)

theorem MachineStep.attached {E : Env} {c d : Console} (h : MachineStep E c d) (ha : c.Attached) :
    d.Attached := by
  intro k hk
  obtain ⟨l, hl, he⟩ := h.topology.cart hk
  rw [(Cart.constants_eq_iff.mp he).2.2]
  exact ha l hl

/-! ### Numbers -/

theorem toInt_ofInt32 {x : Int} (h1 : -2147483648 ≤ x) (h2 : x < 2147483648) :
    (BitVec.ofInt 32 x).toInt = x := by
  rw [BitVec.toInt_ofInt]
  exact Int.bmod_eq_of_le (by omega) (by omega)

/-- Clocks added to the budget and cycles added to the clock keep the nominal clock, when they are the
same time (43_scheduler.md R293). -/
theorem nominal_shift {c d : Console} {k : Nat} (hb : d.budget.toInt = c.budget.toInt - 4 * k)
    (hc : d.clock = c.clock + BitVec.ofNat 64 k) : d.nominal = c.nominal := by
  unfold Console.nominal
  have e : d.budget.toInt / (Config.m : Int) = c.budget.toInt / (Config.m : Int) - k := by
    rw [hb]; simp only [Config.m]; omega
  rw [e, hc]
  apply BitVec.eq_of_toNat_eq
  simp only [BitVec.toNat_add, BitVec.toNat_ofNat, BitVec.toNat_ofInt]
  generalize c.budget.toInt / (Config.m : Int) = b
  have hx := c.clock.isLt
  omega

theorem addBudget_toInt {c : Console} {d : Int} (h1 : -2147483648 ≤ c.budget.toInt + d)
    (h2 : c.budget.toInt + d < 2147483648) : (c.addBudget d).budget.toInt = c.budget.toInt + d :=
  toInt_ofInt32 h1 h2

theorem budget_lt (c : Console) : c.budget.toInt < 2147483648 := BitVec.toInt_lt

theorem insnCycles_bounds (n : Nat) : 1 ≤ insnCycles n ∧ insnCycles n ≤ 7 := by
  unfold insnCycles
  simp only [Config.cpuMaxInsnCycles]
  omega

/-- A grant, or a charge, is an addition of 32-bit numbers. -/
theorem addBudget_eq (c : Console) (d : Int) :
    c.addBudget d = { c with budget := c.budget + BitVec.ofInt 32 d } := by
  unfold Console.addBudget
  rw [BitVec.ofInt_add, BitVec.ofInt_toInt]

/-- The steal: clocks are taken from the budget and given to the clock (43_scheduler.md R306). -/
theorem steal_eq (c : Console) (d : Nat) : c.steal d =
    { c with clock := c.clock + BitVec.ofNat 64 (d / 4), budget := c.budget - BitVec.ofNat 32 d } := by
  unfold Console.steal
  rw [addBudget_eq, BitVec.ofInt_neg, BitVec.ofInt_natCast, ← BitVec.sub_eq_add_neg]
  rfl

/-! ### `Execute` -/

/-- What one instruction, or one `Execute`, does to the scheduler's registers: `k` cycles pass. -/
structure Executed (E : Env) (c d : Console) (k : Nat) : Prop where
  machine : MachineStep E c d
  halt    : d.halt = c.halt
  frame   : d.frame = c.frame
  sched   : d.sched = c.sched
  budget  : d.budget.toInt = c.budget.toInt - 4 * k
  clock   : d.clock = c.clock + BitVec.ofNat 64 k
  jam     : c.jammed = true → d.jammed = true

theorem Executed.refl (E : Env) (c : Console) : Executed E c c 0 :=
  ⟨.refl E c, rfl, rfl, rfl, by omega, by simp, id⟩

theorem Executed.trans {E : Env} {c d e : Console} {k l : Nat} (h : Executed E c d k)
    (g : Executed E d e l) : Executed E c e (k + l) := by
  refine ⟨h.machine.trans g.machine, g.halt.trans h.halt, g.frame.trans h.frame,
    g.sched.trans h.sched, ?_, ?_, g.jam ∘ h.jam⟩
  · rw [g.budget, h.budget]; omega
  · rw [g.clock, h.clock, BitVec.add_assoc, BitVec.ofNat_add]

theorem Executed.nominal {E : Env} {c d : Console} {k : Nat} (h : Executed E c d k) :
    d.nominal = c.nominal := nominal_shift h.budget h.clock

theorem cpuInstruction_step {E : Env} {c d : Console} (e : cpuInstruction E c = .ok d)
    (h1 : 0 < c.budget.toInt) : ∃ k, 1 ≤ k ∧ k ≤ 7 ∧ Executed E c d k := by
  have h2 := budget_lt c
  unfold cpuInstruction at e
  simp only at e
  obtain ⟨⟨r, c1⟩, h, e⟩ := Except.bind_ok_iff.mp e
  cases e
  have s := (BusStep.note E c (.cpu (.instruction c.budget))).trans (runProgram_step h)
  have hk := insnCycles_bounds r.cycles
  have hb : c1.budget = c.budget := s.touched.scheduler.budget
  have hbud : (c1.addBudget (-(insnCycles r.cycles * Config.m : Nat))).budget.toInt =
      c.budget.toInt - 4 * insnCycles r.cycles := by
    rw [addBudget_toInt] <;> rw [hb] <;> simp only [Config.m] <;> push_cast <;> omega
  refine ⟨insnCycles r.cycles, hk.1, hk.2, ?_, s.touched.scheduler.halt, s.touched.scheduler.frame,
    s.touched.scheduler.sched, hbud, ?_, fun hj => ?_⟩
  · refine s.machine.trans (MachineStep.trans (MachineStep.registers
      (d := c1.addBudget (-(insnCycles r.cycles * Config.m : Nat))) rfl rfl rfl rfl rfl rfl rfl)
      ((CpuStep.setCpuRegs E r.regs _).machine.trans
        (MachineStep.registers rfl rfl rfl rfl rfl rfl rfl)))
  · show c1.clock + _ = _
    rw [s.touched.scheduler.clock]
  · show (c1.jammed || r.jam) = true
    rw [s.touched.scheduler.jammed, hj, Bool.true_or]

/-- The loop ends with the budget used up, or with a flag (43_scheduler.md R286). -/
theorem executeLoop_step {E : Env} : ∀ (n : Nat) {c d : Console}, executeLoop E n c = .ok d →
    c.budget.toInt ≤ n →
    ∃ k, Executed E c d k ∧ (0 < c.budget.toInt → -28 < d.budget.toInt) ∧
      (c.budget.toInt ≤ 0 ∨ c.jammed = true → k = 0) ∧
      (d.jammed = false → d.preempt = false → d.budget.toInt ≤ 0) ∧
      (c.budget.toInt ≤ 0 → d.jammed = c.jammed ∧ d.preempt = c.preempt) ∧
      (0 < c.budget.toInt → c.jammed = false → c.preempt = false → 1 ≤ k)
  | 0, c, d, e, hn => by
    cases e
    exact ⟨0, .refl E c, fun h => by omega, fun _ => rfl, fun _ _ => by omega, fun _ => ⟨rfl, rfl⟩,
      fun h => by omega⟩
  | n + 1, c, d, e, hn => by
    unfold executeLoop at e
    split at e
    · next hgo =>
      obtain ⟨c1, h1, e⟩ := Except.bind_ok_iff.mp e
      obtain ⟨k, k1, k7, s⟩ := cpuInstruction_step h1 hgo.1
      have hb := s.budget
      obtain ⟨l, s', g1, g2, g3, _, _⟩ := executeLoop_step n e (by omega)
      refine ⟨k + l, s.trans s', fun _ => ?_, ?_, g3, fun h => by omega, fun _ _ _ => by omega⟩
      · by_cases h0 : 0 < c1.budget.toInt
        · exact g1 h0
        · have := g2 (.inl (by omega))
          subst this
          have := s'.budget
          omega
      · rintro (h | h)
        · omega
        · rw [hgo.2.1] at h; cases h
    · next hstop =>
      cases e
      refine ⟨0, .refl E c, fun h => by omega, fun _ => rfl, fun hj hp => ?_, fun _ => ⟨rfl, rfl⟩,
        fun h hj hp => absurd ⟨h, hj, hp⟩ hstop⟩
      by_contra h
      exact hstop ⟨by omega, hj, hp⟩

/-- `Execute` (43_scheduler.md R285, R286). -/
theorem execute_step {E : Env} {c d : Console} (e : execute E c = .ok d) :
    ∃ k, Executed E c d k ∧ (0 < c.budget.toInt → -28 < d.budget.toInt) ∧
      (c.budget.toInt ≤ 0 ∨ c.jammed = true → k = 0) ∧
      (d.jammed = false → d.preempt = false → d.budget.toInt ≤ 0) ∧
      (c.budget.toInt ≤ 0 → d.jammed = c.jammed ∧ d.preempt = false) ∧
      (0 < c.budget.toInt → c.jammed = false → 1 ≤ k) := by
  unfold execute at e
  simp only at e
  obtain ⟨k, s, g1, g2, g3, g4, g5⟩ := executeLoop_step _ e
    (by show c.budget.toInt ≤ ((c.budget.toInt.toNat : Nat) : Int); omega)
  refine ⟨k, ⟨?_, s.halt, s.frame, s.sched, s.budget, s.clock, s.jam⟩, g1, g2, g3, g4,
    fun h hj => g5 h hj rfl⟩
  exact ((BusStep.note E c (.cpu .execute)).machine.trans
    (MachineStep.registers (d := { c.note (.cpu .execute) with preempt := false })
      rfl rfl rfl rfl rfl rfl rfl)).trans s.machine

theorem cpuInstruction_total {E : Env} {c : Console} (hw : c.Wired E) (ha : c.Attached) :
    ∃ d, cpuInstruction E c = .ok d := by
  unfold cpuInstruction
  simp only
  have s := BusStep.note E c (.cpu (.instruction c.budget))
  obtain ⟨⟨r, c1⟩, h⟩ := runProgram_total (who := .cpu)
    (E.collab.cpuInsn (c.note (.cpu (.instruction c.budget))).calls) (s.wired hw)
    (s.ready hw ha.ready)
  rw [h]
  exact ⟨_, rfl⟩

theorem executeLoop_total {E : Env} : ∀ (n : Nat) {c : Console}, c.Wired E → c.Attached →
    ∃ d, executeLoop E n c = .ok d
  | 0, c, _, _ => ⟨c, rfl⟩
  | n + 1, c, hw, ha => by
    unfold executeLoop
    split
    · next hgo =>
      obtain ⟨c1, h1⟩ := cpuInstruction_total hw ha
      obtain ⟨k, _, _, s⟩ := cpuInstruction_step h1 hgo.1
      rw [h1]
      exact executeLoop_total n (s.machine.wired hw) (s.machine.attached ha)
    · exact ⟨c, rfl⟩

theorem execute_total {E : Env} {c : Console} (hw : c.Wired E) (ha : c.Attached) :
    ∃ d, execute E c = .ok d := by
  unfold execute
  have s : MachineStep E c { c.note (.cpu .execute) with preempt := false } :=
    (BusStep.note E c (.cpu .execute)).machine.trans
      (MachineStep.registers rfl rfl rfl rfl rfl rfl rfl)
  exact executeLoop_total _ (s.wired hw) (s.attached ha)

/-! ### The DMA step -/

/-- A step that leaves the scheduler's registers alone. -/
structure QuietStep (E : Env) (c d : Console) : Prop where
  machine   : MachineStep E c d
  scheduler : c.SameScheduler d

theorem BusStep.quiet {E : Env} {c d : Console} (h : BusStep E c d) : QuietStep E c d :=
  ⟨h.machine, h.touched.scheduler⟩

theorem QuietStep.trans {E : Env} {c d e : Console} (h : QuietStep E c d) (g : QuietStep E d e) :
    QuietStep E c e := ⟨h.machine.trans g.machine, h.scheduler.trans g.scheduler⟩

theorem dmaProcessing_step {E : Env} {c d : Console} {n : Nat}
    (e : dmaProcessing E c = .ok (n, d)) : QuietStep E c d ∧ n < 2 ^ 31 := by
  unfold dmaProcessing at e
  simp only at e
  obtain ⟨⟨x, c1⟩, h1, e⟩ := Except.bind_ok_iff.mp e
  split at e
  · cases e
  · next h =>
    cases e
    refine ⟨(((BusStep.call E _ c).trans (runProgram_step h1)).trans (.refreshImages E c1)).quiet, ?_⟩
    rw [BitVec.toInt_eq_toNat_cond] at h
    have := (returnedClocks c1.dmaHonest x).isLt
    split at h <;> omega

theorem dmaHonest_of_step {E : Env} {c d : Console} (h : MachineStep E c d) :
    d.dmaHonest = c.dmaHonest := by
  have := h.honest
  unfold Console.dmaHonest
  cases hc : c.chips <;> cases hd : d.chips <;> rw [hc, hd] at this <;> simp_all

theorem returnedClocks_nonneg (x : Word32) : ¬(returnedClocks true x).toInt < 0 := by
  unfold returnedClocks
  have : (x &&& 0x7FFFFFFF).toNat ≤ 0x7FFFFFFF := by
    rw [BitVec.toNat_and]; exact Nat.and_le_right
  rw [if_pos rfl, BitVec.toInt_eq_toNat_cond]
  split <;> omega

theorem dmaProcessing_total {E : Env} {c : Console} (hw : c.Wired E) (ha : c.Attached)
    (hh : c.dmaHonest = true) : ∃ r, dmaProcessing E c = .ok r := by
  unfold dmaProcessing
  simp only
  have s := BusStep.call E (.dma .doProcessing) c
  obtain ⟨⟨x, c1⟩, h1⟩ := runProgram_total (who := .dma)
    (E.collab.dmaProcess (c.call E (.dma .doProcessing)).calls) (s.wired hw) (s.ready hw ha.ready)
  rw [h1]
  have hd : c1.dmaHonest = true :=
    (dmaHonest_of_step (s.trans (runProgram_step h1)).machine).trans hh
  simp only [Except.ok_bind]
  rw [hd, if_neg (returnedClocks_nonneg x)]
  exact ⟨_, rfl⟩

/-! ### Halving and rounding (43_scheduler.md R303, R304) -/

theorem halveClocks_le (avail : Nat) : ∀ n d, d < 2 ^ n → halveClocks avail n d ≤ avail
  | 0, d, h => by simp only [halveClocks]; omega
  | n + 1, d, h => by
    unfold halveClocks
    split
    · exact halveClocks_le avail n (d / 2) (by rw [Nat.pow_succ] at h; omega)
    · omega

theorem limitClocks_le {avail : Int} {d x : Nat} (hd : d < 2 ^ 31)
    (e : limitClocks avail d = .ok x) : (x : Int) ≤ avail := by
  unfold limitClocks at e
  split at e
  · cases e
  · cases e
    have := halveClocks_le avail.toNat 31 d hd
    omega

theorem roundClocks_eq (d : Nat) : roundClocks d = (d + 3) / 4 * 4 := rfl

/-- The lines of a frame (43_scheduler.md R308). -/
theorem scanlines_eq {type : MachType} (h : type ≠ .bare) :
    Config.scanlines type = if type = .ntsc then 262 else 312 := by
  cases type
  · exact absurd rfl h
  · rfl
  · rfl

/-- Halving stops at the first count that fits. -/
theorem halveClocks_eq (avail : Nat) : ∀ k d, d < 2 ^ k →
    ∃ n, halveClocks avail k d = d / 2 ^ n ∧ d / 2 ^ n ≤ avail ∧ ∀ m < n, avail < d / 2 ^ m
  | 0, d, h => ⟨0, by simp [halveClocks], by simp; omega, fun m hm => by omega⟩
  | k + 1, d, h => by
    unfold halveClocks
    split
    · next hd =>
      obtain ⟨n, h1, h2, h3⟩ := halveClocks_eq avail k (d / 2) (by rw [Nat.pow_succ] at h; omega)
      have e : ∀ m, d / 2 / 2 ^ m = d / 2 ^ (m + 1) := by
        intro m; rw [Nat.div_div_eq_div_mul, Nat.pow_succ, Nat.mul_comm]
      refine ⟨n + 1, by rw [h1, e], by rw [← e]; exact h2, fun m hm => ?_⟩
      cases m with
      | zero => simpa using hd
      | succ m => rw [← e]; exact h3 m (by omega)
    · next hd => exact ⟨0, by simp, by simp; omega, fun m hm => by omega⟩

theorem limitClocks_eq {avail : Int} {d : Nat} (ha : 0 ≤ avail) (hd : d < 2 ^ 31) :
    ∃ n, limitClocks avail d = .ok (d / 2 ^ n) ∧ ((d / 2 ^ n : Nat) : Int) ≤ avail ∧
      ∀ m, m < n → avail < ((d / 2 ^ m : Nat) : Int) := by
  obtain ⟨n, h1, h2, h3⟩ := halveClocks_eq avail.toNat 31 d hd
  refine ⟨n, ?_, by omega, fun m hm => by have := h3 m hm; omega⟩
  unfold limitClocks
  rw [if_neg (by omega), h1]

theorem correctClocks_le (lines i d : Nat) : correctClocks lines i d ≤ d := by
  unfold correctClocks
  split
  · simp only [Config.fixDelta]; omega
  · exact Nat.le_refl d

theorem roundClocks_facts (d : Nat) :
    roundClocks d % 4 = 0 ∧ d ≤ roundClocks d ∧ roundClocks d < d + 4 := by
  unfold roundClocks
  simp only [Config.dmaAlign]
  omega

/-! ### A scanline -/

/-- The carry of a machine that is not jammed (43_scheduler.md R294). -/
def Console.Carry (c : Console) : Prop :=
  c.budget.toInt % 4 = 0 ∧ -28 < c.budget.toInt ∧ c.budget.toInt ≤ 0

theorem budgetLegal_iff {b : Word32} {j : Bool} : budgetLegal b j = true ↔
    b.toInt % 4 = 0 ∧ -28 < b.toInt ∧ b.toInt ≤ if j then 428 else 0 := by
  unfold budgetLegal
  rw [show ((Config.cpuMaxInsnCycles * Config.m : Nat) : Int) = 28 from rfl,
    show (Config.m : Int) = 4 from rfl, show (restClocks : Int) = 428 from rfl]
  simp only [Bool.and_eq_true, decide_eq_true_iff, and_assoc]

theorem Console.Carry.legal {c : Console} (h : c.Carry) : c.carryLegal := by
  refine budgetLegal_iff.mpr ⟨h.1, h.2.1, ?_⟩
  have := h.2.2
  split <;> omega

theorem Console.carryLegal.carry {c : Console} (h : c.carryLegal) (hj : c.jammed = false) :
    c.Carry := by
  have := budgetLegal_iff.mp h
  rw [hj] at this
  exact ⟨this.1, this.2.1, by simpa using this.2.2⟩

theorem carryLegal_jammed {c : Console} (hj : c.jammed = true) (h1 : c.budget.toInt % 4 = 0)
    (h2 : -28 < c.budget.toInt) (h3 : c.budget.toInt ≤ 428) : c.carryLegal :=
  budgetLegal_iff.mpr ⟨h1, h2, by rw [hj]; exact h3⟩

/-- What a scanline leaves (43_scheduler.md R293, R294, R302). -/
structure LineFacts (E : Env) (start : Word64) (c : Console) (t : LineEnd) (d : Console) : Prop where
  machine : MachineStep E c d
  frame   : d.frame = c.frame
  jam     : t = .jammed → d.jammed = true ∧ d.halt = true ∧ d.budget.toInt % 4 = 0 ∧
    -28 < d.budget.toInt ∧ d.budget.toInt ≤ 424
  goes    : t ≠ .jammed → d.jammed = false ∧ d.halt = c.halt ∧ d.Carry ∧
    d.nominal = start + BitVec.ofNat 64 Config.scanlineCycles
  early   : t = .preempted → d.preempt = true ∧
    d.clock = start + BitVec.ofNat 64 Config.scanlineCycles ∧ d.budget = 0
  full    : E.preemptEndsCall = true → t = .goOn → d.preempt = false

theorem nominal_of_budget_zero {c : Console} (h : c.budget = 0) : c.nominal = c.clock := by
  unfold Console.nominal
  rw [h]
  simp [Config.m]

theorem fastForward_facts (start : Word64) (c : Console) :
    (c.fastForward start).Carry ∧
      (c.fastForward start).nominal = start + BitVec.ofNat 64 Config.scanlineCycles := by
  have h : (c.fastForward start).budget = 0 := rfl
  refine ⟨?_, nominal_of_budget_zero h⟩
  unfold Console.Carry
  rw [h]
  decide

/-- Granting clocks moves the nominal clock on (43_scheduler.md R293). -/
theorem nominal_grant {c d : Console} {n : Nat} (hb : d.budget.toInt = c.budget.toInt + 4 * n)
    (hc : d.clock = c.clock) : d.nominal = c.nominal + BitVec.ofNat 64 n := by
  unfold Console.nominal
  have e : d.budget.toInt / (Config.m : Int) = c.budget.toInt / (Config.m : Int) + n := by
    rw [hb]; simp only [Config.m]; omega
  rw [e, hc]
  apply BitVec.eq_of_toNat_eq
  simp only [BitVec.toNat_add, BitVec.toNat_ofNat, BitVec.toNat_ofInt]
  generalize c.budget.toInt / (Config.m : Int) = b
  have hx := c.clock.isLt
  omega

theorem firstSlice_step {E : Env} {i : Nat} {start : Word64} {c d : Console}
    (e : firstSlice E i start c = .ok d) (hc : c.Carry) :
    MachineStep E c d ∧ d.halt = c.halt ∧ d.frame = c.frame ∧
      d.sched = { phase := .slice1, sl := some i, start := some start, rem := some 428 } ∧
      d.budget.toInt % 4 = 0 ∧ -28 < d.budget.toInt ∧ d.budget.toInt ≤ 28 ∧
      d.nominal = c.nominal + 7 ∧
      (d.jammed = false → d.preempt = false → d.budget.toInt ≤ 0) := by
  unfold firstSlice at e
  simp only at e
  obtain ⟨c1, c2, c3⟩ := hc
  generalize hg : ({ c with
    sched := { phase := .slice1, sl := some i, start := some start,
               rem := some (BitVec.ofNat 32 restClocks) } } : Console).addBudget
      (Config.firstSliceCycles * Config.m : Nat) = g at e
  have hb : g.budget.toInt = c.budget.toInt + 28 := by
    rw [← hg, addBudget_toInt] <;> simp only [Config.firstSliceCycles, Config.m] <;> push_cast <;>
      omega
  have hm : MachineStep E c g := by
    subst hg; exact MachineStep.registers rfl rfl rfl rfl rfl rfl rfl
  have hh : g.halt = c.halt := by subst hg; rfl
  have hf : g.frame = c.frame := by subst hg; rfl
  have hs : g.sched = { phase := .slice1, sl := some i, start := some start, rem := some 428 } := by
    subst hg; rfl
  have hk : g.clock = c.clock := by subst hg; rfl
  obtain ⟨k, s, g1, _, g3, _, _⟩ := execute_step e
  have := s.budget
  refine ⟨hm.trans s.machine, s.halt.trans hh, s.frame.trans hf, s.sched.trans hs, by omega,
    g1 (by omega), by omega, ?_, g3⟩
  rw [s.nominal]
  exact nominal_grant (n := 7) (by omega) hk

/-- The DMA step of a line, its count given: correction, halving, rounding, steal (R300). -/
theorem dmaSlice_eq {E : Env} {i x n : Nat} {c c₁ : Console} {rest : Word32} (hr : c.sched.rem = some rest)
    (e : dmaProcessing E (c.enter .dma) = .ok (x, c₁))
    (hn : limitClocks (c.budget.toInt + rest.toInt)
      (correctClocks (Config.scanlines c.type) i x) = .ok n) :
    dmaSlice E i c = .ok (c₁.steal (roundClocks n)) := by
  obtain ⟨q, -⟩ := dmaProcessing_step e
  have hb : c₁.budget = c.budget := q.scheduler.budget
  have ht : c₁.type = c.type := q.machine.topology.type
  have hrest : c₁.lineRest = rest.toInt := by
    unfold Console.lineRest
    rw [show c₁.sched.rem = some rest from (congrArg Sched.rem q.scheduler.sched).trans hr]
  unfold dmaSlice
  rw [e]
  show Except.bind (limitClocks (c₁.budget.toInt + c₁.lineRest) _) _ = _
  rw [hb, hrest, ht, hn]
  rfl

theorem dmaSlice_step {E : Env} {i : Nat} {c d : Console} (e : dmaSlice E i c = .ok d)
    (h1 : c.budget.toInt % 4 = 0) (h2 : -28 < c.budget.toInt) (h3 : c.budget.toInt ≤ 0)
    (hr : c.lineRest = 428) :
    MachineStep E c d ∧ d.halt = c.halt ∧ d.frame = c.frame ∧ d.jammed = c.jammed ∧
      d.preempt = c.preempt ∧ d.lineRest = 428 ∧ d.budget.toInt % 4 = 0 ∧
      d.budget.toInt ≤ c.budget.toInt ∧ -428 ≤ d.budget.toInt ∧ d.nominal = c.nominal := by
  unfold dmaSlice at e
  obtain ⟨⟨n, c1⟩, e1, e⟩ := Except.bind_ok_iff.mp e
  obtain ⟨x, e2, e⟩ := Except.bind_ok_iff.mp e
  cases e
  obtain ⟨q, hn⟩ := dmaProcessing_step e1
  have hb : c1.budget = c.budget := q.scheduler.budget
  have hk : c1.clock = c.clock := q.scheduler.clock
  have hrest : c1.lineRest = 428 := by
    unfold Console.lineRest at hr ⊢
    have : c1.sched.rem = (c.enter .dma).sched.rem := congrArg Sched.rem q.scheduler.sched
    rw [this]; exact hr
  have hx := limitClocks_le (Nat.lt_of_le_of_lt (correctClocks_le (Config.scanlines c1.type) i n) hn) e2
  rw [hb, hrest] at hx
  obtain ⟨r1, r2, r3⟩ := roundClocks_facts x
  have hround : (roundClocks x : Int) ≤ c.budget.toInt + 428 := by omega
  have hbud : (c1.steal (roundClocks x)).budget.toInt = c.budget.toInt - roundClocks x := by
    show (c1.addBudget (-(roundClocks x : Int))).budget.toInt = _
    rw [addBudget_toInt] <;> rw [hb] <;> omega
  refine ⟨?_, q.scheduler.halt, q.scheduler.frame, q.scheduler.jammed, q.scheduler.preempt, hrest,
    by omega, by omega, by omega, ?_⟩
  · refine MachineStep.trans (MachineStep.registers (d := c.enter .dma) rfl rfl rfl rfl rfl rfl rfl)
      (q.machine.trans (MachineStep.registers rfl rfl rfl rfl rfl rfl rfl))
  · have : roundClocks x = 4 * (roundClocks x / 4) := by omega
    refine nominal_shift (k := roundClocks x / 4) (by omega) ?_
    show c1.clock + _ = _
    rw [hk]; rfl

theorem secondSlice_step {E : Env} {start : Word64} {c d : Console} {t : LineEnd}
    (e : secondSlice E start c = .ok (t, d)) (h1 : c.budget.toInt % 4 = 0)
    (h2 : c.budget.toInt ≤ 0) (h3 : -428 ≤ c.budget.toInt) (hr : c.lineRest = 428)
    (hn : c.nominal = start + 7) (hjam : c.jammed = false) :
    LineFacts E start c t d := by
  unfold secondSlice at e
  simp only at e
  obtain ⟨c1, e1, e⟩ := Except.bind_ok_iff.mp e
  have hrest : (c.enter .slice2).lineRest = 428 := hr
  rw [hrest] at e1
  have hb : ((c.enter .slice2).addBudget 428).budget.toInt = c.budget.toInt + 428 := by
    rw [addBudget_toInt] <;> show _ <;> simp only [Console.enter_budget] <;> omega
  obtain ⟨k, s, g1, g2, g3, g4, g5⟩ := execute_step e1
  have hm : MachineStep E c c1 :=
    MachineStep.trans (MachineStep.registers (d := (c.enter .slice2).addBudget 428)
      rfl rfl rfl rfl rfl rfl rfl) s.machine
  have hbud := s.budget
  have hlow : -28 < c1.budget.toInt := by
    by_cases h : 0 < c.budget.toInt + 428
    · exact g1 (by omega)
    · have := g2 (.inl (by omega))
      omega
  have hnom : c1.nominal = start + BitVec.ofNat 64 Config.scanlineCycles := by
    have hg : ((c.enter .slice2).addBudget 428).nominal = c.nominal + BitVec.ofNat 64 107 :=
      nominal_grant (n := 107) (by omega) rfl
    rw [s.nominal, hg, hn, BitVec.add_assoc]
    rfl
  split at e
  · next hj =>
    cases e
    refine ⟨hm.trans (MachineStep.registers rfl rfl rfl rfl rfl rfl rfl), s.frame,
      fun _ => ⟨hj, rfl, ?_, hlow, ?_⟩, fun h => absurd rfl h, fun h => (by cases h),
      fun _ h => (by cases h)⟩
    · show c1.budget.toInt % 4 = 0
      omega
    · show c1.budget.toInt ≤ 424
      by_cases h : 0 < c.budget.toInt + 428
      · have := g5 (by omega) hjam
        omega
      · have := (g4 (by omega)).1
        exact absurd (hj.symm.trans (this.trans hjam)) (by decide)
  · next hj =>
    have hj : c1.jammed = false := by simpa using hj
    split at e
    · cases e
      refine ⟨hm.trans (MachineStep.registers rfl rfl rfl rfl rfl rfl rfl), s.frame, fun h => ?_,
        fun _ => ⟨hj, s.halt, fastForward_facts start c1⟩, fun _ => ⟨by assumption, rfl, rfl⟩,
        fun hE h => ?_⟩
      · unfold preemptEnd at h
        split at h <;> cases h
      · rw [preemptEnd, if_pos hE] at h
        cases h
    · next hp =>
      have hp : c1.preempt = false := by simpa using hp
      cases e
      exact ⟨hm, s.frame, fun h => (by cases h),
        fun _ => ⟨hj, s.halt, ⟨by omega, hlow, g3 hj hp⟩, hnom⟩, fun h => (by cases h),
        fun _ _ => hp⟩

theorem scanline_step {E : Env} {i : Nat} {c d : Console} {t : LineEnd}
    (e : scanline E i c = .ok (t, d)) (hc : c.Carry) : LineFacts E c.nominal c t d := by
  unfold scanline at e
  simp only at e
  split at e
  · cases e
  obtain ⟨c1, e1, e⟩ := Except.bind_ok_iff.mp e
  obtain ⟨m1, h1, f1, s1, b1, b2, b3, n1, post⟩ := firstSlice_step e1 hc
  split at e
  · next hj =>
    cases e
    exact ⟨m1.trans (MachineStep.registers rfl rfl rfl rfl rfl rfl rfl), f1,
      fun _ => ⟨hj, rfl, b1, b2, by show c1.budget.toInt ≤ 424; omega⟩,
      fun h => absurd rfl h, fun h => (by cases h), fun _ h => (by cases h)⟩
  · next hj =>
    have hj : c1.jammed = false := by simpa using hj
    split at e
    · next hp =>
      unfold preemptedLine at e
      obtain ⟨⟨n, c2⟩, e2, e⟩ := Except.bind_ok_iff.mp e
      cases e
      obtain ⟨q, _⟩ := dmaProcessing_step e2
      refine ⟨m1.trans (q.machine.trans (MachineStep.registers rfl rfl rfl rfl rfl rfl rfl)),
        q.scheduler.frame.trans f1, fun h => ?_,
        fun _ => ⟨q.scheduler.jammed.trans hj, q.scheduler.halt.trans h1, fastForward_facts _ c2⟩,
        fun _ => ⟨q.scheduler.preempt.trans hp, rfl, rfl⟩, fun hE h => ?_⟩
      · unfold preemptEnd at h
        split at h <;> cases h
      · rw [preemptEnd, if_pos hE] at h
        cases h
    · next hp =>
      have hp : c1.preempt = false := by simpa using hp
      obtain ⟨c2, e2, e⟩ := Except.bind_ok_iff.mp e
      have hr : c1.lineRest = 428 := by unfold Console.lineRest; rw [s1]; rfl
      obtain ⟨m2, h2, f2, j2, p2, r2, b4, b5, b6, n2⟩ := dmaSlice_step e2 b1 b2 (post hj hp) hr
      have := secondSlice_step e b4 (by have := post hj hp; omega) b6 r2 (n2.trans n1)
        (j2.trans hj)
      exact ⟨(m1.trans m2).trans this.machine, this.frame.trans (f2.trans f1), this.jam,
        fun h => by
          obtain ⟨a1, a2, a3, a4⟩ := this.goes h
          exact ⟨a1, a2.trans (h2.trans h1), a3, a4⟩,
        this.early, this.full⟩

theorem dmaSlice_total {E : Env} {i : Nat} {c : Console} (hw : c.Wired E) (ha : c.Attached)
    (hh : c.dmaHonest = true) (h2 : -28 < c.budget.toInt) (hr : c.lineRest = 428) :
    ∃ d, dmaSlice E i c = .ok d := by
  unfold dmaSlice
  have m : MachineStep E c (c.enter .dma) := MachineStep.registers rfl rfl rfl rfl rfl rfl rfl
  obtain ⟨⟨n, c1⟩, e1⟩ := dmaProcessing_total (m.wired hw) (m.attached ha)
    ((dmaHonest_of_step m).trans hh)
  obtain ⟨q, _⟩ := dmaProcessing_step e1
  have hb : c1.budget = c.budget := q.scheduler.budget
  have hrest : c1.lineRest = 428 := by
    unfold Console.lineRest at hr ⊢
    have : c1.sched.rem = (c.enter .dma).sched.rem := congrArg Sched.rem q.scheduler.sched
    rw [this]; exact hr
  rw [e1]
  simp only [Except.ok_bind]
  unfold limitClocks
  rw [if_neg (by rw [hb, hrest]; omega)]
  exact ⟨_, rfl⟩

theorem secondSlice_total {E : Env} {start : Word64} {c : Console} (hw : c.Wired E)
    (ha : c.Attached) (hr : c.lineRest = 428) : ∃ r, secondSlice E start c = .ok r := by
  unfold secondSlice
  simp only
  have hrest : (c.enter .slice2).lineRest = 428 := hr
  rw [hrest]
  have m : MachineStep E c ((c.enter .slice2).addBudget 428) :=
    MachineStep.registers rfl rfl rfl rfl rfl rfl rfl
  obtain ⟨c1, e1⟩ := execute_total (m.wired hw) (m.attached ha)
  rw [e1]
  simp only [Except.ok_bind]
  split
  · exact ⟨_, rfl⟩
  · split <;> exact ⟨_, rfl⟩

theorem firstSlice_total {E : Env} {i : Nat} {start : Word64} {c : Console} (hw : c.Wired E)
    (ha : c.Attached) : ∃ d, firstSlice E i start c = .ok d := by
  unfold firstSlice
  simp only
  exact execute_total (hw.congr rfl rfl rfl) fun k hk => ha k hk

theorem scanline_total {E : Env} (hE : E.debugChecks = false) {i : Nat} {c : Console}
    (hw : c.Wired E) (ha : c.Attached) (hh : c.dmaHonest = true) (hc : c.Carry) :
    ∃ r, scanline E i c = .ok r := by
  unfold scanline
  simp only [hE, Bool.false_and, Bool.false_eq_true, if_false]
  obtain ⟨c1, e1⟩ := firstSlice_total (i := i) (start := c.nominal) hw ha
  obtain ⟨m1, h1, f1, s1, b1, b2, b3, n1, post⟩ := firstSlice_step e1 hc
  rw [e1]
  simp only [Except.ok_bind]
  split
  · exact ⟨_, rfl⟩
  · next hj =>
    have hj : c1.jammed = false := by simpa using hj
    have hh1 := (dmaHonest_of_step m1).trans hh
    split
    · unfold preemptedLine
      obtain ⟨⟨n, c2⟩, e2⟩ := dmaProcessing_total (m1.wired hw) (m1.attached ha) hh1
      rw [e2]
      exact ⟨_, rfl⟩
    · next hp =>
      have hp : c1.preempt = false := by simpa using hp
      have hr : c1.lineRest = 428 := by unfold Console.lineRest; rw [s1]; rfl
      obtain ⟨c2, e2⟩ := dmaSlice_total (i := i) (m1.wired hw) (m1.attached ha) hh1 b2 hr
      obtain ⟨m2, h2, f2, j2, p2, r2, b4, b5, b6, n2⟩ := dmaSlice_step e2 b1 b2 (post hj hp) hr
      rw [e2]
      exact secondSlice_total (m2.wired (m1.wired hw)) (m2.attached (m1.attached ha)) r2

/-! ### A frame -/

/-- The lines of a frame, in their order (R291): each but the last goes on. -/
theorem frameLines_trace {E : Env} : ∀ (n i : Nat) {c d : Console} {t : LineEnd}, n ≠ 0 →
    frameLines E n i c = .ok (t, d) →
    ∃ (m : Nat) (line : Nat → Console), m < n ∧ line 0 = c ∧
      (∀ k, k < m → scanline E (i + k) (line k) = .ok (.goOn, line (k + 1))) ∧
      scanline E (i + m) (line m) = .ok (t, line (m + 1)) ∧ (t = .goOn → m + 1 = n) ∧
      d = line (m + 1)
  | 0, _, _, _, _, h, _ => absurd rfl h
  | n + 1, i, c, d, t, _, e => by
    unfold frameLines at e
    obtain ⟨⟨u, c1⟩, e1, e⟩ := Except.bind_ok_iff.mp e
    have one : scanline E i c = .ok (t, d) → (t = .goOn → n = 0) →
        ∃ (m : Nat) (line : Nat → Console), m < n + 1 ∧ line 0 = c ∧
          (∀ k, k < m → scanline E (i + k) (line k) = .ok (.goOn, line (k + 1))) ∧
          scanline E (i + m) (line m) = .ok (t, line (m + 1)) ∧ (t = .goOn → m + 1 = n + 1) ∧
          d = line (m + 1) := fun e1 ht =>
      ⟨0, fun k => if k = 0 then c else d, by omega, rfl, fun k hk => absurd hk (by omega), e1,
        fun h => by rw [ht h], rfl⟩
    cases u with
    | jammed => cases e; exact one e1 (fun h => by cases h)
    | preempted => cases e; exact one e1 (fun h => by cases h)
    | goOn =>
      by_cases hn : n = 0
      · subst hn; cases e; exact one e1 fun _ => rfl
      · obtain ⟨m, line, h1, h2, h3, h4, h5, h6⟩ := frameLines_trace n (i + 1) hn e
        refine ⟨m + 1, fun k => if k = 0 then c else line (k - 1), by omega, rfl, fun k hk => ?_, ?_,
          fun h => by rw [h5 h], h6⟩
        · cases k with
          | zero => simpa [h2] using e1
          | succ k =>
            have := h3 k (by omega)
            rw [show i + 1 + k = i + (k + 1) by omega] at this
            simpa using this
        · rw [show i + 1 + m = i + (m + 1) by omega] at h4
          simpa using h4
/-- The lines of a frame: each moves the nominal clock on by one line (43_scheduler.md R293, R312). -/
theorem frameLines_step {E : Env} : ∀ (n i : Nat) {c d : Console} {t : LineEnd},
    frameLines E n i c = .ok (t, d) → c.Carry → c.jammed = false →
    MachineStep E c d ∧ d.frame = c.frame ∧
      (t = .jammed → d.jammed = true ∧ d.halt = true ∧ d.carryLegal) ∧
      (t ≠ .jammed → d.jammed = false ∧ d.halt = c.halt ∧ d.Carry) ∧
      (t = .goOn →
        d.nominal = c.nominal + BitVec.ofNat 64 (n * Config.scanlineCycles))
  | 0, i, c, d, t, e, hc, hj => by
    cases e
    exact ⟨.refl E c, rfl, fun h => (by cases h), fun _ => ⟨hj, rfl, hc⟩, fun _ => by simp⟩
  | n + 1, i, c, d, t, e, hc, hj => by
    unfold frameLines at e
    obtain ⟨⟨u, c1⟩, e1, e⟩ := Except.bind_ok_iff.mp e
    have l := scanline_step e1 hc
    cases u with
    | jammed =>
      cases e
      obtain ⟨a1, a2, a3, a4, a5⟩ := l.jam rfl
      exact ⟨l.machine, l.frame, fun _ => ⟨a1, a2, carryLegal_jammed a1 a3 a4 (by omega)⟩,
        fun h => absurd rfl h, fun h => by cases h⟩
    | preempted =>
      cases e
      obtain ⟨a1, a2, a3, _⟩ := l.goes (by decide)
      exact ⟨l.machine, l.frame, fun h => (by cases h), fun _ => ⟨a1, a2, a3⟩, fun h => by cases h⟩
    | goOn =>
      obtain ⟨a1, a2, a3, a4⟩ := l.goes (by decide)
      obtain ⟨m, f, g1, g2, g3⟩ := frameLines_step n (i + 1) e a3 a1
      refine ⟨l.machine.trans m, f.trans l.frame, g1, fun h => ?_, fun h => ?_⟩
      · obtain ⟨b1, b2, b3⟩ := g2 h
        exact ⟨b1, b2.trans a2, b3⟩
      · rw [g3 h, a4, BitVec.add_assoc, ← BitVec.ofNat_add]
        congr 2
        rw [Nat.succ_mul, Nat.add_comm]

theorem frameLines_total {E : Env} (hE : E.debugChecks = false) : ∀ (n i : Nat) {c : Console},
    c.Wired E → c.Attached → c.dmaHonest = true → c.Carry → c.jammed = false →
    ∃ r, frameLines E n i c = .ok r
  | 0, i, c, _, _, _, _, _ => ⟨_, rfl⟩
  | n + 1, i, c, hw, ha, hh, hc, hj => by
    unfold frameLines
    obtain ⟨⟨u, c1⟩, e1⟩ := scanline_total hE (i := i) hw ha hh hc
    have l := scanline_step e1 hc
    rw [e1]
    simp only [Except.ok_bind]
    cases u with
    | jammed => exact ⟨_, rfl⟩
    | preempted => exact ⟨_, rfl⟩
    | goOn =>
      obtain ⟨a1, a2, a3, _⟩ := l.goes (by decide)
      exact frameLines_total hE n (i + 1) (l.machine.wired hw) (l.machine.attached ha)
        ((dmaHonest_of_step l.machine).trans hh) a3 a1

theorem cartHook_step (E : Env) (op : ChipOp) (c : Console) : BusStep E c (cartHook E op c) := by
  unfold cartHook
  split
  · exact .refl E c
  · next k hk =>
    split
    · exact .refl E c
    · next w hw =>
      exact (DeviceStep.cart (Console.cart?_eq_some.mp hk)
        (CartStep.chip E (.chip w.id op) k c)).bus

/-- What a frame-advance call leaves (43_scheduler.md R291, R302, R312). -/
structure FrameFacts (E : Env) (c : Console) (t : LineEnd) (d : Console) : Prop where
  machine : MachineStep E c d
  frame   : d.frame = c.frame + 1
  sched   : d.sched = Sched.idle
  carry   : d.carryLegal
  jam     : t = .jammed → d.jammed = true ∧ d.halt = true
  goes    : t ≠ .jammed → d.jammed = false ∧ d.halt = c.halt
  nominal : t = .goOn →
    d.nominal = c.nominal + BitVec.ofNat 64 (Config.scanlines c.type * Config.scanlineCycles)

theorem runFrame_step {E : Env} {c d : Console} {t : LineEnd} (e : runFrame E c = .ok (t, d))
    (hc : c.Carry) (hj : c.jammed = false) : FrameFacts E c t d := by
  unfold runFrame at e
  simp only at e
  obtain ⟨c1, e1, e⟩ := Except.bind_ok_iff.mp e
  obtain ⟨⟨u, c2⟩, e2, e⟩ := Except.bind_ok_iff.mp e
  obtain ⟨c3, e3, e⟩ := Except.bind_ok_iff.mp e
  injection e with e
  injection e with e4 e5
  subst e4 e5
  have s1 := dmaCall_step e1
  have s2 : BusStep E c1 (cartStartFrame E c1) := cartHook_step E .startFrame c1
  have s4 := cartHook_step E .endFrame (c2.enter u.phase)
  have s5 := s4.trans (dmaCall_step e3)
  have s12 := s1.trans s2
  have hs := s12.touched.scheduler
  have hcarry : (cartStartFrame E c1).Carry := by
    unfold Console.Carry
    rw [hs.budget]; exact hc
  have hnom : (cartStartFrame E c1).nominal = c.nominal := by
    unfold Console.nominal
    rw [hs.budget, hs.clock]; rfl
  obtain ⟨m, f, g1, g2, g3⟩ := frameLines_step _ _ e2 hcarry (hs.jammed.trans hj)
  have h5 := s5.touched.scheduler
  have hcar3 : c3.carryLegal ↔ c2.carryLegal := by
    unfold Console.carryLegal
    rw [h5.budget, h5.jammed]; exact Iff.rfl
  refine ⟨?_, ?_, rfl, ?_, fun h => ?_, fun h => ?_, fun h => ?_⟩
  · refine MachineStep.trans (MachineStep.registers
      (d := { c with frame := c.frame + 1 }.enter .notStarted) rfl rfl rfl rfl rfl rfl rfl)
      (s12.machine.trans (m.trans (MachineStep.trans (MachineStep.registers (d := c2.enter u.phase)
        rfl rfl rfl rfl rfl rfl rfl) (s5.machine.trans
          (MachineStep.registers (d := { c3 with sched := Sched.idle })
            rfl rfl rfl rfl rfl rfl rfl)))))
  · show c3.frame = _
    rw [h5.frame]
    show c2.frame = _
    rw [f, hs.frame]; rfl
  · show c3.carryLegal
    rw [hcar3]
    by_cases ht : u = .jammed
    · exact (g1 ht).2.2
    · exact (g2 ht).2.2.legal
  · obtain ⟨b1, b2, _⟩ := g1 h
    exact ⟨h5.jammed.trans b1, h5.halt.trans b2⟩
  · obtain ⟨b1, b2, _⟩ := g2 h
    exact ⟨h5.jammed.trans b1, (h5.halt.trans b2).trans hs.halt⟩
  · have e1 : c3.nominal = c2.nominal := by
      unfold Console.nominal
      rw [h5.budget, h5.clock]; rfl
    have e2 : c1.type = c.type := s1.touched.topology.type
    show c3.nominal = _
    rw [e1, g3 h, hnom, s2.touched.topology.type, e2]

theorem runFrame_total {E : Env} (hE : E.debugChecks = false) {c : Console} (hw : c.Wired E)
    (ha : c.Attached) (hh : c.dmaHonest = true) (hc : c.Carry) (hj : c.jammed = false) :
    ∃ r, runFrame E c = .ok r := by
  unfold runFrame
  simp only
  have m0 : MachineStep E c ({ c with frame := c.frame + 1 }.enter .notStarted) :=
    MachineStep.registers rfl rfl rfl rfl rfl rfl rfl
  obtain ⟨c1, e1⟩ := dmaCall_total (m0.wired hw) (m0.attached ha).ready .startFrame
  have s1 := dmaCall_step e1
  have s12 := s1.trans (cartHook_step E .startFrame c1)
  have hs := s12.touched.scheduler
  have m1 := m0.trans s12.machine
  rw [e1]
  simp only [Except.ok_bind]
  have hcarry : (cartStartFrame E c1).Carry := by
    show _ ∧ _
    rw [show (cartStartFrame E c1).budget = c.budget from hs.budget]; exact hc
  obtain ⟨⟨u, c2⟩, e2⟩ := frameLines_total hE (Config.scanlines (cartStartFrame E c1).type) 0
    (m1.wired hw) (m1.attached ha) ((dmaHonest_of_step m1).trans hh) hcarry (hs.jammed.trans hj)
  obtain ⟨m2, _⟩ := frameLines_step _ _ e2 hcarry (hs.jammed.trans hj)
  have m3 : MachineStep E c (cartEndFrame E (c2.enter u.phase)) :=
    (m1.trans m2).trans (MachineStep.trans (MachineStep.registers (d := c2.enter u.phase)
      rfl rfl rfl rfl rfl rfl rfl) (cartHook_step E .endFrame _).machine)
  obtain ⟨c3, e3⟩ := dmaCall_total (m3.wired hw) (m3.attached ha).ready .endFrame
  refine ⟨(u, { c3 with sched := Sched.idle }), ?_⟩
  show (frameLines E (Config.scanlines (cartStartFrame E c1).type) 0 (cartStartFrame E c1) >>= _) = _
  rw [show frameLines E _ 0 (cartStartFrame E c1) = _ from e2]
  simp only [Except.ok_bind]
  rw [e3]
  rfl

/-- A frame keeps a machine well formed. -/
theorem Console.Ok.frame {E : Env} {c d : Console} {t : LineEnd} (h : c.Ok E)
    (f : FrameFacts E c t d) : d.Ok E := by
  have hnone : d.chips = none ↔ c.chips = none := by
    have := f.machine.honest
    cases hc : c.chips <;> cases hd : d.chips <;> rw [hc, hd] at this <;> simp at this ⊢
  refine ⟨f.machine.wired h.wired, f.carry, f.sched, fun hn => ?_, fun ch hch => ?_⟩
  · rw [f.machine.topology.type]
    exact h.bench (hnone.mp hn)
  · cases hc : c.chips with
    | none => rw [hnone.mpr hc] at hch; cases hch
    | some ch0 => exact (h.running ch0 hc).keep f.machine.topology (f.machine.images h.images) hch

end Sys2Proof.Machine
end

