-- ==== Sys2Proof/Laws/Serializer.lean ====
section
/-! SUPPORT. Writers and readers of the save-state stream: what is written is read back, and nothing
shorter is accepted (44_serializer.md R340 to R361, R374). -/

namespace Sys2Proof.Machine

/-! ### Readers -/

theorem Reader.bind_apply {α β : Type} (g : Reader α) (f : α → Reader β) (bs : Bytes) :
    (g >>= f) bs = (g bs >>= fun p => f p.1 p.2) := rfl

theorem Reader.bind_ok {α β : Type} {g : Reader α} {f : α → Reader β} {bs rest : Bytes} {y : β} :
    (g >>= f) bs = .ok (y, rest) ↔ ∃ x mid, g bs = .ok (x, mid) ∧ f x mid = .ok (y, rest) := by
  rw [Reader.bind_apply, Except.bind_ok_iff]
  constructor
  · rintro ⟨⟨x, mid⟩, h1, h2⟩; exact ⟨x, mid, h1, h2⟩
  · rintro ⟨x, mid, h1, h2⟩; exact ⟨(x, mid), h1, h2⟩

theorem Reader.pure_ok {α : Type} {x y : α} {bs rest : Bytes} :
    (pure x : Reader α) bs = .ok (y, rest) ↔ x = y ∧ bs = rest := by
  show Except.ok (x, bs) = .ok (y, rest) ↔ _
  simp

theorem ensure_ok {b : Bool} {e : Status} {u : Unit} {bs rest : Bytes} :
    ensure b e bs = .ok (u, rest) ↔ b = true ∧ bs = rest := by
  unfold ensure
  split
  · next h => rw [Reader.pure_ok]; simp [h]
  · next h =>
    constructor
    · intro h'; cases h'
    · rintro ⟨h', _⟩; exact absurd h' h

/-- A check that holds goes on, one that does not ends with its error. -/
theorem ensure_bind {β : Type} {b : Bool} {e : Status} {f : Unit → Reader β} {bs : Bytes} :
    (ensure b e >>= f) bs = if b = true then f () bs else .error e := by
  rw [Reader.bind_apply]
  cases b <;> rfl

/-- The reader takes exactly the given bytes for the given value, and ends with `Truncated` on
anything shorter. -/
structure Reads {α : Type} (g : Reader α) (bs : Bytes) (x : α) : Prop where
  whole : ∀ rest, g (bs ++ rest) = .ok (x, rest)
  short : ∀ p, p <+: bs → p ≠ bs → g p = .error .truncated

/-- What follows a reader goes on with its value and the rest. -/
theorem Reads.next {α β : Type} {g : Reader α} {p : Bytes} {x : α} (hg : Reads g p x)
    (f : α → Reader β) (rest : Bytes) : (g >>= f) (p ++ rest) = f x rest := by
  rw [Reader.bind_apply, hg.whole]; rfl

theorem Reads.pure {α : Type} (x : α) : Reads (pure x) [] x :=
  ⟨fun _ => rfl, fun _ hp hn => absurd (List.prefix_nil.mp hp) hn⟩

theorem Reads.bind {α β : Type} {g : Reader α} {f : α → Reader β} {p q : Bytes} {x : α} {y : β}
    (hg : Reads g p x) (hf : Reads (f x) q y) : Reads (g >>= f) (p ++ q) y := by
  refine ⟨fun rest => ?_, fun l hl hn => ?_⟩
  · rw [Reader.bind_apply, List.append_assoc, hg.whole]
    exact hf.whole rest
  · rw [Reader.bind_apply]
    obtain ⟨t, ht⟩ := hl
    rcases List.append_eq_append_iff.mp ht with ⟨a, ha, hb⟩ | ⟨c, hc, hd⟩
    · by_cases h : l = p
      · subst h
        have hw := hg.whole []
        rw [List.append_nil] at hw
        rw [hw]
        exact hf.short [] List.nil_prefix (fun e => hn (by rw [← e, List.append_nil]))
      · rw [hg.short l ⟨a, ha.symm⟩ h]
        rfl
    · subst hc
      rw [hg.whole c]
      exact hf.short c ⟨t, hd.symm⟩ (fun e => hn (by rw [e]))

theorem Reads.map {α β : Type} {g : Reader α} {f : α → β} {p : Bytes} {x : α} (hg : Reads g p x) :
    Reads (g >>= fun a => Pure.pure (f a)) p (f x) := by
  have := hg.bind (f := fun a => Pure.pure (f a)) (Reads.pure (f x))
  rwa [List.append_nil] at this

theorem Reads.check {β : Type} {b : Bool} {e : Status} {f : Unit → Reader β} {q : Bytes} {y : β}
    (hb : b = true) (hf : Reads (f ()) q y) : Reads (ensure b e >>= f) q y := by
  have : Reads (ensure b e) [] () := by rw [hb]; exact Reads.pure ()
  exact this.bind hf

theorem Reads.checkLast {α : Type} {g : Reader α} {p : Bytes} {x : α} {b : α → Bool} {e : Status}
    (hg : Reads g p x) (hb : b x = true) :
    Reads (g >>= fun a => ensure (b a) e >>= fun _ => Pure.pure a) p x := by
  have := hg.bind (f := fun a => ensure (b a) e >>= fun _ => Pure.pure a)
    (Reads.check hb (Reads.pure x))
  rwa [List.append_nil] at this

/-! ### Tokens -/

theorem reads_raw {bs : Bytes} {n : Nat} (h : bs.length = n) : Reads (getRaw n) bs bs := by
  subst h
  refine ⟨fun rest => ?_, fun p hp hn => ?_⟩
  · unfold getRaw
    rw [if_neg (by simp), List.take_left, List.drop_left]
  · unfold getRaw
    rw [if_pos]
    have := hp.length_le
    rcases Nat.lt_or_ge p.length bs.length with h | h
    · exact h
    · exact absurd (hp.eq_of_length (by omega)) hn

theorem getRaw_ok {n : Nat} {bs x rest : Bytes} (h : getRaw n bs = .ok (x, rest)) :
    x.length = n ∧ bs = x ++ rest := by
  unfold getRaw at h
  split at h
  · cases h
  · cases h
    exact ⟨by rw [List.length_take]; omega, (List.take_append_drop n bs).symm⟩

@[simp] theorem putInt_length (n v : Nat) : (putInt n v).length = n := by
  induction n generalizing v with
  | zero => rfl
  | succ n ih => simp [putInt, ih]

theorem intOf_putInt (n v : Nat) : intOf (putInt n v) = v % 256 ^ n := by
  induction n generalizing v with
  | zero => simp [putInt, intOf, Nat.mod_one]
  | succ n ih =>
    rw [putInt, intOf, ih, BitVec.toNat_ofNat, Nat.pow_succ (n := 256), Nat.mul_comm (256 ^ n) 256,
      Nat.mod_mul]
    omega

theorem reads_int {n v : Nat} (h : v < 256 ^ n) : Reads (getInt n) (putInt n v) v := by
  have := (reads_raw (putInt_length n v)).map (f := intOf)
  rw [intOf_putInt, Nat.mod_eq_of_lt h] at this
  exact this

theorem reads_u8 (v : Byte) : Reads getU8 (putU8 v) v := by
  have h := (reads_int (n := 1) (v := v.toNat) (by have := v.isLt; omega)).map
    (f := fun n => (BitVec.ofNat 8 n : Byte))
  have e : putInt 1 v.toNat = putU8 v := by
    simp only [putInt, putU8]
    congr 1
    apply BitVec.eq_of_toNat_eq
    have := v.isLt
    simp only [Nat.mod_mod, BitVec.toNat_ofNat, Nat.reducePow]
    omega
  rw [e, BitVec.ofNat_toNat, BitVec.setWidth_eq] at h
  exact h

theorem reads_u16 (v : BitVec 16) : Reads getU16 (putU16 v) v := by
  have h := (reads_int (n := 2) (v := v.toNat) (by have := v.isLt; omega)).map
    (f := fun n => (BitVec.ofNat 16 n : BitVec 16))
  rw [BitVec.ofNat_toNat, BitVec.setWidth_eq] at h
  exact h

theorem reads_u32 (v : Word32) : Reads getU32 (putU32 v) v := by
  have h := (reads_int (n := 4) (v := v.toNat) (by have := v.isLt; omega)).map
    (f := fun n => (BitVec.ofNat 32 n : Word32))
  rw [BitVec.ofNat_toNat, BitVec.setWidth_eq] at h
  exact h

theorem reads_u64 (v : Word64) : Reads getU64 (putU64 v) v := by
  have h := (reads_int (n := 8) (v := v.toNat) (by have := v.isLt; omega)).map
    (f := fun n => (BitVec.ofNat 64 n : Word64))
  rw [BitVec.ofNat_toNat, BitVec.setWidth_eq] at h
  exact h

theorem reads_bool (b : Bool) : Reads getBool (putBool b) b := by
  have h := (reads_u8 (bit b)).bind
    (f := fun v => if v = 0 then pure false else if v = 1 then pure true else failWith .badBool)
    (q := []) (y := b) (by cases b <;> exact Reads.pure _)
  rw [List.append_nil] at h
  exact h

theorem reads_str {text : Bytes} (h1 : 1 ≤ text.length) (h2 : text.length ≤ Config.maxStringLength)
    (h3 : text.all printable = true) : Reads getStr (putStr text) text := by
  have hn : (BitVec.ofNat 8 text.length : Byte).toNat = text.length := by
    rw [BitVec.toNat_ofNat, Nat.mod_eq_of_lt]
    simp only [Config.maxStringLength] at h2
    omega
  have hr : Reads (getRaw (BitVec.ofNat 8 text.length : Byte).toNat) text text := reads_raw hn.symm
  exact (reads_u8 (BitVec.ofNat 8 text.length)).bind
    (Reads.check (by rw [hn]; simp [h1, h2]) (hr.checkLast h3))

theorem reads_length {n : Nat} (h : n ≤ Config.maxBytes) : Reads getLength (putInt 4 n) n := by
  have hlt : n < 2 ^ 31 := by simp only [Config.maxBytes] at h; omega
  have e : (BitVec.ofNat 32 n : Word32).toNat = n := by
    rw [BitVec.toNat_ofNat, Nat.mod_eq_of_lt (by omega)]
  have hi : 0 ≤ (BitVec.ofNat 32 n : Word32).toInt := by
    rw [BitVec.toInt_eq_toNat_cond, e]
    split <;> omega
  have hu := reads_u32 (BitVec.ofNat 32 n)
  unfold putU32 at hu
  rw [e] at hu
  have := hu.bind (f := fun n => do
      ensure (decide (0 ≤ n.toInt)) .badLength
      ensure (decide (n.toNat ≤ Config.maxBytes)) .overCap
      pure n.toNat) (q := []) (y := n)
    (Reads.check (decide_eq_true hi) (Reads.check (decide_eq_true (by rw [e]; exact h))
      (by rw [e]; exact Reads.pure n)))
  rw [List.append_nil] at this
  exact this

theorem reads_bytes {bs : Bytes} (h : bs.length ≤ Config.maxBytes) :
    Reads getBytes (putBytes bs) bs := (reads_length h).bind (reads_raw rfl)

theorem reads_bytesOf {bs : Bytes} {allowed : List Nat} (h : bs.length ≤ Config.maxBytes)
    (ha : bs.length ∈ allowed) : Reads (getBytesOf allowed) (putBytes bs) bs :=
  (reads_length h).bind (Reads.check (decide_eq_true ha) (reads_raw rfl))

theorem reads_header (cls : Config.StreamClass) : Reads (getHeader cls) (putHeader cls) () := by
  have h1 : Reads (getInt 4) (putInt 4 Config.magic) Config.magic := reads_int (by decide)
  have h2 : Reads getU32 (putInt 4 Config.writtenVersion) 1 := reads_u32 1
  have h3 := h2.bind (f := fun v => ensure (decide (v.toInt ∈ Config.versions cls)) .badVersion)
    (q := []) (y := ()) (by cases cls <;> exact Reads.pure ())
  rw [List.append_nil] at h3
  exact h1.bind (Reads.check (by decide) h3)

/-- What follows the boolean of an optional object. -/
def putInside {α : Type} (put : α → Bytes) : Option α → Bytes
  | none => []
  | some x => put x

theorem reads_announced {α : Type} {get : Reader α} {put : α → Bytes} {o : Option α}
    (h : ∀ x, o = some x → Reads get (put x) x) :
    Reads (getAnnounced o.isSome get) (putInside put o) o := by
  cases o with
  | none => exact Reads.pure none
  | some x => exact (h x rfl).map (f := some)

theorem putOption_eq {α : Type} (put : α → Bytes) (o : Option α) :
    putOption put o = putBool o.isSome ++ putInside put o := by
  cases o with
  | none => exact (List.append_nil _).symm
  | some x => rfl

theorem reads_option {α : Type} {get : Reader α} {put : α → Bytes} {o : Option α}
    (h : ∀ x, o = some x → Reads get (put x) x) : Reads (getOption get) (putOption put o) o := by
  rw [putOption_eq]
  exact (reads_bool _).bind (reads_announced h)

theorem reads_fixedOption {α : Type} {get : Reader α} {put : α → Bytes} {o : Option α} {b : Bool}
    (hb : o.isSome = b) (h : ∀ x, o = some x → Reads get (put x) x) :
    Reads (getFixedOption b get) (putOption put o) o := by
  rw [putOption_eq]
  exact (reads_bool _).bind (Reads.check (by rw [hb]; exact beq_self_eq_true b) (reads_announced h))

theorem reads_many {α : Type} {get : Reader α} {put : α → Bytes} : ∀ (xs : List α),
    (∀ x ∈ xs, Reads get (put x) x) → Reads (getMany get xs.length) (xs.flatMap put) xs
  | [], _ => Reads.pure []
  | x :: xs, h => by
    rw [List.flatMap_cons]
    exact (h x List.mem_cons_self).bind
      ((reads_many xs fun y hy => h y (List.mem_cons_of_mem x hy)).map (f := fun ys => x :: ys))

theorem reads_image {E : Env} {who : ImageOwner} {img : Bytes} (h : img.length ≤ Config.maxBytes)
    (ha : imageAccepted E who img = true) : Reads (getImage E who) (putBytes img) img :=
  (reads_bytes h).checkLast ha

/-! ### Objects -/

theorem reads_channel (c : Channel) : Reads getChannel (putChannel c) c := by
  have hc := c.ctr.isLt
  have hf := c.fctr.isLt
  have e1 : (c.ctr.setWidth 16).toNat = c.ctr.toNat := by
    rw [BitVec.toNat_setWidth, Nat.mod_eq_of_lt (by omega)]
  have e2 : (c.fctr.setWidth 32).toNat = c.fctr.toNat := by
    rw [BitVec.toNat_setWidth, Nat.mod_eq_of_lt (by omega)]
  have e3 : (c.ctr.setWidth 16).setWidth 12 = c.ctr := by
    apply BitVec.eq_of_toNat_eq; rw [BitVec.toNat_setWidth, e1, Nat.mod_eq_of_lt hc]
  have e4 : (c.fctr.setWidth 32).setWidth 20 = c.fctr := by
    apply BitVec.eq_of_toNat_eq; rw [BitVec.toNat_setWidth, e2, Nat.mod_eq_of_lt hf]
  unfold getChannel putChannel
  refine (reads_u16 _).bind (Reads.check (by simp only [e1]; exact decide_eq_true (by omega)) ?_)
  refine (reads_u32 _).bind (Reads.check (by simp only [e2]; exact decide_eq_true hf) ?_)
  refine (reads_u8 _).bind ((reads_u8 _).bind ?_)
  have := (reads_u8 c.bot).map (f := fun bot =>
    ({ ctr := (c.ctr.setWidth 16).setWidth 12, fctr := (c.fctr.setWidth 32).setWidth 20,
       finc := c.finc, top := c.top, bot := bot } : Channel))
  rw [e3, e4] at this
  simpa only [e3, e4] using this

theorem reads_voice (v : Word32 × Word32) : Reads getVoice (putVoice v) v :=
  (reads_u32 v.1).bind ((reads_u32 v.2).map (f := fun f => (v.1, f)))

theorem voices_table (d : DataFetcher) :
    (table 3 fun i => (d.voices.getD i (0, 0)).1) = d.vphase ∧
      (table 3 fun i => (d.voices.getD i (0, 0)).2) = d.vfreq := by
  constructor <;> ext i hi <;> rw [table_get _ _ _ hi] <;>
    (match i, hi with
      | 0, _ => rfl
      | 1, _ => rfl
      | 2, _ => rfl)

theorem channels_table (v : Vector Channel 8) :
    (table 8 fun i => v.toList.getD i Channel.zero) = v := by
  ext1 i hi
  rw [table_get _ _ _ hi]
  simp [hi]

theorem reads_fetcher {clock : Word64} {d : DataFetcher} (hr : d.rem < Config.genDen)
    (hl : d.last.toNat ≤ clock.toNat) : Reads (getFetcher clock) (putFetcher d) d := by
  unfold getFetcher putFetcher
  have hc := reads_many (put := putChannel) d.channels.toList fun x _ => reads_channel x
  rw [Vector.length_toList] at hc
  have hv := reads_many (put := putVoice) d.voices fun x _ => reads_voice x
  refine (reads_header _).bind (hc.bind ((reads_u32 _).bind (hv.bind ?_)))
  refine (reads_int (v := d.rem) (by simp only [Config.genDen] at hr; omega)).bind
    (Reads.check (decide_eq_true hr) ?_)
  have h := (reads_u64 d.last).bind (f := fun last => do
      ensure (decide (last.toNat ≤ clock.toNat)) .badValue
      pure
        ({ channels := table 8 fun i => d.channels.toList.getD i Channel.zero
           lfsr := d.lfsr
           vphase := table 3 fun i => (d.voices.getD i (0, 0)).1
           vfreq := table 3 fun i => (d.voices.getD i (0, 0)).2
           rem := d.rem
           last := last } : DataFetcher)) (Reads.check (decide_eq_true hl) (Reads.pure _))
  rw [List.append_nil] at h
  rw [channels_table, (voices_table d).1, (voices_table d).2] at h
  simpa only [channels_table, (voices_table d).1, (voices_table d).2] using h

theorem reads_chip {E : Env} {img : Bytes} (h : img.length ≤ Config.maxBytes)
    (ha : imageAccepted E .chip img = true) : Reads (getChip E) (putChip img) img :=
  (reads_header .chip).bind (reads_image h ha)

theorem reads_named {α : Type} {names : List (Bytes × α)} {name : Bytes} {x : α}
    (h1 : 1 ≤ name.length) (h2 : name.length ≤ Config.maxStringLength)
    (h3 : name.all printable = true) (h : names.lookup name = some x) :
    Reads (getNamed names) (putStr name) x := by
  have := (reads_str h1 h2 h3).bind (f := fun name => match names.lookup name with
    | none => failWith .badDiscriminant
    | some x => pure x) (q := []) (y := x) (by simp only [h]; exact Reads.pure x)
  rw [List.append_nil] at this
  exact this

theorem reads_cartName (tag : CartTag) :
    Reads (getNamed Config.cartNames) (putStr (Config.cartName tag)) tag := by
  cases tag <;> exact reads_named (by decide) (by decide) (by decide) (by decide)

theorem reads_typeName {type : MachType} (h : type ≠ .bare) :
    Reads (getNamed Config.typeNames) (putStr (Config.typeName type)) type := by
  cases type
  · exact absurd rfl h
  · exact reads_named (by decide) (by decide) (by decide) (by decide)
  · exact reads_named (by decide) (by decide) (by decide) (by decide)

theorem reads_bank {v : Variant} {romlen : Nat} {b : Word32} (h : bankLegal v romlen b = true) :
    Reads (getBank v romlen) (putU32 b) b := (reads_u32 b).checkLast h

theorem romlens_le {tag : CartTag} {n : Nat} (h : n ∈ (Config.cartTable tag).romlens) :
    n ≤ Config.maxBytes := by
  cases tag <;> simp [Config.cartTable, Config.fixedRow, Config.latchRow, Config.shadowRow] at h <;>
    simp only [Config.maxBytes] <;> omega

theorem rs_le (tag : CartTag) : (Config.cartTable tag).rs ≤ 0x80 := by cases tag <;> decide

/-- A cart's overlay is what the stream says, and a variant without one has none. -/
theorem overlay_ofBytes {E : Env} {k : Cart} (hk : k.Ok E) :
    Memory.ofBytes (k.overlay.getD []) = k.ram := by
  unfold Cart.overlay
  split
  · exact Memory.ofBytes_toBytes hk.overlay
  · next h =>
    have h0 : k.variant.rs = 0 := by omega
    have := hk.overlay
    rw [h0] at this
    cases hr : k.ram with
    | nil => rfl
    | cons p l =>
      rw [hr] at this
      simp [Memory.wf, Memory.canonical] at this

theorem reads_cart {E : Env} {clock : Word64} {k : Cart} (hk : k.Ok E) (ha : k.attached = true)
    (hl : ∀ d, k.df = some d → d.last.toNat ≤ clock.toNat) :
    Reads (getCart E clock) (putCart k) k := by
  unfold getCart putCart
  have hb := reads_many (get := getBank k.variant k.rom.length) (put := putU32) k.bank
    fun b h => reads_bank (hk.banks b h)
  rw [hk.bankCount] at hb
  refine (reads_cartName k.tag).bind ((reads_header .cart).bind ?_)
  refine (reads_bytesOf (romlens_le hk.romLength) hk.romLength).bind (hb.bind ?_)
  refine (reads_fixedOption (o := k.overlay) ?_ fun x hx => ?_).bind ?_
  · unfold Cart.overlay
    split
    · next h => exact (decide_eq_true h).symm
    · next h => exact (decide_eq_false h).symm
  · unfold Cart.overlay at hx
    split at hx
    · cases hx
      refine reads_bytesOf ?_ ?_
      · rw [Memory.length_toBytes]
        have := rs_le k.tag
        simp only [Config.maxBytes]
        show (Config.cartTable k.tag).rs ≤ _
        omega
      · rw [Memory.length_toBytes]; exact List.mem_singleton.mpr rfl
    · cases hx
  · refine (reads_fixedOption (o := k.df) hk.fetcher fun d hd =>
      reads_fetcher (hk.remainder d hd) (hl d hd)).bind ?_
    have h := (reads_fixedOption (get := getChip E) (put := putChip) (o := k.chip)
      (b := k.variant.chip.isSome) (by rw [hk.chipThere, ha, Bool.and_true])
      fun img hi => reads_chip (hk.chipImage img hi).1 (hk.chipImage img hi).2).map (f := fun chip =>
        ({ tag := k.tag, rom := k.rom, bank := k.bank, ram := Memory.ofBytes (k.overlay.getD []),
           attached := true, chip := chip, df := k.df } : Cart))
    have e : ({ tag := k.tag, rom := k.rom, bank := k.bank,
                ram := Memory.ofBytes (k.overlay.getD []), attached := true, chip := k.chip,
                df := k.df } : Cart) = k := by
      rw [overlay_ofBytes hk, ← ha]
    exact cast (congrArg (Reads _ _) e) h

theorem regsOf_toList (v : Vector Byte 5) : regsOf v.toList = v := by
  unfold regsOf
  ext1 i hi
  rw [table_get _ _ _ hi]
  simp [hi]

theorem reads_cpu {c : Console} (r : CpuRegs) (h : c.carryLegal) :
    Reads getCpu (putCpu c r)
      { clock := c.clock, budget := c.budget, jammed := c.jammed, preempt := c.preempt, regs := r } := by
  unfold getCpu putCpu
  refine (reads_header .cpu).bind ((reads_u64 _).bind ((reads_u32 _).bind ((reads_bool _).bind
    ((reads_bool _).bind ((reads_u16 _).bind ?_)))))
  have hl : r.regs.toList.length = 5 := Vector.length_toList
  have h5 := (reads_bytesOf (bs := r.regs.toList) (allowed := [Config.cpuRegBytes])
    (by rw [hl]; decide) (by rw [hl]; decide)).bind (f := fun regs => do
      ensure (budgetLegal c.budget c.jammed) .badValue
      pure
        ({ clock := c.clock, budget := c.budget, jammed := c.jammed, preempt := c.preempt,
           regs := { pc := r.pc, regs := regsOf regs } } : CpuRecord))
    (Reads.check h (Reads.pure _))
  rw [List.append_nil, regsOf_toList] at h5
  exact h5

/-- What a save writes down of a running machine. -/
def recordOf (c : Console) (ch : Chips) : Root where
  type := c.type
  halt := c.halt
  frame := c.frame
  cpu := { clock := c.clock, budget := c.budget, jammed := c.jammed, preempt := c.preempt,
           regs := ch.cpu }
  lbv := c.lbv
  dma := ch.dma
  banks := Config.ramBanks.map c.bankImage
  bios := c.biosImage
  input := ch.input
  cart := c.cart?

theorem Console.RunOk.bankImage_length {E : Env} {c : Console} {ch : Chips} (h : c.RunOk E ch)
    {g : Handle} (hg : g ∈ Config.ramBanks) : (c.bankImage g).length = Config.ramBankSize := by
  obtain ⟨mem, e⟩ := h.banks g hg
  unfold Console.bankImage
  rw [e]
  exact Memory.length_toBytes _ _

/-- What `SAVE` writes is read back whole (44_serializer.md R374), and nothing shorter is a stream. -/
theorem reads_root {E : Env} {c : Console} {ch : Chips} (h : c.Ok E) (hch : c.chips = some ch)
    (hs : c.Saveable) : Reads (getRoot E) (putRoot c ch) (recordOf c ch) := by
  have hr := h.running ch hch
  unfold getRoot putRoot
  refine (reads_typeName hr.real).bind ((reads_header .machine).bind ((reads_bool _).bind
    ((reads_u64 _).bind ((reads_cpu ch.cpu h.carry).bind ?_))))
  have hbanks := reads_many (get := getBytesOf [Config.ramBankSize]) (put := putBytes)
    (Config.ramBanks.map c.bankImage) fun x hx => by
      obtain ⟨g, hg, rfl⟩ := List.mem_map.mp hx
      have hl := hr.bankImage_length hg
      exact reads_bytesOf (by rw [hl]; decide) (by rw [hl]; decide)
  rw [List.flatMap_map, List.length_map] at hbanks
  have hbios := reads_option (get := getBytesOf Config.biosSizes) (put := putBytes)
    (o := c.biosImage) fun img hi => by
      unfold Console.biosImage at hi
      split at hi
      · next hb =>
        obtain ⟨img', e, hl⟩ := hr.bios hb
        rw [e] at hi
        cases hi
        refine reads_bytesOf ?_ hl
        simp only [Config.biosSizes, List.mem_singleton] at hl
        rw [hl]; decide
      · cases hi
  have hcart := (reads_option (get := getCart E c.clock) (put := putCart) (o := c.cart?) fun k hk => by
      have hok : k.Ok E := by
        have := h.wired.devices cartHandle
        rw [Console.cart?_eq_some.mp hk] at this
        exact this
      exact reads_cart hok (hr.attached k hk) fun d hd => hs k d hk hd).map (f := fun cart =>
        { recordOf c ch with cart := cart })
  simp only [List.append_assoc]
  refine (reads_header _).bind ((reads_u8 _).bind ((reads_header _).bind
    ((reads_image hr.dma.1 hr.dma.2).bind (hbanks.bind (hbios.bind ((reads_header _).bind
      ((reads_image hr.input.1 hr.input.2).bind ?_)))))))
  exact hcart

/-- The stream a save writes is accepted, and says what was saved. -/
theorem parse_putRoot {E : Env} {c : Console} {ch : Chips} (h : c.Ok E) (hch : c.chips = some ch)
    (hs : c.Saveable) : parseStream E (putRoot c ch) = .ok (recordOf c ch) := by
  have := (reads_root h hch hs).whole []
  rw [List.append_nil] at this
  unfold parseStream
  rw [this]

/-! ### What an accepted stream says -/

theorem getLength_ok {bs rest : Bytes} {n : Nat} (h : getLength bs = .ok (n, rest)) :
    n ≤ Config.maxBytes := by
  unfold getLength at h
  obtain ⟨w, m1, h1, h⟩ := Reader.bind_ok.mp h
  obtain ⟨_, m2, h2, h⟩ := Reader.bind_ok.mp h
  obtain ⟨_, m3, h3, h⟩ := Reader.bind_ok.mp h
  obtain ⟨rfl, _⟩ := Reader.pure_ok.mp h
  simpa using (ensure_ok.mp h3).1

theorem getBytes_ok {bs x rest : Bytes} (h : getBytes bs = .ok (x, rest)) :
    x.length ≤ Config.maxBytes := by
  unfold getBytes at h
  obtain ⟨n, m1, h1, h⟩ := Reader.bind_ok.mp h
  rw [(getRaw_ok h).1]
  exact getLength_ok h1

theorem getBytesOf_ok {allowed : List Nat} {bs x rest : Bytes}
    (h : getBytesOf allowed bs = .ok (x, rest)) : x.length ∈ allowed := by
  unfold getBytesOf at h
  obtain ⟨n, m1, h1, h⟩ := Reader.bind_ok.mp h
  obtain ⟨_, m2, h2, h⟩ := Reader.bind_ok.mp h
  rw [(getRaw_ok h).1]
  simpa using (ensure_ok.mp h2).1

theorem getImage_ok {E : Env} {who : ImageOwner} {bs x rest : Bytes}
    (h : getImage E who bs = .ok (x, rest)) :
    x.length ≤ Config.maxBytes ∧ imageAccepted E who x = true := by
  unfold getImage at h
  obtain ⟨n, m1, h1, h⟩ := Reader.bind_ok.mp h
  obtain ⟨_, m2, h2, h⟩ := Reader.bind_ok.mp h
  obtain ⟨rfl, _⟩ := Reader.pure_ok.mp h
  exact ⟨getBytes_ok h1, (ensure_ok.mp h2).1⟩

theorem getChip_ok {E : Env} {bs x rest : Bytes} (h : getChip E bs = .ok (x, rest)) :
    x.length ≤ Config.maxBytes ∧ imageAccepted E .chip x = true := by
  unfold getChip at h
  obtain ⟨_, m1, h1, h⟩ := Reader.bind_ok.mp h
  exact getImage_ok h

theorem getAnnounced_ok {α : Type} {b : Bool} {get : Reader α} {bs rest : Bytes} {o : Option α}
    (h : getAnnounced b get bs = .ok (o, rest)) :
    o.isSome = b ∧ ∀ x, o = some x → ∃ bs' rest', get bs' = .ok (x, rest') := by
  unfold getAnnounced at h
  split at h
  · next hb =>
    obtain ⟨y, m, h1, h⟩ := Reader.bind_ok.mp h
    obtain ⟨rfl, _⟩ := Reader.pure_ok.mp h
    exact ⟨by rw [hb]; rfl, fun x hx => by cases hx; exact ⟨_, _, h1⟩⟩
  · next hb =>
    obtain ⟨rfl, _⟩ := Reader.pure_ok.mp h
    exact ⟨by simp [Bool.eq_false_iff.mpr hb], fun x hx => by cases hx⟩

theorem getOption_ok {α : Type} {get : Reader α} {bs rest : Bytes} {o : Option α}
    (h : getOption get bs = .ok (o, rest)) :
    ∀ x, o = some x → ∃ bs' rest', get bs' = .ok (x, rest') := by
  unfold getOption at h
  obtain ⟨b, m, h1, h⟩ := Reader.bind_ok.mp h
  exact (getAnnounced_ok h).2

theorem getFixedOption_ok {α : Type} {b : Bool} {get : Reader α} {bs rest : Bytes} {o : Option α}
    (h : getFixedOption b get bs = .ok (o, rest)) :
    o.isSome = b ∧ ∀ x, o = some x → ∃ bs' rest', get bs' = .ok (x, rest') := by
  unfold getFixedOption at h
  obtain ⟨b', m, h1, h⟩ := Reader.bind_ok.mp h
  obtain ⟨_, m2, h2, h⟩ := Reader.bind_ok.mp h
  have hb : b' = b := by simpa using (ensure_ok.mp h2).1
  rw [← hb]
  exact getAnnounced_ok h

theorem getMany_ok {α : Type} {get : Reader α} : ∀ {n : Nat} {bs rest : Bytes} {xs : List α},
    getMany get n bs = .ok (xs, rest) →
      xs.length = n ∧ ∀ x ∈ xs, ∃ bs' rest', get bs' = .ok (x, rest')
  | 0, bs, rest, xs, h => by
    obtain ⟨rfl, _⟩ := Reader.pure_ok.mp h
    exact ⟨rfl, fun x hx => by cases hx⟩
  | n + 1, bs, rest, xs, h => by
    unfold getMany at h
    obtain ⟨y, m1, h1, h⟩ := Reader.bind_ok.mp h
    obtain ⟨ys, m2, h2, h⟩ := Reader.bind_ok.mp h
    obtain ⟨rfl, _⟩ := Reader.pure_ok.mp h
    obtain ⟨hl, hx⟩ := getMany_ok h2
    refine ⟨by rw [List.length_cons, hl], fun x hm => ?_⟩
    rcases List.mem_cons.mp hm with rfl | hm
    · exact ⟨_, _, h1⟩
    · exact hx x hm

theorem getFetcher_ok {clock : Word64} {bs rest : Bytes} {d : DataFetcher}
    (h : getFetcher clock bs = .ok (d, rest)) :
    d.rem < Config.genDen ∧ d.last.toNat ≤ clock.toNat := by
  unfold getFetcher at h
  obtain ⟨_, _, _, h⟩ := Reader.bind_ok.mp h
  obtain ⟨_, _, _, h⟩ := Reader.bind_ok.mp h
  obtain ⟨_, _, _, h⟩ := Reader.bind_ok.mp h
  obtain ⟨_, _, _, h⟩ := Reader.bind_ok.mp h
  obtain ⟨r, _, _, h⟩ := Reader.bind_ok.mp h
  obtain ⟨_, _, h1, h⟩ := Reader.bind_ok.mp h
  obtain ⟨l, _, _, h⟩ := Reader.bind_ok.mp h
  obtain ⟨_, _, h2, h⟩ := Reader.bind_ok.mp h
  obtain ⟨rfl, _⟩ := Reader.pure_ok.mp h
  exact ⟨by simpa using (ensure_ok.mp h1).1, by simpa using (ensure_ok.mp h2).1⟩

theorem getCart_ok {E : Env} {clock : Word64} {bs rest : Bytes} {k : Cart}
    (h : getCart E clock bs = .ok (k, rest)) :
    k.Ok E ∧ k.attached = true ∧ ∀ d, k.df = some d → d.last.toNat ≤ clock.toNat := by
  unfold getCart at h
  obtain ⟨tag, _, _, h⟩ := Reader.bind_ok.mp h
  obtain ⟨_, _, _, h⟩ := Reader.bind_ok.mp h
  obtain ⟨rom, _, hrom, h⟩ := Reader.bind_ok.mp h
  obtain ⟨bank, _, hbank, h⟩ := Reader.bind_ok.mp h
  obtain ⟨ram, _, hram, h⟩ := Reader.bind_ok.mp h
  obtain ⟨df, _, hdf, h⟩ := Reader.bind_ok.mp h
  obtain ⟨chip, _, hchip, h⟩ := Reader.bind_ok.mp h
  obtain ⟨rfl, _⟩ := Reader.pure_ok.mp h
  obtain ⟨b1, b2⟩ := getMany_ok hbank
  obtain ⟨r1, r2⟩ := getFixedOption_ok hram
  obtain ⟨d1, d2⟩ := getFixedOption_ok hdf
  obtain ⟨c1, c2⟩ := getFixedOption_ok hchip
  refine ⟨⟨getBytesOf_ok hrom, b1, fun b hb => ?_, ?_, d1, fun d hd => ?_, ?_, fun img hi => ?_⟩, rfl,
    fun d hd => ?_⟩
  · obtain ⟨x, y, e⟩ := b2 b hb
    unfold getBank at e
    obtain ⟨w, _, _, e⟩ := Reader.bind_ok.mp e
    obtain ⟨_, _, e1, e⟩ := Reader.bind_ok.mp e
    obtain ⟨rfl, _⟩ := Reader.pure_ok.mp e
    exact (ensure_ok.mp e1).1
  · show (Memory.ofBytes (ram.getD [])).wf (Config.cartTable tag).rs = true
    refine Memory.wf_ofBytes ?_
    cases hr : ram with
    | none => exact Nat.zero_le _
    | some x =>
      obtain ⟨_, _, e⟩ := r2 x hr
      have := getBytesOf_ok e
      rw [List.mem_singleton] at this
      exact Nat.le_of_eq this
  · obtain ⟨_, _, e⟩ := d2 d hd
    exact (getFetcher_ok e).1
  · show chip.isSome = ((Config.cartTable tag).chip.isSome && true)
    rw [c1, Bool.and_true]
  · obtain ⟨_, _, e⟩ := c2 img hi
    exact getChip_ok e
  · obtain ⟨_, _, e⟩ := d2 d hd
    exact (getFetcher_ok e).2

theorem getCpu_ok {bs rest : Bytes} {r : CpuRecord} (h : getCpu bs = .ok (r, rest)) :
    budgetLegal r.budget r.jammed = true := by
  unfold getCpu at h
  obtain ⟨_, _, _, h⟩ := Reader.bind_ok.mp h
  obtain ⟨_, _, _, h⟩ := Reader.bind_ok.mp h
  obtain ⟨_, _, _, h⟩ := Reader.bind_ok.mp h
  obtain ⟨_, _, _, h⟩ := Reader.bind_ok.mp h
  obtain ⟨_, _, _, h⟩ := Reader.bind_ok.mp h
  obtain ⟨_, _, _, h⟩ := Reader.bind_ok.mp h
  obtain ⟨_, _, _, h⟩ := Reader.bind_ok.mp h
  obtain ⟨_, _, h1, h⟩ := Reader.bind_ok.mp h
  obtain ⟨rfl, _⟩ := Reader.pure_ok.mp h
  exact (ensure_ok.mp h1).1

theorem mem_of_lookup {α β : Type} [BEq α] {k : α} {v : β} : ∀ {l : List (α × β)},
    l.lookup k = some v → ∃ k', (k', v) ∈ l
  | (k', v') :: l, h => by
    rw [List.lookup_cons] at h
    cases e : k == k' <;> rw [e] at h
    · obtain ⟨k'', hm⟩ := mem_of_lookup h
      exact ⟨k'', List.mem_cons_of_mem _ hm⟩
    · cases h; exact ⟨k', List.mem_cons_self⟩

theorem typeNames_real {name : Bytes} {type : MachType}
    (h : Config.typeNames.lookup name = some type) : type ≠ .bare := by
  obtain ⟨k, hm⟩ := mem_of_lookup h
  simp only [Config.typeNames, List.mem_cons, List.not_mem_nil, or_false, Prod.mk.injEq] at hm
  rcases hm with ⟨_, rfl⟩ | ⟨_, rfl⟩ <;> decide

theorem getNamed_ok {α : Type} {names : List (Bytes × α)} {bs rest : Bytes} {x : α}
    (h : getNamed names bs = .ok (x, rest)) : ∃ name, names.lookup name = some x := by
  unfold getNamed at h
  obtain ⟨name, m, _, h⟩ := Reader.bind_ok.mp h
  refine ⟨name, ?_⟩
  cases e : names.lookup name with
  | none => rw [e] at h; cases h
  | some y => rw [e] at h; rw [(Reader.pure_ok.mp h).1]

/-- What every accepted stream says (44_serializer.md R353 to R361). -/
structure Root.Ok (E : Env) (r : Root) : Prop where
  real   : r.type ≠ .bare
  budget : budgetLegal r.cpu.budget r.cpu.jammed = true
  dma    : r.dma.length ≤ Config.maxBytes ∧ imageAccepted E .dma r.dma = true
  input  : r.input.length ≤ Config.maxBytes ∧ imageAccepted E .input r.input = true
  banks  : ∃ b0 b1, r.banks = [b0, b1] ∧ b0.length = Config.ramBankSize ∧
    b1.length = Config.ramBankSize
  bios   : ∀ img, r.bios = some img → img.length ∈ Config.biosSizes
  cart   : ∀ k, r.cart = some k → k.Ok E ∧ k.attached = true
  saved  : ∀ k d, r.cart = some k → k.df = some d → d.last.toNat ≤ r.cpu.clock.toNat

theorem getRoot_ok {E : Env} {bs rest : Bytes} {r : Root} (h : getRoot E bs = .ok (r, rest)) :
    r.Ok E := by
  unfold getRoot at h
  obtain ⟨type, _, htype, h⟩ := Reader.bind_ok.mp h
  obtain ⟨_, _, _, h⟩ := Reader.bind_ok.mp h
  obtain ⟨_, _, _, h⟩ := Reader.bind_ok.mp h
  obtain ⟨_, _, _, h⟩ := Reader.bind_ok.mp h
  obtain ⟨cpu, _, hcpu, h⟩ := Reader.bind_ok.mp h
  obtain ⟨_, _, _, h⟩ := Reader.bind_ok.mp h
  obtain ⟨_, _, _, h⟩ := Reader.bind_ok.mp h
  obtain ⟨_, _, _, h⟩ := Reader.bind_ok.mp h
  obtain ⟨dma, _, hdma, h⟩ := Reader.bind_ok.mp h
  obtain ⟨banks, _, hbanks, h⟩ := Reader.bind_ok.mp h
  obtain ⟨bios, _, hbios, h⟩ := Reader.bind_ok.mp h
  obtain ⟨_, _, _, h⟩ := Reader.bind_ok.mp h
  obtain ⟨input, _, hinput, h⟩ := Reader.bind_ok.mp h
  obtain ⟨cart, _, hcart, h⟩ := Reader.bind_ok.mp h
  obtain ⟨rfl, _⟩ := Reader.pure_ok.mp h
  obtain ⟨b1, b2⟩ := getMany_ok hbanks
  refine ⟨?_, getCpu_ok hcpu, getImage_ok hdma, getImage_ok hinput, ?_, fun img hi => ?_,
    fun k hk => ?_, fun k d hk hd => ?_⟩
  · obtain ⟨name, h⟩ := getNamed_ok htype
    exact typeNames_real h
  · have hlen : ∀ b ∈ banks, b.length = Config.ramBankSize := by
      intro b hb
      obtain ⟨_, _, e⟩ := b2 b hb
      exact List.mem_singleton.mp (getBytesOf_ok e)
    match banks, b1, hlen with
    | [b0, c1], _, hl => exact ⟨b0, c1, rfl, hl b0 (by simp), hl c1 (by simp)⟩
  · obtain ⟨_, _, e⟩ := getOption_ok hbios img hi
    exact getBytesOf_ok e
  · obtain ⟨_, _, e⟩ := getOption_ok hcart k hk
    exact ⟨(getCart_ok e).1, (getCart_ok e).2.1⟩
  · obtain ⟨_, _, e⟩ := getOption_ok hcart k hk
    exact (getCart_ok e).2.2 d hd

theorem parseStream_ok {E : Env} {bs : Bytes} {r : Root} (h : parseStream E bs = .ok r) : r.Ok E := by
  unfold parseStream at h
  split at h
  · cases h
  · next e => cases h; exact getRoot_ok e
  · cases h

/-! ### The restored machine (44_serializer.md R371) -/

/-- The device a record says a handle holds. -/
def Root.device (r : Root) (g : Handle) : Device :=
  if g = 0 then .null
  else if g = 1 then (match r.cart with | some k => .cart k | none => .absent)
  else if g = 2 then .ram Config.ramBankSize (Memory.ofBytes (r.banks.getD 0 []))
  else if g = 3 then .ram Config.ramBankSize (Memory.ofBytes (r.banks.getD 1 []))
  else if g = 4 then .adapter 2 0x003F
  else if g = 5 then .adapter 3 0x007F
  else if g = 6 then biosDevice r.bios
  else .absent

/-- What `restoreMachine` answers for an accepted record. -/
structure Restored (r : Root) (d : Console) : Prop where
  device  : ∀ g, d.device g = r.device g
  page    : ∀ p, p < 1024 → d.pageAt p = machinePage r.bios.isSome (r.cart.map Cart.tag) p
  snooper : d.snooper = machineSnooper (r.cart.map Cart.tag)
  type    : d.type = r.type
  hasBios : d.hasBios = r.bios.isSome
  halt    : d.halt = r.halt
  frame   : d.frame = r.frame
  clock   : d.clock = r.cpu.clock
  budget  : d.budget = r.cpu.budget
  jammed  : d.jammed = r.cpu.jammed
  preempt : d.preempt = r.cpu.preempt
  lbv     : d.lbv = r.lbv
  sched   : d.sched = Sched.idle
  chips   : ∃ ch, d.chips = some ch ∧ ch.cpu = r.cpu.regs ∧ ch.dma = r.dma ∧ ch.input = r.input

theorem loadBanks_eq {banks : List Bytes} {b0 b1 : Bytes} (h : banks = [b0, b1]) (c : Console) :
    loadBanks banks c = (c.setDevice 2 (.ram Config.ramBankSize (Memory.ofBytes b0))).setDevice 3
      (.ram Config.ramBankSize (Memory.ofBytes b1)) := by
  rw [h]; rfl

/-- A console that is a machine of the record's parts, whatever is in the storage and the registers the
record carries (44_serializer.md R371). -/
structure PartsOf (r : Root) (c : Console) : Prop where
  null    : c.device 0 = .null
  noCart  : r.cart = none → c.device 1 = .absent
  other   : ∀ g : Handle, g = 4 ∨ g = 5 ∨ g = 6 ∨ 7 ≤ g.toNat → c.device g = r.device g
  page    : ∀ p, p < 1024 → c.pageAt p = machinePage r.bios.isSome (r.cart.map Cart.tag) p
  snooper : c.snooper = machineSnooper (r.cart.map Cart.tag)
  type    : c.type = r.type
  hasBios : c.hasBios = r.bios.isSome
  sched   : c.sched = Sched.idle
  chips   : c.chips.isSome = true

theorem Root.device_other (r : Root) {g : Handle} (hg : 7 ≤ g.toNat) : r.device g = .absent := by
  unfold Root.device
  have hne : ∀ n : Handle, n.toNat < 7 → g ≠ n := by
    rintro n hn rfl; omega
  simp only [hne 0 (by decide), hne 1 (by decide), hne 2 (by decide), hne 3 (by decide),
    hne 4 (by decide), hne 5 (by decide), hne 6 (by decide), if_false]

theorem MachineFacts.partsOf {E : Env} {r : Root} {c : Console}
    (f : MachineFacts E r.type r.cart r.bios c) : PartsOf r c := by
  refine ⟨f.null, f.noCart, fun g hg => ?_, f.pages, f.snooper, f.registers.type,
    f.registers.hasBios, f.registers.sched, ?_⟩
  · rcases hg with rfl | rfl | rfl | hg
    · exact f.adapter4
    · exact f.adapter5
    · exact f.device6
    · rw [f.others g hg, r.device_other hg]
  · obtain ⟨ch, e⟩ := f.chips
    rw [e]; rfl

/-- Bus accesses and collaborator calls leave the parts. -/
theorem PartsOf.bus {E : Env} {r : Root} {c d : Console} (h : PartsOf r c) (s : BusStep E c d) :
    PartsOf r d := by
  have t := s.touched.topology
  have fixed : ∀ g, (c.device g).constants = c.device g → (∀ k, c.device g ≠ .cart k) →
      (∀ n m, c.device g ≠ .ram n m) → d.device g = c.device g := by
    intro g hc hk hr
    have := t.devices g
    rw [hc] at this
    cases hd : d.device g <;> rw [hd] at this <;> simp only [Device.constants] at this
    case ram n m => exact absurd this.symm (hr _ _)
    case cart k => exact absurd this.symm (hk _)
    all_goals exact this
  refine ⟨?_, fun hn => ?_, fun g hg => ?_, fun p hp => ?_, t.snooper.trans h.snooper,
    t.type.trans h.type, t.hasBios.trans h.hasBios, s.touched.scheduler.sched.trans h.sched, ?_⟩
  · have e := h.null
    exact (fixed 0 (by rw [e]; rfl) (by rw [e]; simp) (by rw [e]; simp)).trans e
  · have e := h.noCart hn
    exact (fixed 1 (by rw [e]; rfl) (by rw [e]; simp) (by rw [e]; simp)).trans e
  · have e := h.other g hg
    rw [← e]
    have hs : (r.device g).constants = r.device g ∧ (∀ k, r.device g ≠ .cart k) ∧
        (∀ n m, r.device g ≠ .ram n m) := by
      rcases hg with rfl | rfl | rfl | hg
      · exact ⟨rfl, by intro k; exact Device.noConfusion, by intro n m; exact Device.noConfusion⟩
      · exact ⟨rfl, by intro k; exact Device.noConfusion, by intro n m; exact Device.noConfusion⟩
      · show (biosDevice r.bios).constants = biosDevice r.bios ∧ (∀ k, biosDevice r.bios ≠ .cart k) ∧
          (∀ n m, biosDevice r.bios ≠ .ram n m)
        cases r.bios <;> simp [biosDevice, Device.constants]
      · rw [r.device_other hg]; simp [Device.constants]
    exact fixed g (by rw [e]; exact hs.1) (by rw [e]; exact hs.2.1) (by rw [e]; exact hs.2.2)
  · rw [Console.pageAt_congr t.page]; exact h.page p hp
  · have := s.cpu.honest
    rw [← Option.isSome_map (f := Chips.dmaHonest), this, Option.isSome_map]
    exact h.chips

/-- The record put in its place makes the parts the machine of the stream (44_serializer.md R371). -/
theorem PartsOf.loaded {E : Env} {r : Root} (h : r.Ok E) {c : Console} (f : PartsOf r c) :
    Restored r (loadRecord r c) := by
  obtain ⟨b0, b1, hb, _, _⟩ := h.banks
  have hp : (placeCart r.cart c).page = c.page ∧ (placeCart r.cart c).snooper = c.snooper ∧
      (placeCart r.cart c).type = c.type ∧ (placeCart r.cart c).hasBios = c.hasBios ∧
      (placeCart r.cart c).sched = c.sched ∧ (placeCart r.cart c).chips = c.chips := by
    cases r.cart <;> exact ⟨rfl, rfl, rfl, rfl, rfl, rfl⟩
  have hd : ∀ g, (placeCart r.cart c).device g =
      if g = 1 then (match r.cart with | some k => .cart k | none => .absent) else c.device g := by
    intro g
    cases hc : r.cart with
    | none =>
      simp only [placeCart]
      split
      · next e => rw [e]; exact f.noCart hc
      · rfl
    | some k => exact Console.device_setDevice c 1 g (.cart k)
  obtain ⟨ch, hch⟩ := Option.isSome_iff_exists.mp f.chips
  have dev : (loadRecord r c).dev = (loadBanks r.banks (placeCart r.cart c)).dev := rfl
  have page : (loadRecord r c).page = (placeCart r.cart c).page := by
    show (loadBanks r.banks (placeCart r.cart c)).page = _
    rw [loadBanks_eq hb]; rfl
  have regs : (loadRecord r c).snooper = c.snooper ∧ (loadRecord r c).type = c.type ∧
      (loadRecord r c).hasBios = c.hasBios ∧ (loadRecord r c).sched = c.sched ∧
      (loadBanks r.banks (placeCart r.cart c)).chips = c.chips := by
    show (loadBanks r.banks (placeCart r.cart c)).snooper = _ ∧
      (loadBanks r.banks (placeCart r.cart c)).type = _ ∧
      (loadBanks r.banks (placeCart r.cart c)).hasBios = _ ∧
      (loadBanks r.banks (placeCart r.cart c)).sched = _ ∧ _
    rw [loadBanks_eq hb]
    exact ⟨hp.2.1, hp.2.2.1, hp.2.2.2.1, hp.2.2.2.2.1, hp.2.2.2.2.2⟩
  refine ⟨fun g => ?_, fun p hp' => ?_, regs.1.trans f.snooper, regs.2.1.trans f.type,
    regs.2.2.1.trans f.hasBios, rfl, rfl, rfl, rfl, rfl, rfl, rfl, regs.2.2.2.1.trans f.sched, ?_⟩
  · rw [Console.device_congr dev, loadBanks_eq hb, Console.device_setDevice, Console.device_setDevice, hd]
    unfold Root.device
    rcases handle_cases g with rfl | rfl | rfl | rfl | rfl | rfl | rfl | hg
    · simpa using f.null
    · simp
    · simp [hb]
    · simp [hb]
    · exact f.other 4 (by decide)
    · exact f.other 5 (by decide)
    · exact f.other 6 (by decide)
    · have hne : ∀ n : Handle, n.toNat < 7 → g ≠ n := by
        rintro n hn rfl; omega
      simp only [hne 0 (by decide), hne 1 (by decide), hne 2 (by decide), hne 3 (by decide),
        hne 4 (by decide), hne 5 (by decide), hne 6 (by decide), if_false]
      exact (f.other g (.inr (.inr (.inr hg)))).trans (r.device_other hg)
  · rw [Console.pageAt_congr page, Console.pageAt_congr hp.1]
    exact f.page p hp'
  · show ∃ x, Option.map _ (loadBanks r.banks (placeCart r.cart c)).chips = some x ∧ _
    rw [regs.2.2.2.2, hch]
    exact ⟨_, rfl, rfl, rfl, rfl⟩

theorem loadChip_step (E : Env) (cart : Option Cart) (c : Console) : BusStep E c (loadChip E cart c) := by
  unfold loadChip
  split
  · exact .refl E c
  · split
    · exact BusStep.call E _ c
    · exact .refl E c

/-- What `Restored` says of the parts. -/
theorem Restored.partsOf {r : Root} {d : Console} (h : Restored r d) : PartsOf r d := by
  obtain ⟨ch, e, _⟩ := h.chips
  exact ⟨h.device 0, fun hn => (h.device 1).trans (by simp [Root.device, hn]), fun g _ => h.device g,
    h.page, h.snooper, h.type, h.hasBios, h.sched, by rw [e]; rfl⟩

theorem restored {E : Env} {r : Root} (h : r.Ok E) {calls : List Call} {d : Console}
    (e : restoreMachine E r calls = .ok d) : Restored r d := by
  obtain ⟨c0, h0, e⟩ := Except.bind_ok_iff.mp e
  obtain ⟨c1, h1, e⟩ := Except.bind_ok_iff.mp e
  cases e
  have f0 := ((machine_facts (E := E) h.real r.cart r.bios h.bios calls).partsOf).bus
    (construct_step h.real h0)
  have f1 := ((f0.loaded h).partsOf.bus (BusStep.note E _ _)).bus (dmaCall_step h1)
  exact ((f1.bus (BusStep.call E _ c1)).bus (loadChip_step E r.cart _)).loaded h

theorem Restored.cart? {r : Root} {d : Console} (h : Restored r d) : d.cart? = r.cart := by
  unfold Console.cart?
  rw [h.device, show r.device cartHandle = (match r.cart with | some k => .cart k | none => .absent)
    from rfl]
  cases r.cart <;> rfl

/-- A restored machine is well formed. -/
theorem Restored.ok {E : Env} {r : Root} {d : Console} (h : Restored r d) (hr : r.Ok E) : d.Ok E := by
  have htag : d.cartTag = r.cart.map Cart.tag := by unfold Console.cartTag; rw [h.cart?]
  obtain ⟨b0, b1, hb, l0, l1⟩ := hr.banks
  obtain ⟨ch, hch, _, hd, hi⟩ := h.chips
  have shape : MachineShape E d := by
    refine ⟨h.device 0, ?_, ⟨_, h.device 2, ?_⟩, ⟨_, h.device 3, ?_⟩, h.device 4, h.device 5, ?_,
      fun g hg => ?_, fun p hp => ?_, ?_⟩
    · have d1 : d.device 1 = (match r.cart with | some k => .cart k | none => .absent) := h.device 1
      cases e : r.cart with
      | none => rw [e] at d1; exact .inl ⟨d1, by rw [htag, e]; rfl⟩
      | some k =>
        rw [e] at d1
        exact .inr ⟨k, d1, (hr.cart k e).1, (hr.cart k e).2⟩
    · exact Memory.wf_ofBytes (by rw [hb]; exact Nat.le_of_eq l0)
    · exact Memory.wf_ofBytes (by rw [hb]; exact Nat.le_of_eq l1)
    · have d6 : d.device 6 = biosDevice r.bios := h.device 6
      have hbs := h.hasBios
      cases e : r.bios with
      | none => rw [e] at d6 hbs; exact .inl ⟨d6, hbs⟩
      | some img => rw [e] at d6 hbs; exact .inr ⟨img, d6, hr.bios img e, hbs⟩
    · rw [h.device]
      unfold Root.device
      have hne : ∀ n : Handle, n.toNat < 7 → g ≠ n := by
        rintro n hn rfl; omega
      simp only [hne 0 (by decide), hne 1 (by decide), hne 2 (by decide), hne 3 (by decide),
        hne 4 (by decide), hne 5 (by decide), hne 6 (by decide), if_false]
    · rw [h.page p hp, h.hasBios, htag]
    · rw [h.snooper, htag]
  refine shape.ok (by rw [h.type]; exact hr.real) ?_ h.sched ⟨ch, hch⟩ fun ch' e => ?_
  · unfold Console.carryLegal
    rw [h.budget, h.jammed]; exact hr.budget
  · rw [hch] at e
    cases e
    rw [hd, hi]
    exact ⟨hr.dma, hr.input⟩

/-- An accepted record has its machine (44_serializer.md R371). -/
theorem restoreMachine_total {E : Env} {r : Root} (h : r.Ok E) (calls : List Call) :
    ∃ d, restoreMachine E r calls = .ok d ∧ Restored r d := by
  obtain ⟨c0, h0⟩ := construct_total (fun k hk => (h.cart k hk).1) (fun _ => h.bios) calls
  have f := ((machine_facts (E := E) h.real r.cart r.bios h.bios calls).partsOf.bus
    (construct_step h.real h0)).loaded h
  have ok := f.ok h
  have s := BusStep.note E (loadRecord r c0) (.cpu (.loadState r.cpu.regs.pc r.cpu.regs.regs))
  have ready : (loadRecord r c0).CartReady := fun k hk =>
    .inl (h.cart k (by rw [← f.cart?]; exact hk)).2
  obtain ⟨c1, h1⟩ := dmaCall_total (ok.bus s).wired (s.ready ok.wired ready) (.loadState r.dma)
  have e : restoreMachine E r calls =
      .ok (loadRecord r (loadChip E r.cart (c1.call E (.inputLoad r.input)))) :=
    Except.bind_ok_iff.mpr ⟨c0, h0, Except.bind_ok_iff.mpr ⟨c1, h1, rfl⟩⟩
  exact ⟨_, e, restored h e⟩

end Sys2Proof.Machine
end

