-- ==== Sys2Proof/Laws/Exec.lean ====
section
/-! SUPPORT. One lemma per meaning: every next state it can answer with. A command turned away leaves
`raised e`: everything as it was but `STATUS` (60_exceptions.md R406). -/

namespace Sys2Proof.Machine

/-- The state after an `Error` or `Refused` outcome. -/
abbrev State.raised (s : State) (e : Status) : State := { s with status := e }

theorem raise_next {e : Status} {s t : State} : raise e s = .next t ↔ t = s.raised e := by
  constructor
  · intro h; cases h; rfl
  · rintro rfl; rfl

theorem complete_next {s t : State} : complete s = .next t ↔ t = { s with status := .ok } := by
  constructor
  · intro h; cases h; rfl
  · rintro rfl; rfl

theorem completeWith_next {r : Byte} {s t : State} :
    completeWith r s = .next t ↔ t = { s with status := .ok, result := r } := by
  constructor
  · intro h; cases h; rfl
  · rintro rfl; rfl

variable {s t : State}

/-- 43_scheduler.md R280 -/
theorem execMkmach_next {type : Nat} {useCart hasBios : Bool}
    (h : execMkmach type useCart hasBios s = .next t) :
    (Config.typeCodes.lookup type = none ∧ t = s.raised .badMachineTag) ∨
      ∃ ty, Config.typeCodes.lookup type = some ty ∧
        ((useCart = true ∧ s.stage = none ∧ t = s.raised .refusedBadOperand) ∨
          (hasBios = true ∧ ty = .bare ∧ t = s.raised .refusedBadOperand) ∨
          (hasBios = true ∧ s.romPort.length ∉ Config.biosSizes ∧ t = s.raised .badRomSize) ∨
          ((hasBios = true → ty ≠ .bare ∧ s.romPort.length ∈ Config.biosSizes) ∧
            ∃ c, buildMachine Env.hw ty (if useCart then s.stage else none)
                (if hasBios then some s.romPort else none) s.calls = .ok c ∧
              t = { s with console := some c, stage := if useCart then none else s.stage,
                           status := .ok })) := by
  unfold execMkmach at h
  split at h
  · next hl => exact .inl ⟨hl, raise_next.mp h⟩
  · next ty hl =>
    refine .inr ⟨ty, hl, ?_⟩
    split at h
    · next h1 => exact .inl ⟨h1.1, h1.2, raise_next.mp h⟩
    · split at h
      · next h2 => exact .inr (.inl ⟨h2.1, h2.2, raise_next.mp h⟩)
      · next h2 =>
        split at h
        · next h3 => exact .inr (.inr (.inl ⟨h3.1, h3.2, raise_next.mp h⟩))
        · next h3 =>
          split at h
          · next c hc =>
            refine .inr (.inr (.inr ⟨fun hb => ⟨fun e => h2 ⟨hb, e⟩, ?_⟩, c, hc, complete_next.mp h⟩))
            by_contra hn
            exact h3 ⟨hb, hn⟩
          · cases h

theorem selectVariant_error {tag n : Nat} {e : Status} (h : selectVariant tag n = .error e) :
    e = .badCartTag ∨ e = .badRomSize := by
  unfold selectVariant at h
  simp only at h
  split at h
  · cases h; exact .inl rfl
  · split at h
    · cases h; exact .inr rfl
    · split at h <;> cases h
      exact .inr rfl

/-- 41_cart_family.md R180 -/
theorem execMkcart_next {tag : Nat} (h : execMkcart tag s = .next t) :
    (∃ e, selectVariant tag s.romPort.length = .error e ∧ t = s.raised e) ∨
      ∃ v, selectVariant tag s.romPort.length = .ok v ∧
        t = { s with stage := some (newCart v s.romPort s.mcSel), mcSel := nextMcSel v s.mcSel,
                     status := .ok } := by
  unfold execMkcart at h
  split at h
  · next e he => exact .inl ⟨e, he, raise_next.mp h⟩
  · next v hv => exact .inr ⟨v, hv, complete_next.mp h⟩

/-- The three answers a bench command that is turned away can give. -/
def BenchRefused (s t : State) (codes : List Status) : Prop :=
  (s.bench = none ∧ t = s.raised .refusedPhase) ∨
    (s.bench ≠ none ∧ ∃ e ∈ codes, t = s.raised e)

/-- 40_address_space.md R143 -/
theorem execMkram_next {dev : Handle} {size : Nat} (h : execMkram dev size s = .next t) :
    BenchRefused s t [.refusedBadHandle, .refusedBadOperand] ∨
      ∃ c, s.bench = some c ∧ c.freeHandle dev = true ∧ size ∈ blockSizes ∧
        t = { s with console := some (c.setDevice dev (newRam size)), status := .ok } := by
  unfold execMkram at h
  split at h
  · next hb => exact .inl (.inl ⟨hb, raise_next.mp h⟩)
  · next c hb =>
    have hne : s.bench ≠ none := by simp [hb]
    split at h
    · next hf =>
      split at h
      · next hs => exact .inr ⟨c, hb, hf, hs, complete_next.mp h⟩
      · exact .inl (.inr ⟨hne, _, by simp, raise_next.mp h⟩)
    · exact .inl (.inr ⟨hne, _, by simp, raise_next.mp h⟩)

/-- 40_address_space.md R144 -/
theorem execMkrom_next {dev : Handle} (h : execMkrom dev s = .next t) :
    BenchRefused s t [.refusedBadHandle, .refusedBadOperand] ∨
      ∃ c, s.bench = some c ∧ c.freeHandle dev = true ∧ s.romPort.length ∈ blockSizes ∧
        t = { s with console := some (c.setDevice dev (.rom s.romPort)), status := .ok } := by
  unfold execMkrom at h
  split at h
  · next hb => exact .inl (.inl ⟨hb, raise_next.mp h⟩)
  · next c hb =>
    have hne : s.bench ≠ none := by simp [hb]
    split at h
    · next hf =>
      split at h
      · next hs => exact .inr ⟨c, hb, hf, hs, complete_next.mp h⟩
      · exact .inl (.inr ⟨hne, _, by simp, raise_next.mp h⟩)
    · exact .inl (.inr ⟨hne, _, by simp, raise_next.mp h⟩)

/-- 40_address_space.md R146 -/
theorem execMkadp_next {dev : Handle} {mask : Addr} {chip : Byte}
    (h : execMkadp dev mask chip s = .next t) :
    BenchRefused s t [.refusedBadHandle, .refusedBadOperand] ∨
      ∃ c, s.bench = some c ∧ c.freeHandle dev = true ∧ chip ≠ 0 ∧
        t = { s with console := some (c.setDevice dev (.adapter chip mask)), status := .ok } := by
  unfold execMkadp at h
  split at h
  · next hb => exact .inl (.inl ⟨hb, raise_next.mp h⟩)
  · next c hb =>
    have hne : s.bench ≠ none := by simp [hb]
    split at h
    · next hf =>
      split at h
      · exact .inl (.inr ⟨hne, _, by simp, raise_next.mp h⟩)
      · next hs => exact .inr ⟨c, hb, hf, hs, complete_next.mp h⟩
    · exact .inl (.inr ⟨hne, _, by simp, raise_next.mp h⟩)

/-- 41_cart_family.md R186 -/
theorem execAttach_next {dev : Handle} (h : execAttach dev s = .next t) :
    BenchRefused s t [.refusedBadHandle, .refusedBadOperand] ∨
      ∃ c k, s.bench = some c ∧ c.namedCart dev = some k ∧ k.attached = false ∧
        t = { s with console := some (attach Env.hw c), status := .ok } := by
  unfold execAttach at h
  split at h
  · next hb => exact .inl (.inl ⟨hb, raise_next.mp h⟩)
  · next c hb =>
    have hne : s.bench ≠ none := by simp [hb]
    split at h
    · exact .inl (.inr ⟨hne, _, by simp, raise_next.mp h⟩)
    · next k hk =>
      split at h
      · exact .inl (.inr ⟨hne, _, by simp, raise_next.mp h⟩)
      · next ha => exact .inr ⟨c, k, hb, hk, by simpa using ha, complete_next.mp h⟩

/-- 40_address_space.md R147 -/
theorem execMap_next {dev : Handle} {base : Addr} {size : Nat}
    (h : execMap dev base size s = .next t) :
    BenchRefused s t [.refusedBadHandle] ∨
      ∃ c, s.bench = some c ∧ c.device dev ≠ .absent ∧
        t = { s with console := some (mapPages base size dev c), status := .ok } := by
  unfold execMap at h
  split at h
  · next hb => exact .inl (.inl ⟨hb, raise_next.mp h⟩)
  · next c hb =>
    have hne : s.bench ≠ none := by simp [hb]
    split at h
    · exact .inl (.inr ⟨hne, _, by simp, raise_next.mp h⟩)
    · next hd => exact .inr ⟨c, hb, hd, complete_next.mp h⟩

/-- 40_address_space.md R149 -/
theorem execMapc_next {dev : Handle} {base : Addr} {size : Nat}
    (h : execMapc dev base size s = .next t) :
    BenchRefused s t [.refusedBadHandle] ∨
      ∃ c k, s.bench = some c ∧ dev = 1 ∧ c.cart? = some k ∧
        t = { s with console := some (mapCart base size c), status := .ok } := by
  unfold execMapc at h
  split at h
  · next hb => exact .inl (.inl ⟨hb, raise_next.mp h⟩)
  · next c hb =>
    have hne : s.bench ≠ none := by simp [hb]
    split at h
    · next hd =>
      obtain ⟨k, hk⟩ := Option.isSome_iff_exists.mp hd.2
      exact .inr ⟨c, k, hb, hd.1, hk, complete_next.mp h⟩
    · exact .inl (.inr ⟨hne, _, by simp, raise_next.mp h⟩)

/-- 41_cart_family.md R189 -/
theorem execSelfmap_next {dev : Handle} (h : execSelfmap dev s = .next t) :
    BenchRefused s t [.refusedBadHandle] ∨
      ∃ c k, s.bench = some c ∧ c.namedCart dev = some k ∧
        t = { s with console := some (selfMap c).2, status := .ok, result := bit (selfMap c).1 } := by
  unfold execSelfmap at h
  split at h
  · next hb => exact .inl (.inl ⟨hb, raise_next.mp h⟩)
  · next c hb =>
    have hne : s.bench ≠ none := by simp [hb]
    split at h
    · exact .inl (.inr ⟨hne, _, by simp, raise_next.mp h⟩)
    · next k hk => exact .inr ⟨c, k, hb, hk, completeWith_next.mp h⟩

/-- 40_address_space.md R151 -/
theorem execDreset_next {dev : Handle} (h : execDreset dev s = .next t) :
    BenchRefused s t [.refusedBadHandle] ∨
      ∃ c, s.bench = some c ∧ c.device dev ≠ .absent ∧
        t = { s with console := some (devReset Env.hw dev c), status := .ok } := by
  unfold execDreset at h
  split at h
  · next hb => exact .inl (.inl ⟨hb, raise_next.mp h⟩)
  · next c hb =>
    have hne : s.bench ≠ none := by simp [hb]
    split at h
    · exact .inl (.inr ⟨hne, _, by simp, raise_next.mp h⟩)
    · next hd => exact .inr ⟨c, hb, hd, complete_next.mp h⟩

/-- 43_scheduler.md R283 -/
theorem execMreset_next (h : execMreset s = .next t) :
    (s.running = none ∧ t = s.raised .refusedPhase) ∨
      ∃ c d, s.running = some c ∧ machineReset Env.hw c = .ok d ∧
        t = { s with console := some d, status := .ok } := by
  unfold execMreset at h
  split at h
  · next hr => exact .inl ⟨hr, raise_next.mp h⟩
  · next c hr =>
    split at h
    · next d hd => exact .inr ⟨c, d, hr, hd, complete_next.mp h⟩
    · cases h

/-- 40_address_space.md R152 -/
theorem execRd_next {a : Addr} (h : execRd a s = .next t) :
    (s.console = none ∧ t = s.raised .refusedPhase) ∨
      ∃ c v d, s.console = some c ∧ memRead Env.hw a.toNat c = .ok (v, d) ∧
        t = { s with console := some d, status := .ok, result := v } := by
  unfold execRd at h
  split at h
  · next hc => exact .inl ⟨hc, raise_next.mp h⟩
  · next c hc =>
    split at h
    · next v d hd => exact .inr ⟨c, v, d, hc, hd, completeWith_next.mp h⟩
    · cases h

/-- 40_address_space.md R153 -/
theorem execWr_next {a : Addr} {v : Byte} (h : execWr a v s = .next t) :
    (s.console = none ∧ t = s.raised .refusedPhase) ∨
      ∃ c d, s.console = some c ∧ memWrite Env.hw a.toNat v c = .ok d ∧
        t = { s with console := some d, status := .ok } := by
  unfold execWr at h
  split at h
  · next hc => exact .inl ⟨hc, raise_next.mp h⟩
  · next c hc =>
    split at h
    · next d hd => exact .inr ⟨c, d, hc, hd, complete_next.mp h⟩
    · cases h

/-- 40_address_space.md R152 -/
theorem execBusRd_next {a : Addr} (h : execBusRd a s = .next t) :
    ∃ c v d, s.console = some c ∧ memRead Env.hw a.toNat c = .ok (v, d) ∧
      t = { s with console := some d, busData := v } := by
  unfold execBusRd at h
  split at h
  · cases h
  · next c hc =>
    split at h
    · next v d hd => cases h; exact ⟨c, v, d, hc, hd, rfl⟩
    · cases h

/-- 40_address_space.md R153 -/
theorem execBusWr_next {a : Addr} {v : Byte} (h : execBusWr a v s = .next t) :
    ∃ c d, s.console = some c ∧ memWrite Env.hw a.toNat v c = .ok d ∧
      t = { s with console := some d } := by
  unfold execBusWr at h
  split at h
  · cases h
  · next c hc =>
    split at h
    · next d hd => cases h; exact ⟨c, d, hc, hd, rfl⟩
    · cases h

/-- 43_scheduler.md R291, R314 -/
theorem execFrame_next (h : execFrame s = .next t) :
    (s.running = none ∧ t = s.raised .refusedPhase) ∨
      ∃ c, s.running = some c ∧
        (((c.halt = true ∨ c.jammed = true) ∧ t = { s with status := .ok, result := 1 }) ∨
          (c.halt = false ∧ c.jammed = false ∧ ∃ u d, runFrame Env.hw c = .ok (u, d) ∧
            t = { s with console := some d, status := .ok, result := u.code })) := by
  unfold execFrame at h
  split at h
  · next hr => exact .inl ⟨hr, raise_next.mp h⟩
  · next c hr =>
    refine .inr ⟨c, hr, ?_⟩
    split at h
    · next hh => exact .inl ⟨by simpa using hh, completeWith_next.mp h⟩
    · next hh =>
      simp only [Bool.or_eq_true, not_or, Bool.not_eq_true] at hh
      split at h
      · next u d hd => exact .inr ⟨hh.1, hh.2, u, d, hd, completeWith_next.mp h⟩
      · cases h

/-- 43_scheduler.md R310 -/
theorem execPoll_next (h : execPoll s = .next t) :
    (s.running = none ∧ t = s.raised .refusedPhase) ∨
      ∃ c, s.running = some c ∧ t = { s with status := .ok, result := bit c.halt } := by
  unfold execPoll at h
  split at h
  · next hr => exact .inl ⟨hr, raise_next.mp h⟩
  · next c hr => exact .inr ⟨c, hr, completeWith_next.mp h⟩

/-- 44_serializer.md R370 -/
theorem execSave_next (h : execSave s = .next t) :
    (s.running = none ∧ t = s.raised .refusedPhase) ∨
      ∃ c ch, s.console = some c ∧ c.chips = some ch ∧
        t = { s with sout := putRoot c ch, status := .ok } := by
  unfold execSave at h
  split at h
  · next hc => exact .inl ⟨by simp [State.running, hc], raise_next.mp h⟩
  · next c hc =>
    split at h
    · next hch =>
      exact .inl ⟨by simp [State.running, hc, Console.phase, hch, Option.filter], raise_next.mp h⟩
    · next ch hch => exact .inr ⟨c, ch, hc, hch, complete_next.mp h⟩

/-- 44_serializer.md R371 -/
theorem execRestore_next (h : execRestore s = .next t) :
    (∃ e, parseStream Env.hw s.sin = .error e ∧ t = s.raised e) ∨
      ∃ r c, parseStream Env.hw s.sin = .ok r ∧ restoreMachine Env.hw r s.calls = .ok c ∧
        t = { s with console := some c, cur := none, status := .ok } := by
  unfold execRestore at h
  split at h
  · next e he => exact .inl ⟨e, he, raise_next.mp h⟩
  · next r hr =>
    split at h
    · next c hc => exact .inr ⟨r, c, hr, hc, complete_next.mp h⟩
    · cases h

/-- `RESTORE` of a stream that parses completes in every state (44_serializer.md R371). -/
theorem execRestore_total {r : Root} (h : parseStream Env.hw s.sin = .ok r) :
    ∃ d, execRestore s = .next { s with console := some d, cur := none, status := .ok } ∧
      Restored r d := by
  obtain ⟨d, e, hd⟩ := restoreMachine_total (parseStream_ok h) s.calls
  refine ⟨d, ?_, hd⟩
  unfold execRestore
  rw [h]
  simp only
  rw [e]; rfl

end Sys2Proof.Machine
end

