-- ==== Sys2Proof/Laws/Faults.lean ====
section
/-! SUPPORT. Which faults a well-formed machine can end with (60_exceptions.md R401, R408), operation by
operation. -/

namespace Sys2Proof.Machine

theorem Except.bind_error_iff {ε α β : Type} {x : Except ε α} {f : α → Except ε β} {e : ε} :
    (x >>= f) = .error e ↔ x = .error e ∨ ∃ a, x = .ok a ∧ f a = .error e := by
  cases x <;> simp [bind, Except.bind]

variable {E : Env}

/-- A computation that cannot be both. -/
theorem Except.absurd_total {α : Type} {x : Except Fault α} {f : Fault} (h : x = .error f)
    (g : ∃ r, x = .ok r) : False := by
  obtain ⟨r, hr⟩ := g
  rw [hr] at h
  cases h

theorem regRead_error {att : Bool} {clock : Word64} {rom : Bytes} (hlen : rom.length = 0x3000)
    {o : Nat} {d : DataFetcher} {f : Fault} (h : regRead att clock rom o d = .error f) :
    f = .chipNotAttached ∧ att = false := by
  cases att with
  | true => exact (Except.absurd_total h (regRead_total hlen o d)).elim
  | false =>
    obtain ⟨r, hr⟩ := regRead_total (clock := clock) hlen o d
    unfold regRead at h hr
    simp only at h hr
    cases hm : Config.dfReadMap o <;> rw [hm] at h hr <;> simp only at h hr
    case wave => cases h; exact ⟨rfl, rfl⟩
    all_goals rw [hr] at h; cases h

theorem regWrite_error {att : Bool} {clock : Word64} {o : Nat} {b : Byte} {d : DataFetcher}
    {f : Fault} (h : regWrite att clock o b d = .error f) : f = .chipNotAttached ∧ att = false := by
  cases att with
  | true => exact (Except.absurd_total h (regWrite_total clock o b d)).elim
  | false =>
    unfold regWrite writeVfreq at h
    simp only [Bool.false_eq_true, if_false] at h
    repeat' split at h
    all_goals first | (cases h; exact ⟨rfl, rfl⟩) | cases h

/-- 41_cart_family.md R217 -/
theorem cartRead_error {k : Cart} (hk : k.Ok E) {a : Addr} {c : Console} {f : Fault}
    (h : cartRead E a k c = .error f) : f = .chipNotAttached ∧ ¬k.Ready := by
  refine ⟨?_, fun hr => Except.absurd_total h (cartRead_total hk hr a c)⟩
  by_cases hready : k.Ready
  · exact (Except.absurd_total h (cartRead_total hk hready a c)).elim
  have hatt : k.attached = false := by
    cases ha : k.attached
    · rfl
    · exact absurd (.inl ha) hready
  have hnb : k.variant.family ≠ .fixed → k.variant.family ≠ .chipAug → k.variant.nb = 1 := nb_eq_one
  unfold cartRead at h
  split at h
  · simp only [hk.fixedByte, Except.ok_bind] at h; cases h
  · next hf =>
    obtain ⟨r, e⟩ := hk.latchedRead (hnb (by simp [hf]) (by simp [hf])) a
    rw [e] at h; cases h
  · next hf =>
    obtain ⟨r, e⟩ := hk.latchedRead (hnb (by simp [hf]) (by simp [hf])) a
    simp only [e, Except.ok_bind] at h
    split at h <;> cases h
  · split at h
    · rw [hatt, if_neg Bool.false_ne_true] at h
      cases h; rfl
    · simp only [hk.fixedByte, Except.ok_bind] at h; cases h
  · next hf =>
    simp only [hk.bankedByte (hnb (by simp [hf]) (by simp [hf])), Except.ok_bind] at h; cases h
  · next hf =>
    obtain ⟨d, hd⟩ := hk.df_of_fetcher hf
    have hlen := hk.rom_of_fetcher hf
    have hlt := windowOffset_lt a
    have hle := (hk.updateBank a).bank_le (by simpa using hnb (by simp [hf]) (by simp [hf]))
    have hbl : bankedLength k.variant k.rom.length = 0x2000 := by
      simp [bankedLength, hf, hlen, Config.displaySize]
    simp only [Cart.updateBank_variant, Cart.updateBank_rom, hbl] at hle
    simp only at h
    split at h
    · simp only [Cart.fetcher, hd, Except.ok_bind] at h
      rcases Except.bind_error_iff.mp h with h | ⟨_, _, h⟩
      · exact (regRead_error hlen h).1
      · cases h
    · split at h
      · cases h
      · rw [romByte_of_lt (by rw [Cart.updateBank_rom, hlen]; omega)] at h
        cases h

theorem cartWrite_error {k : Cart} (hk : k.Ok E) {a : Addr} {b : Byte} {c : Console} {f : Fault}
    (h : cartWrite E a b k c = .error f) : f = .chipNotAttached ∧ ¬k.Ready := by
  refine ⟨?_, fun hr => Except.absurd_total h (cartWrite_total hk hr a b c)⟩
  by_cases hready : k.Ready
  · exact (Except.absurd_total h (cartWrite_total hk hready a b c)).elim
  have hatt : k.attached = false := by
    cases ha : k.attached
    · rfl
    · exact absurd (.inl ha) hready
  unfold cartWrite at h
  split at h
  · cases h
  · cases h
  · simp only at h
    split at h <;> cases h
  · split at h
    · rw [hatt, if_neg Bool.false_ne_true] at h
      cases h; rfl
    · cases h
  · cases h
  · next hf =>
    obtain ⟨d, hd⟩ := hk.df_of_fetcher hf
    simp only at h
    split at h
    · cases h
    · split at h
      · simp only [Cart.fetcher, hd, Except.ok_bind] at h
        rcases Except.bind_error_iff.mp h with h | ⟨_, _, h⟩
        · exact (regWrite_error h).1
        · cases h
      · cases h

theorem devRead_error {g : Handle} {c : Console} (hw : c.Wired E) (hp : c.device g ≠ .absent)
    {a : Addr} {f : Fault} (h : devRead E g a c = .error f) : f = .chipNotAttached := by
  have hok := hw.devices g
  unfold devRead at h
  split at h
  · next e => exact absurd e hp
  · cases h
  · cases h
  · next img e =>
    rw [e] at hok
    have : 0 < img.length := by
      have : img.length ∈ blockSizes := hok
      simp only [blockSizes, List.mem_cons, List.not_mem_nil, or_false] at this
      omega
    rw [romByte_of_lt (reduceBy_lt a this)] at h
    cases h
  · cases h
  · next k e =>
    rw [e] at hok
    rcases Except.bind_error_iff.mp h with h | ⟨_, _, h⟩
    · exact (cartRead_error hok h).1
    · cases h

theorem devWrite_error {g : Handle} {c : Console} (hw : c.Wired E) (hp : c.device g ≠ .absent)
    {a : Addr} {b : Byte} {f : Fault} (h : devWrite E g a b c = .error f) :
    f = .chipNotAttached := by
  have hok := hw.devices g
  unfold devWrite at h
  split at h
  · next e => exact absurd e hp
  · cases h
  · cases h
  · cases h
  · cases h
  · next k e =>
    rw [e] at hok
    rcases Except.bind_error_iff.mp h with h | ⟨_, _, h⟩
    · exact (cartWrite_error hok h).1
    · cases h

/-- A bus read of a well-formed address space can only end with `Fault.ChipNotAttached`. -/
theorem memRead_error {c : Console} (hw : c.Wired E) {addr : Nat} {f : Fault}
    (h : memRead E addr c = .error f) : f = .chipNotAttached := by
  unfold memRead at h
  simp only at h
  rcases Except.bind_error_iff.mp h with h | ⟨⟨s, c1⟩, h1, h⟩
  · exact devRead_error hw hw.snooper h
  · have s1 := ((devRead_step h1).bus.trans (.latch E c1 s)).wired hw
    rcases Except.bind_error_iff.mp h with h | ⟨_, _, h⟩
    · exact devRead_error s1 (s1.mapped _) h
    · cases h

/-- A bus write of a well-formed address space can only end with `Fault.ChipNotAttached`. -/
theorem memWrite_error {c : Console} (hw : c.Wired E) {addr : Nat} {b : Byte} {f : Fault}
    (h : memWrite E addr b c = .error f) : f = .chipNotAttached := by
  unfold memWrite at h
  simp only at h
  have s0 := (BusStep.latch E c b).wired hw
  rcases Except.bind_error_iff.mp h with h | ⟨c1, h1, h⟩
  · exact devWrite_error s0 s0.snooper h
  · have s1 := (devWrite_step h1).bus.wired s0
    exact devWrite_error s1 (s1.mapped _) h

theorem dmaProcessing_error {c : Console} (hw : c.Wired E) (ha : c.Attached) {f : Fault}
    (h : dmaProcessing E c = .error f) : f = .badDmaClocks := by
  unfold dmaProcessing at h
  simp only at h
  have s := BusStep.call E (.dma .doProcessing) c
  rcases Except.bind_error_iff.mp h with h | ⟨⟨x, c1⟩, _, h⟩
  · exact (Except.absurd_total h (runProgram_total _ (s.wired hw) (s.ready hw ha.ready))).elim
  · split at h <;> cases h
    rfl

/-- A scanline of a well-formed machine can only end with `Fault.BadDmaClocks`. -/
theorem scanline_error (hE : E.debugChecks = false) {i : Nat} {c : Console} (hw : c.Wired E)
    (ha : c.Attached) (hc : c.Carry) {f : Fault} (h : scanline E i c = .error f) :
    f = .badDmaClocks := by
  unfold scanline at h
  simp only [hE, Bool.false_and, Bool.false_eq_true, if_false] at h
  rcases Except.bind_error_iff.mp h with h | ⟨c1, e1, h⟩
  · exact (Except.absurd_total h (firstSlice_total hw ha)).elim
  obtain ⟨m1, _, _, s1, b1, b2, _, _, post⟩ := firstSlice_step e1 hc
  split at h
  · cases h
  · next hj =>
    have hj : c1.jammed = false := by simpa using hj
    split at h
    · rcases Except.bind_error_iff.mp h with h | ⟨_, _, h⟩
      · exact dmaProcessing_error (m1.wired hw) (m1.attached ha) h
      · cases h
    · next hp =>
      have hp : c1.preempt = false := by simpa using hp
      have hr : c1.lineRest = 428 := by unfold Console.lineRest; rw [s1]; rfl
      rcases Except.bind_error_iff.mp h with h | ⟨c2, e2, h⟩
      · unfold dmaSlice at h
        have m : MachineStep E c1 (c1.enter .dma) := .registers rfl rfl rfl rfl rfl rfl rfl
        rcases Except.bind_error_iff.mp h with h | ⟨⟨n, c2⟩, e2, h⟩
        · exact dmaProcessing_error (m.wired (m1.wired hw)) (m.attached (m1.attached ha)) h
        · obtain ⟨q, _⟩ := dmaProcessing_step e2
          have hb : c2.budget = c1.budget := q.scheduler.budget
          have hrest : c2.lineRest = 428 := by
            unfold Console.lineRest at hr ⊢
            have : c2.sched.rem = (c1.enter .dma).sched.rem := congrArg Sched.rem q.scheduler.sched
            rw [this]; exact hr
          rcases Except.bind_error_iff.mp h with h | ⟨_, _, h⟩
          · unfold limitClocks at h
            rw [if_neg (by rw [hb, hrest]; omega)] at h
            cases h
          · cases h
      · obtain ⟨m2, _, _, _, _, r2, _⟩ := dmaSlice_step e2 b1 b2 (post hj hp) hr
        exact (Except.absurd_total h (secondSlice_total (m2.wired (m1.wired hw))
          (m2.attached (m1.attached ha)) r2)).elim

theorem frameLines_error (hE : E.debugChecks = false) {f : Fault} : ∀ (n i : Nat) {c : Console},
    c.Wired E → c.Attached → c.Carry → frameLines E n i c = .error f → f = .badDmaClocks
  | 0, i, c, _, _, _, h => by cases h
  | n + 1, i, c, hw, ha, hc, h => by
    unfold frameLines at h
    rcases Except.bind_error_iff.mp h with h | ⟨⟨u, c1⟩, e1, h⟩
    · exact scanline_error hE hw ha hc h
    · have l := scanline_step e1 hc
      cases u with
      | jammed => cases h
      | preempted => cases h
      | goOn =>
        exact frameLines_error hE n (i + 1) (l.machine.wired hw) (l.machine.attached ha)
          (l.goes (by decide)).2.2.1 h

/-- `FRAME` on a well-formed machine can only end with `Fault.BadDmaClocks`. -/
theorem runFrame_error (hE : E.debugChecks = false) {c : Console} (hw : c.Wired E)
    (ha : c.Attached) (hc : c.Carry) (hj : c.jammed = false) {f : Fault}
    (h : runFrame E c = .error f) : f = .badDmaClocks := by
  unfold runFrame at h
  simp only at h
  have m0 : MachineStep E c ({ c with frame := c.frame + 1 }.enter .notStarted) :=
    MachineStep.registers rfl rfl rfl rfl rfl rfl rfl
  rcases Except.bind_error_iff.mp h with h | ⟨c1, e1, h⟩
  · exact (Except.absurd_total h
      (dmaCall_total (m0.wired hw) (m0.attached ha).ready .startFrame)).elim
  have s12 := (dmaCall_step e1).trans (cartHook_step E .startFrame c1)
  have hs := s12.touched.scheduler
  have m1 := m0.trans s12.machine
  have hcarry : (cartStartFrame E c1).Carry := by
    show _ ∧ _
    rw [show (cartStartFrame E c1).budget = c.budget from hs.budget]; exact hc
  rcases Except.bind_error_iff.mp h with h | ⟨⟨u, c2⟩, e2, h⟩
  · exact frameLines_error hE _ _ (m1.wired hw) (m1.attached ha) hcarry h
  obtain ⟨m2, _⟩ := frameLines_step _ _ e2 hcarry (hs.jammed.trans hj)
  have m3 : MachineStep E c (cartEndFrame E (c2.enter u.phase)) :=
    (m1.trans m2).trans (MachineStep.trans (MachineStep.registers (d := c2.enter u.phase)
      rfl rfl rfl rfl rfl rfl rfl) (cartHook_step E .endFrame _).machine)
  rcases Except.bind_error_iff.mp h with h | ⟨_, _, h⟩
  · exact (Except.absurd_total h
      (dmaCall_total (m3.wired hw) (m3.attached ha).ready .endFrame)).elim
  · cases h

end Sys2Proof.Machine
end

