-- ==== Sys2Proof/Laws/Layout.lean ====
section
/-! SUPPORT. The stream that is written is the stream of the grammar (44_serializer.md R353 to R361). -/

namespace Sys2Proof.Machine

variable {E : Env}

theorem putHeader_eq (cls : Config.StreamClass) : putHeader cls = layoutHeader := by
  cases cls <;> decide

theorem putBool_eq (b : Bool) : putBool b = layoutFlag b := by cases b <;> rfl

theorem typeName_eq (type : MachType) : Config.typeName type = typeText type := by cases type <;> decide

theorem cartName_eq (tag : CartTag) : Config.cartName tag = tagText tag := by cases tag <;> decide

theorem putChannel_eq (c : Channel) : putChannel c = layoutChannel c := by
  have h1 : (c.ctr.setWidth 16).toNat = c.ctr.toNat := by
    rw [BitVec.toNat_setWidth]; exact Nat.mod_eq_of_lt (by have := c.ctr.isLt; omega)
  have h2 : (c.fctr.setWidth 32).toNat = c.fctr.toNat := by
    rw [BitVec.toNat_setWidth]; exact Nat.mod_eq_of_lt (by have := c.fctr.isLt; omega)
  simp [putChannel, layoutChannel, putU16, putU32, putU8, h1, h2]

theorem putFetcher_eq (d : DataFetcher) : putFetcher d = layoutFetcher d := by
  have h : putChannel = layoutChannel := funext putChannel_eq
  simp [putFetcher, layoutFetcher, putHeader_eq, h, DataFetcher.voices, putVoice, putU32, putU64]

theorem putOverlay_eq (k : Cart) : putOption putBytes k.overlay = layoutOverlay k := by
  unfold Cart.overlay layoutOverlay
  by_cases h : k.tag ∈ shadowTags
  · rw [if_pos h, if_pos (show 0 < k.variant.rs from rs_pos_iff.mpr h)]
    simp [putOption, putBool_eq, putBytes, layoutBytes, Memory.toBytes,
      show k.variant.rs = 0x80 from (overlay_eq h).1]
  · rw [if_neg h, if_neg (show ¬0 < k.variant.rs from fun h' => h (rs_pos_iff.mp h'))]
    simp [putOption, putBool_eq]

theorem putCoprocessor_eq (k : Cart) : putOption putFetcher k.df = layoutCoprocessor k := by
  unfold layoutCoprocessor
  cases k.df <;> simp [putOption, putBool_eq, putFetcher_eq]

theorem putChip_eq (k : Cart) : putOption putChip k.chip = layoutChip k := by
  unfold layoutChip
  cases k.chip <;> simp [putOption, putBool_eq, putChip, putHeader_eq, putBytes, layoutBytes]

theorem putCart_eq (k : Cart) : putCart k = layoutCart k := by
  have h : putU32 = fun b : Word32 => putInt 4 b.toNat := rfl
  simp [putCart, layoutCart, layoutCartHead, putOverlay_eq, putCoprocessor_eq, putChip_eq, putHeader_eq,
    cartName_eq, putStr, layoutText, putBytes, layoutBytes, h]

theorem putCpu_eq (c : Console) (r : CpuRegs) : putCpu c r = layoutCpu (c.cpuRecord r) := by
  simp [putCpu, layoutCpu, Console.cpuRecord, putHeader_eq, putBool_eq, putU64, putU32, putU16, putBytes,
    layoutBytes]

/-- What `SAVE` writes of a well-formed machine, token by token (R353). -/
theorem putRoot_eq {c : Console} {ch : Chips} (ok : c.Ok E) (hch : c.chips = some ch) :
    putRoot c ch = layoutRoot c ch := by
  have r := ok.running ch hch
  obtain ⟨m2, e2⟩ := r.banks 2 (by decide)
  obtain ⟨m3, e3⟩ := r.banks 3 (by decide)
  have bank : ∀ h mem, c.device h = .ram Config.ramBankSize mem →
      c.bankImage h = tableFrom (c.device h).cell 0 0x800 := by
    intro h mem e
    unfold Console.bankImage
    rw [e]; rfl
  have bios : putOption putBytes c.biosImage = layoutBios c := by
    unfold Console.biosImage layoutBios
    cases hb : c.hasBios with
    | false =>
      rw [show c.device 6 = .absent from r.noBios hb]
      simp [putOption, putBool_eq]
    | true =>
      obtain ⟨img, hi, -⟩ := r.bios hb
      rw [hi, show c.device 6 = .rom img from hi]
      simp [putOption, putBool_eq, putBytes, layoutBytes]
  have cart : putOption putCart c.cart? = layoutCartOption c := by
    unfold Console.cart? layoutCartOption cartHandle
    cases c.device 1 <;> simp [putOption, putBool_eq, putCart_eq]
  have banks : (Config.ramBanks.flatMap fun h => putBytes (c.bankImage h)) =
      layoutBytes (tableFrom (c.device 2).cell 0 0x800) ++
        layoutBytes (tableFrom (c.device 3).cell 0 0x800) := by
    simp only [Config.ramBanks, List.flatMap_cons, List.flatMap_nil, List.append_nil, bank 2 m2 e2,
      bank 3 m3 e3, putBytes, layoutBytes]
  unfold putRoot layoutRoot
  rw [banks, bios, cart, putCpu_eq]
  simp [putHeader_eq, typeName_eq, putStr, layoutText, putBool_eq, putU64, putU8, putBytes, layoutBytes]

end Sys2Proof.Machine
end

