-- ==== Sys2Proof/Laws/Record.lean ====
section
/-! SUPPORT. What the record `calls` gains in an operation, and what the bus writes in it did to the
cells of storage (20_memory.md R73, R77, 43_scheduler.md R283, R285, R290, R292, R305; log 5). -/

namespace Sys2Proof.Machine

variable {E : Env}

/-! ### The cells a bus write stores to -/

/-- Which cell a device write stores to depends on the tables and the constants only. -/
theorem storedCell_congr {c d : Console} (s : c.SameTopology d) (g : Handle) (a : Addr) :
    d.storedCell g a = c.storedCell g a := by
  have h := s.devices g
  unfold Console.storedCell
  cases hc : c.device g <;> cases hd : d.device g <;> rw [hc, hd] at h <;>
    first | (cases h; done) | skip
  all_goals simp only
  · rw [(Device.ram.inj h).1]
  · next k l =>
    have : l.tag = k.tag := (Cart.mk.inj (Device.cart.inj h)).1
    rw [this]

theorem stores_congr {c d : Console} (s : c.SameTopology d) (a : Addr) (h : Handle) (i : Nat) :
    d.stores a h i ↔ c.stores a h i := by
  have hm : d.mappedHandle a = c.mappedHandle a := Console.pageAt_congr s.page _
  unfold Console.stores
  rw [storedCell_congr s, storedCell_congr s, hm, s.snooper]

/-- The overlay's write port is the table's (41_cart_family.md R183, R203). -/
theorem writePort_iff {k : Cart} {a : Addr} :
    (k.variant.family = .ramShadow ∧ inPort k.variant.wport k.variant.rs (windowOffset a) = true) ↔
      k.tag ∈ shadowTags ∧ a.toNat % 0x1000 < 0x80 := by
  rw [show k.variant = Config.cartTable k.tag from rfl, ← mem_shadowTags]
  constructor
  · rintro ⟨ht, h⟩
    obtain ⟨e1, e2, -⟩ := overlay_eq ht
    rw [e1, e2, windowOffset_eq, inPort, decide_eq_true_eq] at h
    exact ⟨ht, by omega⟩
  · rintro ⟨ht, h⟩
    obtain ⟨e1, e2, -⟩ := overlay_eq ht
    rw [e1, e2, windowOffset_eq, inPort, decide_eq_true_eq]
    exact ⟨ht, by omega⟩

theorem devWrite_cells {g : Handle} {a : Addr} {b : Byte} {c c' : Console} (hw : c.Wired E)
    (e : devWrite E g a b c = .ok c') (h : Handle) (j : Nat) :
    (c'.device h).cell j = if c.storedCell g a = some (h, j) then b else (c.device h).cell j := by
  have hok := hw.devices g
  unfold devWrite at e
  split at e
  · cases e
  · next hd => cases e; simp [Console.storedCell, hd]
  · next size mem hd =>
    cases e
    rw [hd] at hok
    simp only [Console.storedCell, hd, Option.some.injEq, Prod.mk.injEq]
    rw [Console.device_setDevice]
    by_cases hg : h = g
    · subst hg
      rw [if_pos rfl, hd]
      show (mem.write (reduceBy size a) b).read j = _
      rw [Memory.read_write hok.2]
      by_cases hj : reduceBy size a = j
      · rw [if_pos hj.symm, if_pos ⟨rfl, hj⟩]
      · rw [if_neg (fun h => hj h.symm), if_neg (fun h => hj h.2)]; rfl
    · rw [if_neg hg, if_neg (fun h' => hg h'.1.symm)]
  · next hd => cases e; simp [Console.storedCell, hd]
  · next hd => cases e; simp [Console.storedCell, hd]; rfl
  · next k hd =>
    obtain ⟨⟨k', d⟩, hr, e⟩ := Except.bind_ok_iff.mp e
    cases e
    rw [hd] at hok
    have hok : k.Ok E := hok
    have hdev := (cartWrite_step hr).dev
    have hram : k'.ram = if k.tag ∈ shadowTags ∧ a.toNat % 0x1000 < 0x80
        then k.ram.write (a.toNat % 0x1000) b else k.ram := by
      have other : k.variant.family ≠ .ramShadow → (if k.tag ∈ shadowTags ∧ a.toNat % 0x1000 < 0x80
          then k.ram.write (a.toNat % 0x1000) b else k.ram) = k.ram :=
        fun h => if_neg fun h' => h (mem_shadowTags.mp h'.1)
      unfold cartWrite at hr
      split at hr
      · next hf => cases hr; rw [other (by rw [hf]; decide)]
      · next hf => cases hr; rw [other (by rw [hf]; decide), Cart.updateBank_ram]
      · next hf =>
        simp only at hr
        split at hr
        · next hp =>
          have h := writePort_iff.mp ⟨hf, hp⟩
          have hw : k.variant.wport = 0 := (overlay_eq h.1).2.1
          cases hr
          rw [if_pos h, hw, windowOffset_eq]; rfl
        · next hp => cases hr; rw [if_neg (fun h => hp (writePort_iff.mpr h).2), Cart.updateBank_ram]
      · next hf =>
        rw [other (by rw [hf]; decide)]
        split at hr
        · split at hr
          · cases hr; rfl
          · cases hr
        · cases hr; rfl
      · next hf => cases hr; rw [other (by rw [hf]; decide)]
      · next hf =>
        rw [other (by rw [hf]; decide)]
        simp only at hr
        split at hr
        · cases hr; rfl
        · split at hr
          · obtain ⟨_, _, hr⟩ := Except.bind_ok_iff.mp hr
            obtain ⟨_, _, hr⟩ := Except.bind_ok_iff.mp hr
            cases hr; rfl
          · cases hr; exact Cart.updateBank_ram _
    simp only [Console.storedCell, hd]
    rw [Console.device_setDevice]
    by_cases hg : h = g
    · subst hg
      rw [if_pos rfl, hd]
      show k'.ram.read j = _
      rw [hram]
      split
      · rw [Memory.read_write hok.overlay]
        by_cases hj : a.toNat % 0x1000 = j
        · rw [if_pos hj.symm, if_pos (by rw [hj])]
        · rw [if_neg (fun h => hj h.symm), if_neg (by simpa using hj)]; rfl
      · simp; rfl
    · rw [if_neg hg, Console.device_congr hdev h]
      split
      · rw [if_neg (by simp only [Option.some.injEq, Prod.mk.injEq]; exact fun h' => hg h'.1.symm)]
      · simp

/-- A bus write changes exactly the cells its two device writes store to (20_memory.md R77). -/
theorem memWrite_cells {addr : Nat} {b : Byte} {c c' : Console} (hw : c.Wired E)
    (e : memWrite E addr b c = .ok c') (h : Handle) (j : Nat) :
    (c.stores (BitVec.ofNat 16 addr) h j → (c'.device h).cell j = b) ∧
      (¬c.stores (BitVec.ofNat 16 addr) h j → (c'.device h).cell j = (c.device h).cell j) := by
  unfold memWrite at e
  simp only [reduceAddr_eq] at e
  generalize (BitVec.ofNat 16 addr : Addr) = a at *
  obtain ⟨c1, h1, e⟩ := Except.bind_ok_iff.mp e
  have w0 := (BusStep.latch E c b).wired hw
  have s1 := devWrite_step h1
  have w1 := s1.wired w0
  have c1cell := devWrite_cells w0 h1 h j
  have ccell := devWrite_cells w1 e h j
  have hm : c1.mappedHandle a = c.mappedHandle a :=
    Console.pageAt_congr (c := c) (d := c1) s1.touched.topology.page _
  have hst : c1.storedCell (c1.mappedHandle a) a = c.storedCell (c.mappedHandle a) a := by
    rw [storedCell_congr s1.touched.topology, hm]
    rfl
  have hst0 : (c.latch b).storedCell (c.latch b).snooper a = c.storedCell c.snooper a := rfl
  rw [hst] at ccell
  rw [hst0] at c1cell
  unfold Console.stores
  constructor
  · rintro (h | h)
    · rw [ccell, c1cell, if_pos h]; split <;> rfl
    · rw [ccell, if_pos h]
  · intro hn
    rw [ccell, if_neg (fun h => hn (.inr h)), c1cell, if_neg (fun h => hn (.inl h))]
    rfl

/-! ### The record -/

open Classical in
/-- The byte a cell holds after the bus writes of a record, newest first, if it held `old` before
them. -/
noncomputable def Console.cellAfter (c : Console) (h : Handle) (j : Nat) : List Call → Byte → Byte
  | [], old => old
  | x :: l, old =>
    match x.kind with
    | .busWrite _ addr v =>
      if c.stores (BitVec.ofNat 16 addr) h j then v else Console.cellAfter c h j l old
    | _ => Console.cellAfter c h j l old

open Classical in
theorem cellAfter_write {c : Console} {h : Handle} {j : Nat} {x : Call} {l : List Call} {old : Byte}
    {who : Master} {addr : Nat} {v : Byte} (hx : x.kind = .busWrite who addr v) :
    c.cellAfter h j (x :: l) old =
      if c.stores (BitVec.ofNat 16 addr) h j then v else c.cellAfter h j l old := by
  rw [Console.cellAfter, hx]

theorem cellAfter_other {c : Console} {h : Handle} {j : Nat} {x : Call} {l : List Call} {old : Byte}
    (hx : ∀ who addr v, x.kind ≠ .busWrite who addr v) :
    c.cellAfter h j (x :: l) old = c.cellAfter h j l old := by
  rw [Console.cellAfter]
  split
  · next e => exact absurd e (hx _ _ _)
  · rfl

theorem cellAfter_append (c : Console) (h : Handle) (j : Nat) (m l : List Call) (old : Byte) :
    c.cellAfter h j (m ++ l) old = c.cellAfter h j m (c.cellAfter h j l old) := by
  induction m with
  | nil => rfl
  | cons x m ih =>
    rw [List.cons_append]
    by_cases hx : ∃ who addr v, x.kind = .busWrite who addr v
    · obtain ⟨who, addr, v, hx⟩ := hx
      rw [cellAfter_write hx, cellAfter_write hx, ih]
    · have hx' : ∀ who addr v, x.kind ≠ .busWrite who addr v := fun w a v e => hx ⟨w, a, v, e⟩
      rw [cellAfter_other hx', cellAfter_other hx', ih]

open Classical in
theorem cellAfter_congr {c d : Console} (s : c.SameTopology d) (h : Handle) (j : Nat) (l : List Call)
    (old : Byte) : d.cellAfter h j l old = c.cellAfter h j l old := by
  induction l with
  | nil => rfl
  | cons x l ih =>
    by_cases hx : ∃ who addr v, x.kind = .busWrite who addr v
    · obtain ⟨who, addr, v, hx⟩ := hx
      rw [cellAfter_write hx, cellAfter_write hx, ih]
      exact if_congr (stores_congr s _ _ _) rfl rfl
    · have hx' : ∀ who addr v, x.kind ≠ .busWrite who addr v := fun w a v e => hx ⟨w, a, v, e⟩
      rw [cellAfter_other hx', cellAfter_other hx', ih]

/-- A cell that no write of the record stores to is as it was. -/
theorem cellAfter_neverStored {c : Console} {h : Handle} {j : Nat} {l : List Call} (old : Byte)
    (hl : c.neverStored h j l) : c.cellAfter h j l old = old := by
  induction l with
  | nil => rfl
  | cons x l ih =>
    have ih := ih fun y hy => hl y (List.mem_cons_of_mem x hy)
    by_cases hx : ∃ who addr v, x.kind = .busWrite who addr v
    · obtain ⟨who, addr, v, hx⟩ := hx
      rw [cellAfter_write hx, if_neg (hl x List.mem_cons_self who addr v hx), ih]
    · rw [cellAfter_other fun w a v e => hx ⟨w, a, v, e⟩, ih]

/-- A cell holds the byte of the last write that stores to it. -/
theorem cellAfter_last {c : Console} {h : Handle} {j : Nat} {newer older : List Call} {x : Call}
    {who : Master} {addr : Nat} {v : Byte} (old : Byte) (hx : x.kind = .busWrite who addr v)
    (hs : c.stores (BitVec.ofNat 16 addr) h j) (hn : c.neverStored h j newer) :
    c.cellAfter h j (newer ++ x :: older) old = v := by
  rw [cellAfter_append, cellAfter_neverStored _ hn, cellAfter_write hx, if_pos hs]

/-- `d` has the record of `c` and, before it, calls of the given kinds only; while no bus write is among
them every cell is as it was, and in a wired console a cell holds what the bus writes among them
stored. The topology is the same. -/
structure Records (E : Env) (P : CallKind → Prop) (c d : Console) : Prop where
  topology : c.SameTopology d
  wired    : c.Wired E → d.Wired E
  calls    : ∃ l, d.calls = l ++ c.calls ∧ (∀ x ∈ l, P x.kind) ∧
    ((∀ x ∈ l, ∀ who addr v, x.kind ≠ .busWrite who addr v) →
      ∀ h j, (d.device h).cell j = (c.device h).cell j) ∧
    (c.Wired E → ∀ h j, (d.device h).cell j = c.cellAfter h j l ((c.device h).cell j))

variable {P : CallKind → Prop}

theorem Records.refl (E : Env) (P : CallKind → Prop) (c : Console) : Records E P c c :=
  ⟨.refl c, id, [], rfl, by simp, fun _ _ _ => rfl, fun _ _ _ => rfl⟩

theorem Records.trans {c d e : Console} (h : Records E P c d) (g : Records E P d e) :
    Records E P c e := by
  obtain ⟨ht, hw, l, h1, h2, h3, h4⟩ := h
  obtain ⟨gt, gw, m, g1, g2, g3, g4⟩ := g
  refine ⟨ht.trans gt, gw ∘ hw, m ++ l, by rw [g1, h1, List.append_assoc], fun x hx => ?_,
    fun hn i j => ?_, fun w i j => ?_⟩
  · rcases List.mem_append.mp hx with hx | hx
    · exact g2 x hx
    · exact h2 x hx
  · rw [g3 (fun x hx => hn x (List.mem_append_left l hx)) i j,
      h3 (fun x hx => hn x (List.mem_append_right m hx)) i j]
  · rw [g4 (hw w) i j, h4 w i j, cellAfter_congr ht, cellAfter_append]

theorem Records.mono {Q : CallKind → Prop} {c d : Console} (h : Records E P c d)
    (hPQ : ∀ k, P k → Q k) : Records E Q c d := by
  obtain ⟨ht, hw, l, h1, h2, h3⟩ := h
  exact ⟨ht, hw, l, h1, fun x hx => hPQ _ (h2 x hx), h3⟩

/-- Calls that are no bus writes, and every cell as it was. -/
theorem Records.quiet {c d : Console} (ht : c.SameTopology d) (hw : c.Wired E → d.Wired E)
    {l : List Call} (h1 : d.calls = l ++ c.calls) (h2 : ∀ x ∈ l, P x.kind)
    (hn : ∀ x ∈ l, ∀ who addr v, x.kind ≠ .busWrite who addr v)
    (hc : ∀ h j, (d.device h).cell j = (c.device h).cell j) : Records E P c d :=
  ⟨ht, hw, l, h1, h2, fun _ => hc, fun _ h j => by
    rw [hc, cellAfter_neverStored _ fun x hx w a v e => absurd e (hn x hx w a v)]⟩

/-- An operation on registers, with nothing recorded. -/
theorem Records.registers {c d : Console} (hdev : d.dev = c.dev) (hpage : d.page = c.page)
    (hsnoop : d.snooper = c.snooper) (htype : d.type = c.type) (hbios : d.hasBios = c.hasBios)
    (hcalls : d.calls = c.calls) : Records E P c d :=
  .quiet ⟨hpage, hsnoop, htype, hbios, fun h => by rw [Console.device_congr hdev h]⟩
    (fun h => h.congr hdev hpage hsnoop) (l := []) hcalls (by simp) (by simp)
    fun h j => by rw [Console.device_congr hdev h]

theorem Records.note (c : Console) {k : CallKind} (hk : P k)
    (hn : ∀ who addr v, k ≠ .busWrite who addr v) : Records E P c (c.note k) :=
  .quiet ⟨rfl, rfl, rfl, rfl, fun _ => rfl⟩ (fun h => h.congr rfl rfl rfl) (l := [_]) rfl
    (by simpa using hk) (by simpa using hn) fun h j => by rw [Console.device_congr (c.note_dev k) h]

theorem Records.call (c : Console) {k : CallKind} (hk : P k)
    (hn : ∀ who addr v, k ≠ .busWrite who addr v) : Records E P c (c.call E k) :=
  (Records.note c hk hn).trans (.registers rfl rfl rfl rfl rfl rfl)

/-- What an access of a device records: register calls of chips. -/
def ofAccess : CallKind → Prop
  | .chip _ (.read _) | .chip _ (.update _ _) => True
  | _ => False

/-- What the CPU's `Execute` and `Reset` record. -/
def ofCpu (k : CallKind) : Prop := k.byBus .cpu ∨ ∃ op, k = .cpu op

/-- What the DMA chip's step records. -/
def ofDmaStep (k : CallKind) : Prop := k.byBus .dma ∨ k = .dma .doProcessing

theorem byBus_of_access {who : Master} (k : CallKind) (h : ofAccess k) : k.byBus who := by
  unfold ofAccess at h
  split at h
  · trivial
  · trivial
  · exact h.elim

theorem notHook_of_byBus {who : Master} (k : CallKind) (h : k.byBus who) : k.isHook = false := by
  unfold CallKind.byBus at h
  split at h <;> first | rfl | exact h.elim

theorem notHook_of_cpu (k : CallKind) (h : ofCpu k) : k.isHook = false := by
  obtain h | ⟨op, rfl⟩ := h
  · exact notHook_of_byBus k h
  · rfl

/-- Replacing a device by one with the same cells changes no cell. -/
theorem cell_setDevice {c : Console} {g : Handle} {d : Device}
    (h : ∀ j, d.cell j = (c.device g).cell j) (i : Handle) (j : Nat) :
    ((c.setDevice g d).device i).cell j = (c.device i).cell j := by
  rw [Console.device_setDevice]
  split
  · next e => subst e; exact h j
  · rfl

/-- Writing back a cart with the same overlay changes no cell. -/
theorem cell_setCart {c d : Console} {g : Handle} {k k' : Cart} (hk : c.device g = .cart k)
    (hdev : d.dev = c.dev) (hram : k'.ram = k.ram) (i : Handle) (j : Nat) :
    ((d.setDevice g (.cart k')).device i).cell j = (c.device i).cell j := by
  rw [cell_setDevice (fun j => ?_) i j, Console.device_congr hdev i]
  rw [Console.device_congr hdev g, hk]
  show k'.ram.read j = k.ram.read j
  rw [hram]

/-! ### Accesses -/

/-- The record gains calls of the given kinds only. -/
def Gains (P : CallKind → Prop) (c d : Console) : Prop :=
  ∃ l, d.calls = l ++ c.calls ∧ ∀ x ∈ l, P x.kind

theorem Gains.none {c d : Console} (h : d.calls = c.calls) : Gains P c d := ⟨[], h, by simp⟩

theorem Gains.one {c d : Console} {k : CallKind} (h : d.calls = c.entry k :: c.calls) (hk : P k) :
    Gains P c d := ⟨[c.entry k], h, by simpa [Console.entry] using hk⟩

theorem Gains.trans {c d e : Console} (h : Gains P c d) (g : Gains P d e) : Gains P c e := by
  obtain ⟨l, h1, h2⟩ := h
  obtain ⟨m, g1, g2⟩ := g
  refine ⟨m ++ l, by rw [g1, h1, List.append_assoc], fun x hx => ?_⟩
  rcases List.mem_append.mp hx with hx | hx
  · exact g2 x hx
  · exact h2 x hx

theorem cartRead_gains {a : Addr} {k k' : Cart} {c c' : Console} {v : Byte}
    (h : cartRead E a k c = .ok (v, k', c')) : Gains ofAccess c c' := by
  unfold cartRead at h
  split at h
  · obtain ⟨w, _, h⟩ := Except.bind_ok_iff.mp h
    cases h; exact .none rfl
  · obtain ⟨w, _, h⟩ := Except.bind_ok_iff.mp h
    cases h; exact .none rfl
  · simp only at h
    split at h
    · cases h; exact .none rfl
    · obtain ⟨w, _, h⟩ := Except.bind_ok_iff.mp h
      cases h; exact .none rfl
  · split at h
    · next w _ =>
      split at h
      · cases h; exact .one (k := .chip w.id (.read (a &&& w.mask))) rfl trivial
      · cases h
    · obtain ⟨w, _, h⟩ := Except.bind_ok_iff.mp h
      cases h; exact .none rfl
  · obtain ⟨w, _, h⟩ := Except.bind_ok_iff.mp h
    cases h; exact .none rfl
  · simp only at h
    split at h
    · obtain ⟨d, _, h⟩ := Except.bind_ok_iff.mp h
      obtain ⟨w, _, h⟩ := Except.bind_ok_iff.mp h
      cases h; exact .none rfl
    · split at h
      · cases h; exact .none rfl
      · obtain ⟨w, _, h⟩ := Except.bind_ok_iff.mp h
        cases h; exact .none rfl

theorem cartWrite_gains {a : Addr} {b : Byte} {k k' : Cart} {c c' : Console}
    (h : cartWrite E a b k c = .ok (k', c')) : Gains ofAccess c c' := by
  unfold cartWrite at h
  split at h
  · cases h; exact .none rfl
  · cases h; exact .none rfl
  · simp only at h
    split at h <;> (cases h; exact .none rfl)
  · split at h
    · next w _ =>
      split at h
      · cases h
        exact .one (k := .chip w.id (.update (a &&& w.mask) b)) rfl trivial
      · cases h
    · cases h; exact .none rfl
  · cases h; exact .none rfl
  · simp only at h
    split at h
    · cases h; exact .none rfl
    · split at h
      · obtain ⟨d, _, h⟩ := Except.bind_ok_iff.mp h
        obtain ⟨w, _, h⟩ := Except.bind_ok_iff.mp h
        cases h; exact .none rfl
      · cases h; exact .none rfl

/-- A device read records register calls of chips and changes no cell (20_memory.md R76). -/
theorem devRead_records {g : Handle} {a : Addr} {c c' : Console} {v : Byte}
    (e : devRead E g a c = .ok (v, c')) : Records E ofAccess c c' := by
  have s := devRead_step e
  have gains : Gains ofAccess c c' ∧ ∀ h j, (c'.device h).cell j = (c.device h).cell j := by
    unfold devRead at e
    split at e
    · cases e
    · cases e; exact ⟨.none rfl, fun _ _ => rfl⟩
    · cases e; exact ⟨.none rfl, fun _ _ => rfl⟩
    · obtain ⟨w, _, e⟩ := Except.bind_ok_iff.mp e
      cases e; exact ⟨.none rfl, fun _ _ => rfl⟩
    · next chip mask _ =>
      cases e
      exact ⟨.one (k := .chip chip (.read (a &&& mask))) rfl trivial, fun _ _ => rfl⟩
    · next k hk =>
      obtain ⟨⟨w, k', d⟩, hr, e⟩ := Except.bind_ok_iff.mp e
      cases e
      have gains := cartRead_gains hr
      exact ⟨gains, cell_setCart hk (cartRead_step hr).1.dev (cartRead_step hr).2⟩
  obtain ⟨⟨l, h1, h2⟩, hc⟩ := gains
  exact .quiet s.touched.topology s.wired h1 h2
    (fun x hx who addr v e => by have := h2 x hx; rw [e] at this; exact this) hc

theorem memRead_records {addr : Nat} {c c' : Console} {v : Byte}
    (e : memRead E addr c = .ok (v, c')) : Records E ofAccess c c' := by
  unfold memRead at e
  simp only at e
  obtain ⟨⟨s, c1⟩, h1, e⟩ := Except.bind_ok_iff.mp e
  obtain ⟨⟨w, c2⟩, h2, e⟩ := Except.bind_ok_iff.mp e
  cases e
  exact (((devRead_records h1).trans (.registers (d := c1.latch s) rfl rfl rfl rfl rfl rfl)).trans
    (devRead_records h2)).trans (.registers rfl rfl rfl rfl rfl rfl)

theorem devWrite_gains {g : Handle} {a : Addr} {b : Byte} {c c' : Console}
    (e : devWrite E g a b c = .ok c') : Gains ofAccess c c' := by
  unfold devWrite at e
  split at e
  · cases e
  · cases e; exact .none rfl
  · cases e; exact .none rfl
  · cases e; exact .none rfl
  · next chip mask _ => cases e; exact .one (k := .chip chip (.update (a &&& mask) b)) rfl trivial
  · obtain ⟨⟨k', d⟩, hr, e⟩ := Except.bind_ok_iff.mp e
    cases e
    have gains := cartWrite_gains hr
    exact gains

theorem memWrite_gains {addr : Nat} {b : Byte} {c c' : Console}
    (e : memWrite E addr b c = .ok c') : Gains ofAccess c c' := by
  unfold memWrite at e
  simp only at e
  obtain ⟨c1, h1, e⟩ := Except.bind_ok_iff.mp e
  exact Gains.trans (Gains.trans (.none (d := c.latch b) rfl) (devWrite_gains h1)) (devWrite_gains e)

/-- A bus write of a master, with its entry in the record. -/
theorem busWrite_records {who : Master} {addr : Nat} {b : Byte} {c c' : Console}
    (e : memWrite E addr b c = .ok c') :
    Records E (CallKind.byBus who) c (c'.note (.busWrite who addr b)) := by
  have s := (memWrite_step e).1
  obtain ⟨l, l1, l2⟩ := memWrite_gains e
  have hn : c.neverStored = c.neverStored := rfl
  refine ⟨(s.trans (.note E c' _)).touched.topology, (s.trans (.note E c' _)).wired,
    c'.entry (.busWrite who addr b) :: l, by rw [Console.note_calls, l1]; rfl, fun x hx => ?_,
    fun hn => absurd rfl (hn _ List.mem_cons_self who addr b), fun w h j => ?_⟩
  · rcases List.mem_cons.mp hx with rfl | hx
    · exact rfl
    · exact byBus_of_access _ (l2 x hx)
  · have hl : c.neverStored h j l := fun x hx w a v e => by
      have := l2 x hx
      rw [e] at this
      exact this.elim
    obtain ⟨h1, h2⟩ := memWrite_cells w e h j
    rw [cellAfter_write (x := c'.entry (.busWrite who addr b)) rfl, cellAfter_neverStored _ hl,
      Console.device_congr (c'.note_dev _) h]
    split
    · next hs => exact h1 hs
    · next hs => exact h2 hs

/-- A bus program records its own accesses and the chips' calls they reach (log 6). -/
theorem runProgram_records {who : Master} {α : Type} {p : BusProgram α} {c c' : Console} {x : α}
    (e : runProgram E who p c = .ok (x, c')) : Records E (CallKind.byBus who) c c' := by
  induction p generalizing c with
  | done y => cases e; exact .refl E _ _
  | read addr next ih =>
    obtain ⟨⟨v, c1⟩, h1, e⟩ := Except.bind_ok_iff.mp e
    exact (((memRead_records h1).mono byBus_of_access).trans
      (.note c1 (k := .busRead who addr v) rfl (by simp))).trans (ih v e)
  | write addr b next ih =>
    obtain ⟨c1, h1, e⟩ := Except.bind_ok_iff.mp e
    exact (busWrite_records h1).trans (ih e)

/-- A bus program that records nothing did nothing. -/
theorem runProgram_silent {who : Master} {α : Type} {p : BusProgram α} {c c' : Console} {x : α}
    (e : runProgram E who p c = .ok (x, c')) (h : c'.calls = c.calls) : c' = c := by
  have longer : ∀ {α : Type} {p : BusProgram α} {k : CallKind} {c1 : Console} {x : α},
      runProgram E who p (c1.note k) = .ok (x, c') → (∃ l, c1.calls = l ++ c.calls) → False := by
    intro α p k c1 x e hl
    obtain ⟨l, hl⟩ := hl
    obtain ⟨m, hm, -⟩ := (runProgram_records e).calls
    rw [h, Console.note_calls, hl] at hm
    have := congrArg List.length hm
    simp only [List.length_append, List.length_cons] at this
    omega
  cases p with
  | done y => cases e; rfl
  | read addr next =>
    obtain ⟨⟨v, c1⟩, h1, e⟩ := Except.bind_ok_iff.mp e
    exact (longer e (memRead_step h1).1.touched.record).elim
  | write addr b next =>
    obtain ⟨c1, h1, e⟩ := Except.bind_ok_iff.mp e
    exact (longer e (memWrite_step h1).1.touched.record).elim

/-! ### Contract calls of the DMA chip and the CPU -/

theorem dmaProgram_records {c d : Console} (e : dmaProgram E c = .ok d) :
    Records E (CallKind.byBus .dma) c d := by
  obtain ⟨⟨_, c1⟩, h, e⟩ := Except.bind_ok_iff.mp e
  cases e
  exact (runProgram_records h).trans (.registers rfl rfl rfl rfl rfl rfl)

/-- A bus program of the DMA chip: the record gains its accesses; without any it moves no device and no
last bus value. -/
theorem dmaProgram_entries {c d : Console} (e : dmaProgram E c = .ok d) :
    ∃ l, d.calls = l ++ c.calls ∧ (∀ x ∈ l, x.kind.byBus .dma) ∧
      (c.Wired E → ∀ h j, (d.device h).cell j = c.cellAfter h j l ((c.device h).cell j)) ∧
      (l = [] → d.dev = c.dev ∧ d.lbv = c.lbv ∧ d.clock = c.clock) := by
  obtain ⟨l, h1, h2, -, h4⟩ := (dmaProgram_records e).calls
  refine ⟨l, h1, h2, h4, fun hl => ?_⟩
  obtain ⟨⟨_, c1⟩, h, e⟩ := Except.bind_ok_iff.mp e
  cases e
  have : c1 = c := runProgram_silent h (by rw [hl] at h1; exact h1)
  rw [this]
  exact ⟨rfl, rfl, rfl⟩

/-- A contract call of the DMA chip: its entry, then what the chip does on the bus. -/
theorem dmaCall_entries {op : DmaOp} {c d : Console} (e : dmaCall E op c = .ok d) :
    ∃ l, d.calls = l ++ c.entry (.dma op) :: c.calls ∧ (∀ x ∈ l, x.kind.byBus .dma) ∧
      (l = [] → d.dev = c.dev ∧ d.lbv = c.lbv ∧ d.clock = c.clock) := by
  obtain ⟨l, h1, h2, -, h4⟩ := dmaProgram_entries e
  exact ⟨l, h1, h2, h4⟩

theorem dmaCall_records {op : DmaOp} {c d : Console} (e : dmaCall E op c = .ok d)
    (hbus : ∀ k, CallKind.byBus .dma k → P k) (hop : P (.dma op)) : Records E P c d :=
  (Records.call c hop (by simp)).trans ((dmaProgram_records e).mono hbus)

/-- `CPU.Reset()`: its entry, then what the CPU does on the bus. -/
theorem cpuReset_entries {c d : Console} (e : cpuReset E c = .ok d) :
    ∃ l, d.calls = l ++ c.entry (.cpu .reset) :: c.calls ∧ (∀ x ∈ l, x.kind.byBus .cpu) ∧
      (l = [] → d.dev = c.dev ∧ d.lbv = c.lbv) := by
  unfold cpuReset at e
  simp only at e
  obtain ⟨⟨r, c1⟩, h, e⟩ := Except.bind_ok_iff.mp e
  cases e
  obtain ⟨l, h1, h2, -⟩ := (runProgram_records h).calls
  refine ⟨l, h1, h2, fun hl => ?_⟩
  have : c1 = c.note (.cpu .reset) := runProgram_silent h (by rw [hl] at h1; exact h1)
  rw [this]
  exact ⟨rfl, rfl⟩

theorem cpuReset_records {c d : Console} (e : cpuReset E c = .ok d) : Records E ofCpu c d := by
  unfold cpuReset at e
  simp only at e
  obtain ⟨⟨r, c1⟩, h, e⟩ := Except.bind_ok_iff.mp e
  cases e
  exact ((Records.note c (.inr ⟨_, rfl⟩) (by simp)).trans
    ((runProgram_records h).mono fun _ => .inl)).trans (.registers rfl rfl rfl rfl rfl rfl)

theorem cpuInstruction_records {c d : Console} (e : cpuInstruction E c = .ok d) :
    Records E ofCpu c d := by
  unfold cpuInstruction at e
  simp only at e
  obtain ⟨⟨r, c1⟩, h, e⟩ := Except.bind_ok_iff.mp e
  cases e
  exact ((Records.note c (.inr ⟨_, rfl⟩) (by simp)).trans
    ((runProgram_records h).mono fun _ => .inl)).trans (.registers rfl rfl rfl rfl rfl rfl)

theorem executeLoop_records : ∀ (n : Nat) {c d : Console}, executeLoop E n c = .ok d →
    Records E ofCpu c d
  | 0, c, d, e => by cases e; exact .refl E _ c
  | n + 1, c, d, e => by
    unfold executeLoop at e
    split at e
    · obtain ⟨c1, h1, e⟩ := Except.bind_ok_iff.mp e
      exact (cpuInstruction_records h1).trans (executeLoop_records n e)
    · cases e; exact .refl E _ c

/-- One `Execute` records the CPU's calls and accesses, no DMA step. -/
theorem execute_records {c d : Console} (e : execute E c = .ok d) : Records E ofCpu c d := by
  unfold execute at e
  exact ((Records.note c (k := .cpu .execute) (.inr ⟨_, rfl⟩) (by simp)).trans
    (.registers (d := { c.note (.cpu .execute) with preempt := false }) rfl rfl rfl rfl rfl rfl)).trans
      (executeLoop_records _ e)

/-- Anything goes: what a whole machine reset records. -/
theorem Records.any {c d : Console} (h : Records E P c d) : Records E (fun _ => True) c d :=
  h.mono fun _ _ => trivial

/-! ### Machine reset (43_scheduler.md R283) -/

/-- One device reset: the call its kind makes, no other device, and no cell. -/
theorem devReset_facts (E : Env) (g : Handle) (c : Console) :
    (devReset E g c).calls = (c.device g).resetCall.map c.entry ++ c.calls ∧
      (∀ h, h ≠ g → (devReset E g c).device h = c.device h) ∧
      (∀ h j, ((devReset E g c).device h).cell j = (c.device h).cell j) ∧
      (devReset E g c).lbv = c.lbv ∧ (devReset E g c).clock = c.clock := by
  unfold devReset
  split
  · next h => rw [h]; exact ⟨rfl, fun _ _ => rfl, fun _ _ => rfl, rfl, rfl⟩
  · next h => rw [h]; exact ⟨rfl, fun _ _ => rfl, fun _ _ => rfl, rfl, rfl⟩
  · next h => rw [h]; exact ⟨rfl, fun _ _ => rfl, fun _ _ => rfl, rfl, rfl⟩
  · next h => rw [h]; exact ⟨rfl, fun _ _ => rfl, fun _ _ => rfl, rfl, rfl⟩
  · next h => rw [h]; exact ⟨rfl, fun _ _ => rfl, fun _ _ => rfl, rfl, rfl⟩
  · next k hk =>
    obtain ⟨s, hram⟩ := cartReset_step E k c
    have hcalls : (cartReset E k c).2.calls = (Device.cart k).resetCall.map c.entry ++ c.calls := by
      have key : ∀ x, cartReset E k c = x → x.2.calls =
          (Device.cart k).resetCall.map c.entry ++ c.calls := by
        rintro x rfl
        have hv := chip_eq k.tag
        have hfam : ∀ f, k.variant.family = f → f ≠ .chipAug → k.tag ≠ .c16kp := by
          rintro f hf hne ht
          apply hne
          rw [← hf]
          show (Config.cartTable k.tag).family = .chipAug
          rw [ht]; rfl
        unfold cartReset Device.resetCall
        split
        · next hf => simp [hfam _ hf (by decide)]
        · next hf => simp [hfam _ hf (by decide)]
        · next hf => simp [hfam _ hf (by decide)]
        · next hf =>
          have ht : k.tag = .c16kp := family_chipAug hf
          rw [show k.variant.chip = _ from hv, if_pos ht]
          simp only [ht, true_and]
          cases ha : k.attached <;> rfl
        · next hf => simp [hfam _ hf (by decide)]
        · next hf => simp [hfam _ hf (by decide)]
      exact key _ rfl
    simp only
    refine ⟨by rw [hk]; exact hcalls, fun h hh => ?_, cell_setCart hk s.dev hram, s.lbv, ?_⟩
    · rw [Console.device_setDevice_ne _ _ hh, Console.device_congr s.dev h]
    · exact s.touched.scheduler.clock

/-- What a device reset leaves of the device (40_address_space.md R142, R145, R146, R154,
41_cart_family.md R192, 42_cart_datafetcher.md R258). -/
theorem devReset_resetTo {g : Handle} {c : Console} (hok : (c.device g).Ok E) :
    (c.device g).ResetTo c.clock ((devReset E g c).device g) := by
  unfold devReset
  split
  · next h => rw [h]; exact (rfl : Device.absent = .absent)
  · next h => rw [h]; exact (rfl : Device.null = .null)
  · next h => rw [h]; simp [Device.ResetTo]
  · next h => rw [h]; simp [Device.ResetTo]
  · next chip mask h =>
    have : (c.call E (.chip chip .reset)).device g = .adapter chip mask := h
    rw [h, this]; simp [Device.ResetTo]
  · next k hk =>
    rw [hk] at hok ⊢
    have hok : k.Ok E := hok
    simp only [Console.device_setDevice_same]
    have hbank : k.variant.nb = 1 → k.resetBank = k.showing 0 := by
      intro hnb
      have hb := hok.bankCount
      rw [hnb] at hb
      obtain ⟨b, hb⟩ := List.length_eq_one_iff.mp hb
      simp [Cart.resetBank, Cart.setBank, Cart.showing, hb, Config.resetBank]
    have hv : k.variant = Config.cartTable k.tag := rfl
    unfold Device.ResetTo cartReset
    simp only
    cases ht : k.tag <;> rw [hv, ht] <;> simp only
    case c16kp =>
      show if k.attached = true then _ else _
      simp only [Config.cartTable]
      by_cases ha : k.attached = true
      · rw [if_pos ha, if_pos ha]
        exact ⟨(k.refreshChip E (c.call E (.chip 1 .reset))).chip, by
          cases k; simp only at ht; subst ht; rfl⟩
      · rw [if_neg ha, if_neg ha]
    case df12k =>
      obtain ⟨d, hd⟩ := hok.df_of_fetcher (by rw [hv, ht]; rfl)
      refine ⟨DataFetcher.initial (if k.attached then c.clock else 0), ?_, rfl, rfl, rfl, fun n => ?_,
        fun v => ?_⟩
      · show Device.cart { k.resetBank with df := k.df.map _ } = _
        rw [hbank (by rw [hv, ht]; rfl), hd]; rfl
      · simp [DataFetcher.channel, DataFetcher.initial, Channel.zero]
      · simp [DataFetcher.initial]
    all_goals first
      | rfl
      | exact congrArg Device.cart (hbank (by rw [hv, ht]; rfl))

/-- `DevReset` over a list of handles without repeats. -/
theorem resetList_facts (E : Env) : ∀ (l : List Nat), (∀ x ∈ l, x < 256) → l.Nodup → ∀ (c : Console),
    c.Wired E →
    let d := l.foldl (fun c h => devReset E (BitVec.ofNat 8 h) c) c
    d.calls = (l.reverse.flatMap fun h => (c.device (BitVec.ofNat 8 h)).resetCall.map c.entry) ++ c.calls ∧
      (∀ h : Handle, if h.toNat ∈ l then (c.device h).ResetTo c.clock (d.device h)
        else d.device h = c.device h) ∧
      (∀ h j, (d.device h).cell j = (c.device h).cell j) ∧ d.lbv = c.lbv ∧ d.clock = c.clock
  | [], _, _, c, _ => ⟨rfl, fun h => by simp, fun _ _ => rfl, rfl, rfl⟩
  | x :: l, hx, hn, c, hw => by
    obtain ⟨hxl, hn⟩ := List.nodup_cons.mp hn
    have hx256 := hx x List.mem_cons_self
    have hl := fun y (hy : y ∈ l) => hx y (List.mem_cons_of_mem x hy)
    obtain ⟨e1, e2, e3, e4, e5⟩ := devReset_facts E (BitVec.ofNat 8 x) c
    have hto := devReset_resetTo (hw.devices (BitVec.ofNat 8 x))
    have hnat : (BitVec.ofNat 8 x : Handle).toNat = x := by
      rw [BitVec.toNat_ofNat]; omega
    have other : ∀ y ∈ l, (devReset E (BitVec.ofNat 8 x) c).device (BitVec.ofNat 8 y) =
        c.device (BitVec.ofNat 8 y) := by
      intro y hy
      apply e2
      intro h
      have hy256 := hl y hy
      have := congrArg BitVec.toNat h
      rw [hnat, BitVec.toNat_ofNat] at this
      exact hxl (by rwa [show x = y by omega])
    obtain ⟨f1, f2, f3, f4, f5⟩ := resetList_facts E l hl hn (devReset E (BitVec.ofNat 8 x) c)
      ((devReset_step E _ c).wired hw)
    have hentry : (devReset E (BitVec.ofNat 8 x) c).entry = c.entry := by
      funext k; unfold Console.entry; rw [e4, e5]
    refine ⟨?_, fun h => ?_, fun h j => (f3 h j).trans (e3 h j), f4.trans e4, f5.trans e5⟩
    · rw [List.foldl_cons, f1, e1, hentry, List.reverse_cons, List.flatMap_append]
      simp only [List.flatMap_cons, List.flatMap_nil, List.append_nil, List.append_assoc]
      congr 1
      apply List.flatMap_congr
      intro y hy
      rw [other y (List.mem_reverse.mp hy)]
    · have := f2 h
      rw [List.foldl_cons]
      by_cases hh : h = BitVec.ofNat 8 x
      · subst hh
        rw [hnat] at this ⊢
        rw [if_neg hxl] at this
        rw [if_pos List.mem_cons_self, this]
        exact hto
      · have hne : h.toNat ≠ x := fun e => hh (BitVec.eq_of_toNat_eq (by rw [hnat]; exact e))
        rw [e2 h hh, e5] at this
        simp only [List.mem_cons, hne, false_or]
        exact this

/-- Every device reset, ascending (43_scheduler.md R283). -/
theorem resetDevices_facts {c : Console} (hw : c.Wired E) :
    (resetDevices E c).calls = ((List.range 256).reverse.flatMap fun h =>
        (c.device (BitVec.ofNat 8 h)).resetCall.map c.entry) ++ c.calls ∧
      (∀ h, (c.device h).ResetTo c.clock ((resetDevices E c).device h)) ∧
      (resetDevices E c).lbv = c.lbv ∧ (resetDevices E c).clock = c.clock := by
  obtain ⟨h1, h2, _, h4, h5⟩ := resetList_facts E (List.range 256) (fun x hx => List.mem_range.mp hx)
    List.nodup_range c hw
  refine ⟨h1, fun h => ?_, h4, h5⟩
  have := h2 h
  rwa [if_pos (List.mem_range.mpr h.isLt)] at this

theorem resetDevices_records (E : Env) (c : Console) (hbus : ∀ chip, P (.chip chip .reset)) :
    Records E P c (resetDevices E c) := by
  unfold resetDevices
  generalize List.range Config.ndev = l
  induction l generalizing c with
  | nil => exact .refl E P c
  | cons x l ih =>
    refine Records.trans ?_ (ih _)
    obtain ⟨h1, -, h3, -⟩ := devReset_facts E (BitVec.ofNat 8 x) c
    have s := (devReset_step E (BitVec.ofNat 8 x) c)
    have key : ∀ y ∈ (c.device (BitVec.ofNat 8 x)).resetCall.map c.entry,
        ∃ chip, y.kind = .chip chip .reset := by
      intro y hy
      obtain ⟨k, hk, rfl⟩ := List.mem_map.mp hy
      unfold Device.resetCall at hk
      split at hk <;> try split at hk
      all_goals simp only [List.mem_singleton, List.not_mem_nil] at hk
      all_goals exact ⟨_, hk⟩
    exact .quiet s.touched.topology s.wired h1
      (fun y hy => by obtain ⟨chip, e⟩ := key y hy; rw [e]; exact hbus chip)
      (fun y hy who addr v e => by obtain ⟨chip, e'⟩ := key y hy; rw [e'] at e; cases e) h3

theorem machineReset_records {c d : Console} (e : machineReset E c = .ok d) :
    Records E (fun _ => True) c d := by
  obtain ⟨c1, h1, e⟩ := Except.bind_ok_iff.mp e
  exact ((resetDevices_records E c fun _ => trivial).trans
    (dmaCall_records h1 (fun _ _ => trivial) trivial)).trans (cpuReset_records e).any

/-- `MachineReset()`: the devices, the DMA chip, the CPU, in this order (R283). Between the calls stand
only the bus accesses of the two masters; without any, the devices are as their resets leave them. -/
theorem machineReset_entries {c d : Console} (hw : c.Wired E) (e : machineReset E c = .ok d) :
    ∃ (cpuBus dmaBus : List Call) (v : Byte),
      d.calls = cpuBus ++ { kind := .cpu .reset, lbv := v, clock := c.clock } ::
        (dmaBus ++ c.entry (.dma .reset) ::
          (((List.range 256).reverse.flatMap fun h =>
            (c.device (BitVec.ofNat 8 h)).resetCall.map c.entry) ++ c.calls)) ∧
      (∀ x ∈ cpuBus, x.kind.byBus .cpu) ∧ (∀ x ∈ dmaBus, x.kind.byBus .dma) ∧
      (cpuBus = [] → dmaBus = [] →
        d.lbv = c.lbv ∧ ∀ h, (c.device h).ResetTo c.clock (d.device h)) := by
  obtain ⟨c1, h1, e⟩ := Except.bind_ok_iff.mp e
  obtain ⟨r1, r2, r3, r4⟩ := resetDevices_facts hw
  obtain ⟨dmaBus, l1, l2, l3⟩ := dmaCall_entries h1
  obtain ⟨cpuBus, m1, m2, m3⟩ := cpuReset_entries e
  have hclock : c1.clock = c.clock := (dmaCall_step h1).touched.scheduler.clock.trans r4
  have hentry : (resetDevices E c).entry (.dma .reset) = c.entry (.dma .reset) := by
    unfold Console.entry; rw [r3, r4]
  refine ⟨cpuBus, dmaBus, c1.lbv, ?_, m2, l2, fun hm hl => ?_⟩
  · rw [m1, l1, r1, hentry]
    unfold Console.entry
    rw [hclock]
  · obtain ⟨md, ml⟩ := m3 hm
    obtain ⟨ld, ll, -⟩ := l3 hl
    exact ⟨(ml.trans ll).trans r3, fun h => by rw [Console.device_congr (md.trans ld) h]; exact r2 h⟩

/-- The device resets of a running machine call the chips of the two adapters and the cart's embedded
chip (43_scheduler.md R282, R283). -/
theorem Console.RunOk.resetCalls {c : Console} {ch : Chips} (hw : c.Wired E) (h : c.RunOk E ch) :
    ((List.range 256).reverse.flatMap fun g => (c.device (BitVec.ofNat 8 g)).resetCall.map c.entry) =
      [c.entry (.chip 3 .reset), c.entry (.chip 2 .reset)] ++ c.embeddedEntries .reset := by
  have high : ∀ g ∈ List.map (7 + ·) (List.range 249),
      (c.device (BitVec.ofNat 8 g)).resetCall.map c.entry = [] := by
    intro g hg
    obtain ⟨m, hm, rfl⟩ := List.mem_map.mp hg
    have := List.mem_range.mp hm
    rw [h.others _ (by rw [BitVec.toNat_ofNat]; omega)]; rfl
  have split : List.range 256 = List.range 7 ++ List.map (7 + ·) (List.range 249) := by
    rw [← List.range_add]
  have d0 : c.device (BitVec.ofNat 8 0) = .null := hw.nullDevice
  obtain ⟨m2, d2⟩ := h.banks 2 (by decide)
  obtain ⟨m3, d3⟩ := h.banks 3 (by decide)
  have d2 : c.device (BitVec.ofNat 8 2) = _ := d2
  have d3 : c.device (BitVec.ofNat 8 3) = _ := d3
  have d4 : c.device (BitVec.ofNat 8 4) = _ := h.adapters.1
  have d5 : c.device (BitVec.ofNat 8 5) = _ := h.adapters.2
  have d6 : (c.device (BitVec.ofNat 8 6)).resetCall = [] := by
    cases hb : c.hasBios with
    | true => obtain ⟨img, hi, -⟩ := h.bios hb; rw [show c.device (BitVec.ofNat 8 6) = _ from hi]; rfl
    | false => rw [show c.device (BitVec.ofNat 8 6) = _ from h.noBios hb]; rfl
  have d1 : (c.device (BitVec.ofNat 8 1)).resetCall.map c.entry = c.embeddedEntries .reset := by
    have key : c.cartTag = c.cart?.map Cart.tag := rfl
    unfold Console.embeddedEntries
    rcases hw.cartSlot with hs | hs
    · have ha : c.device 1 = .absent := by
        cases hd : c.device 1 <;> rw [hd] at hs <;> first | rfl | cases hs
      have hc : c.cart? = none := by
        cases hc : c.cart? with
        | none => rfl
        | some k => exact absurd (ha.symm.trans (Console.cart?_eq_some.mp hc)) (by simp)
      rw [key, hc, show c.device (BitVec.ofNat 8 1) = _ from ha]; rfl
    · cases hd : c.device 1 <;> rw [hd] at hs <;> first | (cases hs; done) | skip
      next k =>
        have hc : c.cart? = some k := Console.cart?_eq_some.mpr hd
        rw [key, hc]
        simp only [Device.resetCall, h.attached k hc, and_true, Option.map_some, Option.some.injEq]
        split <;> rfl
  rw [split, List.reverse_append, List.flatMap_append, List.flatMap_eq_nil_iff.mpr
    (fun g hg => high g (List.mem_reverse.mp hg)), List.nil_append]
  simp only [show (List.range 7).reverse = [6, 5, 4, 3, 2, 1, 0] from rfl, List.flatMap_cons,
    List.flatMap_nil, d0, d1, d2, d3, d4, d5, d6]
  simp [Device.resetCall]

/-! ### A frame (43_scheduler.md R291 to R307) -/

/-- A frame hook of the cart: one call of its embedded chip, if it has one, and no cell. -/
theorem cartHook_calls (E : Env) (op : ChipOp) (c : Console) :
    (cartHook E op c).calls = c.embeddedEntries op ++ c.calls := by
  unfold cartHook Console.embeddedEntries Console.cartTag
  cases hc : c.cart? with
  | none => rfl
  | some k =>
    have hv : k.variant.chip = _ := chip_eq k.tag
    simp only
    rw [hv]
    by_cases ht : k.tag = .c16kp
    · rw [if_pos ht, if_pos (by rw [Option.map_some, ht])]; rfl
    · rw [if_neg ht, if_neg (by simpa using ht)]; rfl

theorem cartHook_records (E : Env) (op : ChipOp) (c : Console) (hop : P (.chip 1 op)) :
    Records E P c (cartHook E op c) := by
  have s := cartHook_step E op c
  have hk : ∀ x ∈ c.embeddedEntries op, x.kind = .chip 1 op := by
    intro x hx
    unfold Console.embeddedEntries at hx
    split at hx
    · rw [List.mem_singleton.mp hx]; rfl
    · cases hx
  refine .quiet s.touched.topology s.wired (cartHook_calls E op c)
    (fun x hx => by rw [hk x hx]; exact hop) (fun x hx who addr v e => by rw [hk x hx] at e; cases e)
    fun h j => ?_
  unfold cartHook
  split
  · rfl
  · next k hc =>
    split
    · rfl
    · next w hw => 
      exact cell_setCart (d := (callEmbedded E w.id op k c).2) (k' := (callEmbedded E w.id op k c).1)
        (Console.cart?_eq_some.mp hc) rfl rfl h j

theorem dmaProcessing_records {c d : Console} {n : Nat} (e : dmaProcessing E c = .ok (n, d)) :
    Records E ofDmaStep c d := by
  unfold dmaProcessing at e
  simp only at e
  obtain ⟨⟨x, c1⟩, h1, e⟩ := Except.bind_ok_iff.mp e
  split at e
  · cases e
  · cases e
    exact ((Records.call c (.inr rfl) (by simp)).trans
      ((runProgram_records h1).mono fun _ => .inl)).trans (.registers rfl rfl rfl rfl rfl rfl)

theorem notHook_of_dmaStep (k : CallKind) (h : ofDmaStep k) : k.isHook = false := by
  obtain h | rfl := h
  · exact notHook_of_byBus k h
  · rfl

/-- A scanline calls no frame hook. -/
theorem scanline_records {i : Nat} {c d : Console} {t : LineEnd}
    (e : scanline E i c = .ok (t, d)) : Records E (fun k => k.isHook = false) c d := by
  unfold scanline at e
  simp only at e
  split at e
  · cases e
  obtain ⟨c1, e1, e⟩ := Except.bind_ok_iff.mp e
  have r1 : Records E (fun k => k.isHook = false) c c1 := by
    unfold firstSlice at e1
    exact Records.trans (by exact .registers rfl rfl rfl rfl rfl rfl)
      ((execute_records e1).mono notHook_of_cpu)
  split at e
  · cases e
    exact r1.trans (.registers rfl rfl rfl rfl rfl rfl)
  · split at e
    · obtain ⟨⟨n, c2⟩, e2, e⟩ := Except.bind_ok_iff.mp e
      cases e
      exact (r1.trans ((dmaProcessing_records e2).mono notHook_of_dmaStep)).trans
        (.registers rfl rfl rfl rfl rfl rfl)
    · obtain ⟨c2, e2, e⟩ := Except.bind_ok_iff.mp e
      have r2 : Records E (fun k => k.isHook = false) c1 c2 := by
        obtain ⟨⟨n, c3⟩, e3, e2⟩ := Except.bind_ok_iff.mp e2
        obtain ⟨x, _, e2⟩ := Except.bind_ok_iff.mp e2
        cases e2
        exact ((Records.registers (c := c1) (d := c1.enter .dma) rfl rfl rfl rfl rfl rfl).trans
          ((dmaProcessing_records e3).mono notHook_of_dmaStep)).trans
            (.registers rfl rfl rfl rfl rfl rfl)
      unfold secondSlice at e
      simp only at e
      obtain ⟨c3, e3, e⟩ := Except.bind_ok_iff.mp e
      have r3 : Records E (fun k => k.isHook = false) c2 c3 :=
        (Records.registers (c := c2) (d := (c2.enter .slice2).addBudget (c2.enter .slice2).lineRest)
          rfl rfl rfl rfl rfl rfl).trans ((execute_records e3).mono notHook_of_cpu)
      have r := (r1.trans r2).trans r3
      split at e
      · cases e; exact r.trans (.registers rfl rfl rfl rfl rfl rfl)
      · split at e
        · cases e; exact r.trans (.registers rfl rfl rfl rfl rfl rfl)
        · cases e; exact r

theorem frameLines_records : ∀ (n i : Nat) {c d : Console} {t : LineEnd},
    frameLines E n i c = .ok (t, d) → Records E (fun k => k.isHook = false) c d
  | 0, i, c, d, t, e => by cases e; exact .refl E _ c
  | n + 1, i, c, d, t, e => by
    unfold frameLines at e
    obtain ⟨⟨u, c1⟩, e1, e⟩ := Except.bind_ok_iff.mp e
    have r := scanline_records e1
    cases u with
    | jammed => cases e; exact r
    | preempted => cases e; exact r
    | goOn => exact r.trans (frameLines_records n (i + 1) e)

/-- The pieces of a frame-advance call: the hooks around the lines (R292, R305). -/
theorem runFrame_parts {c d : Console} {t : LineEnd} (e : runFrame E c = .ok (t, d)) :
    ∃ c1 c2 c3, dmaCall E .startFrame ({ c with frame := c.frame + 1 }.enter .notStarted) = .ok c1 ∧
      Records E (fun k => k.isHook = false) (cartHook E .startFrame c1) c2 ∧
      dmaCall E .endFrame (cartHook E .endFrame (c2.enter t.phase)) = .ok c3 ∧
      d = { c3 with sched := Sched.idle } := by
  unfold runFrame at e
  simp only at e
  obtain ⟨c1, e1, e⟩ := Except.bind_ok_iff.mp e
  obtain ⟨⟨u, c2⟩, e2, e⟩ := Except.bind_ok_iff.mp e
  obtain ⟨c3, e3, e⟩ := Except.bind_ok_iff.mp e
  cases e
  exact ⟨c1, c2, c3, e1, frameLines_records _ _ e2, e3, rfl⟩

theorem runFrame_records {c d : Console} {t : LineEnd} (e : runFrame E c = .ok (t, d)) :
    Records E (fun _ => True) c d := by
  obtain ⟨c1, c2, c3, e1, r, e3, rfl⟩ := runFrame_parts e
  have r1 : Records E (fun _ => True) c c1 :=
    (Records.registers (c := c) (d := { c with frame := c.frame + 1 }.enter .notStarted)
      rfl rfl rfl rfl rfl rfl).trans (dmaCall_records e1 (fun _ _ => trivial) trivial)
  have r2 := (r1.trans (cartHook_records E .startFrame c1 trivial)).trans r.any
  have r3 := (r2.trans (Records.registers (c := c2) (d := c2.enter t.phase) rfl rfl rfl rfl rfl rfl)).trans
    (cartHook_records E .endFrame _ trivial)
  exact (r3.trans (dmaCall_records e3 (fun _ _ => trivial) trivial)).trans
    (.registers rfl rfl rfl rfl rfl rfl)

theorem embeddedEntries_kinds {c d : Console} (s : c.SameTopology d) (op : ChipOp) :
    (d.embeddedEntries op).map Call.kind = if c.cartTag = some .c16kp then [.chip 1 op] else [] := by
  unfold Console.embeddedEntries
  rw [s.cartTag]
  split <;> rfl

/-- A frame calls its hooks first and last, on every exit, and no hook in between (R292, R305). -/
theorem runFrame_hooks {c d : Console} {t : LineEnd} (e : runFrame E c = .ok (t, d)) :
    ∃ (first cartStart lines cartEnd last : List Call) (endFrame : Call),
      d.calls = last ++ endFrame :: (cartEnd ++ (lines ++ (cartStart ++ (first ++
        c.entry (.dma .startFrame) :: c.calls)))) ∧
      (∀ x ∈ first, x.kind.byBus .dma) ∧
      cartStart.map Call.kind = (if c.cartTag = some .c16kp then [.chip 1 .startFrame] else []) ∧
      (∀ x ∈ lines, x.kind.isHook = false) ∧
      cartEnd.map Call.kind = (if c.cartTag = some .c16kp then [.chip 1 .endFrame] else []) ∧
      endFrame.kind = .dma .endFrame ∧ ∀ x ∈ last, x.kind.byBus .dma := by
  obtain ⟨c1, c2, c3, e1, r, e3, rfl⟩ := runFrame_parts e
  obtain ⟨first, f1, f2, -⟩ := dmaCall_entries e1
  obtain ⟨lines, l1, l2, -⟩ := r.calls
  obtain ⟨last, m1, m2, -⟩ := dmaCall_entries e3
  have s1 : c.SameTopology c1 :=
    ((Records.registers (E := E) (P := fun _ => True) (c := c)
      (d := { c with frame := c.frame + 1 }.enter .notStarted) rfl rfl rfl rfl rfl rfl).trans
        (dmaCall_records e1 (fun _ _ => trivial) trivial)).topology
  have s2 : c.SameTopology (c2.enter t.phase) :=
    ((s1.trans (cartHook_records (P := fun _ => True) E .startFrame c1 trivial).topology).trans
      r.topology).trans (Records.registers (E := E) (P := fun _ => True) (c := c2) (d := c2.enter t.phase)
        rfl rfl rfl rfl rfl rfl).topology
  refine ⟨first, _, lines, _, last, (cartHook E .endFrame (c2.enter t.phase)).entry (.dma .endFrame),
    ?_, f2, embeddedEntries_kinds s1 .startFrame, l2, embeddedEntries_kinds s2 .endFrame, rfl, m2⟩
  show c3.calls = _
  rw [m1, cartHook_calls]
  show last ++ _ :: (_ ++ c2.calls) = _
  rw [l1, cartHook_calls, f1]
  rfl

end Sys2Proof.Machine
end

