-- ==== Sys2Proof/Laws/Run.lean ====
section
/-! SUPPORT. What the phases have in common: a bench command in `RUN` is refused, and every operation
but the two that replace the machine leaves a running machine in one of three ways. Beside it the two
ways a spec rule and the model name one set: block sizes, and the pages of a range. -/

namespace Sys2Proof.Machine

variable {E : Env}

/-! ### The bench and the running machine -/

theorem State.bench_eq_none {s : State} : s.bench = none ↔ s.phase ≠ .bench := by
  unfold State.phase State.bench
  cases s.console <;> simp [Option.filter]

theorem State.Inv.benchOk {s : State} (hs : s.Inv) {c : Console} (h : s.bench = some c) :
    c.Ok Env.hw ∧ c.chips = none := by
  obtain ⟨h1, h2⟩ := State.bench_eq_some.mp h
  exact ⟨hs.console c h1, Console.phase_bench.mp h2⟩

theorem State.Inv.runOk {s : State} (hs : s.Inv) {c : Console} (h : s.running = some c) :
    c.Ok Env.hw ∧ ∃ ch, c.chips = some ch ∧ c.RunOk Env.hw ch := by
  obtain ⟨h1, h2⟩ := State.running_eq_some.mp h
  obtain ⟨ch, hch⟩ := Console.phase_run.mp h2
  exact ⟨hs.console c h1, ch, hch, (hs.console c h1).running ch hch⟩

theorem State.bench_of_running {s : State} {c : Console} (h : s.running = some c) :
    s.bench = none := by
  rw [State.bench_eq_none]
  obtain ⟨h1, h2⟩ := State.running_eq_some.mp h
  rw [State.phase_of_console h1, h2]; decide

/-- A bench command that is turned away in `RUN` is turned away for its phase. -/
theorem BenchRefused.of_running {s t : State} {l : List Status} {c : Console}
    (h : s.running = some c) (hb : BenchRefused s t l) : t = s.raised .refusedPhase := by
  obtain ⟨_, rfl⟩ | ⟨hne, _⟩ := hb
  · rfl
  · exact absurd (State.bench_of_running h) hne

/-- A machine that keeps its collaborators keeps running. -/
theorem Console.phase_of_honest {c d : Console}
    (h : d.chips.map Chips.dmaHonest = c.chips.map Chips.dmaHonest) (hp : c.phase = .run) :
    d.phase = .run := by
  obtain ⟨ch, hch⟩ := Console.phase_run.mp hp
  apply Console.phase_run.mpr
  rw [hch] at h
  cases hd : d.chips
  · rw [hd] at h; cases h
  · exact ⟨_, rfl⟩

theorem State.cell_of_console {s : State} {c : Console} (h : s.console = some c) (g : Handle)
    (i : Nat) : s.cell g i = (c.device g).cell i := by
  unfold State.cell State.device; rw [h]

/-- Every next state of a running machine, but for the operations that replace it: the machine stays
as it was, or it takes a step of bus accesses and collaborator calls, or it runs a frame. -/
theorem running_next {i : Instr} {s t : State} {c : Console} (hr : s.running = some c)
    (hi : i.replacesMachine = false) (e : exec i s = .next t) :
    (t.running = some c ∧ (i = .frame → (c.halt = true ∨ c.jammed = true) ∧ t.result = 1)) ∨
    (∃ d, t.running = some d ∧ CpuStep Env.hw c d ∧ i ≠ .frame) ∨
    (i = .frame ∧ c.halt = false ∧ c.jammed = false ∧ ∃ u d, runFrame Env.hw c = .ok (u, d) ∧
      t = { s with console := some d, status := .ok, result := u.code }) := by
  have hcon := (State.running_eq_some.mp hr).1
  have hph := (State.running_eq_some.mp hr).2
  have hb := State.bench_of_running hr
  have key : ∀ t : State, t.console = s.console → t.running = some c := by
    intro t h; simp only [State.running, h] at hr ⊢; exact hr
  have bus : ∀ d (t : State), BusStep Env.hw c d → t.console = some d → t.running = some d := by
    intro d t h h'
    exact State.running_eq_some.mpr ⟨h', Console.phase_of_honest h.cpu.honest hph⟩
  have kept : ∀ l, BenchRefused s t l → (t.running = some c) := by
    intro l h; rw [h.of_running hr]; exact key _ rfl
  have nobench : ∀ {x : Console}, s.bench ≠ some x := by
    intro x h; rw [hb] at h; cases h
  cases i
  case mkmach => cases hi
  case restore => cases hi
  case mkcart tag =>
    obtain ⟨e', he, rfl⟩ | ⟨v, hv, rfl⟩ := execMkcart_next e <;> exact .inl ⟨key _ rfl, by simp⟩
  case mkram =>
    obtain h | ⟨c, hc, _⟩ := execMkram_next e
    · exact .inl ⟨kept _ h, by simp⟩
    · exact absurd hc nobench
  case mkrom =>
    obtain h | ⟨c, hc, _⟩ := execMkrom_next e
    · exact .inl ⟨kept _ h, by simp⟩
    · exact absurd hc nobench
  case mkadp =>
    obtain h | ⟨c, hc, _⟩ := execMkadp_next e
    · exact .inl ⟨kept _ h, by simp⟩
    · exact absurd hc nobench
  case attach =>
    obtain h | ⟨c, k, hc, _⟩ := execAttach_next e
    · exact .inl ⟨kept _ h, by simp⟩
    · exact absurd hc nobench
  case map =>
    obtain h | ⟨c, hc, _⟩ := execMap_next e
    · exact .inl ⟨kept _ h, by simp⟩
    · exact absurd hc nobench
  case mapc =>
    obtain h | ⟨c, k, hc, _⟩ := execMapc_next e
    · exact .inl ⟨kept _ h, by simp⟩
    · exact absurd hc nobench
  case selfmap =>
    obtain h | ⟨c, k, hc, _⟩ := execSelfmap_next e
    · exact .inl ⟨kept _ h, by simp⟩
    · exact absurd hc nobench
  case dreset =>
    obtain h | ⟨c, hc, _⟩ := execDreset_next e
    · exact .inl ⟨kept _ h, by simp⟩
    · exact absurd hc nobench
  case mreset =>
    obtain ⟨hr', rfl⟩ | ⟨c', d, hc, hd, rfl⟩ := execMreset_next e
    · rw [hr'] at hr; cases hr
    · rw [hr] at hc; cases hc
      have := machineReset_step hd
      exact .inr (.inl ⟨d, State.running_eq_some.mpr ⟨rfl, Console.phase_of_honest this.honest hph⟩,
        this, by simp⟩)
  case rd =>
    obtain ⟨hr', rfl⟩ | ⟨c', v, d, hc, hd, rfl⟩ := execRd_next e
    · rw [hr'] at hcon; cases hcon
    · rw [hcon] at hc; cases hc
      exact .inr (.inl ⟨d, bus d _ (memRead_step hd).1 rfl, (memRead_step hd).1.cpu, by simp⟩)
  case wr =>
    obtain ⟨hr', rfl⟩ | ⟨c', d, hc, hd, rfl⟩ := execWr_next e
    · rw [hr'] at hcon; cases hcon
    · rw [hcon] at hc; cases hc
      exact .inr (.inl ⟨d, bus d _ (memWrite_step hd).1 rfl, (memWrite_step hd).1.cpu, by simp⟩)
  case busRd =>
    obtain ⟨c', v, d, hc, hd, rfl⟩ := execBusRd_next e
    rw [hcon] at hc; cases hc
    exact .inr (.inl ⟨d, bus d _ (memRead_step hd).1 rfl, (memRead_step hd).1.cpu, by simp⟩)
  case busWr =>
    obtain ⟨c', d, hc, hd, rfl⟩ := execBusWr_next e
    rw [hcon] at hc; cases hc
    exact .inr (.inl ⟨d, bus d _ (memWrite_step hd).1 rfl, (memWrite_step hd).1.cpu, by simp⟩)
  case frame =>
    obtain ⟨hr', rfl⟩ | ⟨c', hc, ⟨h, rfl⟩ | ⟨hh, hj, u, d, hd, rfl⟩⟩ := execFrame_next e
    · rw [hr'] at hr; cases hr
    · rw [hr] at hc; cases hc
      exact .inl ⟨key _ rfl, fun _ => ⟨h, rfl⟩⟩
    · rw [hr] at hc; cases hc
      exact .inr (.inr ⟨rfl, hh, hj, u, d, hd, rfl⟩)
  case poll =>
    obtain ⟨hr', rfl⟩ | ⟨_, _, rfl⟩ := execPoll_next e <;> exact .inl ⟨key _ rfl, by simp⟩
  case save =>
    obtain ⟨hr', rfl⟩ | ⟨_, _, _, _, rfl⟩ := execSave_next e <;> exact .inl ⟨key _ rfl, by simp⟩

/-! ### One access and the other devices -/

/-- In a wired console only `DEV[1]` is a cart. -/
theorem Console.Wired.not_cart {c : Console} (h : c.Wired E) {g : Handle} (hg : g ≠ 1) (k : Cart) :
    c.device g ≠ .cart k := by
  intro hk
  by_cases h0 : g = 0
  · subst h0; rw [h.nullDevice] at hk; cases hk
  · have := (h.otherSlots g h0 hg).2
    rw [hk] at this
    exact this rfl

/-- A read of another device does not reach the cart slot (20_memory.md R72). -/
theorem devRead_other {c d : Console} (hw : c.Wired E) {g : Handle} (hg : g ≠ 1) {a : Addr} {b : Byte}
    (e : devRead E g a c = .ok (b, d)) : d.device 1 = c.device 1 := by
  unfold devRead at e
  split at e
  · cases e
  · cases e; rfl
  · cases e; rfl
  · obtain ⟨w, _, e⟩ := Except.bind_ok_iff.mp e
    cases e; rfl
  · cases e; rfl
  · next k hk => exact absurd hk (hw.not_cart hg k)

/-- A write to another device does not reach the cart slot (20_memory.md R72). -/
theorem devWrite_other {c d : Console} (hw : c.Wired E) {g : Handle} (hg : g ≠ 1) {a : Addr} {v : Byte}
    (e : devWrite E g a v c = .ok d) : d.device 1 = c.device 1 := by
  unfold devWrite at e
  split at e
  · cases e
  · cases e; rfl
  · cases e; rw [Console.device_setDevice_ne _ _ (fun h => hg h.symm)]
  · cases e; rfl
  · cases e; rfl
  · next k hk => exact absurd hk (hw.not_cart hg k)

/-! ### Two spellings of one set -/

/-- The legal block sizes are the powers of two from 64 to 65536 (40_address_space.md R143, R144). -/
theorem mem_blockSizes {n : Nat} : n ∈ blockSizes ↔ ∃ m, 6 ≤ m ∧ m ≤ 16 ∧ n = 2 ^ m := by
  constructor
  · intro h
    simp only [blockSizes, List.mem_cons, List.not_mem_nil, or_false] at h
    rcases h with rfl | rfl | rfl | rfl | rfl | rfl | rfl | rfl | rfl | rfl | rfl
    · exact ⟨6, by decide⟩
    · exact ⟨7, by decide⟩
    · exact ⟨8, by decide⟩
    · exact ⟨9, by decide⟩
    · exact ⟨10, by decide⟩
    · exact ⟨11, by decide⟩
    · exact ⟨12, by decide⟩
    · exact ⟨13, by decide⟩
    · exact ⟨14, by decide⟩
    · exact ⟨15, by decide⟩
    · exact ⟨16, by decide⟩
  · rintro ⟨m, h1, h2, rfl⟩
    interval_cases m <;> decide

/-- The pages the pseudocode of `Map` claims are those a byte of the range lies in
(40_address_space.md R147, R148). -/
theorem mapClaims_iff {base : Addr} {size p : Nat} (hp : p < 1024) :
    mapClaims base size p = true ↔ overlapsPage base size p := by
  have hb := base.isLt
  unfold overlapsPage
  rw [mapClaims_eq, mapCount_eq, pageIndex_eq]
  rw [decide_eq_true_iff]
  generalize base.toNat = b at *
  constructor
  · rintro ⟨hs, h⟩
    generalize hj : (p + 1024 - b / 64) % 1024 = j at h
    by_cases h0 : j = 0
    · exact ⟨0, by omega, by omega⟩
    · exact ⟨(b / 64 + j) * 64 - b, by omega, by omega⟩
  · rintro ⟨k, hk, h⟩
    exact ⟨by omega, by omega⟩

theorem Console.pageAt_eq_get (c : Console) {p : Nat} (hp : p < 1024) : c.pageAt p = c.page[p] := by
  unfold Console.pageAt; simp [hp]

end Sys2Proof.Machine
end

