-- ==== Sys2Proof/Laws/StreamErrors.lean ====
section
/-! SUPPORT. The errors a stream can end a RESTORE with (60_exceptions.md R401, codes 0x30 to 0x39),
reader by reader. -/

namespace Sys2Proof.Machine

/-- The stream errors. -/
def streamErrors : List Status :=
  [.badMagic, .badVersion, .badDiscriminant, .badLength, .overCap, .truncated, .badBool, .badString,
    .badValue, .trailingData]

/-- A reader that ends only with a stream error. -/
def Fails {α : Type} (g : Reader α) : Prop := ∀ bs e, g bs = .error e → e ∈ streamErrors

theorem Fails.pure {α : Type} (x : α) : Fails (Pure.pure x : Reader α) := by
  intro bs e h; cases h

theorem Fails.bind {α β : Type} {g : Reader α} {f : α → Reader β} (hg : Fails g)
    (hf : ∀ x, Fails (f x)) : Fails (g >>= f) := by
  intro bs e h
  rw [Reader.bind_apply] at h
  cases hx : g bs with
  | error e' =>
    rw [hx] at h
    cases h
    exact hg bs e hx
  | ok p =>
    rw [hx] at h
    exact hf p.1 p.2 e h

theorem Fails.failWith {α : Type} {e : Status} (h : e ∈ streamErrors) :
    Fails (failWith e : Reader α) := by
  intro bs e' h'; cases h'; exact h

theorem Fails.ensure {b : Bool} {e : Status} (h : e ∈ streamErrors) : Fails (ensure b e) := by
  unfold Machine.ensure
  split
  · exact .pure ()
  · exact .failWith h

theorem Fails.raw (n : Nat) : Fails (getRaw n) := by
  intro bs e h
  unfold getRaw at h
  split at h <;> cases h
  decide

theorem Fails.int (n : Nat) : Fails (getInt n) := (Fails.raw n).bind fun _ => .pure _
theorem Fails.u8 : Fails getU8 := (Fails.int 1).bind fun _ => .pure _
theorem Fails.u16 : Fails getU16 := (Fails.int 2).bind fun _ => .pure _
theorem Fails.u32 : Fails getU32 := (Fails.int 4).bind fun _ => .pure _
theorem Fails.u64 : Fails getU64 := (Fails.int 8).bind fun _ => .pure _

theorem Fails.bool : Fails getBool := Fails.u8.bind fun v => by
  split
  · exact .pure _
  · split
    · exact .pure _
    · exact .failWith (by decide)

theorem Fails.str : Fails getStr :=
  Fails.u8.bind fun _ => (Fails.ensure (by decide)).bind fun _ => (Fails.raw _).bind fun _ =>
    (Fails.ensure (by decide)).bind fun _ => .pure _

theorem Fails.length : Fails getLength :=
  Fails.u32.bind fun _ => (Fails.ensure (by decide)).bind fun _ =>
    (Fails.ensure (by decide)).bind fun _ => .pure _

theorem Fails.bytes : Fails getBytes := Fails.length.bind fun _ => .raw _

theorem Fails.bytesOf (allowed : List Nat) : Fails (getBytesOf allowed) :=
  Fails.length.bind fun _ => (Fails.ensure (by decide)).bind fun _ => .raw _

theorem Fails.header (cls : Config.StreamClass) : Fails (getHeader cls) :=
  (Fails.int 4).bind fun _ => (Fails.ensure (by decide)).bind fun _ => Fails.u32.bind fun _ =>
    .ensure (by decide)

theorem Fails.announced {α : Type} {get : Reader α} (h : Fails get) (b : Bool) :
    Fails (getAnnounced b get) := by
  unfold getAnnounced
  split
  · exact h.bind fun _ => .pure _
  · exact .pure _

theorem Fails.fixedOption {α : Type} {get : Reader α} (h : Fails get) (b : Bool) :
    Fails (getFixedOption b get) :=
  Fails.bool.bind fun _ => (Fails.ensure (by decide)).bind fun _ => h.announced _

theorem Fails.option {α : Type} {get : Reader α} (h : Fails get) : Fails (getOption get) :=
  Fails.bool.bind fun _ => h.announced _

theorem Fails.many {α : Type} {get : Reader α} (h : Fails get) : ∀ n, Fails (getMany get n)
  | 0 => .pure _
  | n + 1 => h.bind fun _ => (Fails.many h n).bind fun _ => .pure _

theorem Fails.image (E : Env) (who : ImageOwner) : Fails (getImage E who) :=
  Fails.bytes.bind fun _ => (Fails.ensure (by decide)).bind fun _ => .pure _

theorem Fails.channel : Fails getChannel :=
  Fails.u16.bind fun _ => (Fails.ensure (by decide)).bind fun _ => Fails.u32.bind fun _ =>
    (Fails.ensure (by decide)).bind fun _ => Fails.u8.bind fun _ => Fails.u8.bind fun _ =>
      Fails.u8.bind fun _ => .pure _

theorem Fails.voice : Fails getVoice := Fails.u32.bind fun _ => Fails.u32.bind fun _ => .pure _

theorem Fails.fetcher (clock : Word64) : Fails (getFetcher clock) :=
  (Fails.header _).bind fun _ => (Fails.channel.many 8).bind fun _ => Fails.u32.bind fun _ =>
    (Fails.voice.many 3).bind fun _ => (Fails.int 4).bind fun _ => (Fails.ensure (by decide)).bind
      fun _ => Fails.u64.bind fun _ => (Fails.ensure (by decide)).bind fun _ => .pure _

theorem Fails.chip (E : Env) : Fails (getChip E) := (Fails.header _).bind fun _ => .image E .chip

theorem Fails.named {α : Type} (names : List (Bytes × α)) : Fails (getNamed names) :=
  Fails.str.bind fun name => by
    split
    · exact .failWith (by decide)
    · exact .pure _

theorem Fails.bank (v : Variant) (n : Nat) : Fails (getBank v n) :=
  Fails.u32.bind fun _ => (Fails.ensure (by decide)).bind fun _ => .pure _

theorem Fails.cart (E : Env) (clock : Word64) : Fails (getCart E clock) :=
  (Fails.named _).bind fun _ => (Fails.header _).bind fun _ => (Fails.bytesOf _).bind fun _ =>
    ((Fails.bank _ _).many _).bind fun _ => ((Fails.bytesOf _).fixedOption _).bind fun _ =>
      ((Fails.fetcher clock).fixedOption _).bind fun _ => ((Fails.chip E).fixedOption _).bind
        fun _ => .pure _

theorem Fails.cpu : Fails getCpu :=
  (Fails.header _).bind fun _ => Fails.u64.bind fun _ => Fails.u32.bind fun _ => Fails.bool.bind
    fun _ => Fails.bool.bind fun _ => Fails.u16.bind fun _ => (Fails.bytesOf _).bind fun _ =>
      (Fails.ensure (by decide)).bind fun _ => .pure _

theorem Fails.root (E : Env) : Fails (getRoot E) :=
  (Fails.named _).bind fun _ => (Fails.header _).bind fun _ => Fails.bool.bind fun _ =>
    Fails.u64.bind fun _ => Fails.cpu.bind fun _ => (Fails.header _).bind fun _ => Fails.u8.bind
      fun _ => (Fails.header _).bind fun _ => (Fails.image E .dma).bind fun _ =>
        ((Fails.bytesOf _).many _).bind fun _ => (Fails.bytesOf _).option.bind fun _ =>
          (Fails.header _).bind fun _ => (Fails.image E .input).bind fun _ =>
            (Fails.cart E _).option.bind fun _ => .pure _

/-- A stream that does not parse ends with a stream error. -/
theorem parseStream_error {E : Env} {bs : Bytes} {e : Status} (h : parseStream E bs = .error e) :
    e ∈ streamErrors := by
  unfold parseStream at h
  split at h
  · next hr => cases h; exact Fails.root E bs e hr
  · cases h
  · cases h; decide

end Sys2Proof.Machine
end

