-- ==== Sys2Proof/Tests/Slice0.lean ====
section
/-! SUPPORT. The modeller's tests. Expected values are those of spec/95_test_vectors.md (named V<n>)
and the encodings of 30_encoding.md; then, for every statement with hypotheses, a state and operands
that meet them. -/

namespace Sys2Proof.Tests

open Sys2Proof.Machine

set_option Elab.async false

/-! ### Well-formedness: one ill-formed term for each check -/

theorem test_ill_formed_mkmach : (Instr.mkmach 256 false false).wellFormed = false := by decide
theorem test_ill_formed_mkcart : (Instr.mkcart 256).wellFormed = false := by decide
theorem test_ill_formed_mkram : (Instr.mkram 2 4294967296).wellFormed = false := by decide
theorem test_ill_formed_map : (Instr.map 2 0 4294967296).wellFormed = false := by decide
theorem test_ill_formed_mapc : (Instr.mapc 1 0 4294967296).wellFormed = false := by decide

/-! ### Decoding: a word of every constructor, written out from R103 and R104

The words of P1 to P3 and of section 9 of 95_test_vectors.md where they have one. -/

/-- `op<<56 | dev<<48 | addr<<32 | arg` (30_encoding.md R104), with the word's length. -/
def word (op dev addr arg : Nat) : Option Instr :=
  decodeTableWord 64 (op * 2 ^ 56 + dev * 2 ^ 48 + addr * 2 ^ 32 + arg)

theorem test_decode_mkmach : word 0x01 0 0 0x101 = some (.mkmach 1 true false) ∧
    decodeTableWord 64 0x0100000000000201 = some (.mkmach 1 false true) := by decide
theorem test_decode_mkcart : word 0x02 0 0 0xC8 = some (.mkcart 200) := by decide
theorem test_decode_mkram : decodeTableWord 64 0x0303000000000040 = some (.mkram 3 0x40) := by decide
theorem test_decode_mkrom : word 0x04 0xFF 0 0 = some (.mkrom 0xFF) := by decide
theorem test_decode_mkadp : word 0x05 4 0x3F 2 = some (.mkadp 4 0x3F 2) := by decide
theorem test_decode_attach : decodeTableWord 64 0x0601000000000000 = some (.attach 1) := by decide
theorem test_decode_map :
    decodeTableWord 64 0x07020040000000C0 = some (.map 2 0x0040 0xC0) := by decide
theorem test_decode_mapc :
    decodeTableWord 64 0x0801F00000001000 = some (.mapc 1 0xF000 0x1000) := by decide
theorem test_decode_selfmap : decodeTableWord 64 0x0901000000000000 = some (.selfmap 1) := by decide
theorem test_decode_dreset : decodeTableWord 64 0x0A01000000000000 = some (.dreset 1) := by decide
theorem test_decode_mreset : word 0x10 0 0 0 = some .mreset := by decide
theorem test_decode_rd : decodeTableWord 64 0x1100004500000000 = some (.rd 0x0045) := by decide
theorem test_decode_wr :
    decodeTableWord 64 0x12001FF900000044 = some (.wr 0x1FF9 0x44) := by decide
theorem test_decode_frame : decodeTableWord 64 0x1300000000000000 = some .frame := by decide
theorem test_decode_poll : decodeTableWord 64 0x1400000000000000 = some .poll := by decide
theorem test_decode_save : decodeTableWord 64 0x2000000000000000 = some .save := by decide
theorem test_decode_restore : decodeTableWord 64 0x2100000000000000 = some .restore := by decide
theorem test_decode_bus_rd : decodeTableWord 32 0x0F00000 = some (.busRd 0xF000) := by decide
theorem test_decode_bus_wr :
    decodeTableWord 32 0x11FF944 = some (.busWr 0x1FF9 0x44) := by decide

/-- V180: reserved operation codes. -/
theorem test_reserved_ops :
    decodeCommand 0x0000000000000000 = .error .unknownOp ∧
    decodeCommand 0x0B00000000000000 = .error .unknownOp ∧
    decodeCommand 0x2200000000000000 = .error .unknownOp ∧
    decodeCommand 0xFF00000000000000 = .error .unknownOp := by decide

/-- V181 to V184 and the read with data bits of section 9. -/
theorem test_unused_bits :
    decodeCommand 0x1100F00000000001 = .error .unusedBits ∧
    decodeCommand 0x0201000000000002 = .error .unusedBits ∧
    decodeCommand 0x0100000000000400 = .error .unusedBits ∧
    decodeCommand 0x1301000000000000 = .error .unusedBits ∧
    decodeBus 0x0F00001 = .error .busReadData := by decide

/-! ### Helpers -/

/-- The test image `IMG(n)`. -/
def img (n : Nat) : Bytes := tableFrom (fun i => BitVec.ofNat 8 (i ^^^ (i >>> 8))) 0 n

/-- What a step left in `STATUS` and `RESULT`, or the code of its fault. -/
inductive Seen where
  | next (status result : Byte)
  | fault (code : Option Byte)
  | refused
  deriving DecidableEq, Repr

/-- The outcome of one step, as the host sees it. -/
def seen : StepResult → Seen
  | .next t => .next t.status.code t.result
  | .fault f => .fault f.code
  | .refused _ => .refused

/-- What a next state shows of itself. -/
def after {α : Type} (r : StepResult) (look : State → α) : Option α :=
  match r with
  | .next t => some (look t)
  | .fault _ => none
  | .refused _ => none

/-- One cell of the state after a step. -/
def cellAfter (r : StepResult) (h : Handle) (i : Nat) : Option Byte := after r fun t => t.cell h i

/-- A bench with a cart, or none, in `DEV[1]`. -/
def benchConsole (cart : Option Cart) : Console := placeCart cart (freshConsole .bare false [])

/-- The state holding a console. -/
def stateOf (c : Console) : State := { State.reset with console := some c }

/-- A cart of a variant, as the factory builds it from the test image of its shortest length. -/
def cartOf (t : CartTag) : Cart := newCart t (img ((Config.cartTable t).romlens.headD 0)) 0

/-- The same after `ATTACH`, for a variant with neither chip nor waveform generator. -/
def attachedCart (t : CartTag) : Cart := { cartOf t with attached := true }

/-- A bench whose `DEV[2]` is a RAM block, mapped as V5 maps it. -/
def ramBench : Console := mapPages 0x1800 0x0800 2 ((benchConsole none).setDevice 2 (newRam 0x0800))

/-- Section 4's start: an attached cart mapped at 0xF000. -/
def cartBench (t : CartTag) : Console :=
  mapCart 0xF000 0x1000 (benchConsole (some (attachedCart t)))

/-- Program P2's state after its `MAPC`: a snooping cart at 0xF000, a RAM block at 0x1800. -/
def snoopBench : Console :=
  mapCart 0xF000 0x1000 (mapPages 0x1800 0x0800 2
    ((benchConsole (some (attachedCart .ls8k))).setDevice 2 (newRam 0x0800)))

/-- The bank base of the cart after a step. -/
def bankAfterStep (r : StepResult) : Option Nat :=
  (after r fun t => t.console.bind Console.cart?).join.map Cart.bankBase

/-- `AS.lbv` after a step. -/
def lbvAfter (r : StepResult) : Option Byte := (after r fun t => t.console.map Console.lbv).join

/-- The CPU registers of V130, empty images, a DMA chip that keeps its contract (log 26). -/
def testChips : Chips :=
  { cpu := { pc := 0xF000, regs := #v[0x11, 0x22, 0x33, 0xFD, 0x34] }, dma := [], input := [],
    dmaHonest := true }

/-- A machine as `MKMACH M7800NTSC` constructs it (no BIOS), with those collaborators. -/
def machineOf (E : Env) (cart : Option Cart) : Console :=
  { giveChips E (hull E .ntsc cart none []) with chips := some testChips }

/-- The same of the hardware's collaborators. -/
def machine (cart : Option Cart) : Console := machineOf Env.hw cart

/-- The collaborators of 95_test_vectors.md: a CPU whose instruction that begins at a clock ends as
given, a DMA chip that returns one count, a chip whose `Read(r)` is `0xC0 or r`. -/
def scripted (insn : Nat → InsnEnd) (count : Int) : Env where
  collab :=
    { chipRead := fun
        | ⟨.chip _ (.read r), _, _⟩ :: _ => 0xC0 ||| r.setWidth 8
        | _ => 0
      cpuCreate := fun _ => testChips.cpu
      cpuReset := fun _ => .done testChips.cpu
      cpuInsn := fun
        | c :: _ => .done (insn c.clock.toNat)
        | [] => default
      dmaCall := fun _ => .done ()
      dmaProcess := fun _ => .done (BitVec.ofInt 32 count)
      dmaHonest := fun _ => false
      image := fun _ _ => []
      accepts := fun _ _ => true }
  preemptEndsCall := true
  debugChecks := true

/-- The same with a DMA chip that writes one byte inside each of its other contract calls. -/
def writer (insn : Nat → InsnEnd) : Env :=
  { scripted insn 0 with
    collab := { (scripted insn 0).collab with dmaCall := fun _ => .write 0x1805 0xAB (.done ()) } }

/-- `CPU(k)`, `CPU(k, jam at c)`, `CPU(k, preempt at c)`. -/
def cpuScript (k : Nat) (jamAt preemptAt : Option Nat) (clock : Nat) : InsnEnd :=
  { cycles := k, jam := jamAt == some clock, preempt := preemptAt == some clock,
    regs := testChips.cpu }

/-- A machine at a clock and a budget, its tables bare. -/
def runner (clock : Nat) (budget : Int) : Console :=
  { freshConsole .ntsc false [] with
    clock := BitVec.ofNat 64 clock, budget := BitVec.ofInt 32 budget, chips := some testChips }

/-- How a line ended, and the clock, the budget, the halt flag and the number of DMA steps. -/
def lineSeen (r : Except Fault (LineEnd × Console)) : Option (LineEnd × Nat × Int × Bool × Nat) :=
  match r with
  | .ok (t, d) => some (t, d.clock.toNat, d.budget.toInt, d.halt, d.dmaSteps)
  | .error _ => none

/-! ### The instructions, on the vectors of 95_test_vectors.md -/

/-- V87a, V87b. -/
theorem test_mkmach_tests :
    seen (exec (.mkmach 3 false false) State.reset) = .next 0x20 0 ∧
    seen (exec (.mkmach 1 true false) State.reset) = .next 0x13 0 := by decide +kernel

/-- P1's first command. -/
theorem test_mkmach_bare : after (exec (.mkmach 0 false false) State.reset) (fun t => (t.status, t.phase)) =
    some (.ok, .bench) := by decide +kernel

/-- V21, V26. -/
theorem test_mkcart_unknown :
    after (exec (.mkcart 0) { State.reset with romPort := img 2048 })
      (fun t => (t.status, t.stage.map Cart.tag)) = some (.ok, some .f2k) := by decide +kernel
theorem test_mkcart_tag_first :
    seen (exec (.mkcart 200) { State.reset with romPort := img 4096 }) = .next 0x21 0 := by
  decide +kernel

/-- V188, V189, and a legal size. -/
theorem test_mkram_tests :
    seen (exec (.mkram 1 64) (stateOf (benchConsole none))) = .next 0x12 0 ∧
    seen (exec (.mkram 2 100) (stateOf (benchConsole none))) = .next 0x13 0 ∧
    seen (exec (.mkram 2 0x20000) (stateOf (benchConsole none))) = .next 0x13 0 := by decide +kernel
theorem test_mkram_makes :
    after (exec (.mkram 2 0x40) (stateOf (benchConsole none))) (fun t => t.device 2) =
      some (.ram 0x40 []) := by decide +kernel

/-- V194, and a legal image. -/
theorem test_mkrom_empty : seen (exec (.mkrom 3) (stateOf (benchConsole none))) = .next 0x13 0 := by
  decide +kernel
theorem test_mkrom_makes :
    after (exec (.mkrom 3) { stateOf (benchConsole none) with romPort := img 64 })
      (fun t => t.device 3) = some (.rom (img 64)) := by decide +kernel

/-- V193, and a legal chip. -/
theorem test_mkadp_chip_zero : seen (exec (.mkadp 4 0x3F 0) (stateOf (benchConsole none))) = .next 0x13 0 := by
  decide +kernel
theorem test_mkadp_makes :
    after (exec (.mkadp 4 0x3F 2) (stateOf (benchConsole none))) (fun t => t.device 4) =
      some (.adapter 2 0x3F) := by decide +kernel

/-- V191, V192. -/
theorem test_attach_tests :
    seen (exec (.attach 1) (stateOf (benchConsole none))) = .next 0x12 0 ∧
    seen (exec (.attach 1) (stateOf (cartBench .l8k))) = .next 0x13 0 := by decide +kernel
/-- 41_cart_family.md R186. -/
theorem test_attach_sets_the_flag :
    (after (exec (.attach 1) (stateOf (benchConsole (some (cartOf .f2k)))))
      fun t => t.console.bind Console.cart?).join.map Cart.attached = some true := by decide +kernel

/-- V7, V8. -/
theorem test_map_spans :
    (after (exec (.map 2 0x183F 2) (stateOf ((benchConsole none).setDevice 2 (newRam 0x0800))))
      fun t => t.console.map fun c => (c.pageAt 0x5F, c.pageAt 0x60, c.pageAt 0x61, c.pageAt 0x62)) =
      some (some (0, 2, 2, 0)) := by decide +kernel
theorem test_map_wraps :
    (after (exec (.map 2 0xFFC0 0x80) (stateOf ((benchConsole none).setDevice 2 (newRam 0x0800))))
      fun t => t.console.map fun c => (c.pageAt 0x3FE, c.pageAt 0x3FF, c.pageAt 0, c.pageAt 1)) =
      some (some (0, 2, 2, 0)) := by decide +kernel

/-- V191; P2's `MAPC`. -/
theorem test_mapc_no_cart : seen (exec (.mapc 1 0xF000 0x1000) (stateOf (benchConsole none))) = .next 0x12 0 := by
  decide +kernel
theorem test_mapc_snooper :
    (after (exec (.mapc 1 0xF000 0x1000) (stateOf (benchConsole (some (cartOf .ls8k)))))
      fun t => t.console.map fun c => (c.snooper, c.pageAt 0x3BF, c.pageAt 0x3C0, c.pageAt 0x3FF)) =
      some (some (1, 0, 1, 1)) := by decide +kernel

/-- P2's `SELFMAP`; V60. -/
theorem test_selfmap_other : seen (exec (.selfmap 1) (stateOf (benchConsole (some (cartOf .ls8k))))) = .next 0 0 := by
  decide +kernel
theorem test_selfmap_windows :
    (after (exec (.selfmap 1) (stateOf (benchConsole (some (cartOf .c16kp)))))
      fun t => (t.result, t.console.map fun c =>
        (c.pageAt 0x0FF, c.pageAt 0x100, c.pageAt 0x1FF, c.pageAt 0x200, c.pageAt 0x300))) =
      some (1, some (0, 1, 1, 0, 1)) := by decide +kernel

/-- V45, V57: the bank goes to 0, the overlay stays. -/
theorem test_dreset_bank :
    bankAfterStep (exec (.dreset 1) (stateOf (benchConsole (some ((attachedCart .l8k).setBank 0x1000))))) =
      some 0 := by decide +kernel
theorem test_dreset_overlay :
    (after (exec (.dreset 1) (stateOf (benchConsole (some { attachedCart .l8kr with ram := [(5, 0x77)] }))))
      fun t => t.cell 1 5) = some 0x77 := by decide +kernel

/-- V186; V87h, with a scripted CPU and DMA chip. -/
theorem test_mreset_bench : seen (exec .mreset (stateOf (benchConsole none))) = .next 0x10 0 := by decide +kernel
theorem test_mreset_bank :
    ((machineReset (scripted (cpuScript 2 none none) 0)
        { runner 29870 (-8) with dev := powerOnDevices.set 1 (.cart ((attachedCart .l8kr).setBank 0x1000)) }).toOption.map
      fun d => (d.cart?.map Cart.bankBase, d.clock.toNat, d.budget.toInt)) =
      some (some 0, 29870, -8) := by decide +kernel

/-- V19a, V32. -/
theorem test_rd_snoops :
    after (exec (.rd 0x1FF9) (stateOf snoopBench)) (fun t => t.result) = some 0x00 ∧
    bankAfterStep (exec (.rd 0x1FF9) (stateOf snoopBench)) = some 0x1000 := by decide +kernel
theorem test_rd_latch :
    seen (exec (.rd 0xFFF9) (stateOf (cartBench .l8k))) = .next 0x00 0xE6 := by decide +kernel

/-- V12, V19b; V50. -/
theorem test_wr_ram :
    cellAfter (exec (.wr 0x1805 0xAB) (stateOf ramBench)) 2 5 = some 0xAB ∧
    lbvAfter (exec (.wr 0x1FF8 0x77) (stateOf snoopBench)) = some 0x77 := by decide +kernel
theorem test_wr_overlay :
    cellAfter (exec (.wr 0xF005 0x77) (stateOf (cartBench .l8kr))) 1 5 = some 0x77 ∧
    bankAfterStep (exec (.wr 0xF005 0x77) (stateOf (cartBench .l8kr))) = some 0 := by decide +kernel

/-- V185; V111. -/
theorem test_frame_empty : seen (exec .frame State.reset) = .next 0x10 0 := by decide +kernel
theorem test_frame_halted :
    seen (exec .frame (stateOf { runner 346 12 with halt := true, jammed := true })) = .next 0 1 := by
  decide +kernel

/-- V186; V112. -/
theorem test_poll_bench : seen (exec .poll (stateOf (benchConsole none))) = .next 0x10 0 := by decide +kernel
theorem test_poll_halted :
    seen (exec .poll (stateOf { runner 346 12 with halt := true, jammed := true })) = .next 0 1 := by
  decide +kernel

/-- V185; V130's length and its bytes 0 to 59 (the RAM cells left at 0). -/
theorem test_save_empty : seen (exec .save State.reset) = .next 0x10 0 := by decide +kernel
theorem test_save_stream :
    (after (exec .save (stateOf (machine none))) fun t => (t.sout.length, t.sout.take 60)) =
      some (4199,
        [0x09, 0x4D, 0x37, 0x38, 0x30, 0x30, 0x4E, 0x54, 0x53, 0x43,
         0x87, 0x00, 0x00, 0x78, 0x01, 0x00, 0x00, 0x00, 0x00, 0, 0, 0, 0, 0, 0, 0, 0] ++
        [0x87, 0x00, 0x00, 0x78, 0x01, 0x00, 0x00, 0x00, 0, 0, 0, 0, 0, 0, 0, 0, 0, 0, 0, 0,
         0x00, 0x00, 0x00, 0xF0, 0x05, 0x00, 0x00, 0x00, 0x11, 0x22, 0x33, 0xFD, 0x34]) := by
  decide +kernel

/-- The first bytes of V130's stream, up to the `Machine` version, with the changes of V143 and V148. -/
def head (last version : Byte) : Bytes :=
  [0x09, 0x4D, 0x37, 0x38, 0x30, 0x30, 0x4E, 0x54, 0x53, last, 0x87, 0x00, 0x00, 0x78, version, 0, 0, 0]

/-- V140, V143; V148. -/
theorem test_restore_truncated :
    seen (exec .restore State.reset) = .next 0x35 0 ∧
    seen (exec .restore { State.reset with sin := head 0x43 2 }) = .next 0x31 0 := by decide +kernel
theorem test_restore_name :
    seen (exec .restore { State.reset with sin := head 0x58 1 }) = .next 0x32 0 := by decide +kernel

/-- A bus read answers in the response and leaves `RESULT`; V15's cell by a bus write. -/
theorem test_bus_rd :
    (after (exec (.busRd 0xFFF9) (stateOf (cartBench .l8k))) fun t => (t.busData, t.result)) =
      some (0xE6, 0) := by decide +kernel
theorem test_bus_wr :
    cellAfter (exec (.busWr 0x1840 0x33) (stateOf ramBench)) 2 0x40 = some 0x33 := by decide +kernel

/-- V180, V184: decoding comes before the phase. -/
theorem test_step_bad_command :
    seen (step (State.reset.withFetchWord 64 0x1301000000000000)) = .next 0x11 0 ∧
    seen (step (State.reset.withFetchWord 64 0x0B00000000000000)) = .next 0x11 0 := by decide +kernel

/-! ### Shared operations, on the vectors -/

/-- V61, V62: the chip window, with `CHIP`. -/
theorem test_chip_window :
    (cartRead (scripted (cpuScript 2 none none) 0) 0x7FF3 { cartOf .c16kp with attached := true, chip := some [] }
      (benchConsole none)).toOption.map (·.1) = some 0xC3 := by decide +kernel

/-- V66: the same before attach. -/
theorem test_chip_unattached :
    seen (exec (.rd 0x4003) (stateOf (mapPages 0x4000 0x4000 1 (benchConsole (some (cartOf .c16kp)))))) =
      .fault (some 0xF0) := by decide +kernel

/-- A coprocessor with one channel and the LFSR set. -/
def fetcherWith (c : Channel) : DataFetcher := (DataFetcher.initial 0).setChannel 2 c

/-- V78b, V78d, V79: the flag and the masked read of channel 2. -/
theorem test_flag :
    channelFlag { ctr := 0x008, fctr := 0, finc := 0, top := 0x20, bot := 0x10 } = true ∧
    channelFlag { ctr := 0x010, fctr := 0, finc := 0, top := 0x20, bot := 0x10 } = false ∧
    (regRead true 0 (img 0x3000) 0x12
        (fetcherWith { ctr := 0x008, fctr := 0, finc := 0, top := 0x20, bot := 0x10 })).toOption.map
      (fun r => (r.1, (r.2.channel 2).ctr)) = some (0x28, 0x009) := by decide +kernel

/-- V84a: `RNDF` from the seed. -/
theorem test_rndf :
    (regRead true 0 [] 0x00 (DataFetcher.initial 0)).toOption.map (fun r => (r.1, r.2.lfsr)) =
      some (0x6A, 0x0885686A) := by decide +kernel

/-- V85c, V85g: ticks, remainder and phase. -/
theorem test_wave :
    generatorTicks 1 1180000 = (1, 6818) ∧ generatorTicks 1193182 358454 = (20000, 358454) := by
  decide +kernel

/-- V97a, V97c, V105, V107. -/
theorem test_dma_counts :
    correctClocks 262 203 152 = 148 ∧ correctClocks 312 203 152 = 152 ∧
    limitClocks 428 429 = .ok 214 ∧ limitClocks 428 2147483647 = .ok 255 ∧
    limitClocks 416 428 = .ok 214 ∧ roundClocks 214 = 216 ∧ roundClocks 5 = 8 := by decide +kernel

/-- V93: line 1 of V95. -/
theorem test_scanline :
    lineSeen (scanline (scripted (cpuScript 5 none none) 429) 0 (runner 117 (-12))) =
      some (.goOn, 231, -12, false, 1) := by decide +kernel

/-- V110: a jam in the first slice of line 3. -/
theorem test_scanline_jam :
    lineSeen (scanline (scripted (cpuScript 2 (some 344) none) 0) 0 (runner 342 0)) =
      some (.jammed, 346, 12, true, 0) := by decide +kernel

/-- V115: a preempt in the first slice of line 2. -/
theorem test_scanline_preempt :
    lineSeen (scanline (scripted (cpuScript 2 none (some 230)) 100) 0 (runner 228 0)) =
      some (.preempted, 342, 0, false, 1) := by decide +kernel

/-! ### Witnesses

For every statement with hypotheses, a state and operands that meet them all; for a statement with
several clauses, one for each clause, at the ends of its ranges. First the well-formed states. -/

theorem img_length (n : Nat) : (img n).length = n := tableFrom_length _ 0 n

theorem cartOf_ok (E : Env) (t : CartTag) : (cartOf t).Ok E := by
  refine newCart_ok ?_ 0
  rw [img_length]
  cases t <;> decide

/-- A cart with neither chip nor generator stays well formed when it is attached. -/
theorem attachedCart_ok (E : Env) {t : CartTag} (h : (Config.cartTable t).chip = none) :
    (attachedCart t).Ok E := by
  have k := cartOf_ok E t
  refine ⟨k.romLength, k.bankCount, k.banks, k.overlay, k.fetcher, k.remainder, ?_, k.chipImage⟩
  have e : (attachedCart t).variant.chip = none := h
  rw [e]; rfl

theorem bench_ok {E : Env} {cart : Option Cart} (h : ∀ k, cart = some k → k.Ok E) :
    (benchConsole cart).Ok E ∧ (benchConsole cart).chips = none :=
  ⟨bare_ok [] h false, by cases cart <;> rfl⟩

/-- What the bench commands keep. -/
theorem map_ok {E : Env} {c : Console} (h : c.Ok E ∧ c.chips = none) {g : Handle}
    (hg : c.device g ≠ .absent) (base : Addr) (size : Nat) :
    (mapPages base size g c).Ok E ∧ (mapPages base size g c).chips = none :=
  ⟨h.1.bench_keep h.2 h.2 (h.1.wired.map hg base size) rfl rfl rfl rfl, h.2⟩

theorem mapCart_ok {E : Env} {c : Console} (h : c.Ok E ∧ c.chips = none) {k : Cart}
    (hk : c.cart? = some k) (base : Addr) (size : Nat) :
    (mapCart base size c).Ok E ∧ (mapCart base size c).chips = none := by
  have hc : (mapCart base size c).chips = none := (mapCart_chips base size c).trans h.2
  have b := (Built.mapCart base size c).keep
  exact ⟨h.1.bench_keep h.2 hc (h.1.wired.mapCart hk base size) b.2.1 b.2.2.2.budget b.2.2.2.jammed
    b.2.2.2.sched, hc⟩

theorem fill_ok {E : Env} {c : Console} (h : c.Ok E ∧ c.chips = none) {g : Handle}
    (hf : c.freeHandle g = true) {d : Device} (hd : d.Ok E)
    (hk : d.kind ≠ .null ∧ d.kind ≠ .cart ∧ d.kind ≠ .none) :
    (c.setDevice g d).Ok E ∧ (c.setDevice g d).chips = none :=
  ⟨h.1.bench_keep h.2 h.2 (h.1.wired.fill hf hd hk) rfl rfl rfl rfl, h.2⟩

theorem stateOf_inv {c : Console} (h : c.Ok Env.hw) : (stateOf c).Inv :=
  ⟨fun _ hd => Option.some.inj hd ▸ h, (fun _ hk => nomatch hk), rfl⟩

theorem newRam_ok (E : Env) : (newRam 0x0800).Ok E := ⟨by decide, rfl⟩

theorem bench_device (cart : Option Cart) {g : Handle} (hg : 2 ≤ g.toNat) :
    (benchConsole cart).device g = .absent := by
  unfold benchConsole
  rw [placed_device, if_neg (by rintro rfl; simp at hg), if_neg (by rintro rfl; simp at hg)]

theorem bench_free (cart : Option Cart) : (benchConsole cart).freeHandle 2 = true :=
  Console.freeHandle_iff.mpr ⟨by decide, bench_device cart (by decide)⟩

/-- A bench with a RAM block in `DEV[2]`, mapped at 0x1800. -/
theorem withRam_ok {E : Env} {c : Console} (h : c.Ok E ∧ c.chips = none)
    (hf : c.freeHandle 2 = true) :
    (mapPages 0x1800 0x0800 2 (c.setDevice 2 (newRam 0x0800))).Ok E ∧
      (mapPages 0x1800 0x0800 2 (c.setDevice 2 (newRam 0x0800))).chips = none :=
  map_ok (fill_ok h hf (newRam_ok E) (by decide))
    (by rw [Console.device_setDevice_same]; exact Device.noConfusion) _ _

theorem ramBench_ok (E : Env) : ramBench.Ok E ∧ ramBench.chips = none :=
  withRam_ok (bench_ok fun _ h => nomatch h) (bench_free none)

theorem bench_cart (k : Cart) : (benchConsole (some k)).cart? = some k :=
  Console.cart?_eq_some.mpr (Console.device_setDevice_same _ cartHandle (.cart k))

theorem cartBench_ok (E : Env) {t : CartTag} (h : (Config.cartTable t).chip = none) :
    (cartBench t).Ok E ∧ (cartBench t).chips = none :=
  mapCart_ok (k := attachedCart t)
    (bench_ok fun k hk => by cases hk; exact attachedCart_ok E h)
    (bench_cart _) _ _

theorem snoopBench_ok (E : Env) : snoopBench.Ok E ∧ snoopBench.chips = none := by
  refine mapCart_ok (k := attachedCart .ls8k)
    (withRam_ok (bench_ok fun k hk => ?_) (bench_free _)) ?_ _ _
  · obtain rfl := Option.some.inj hk
    exact attachedCart_ok E rfl
  · apply Console.cart?_eq_some.mpr
    rw [Console.device_congr (mapPages_dev _ _ _ _), Console.device_setDevice_ne _ _ (by decide)]
    exact Console.cart?_eq_some.mp (bench_cart _)

/-- A running machine may hold other registers in its collaborators. -/
theorem withChips_ok {E : Env} {c : Console} (h : c.Ok E) (hr : ∃ ch, c.chips = some ch) :
    { c with chips := some testChips }.Ok E := by
  obtain ⟨ch, hch⟩ := hr
  have r := h.running ch hch
  have w := h.wired
  refine ⟨⟨w.nullDevice, w.cartSlot, w.otherSlots, w.devices, w.pages, w.snooper⟩, h.carry, h.idle,
    (fun h => nomatch h), fun ch' e => ?_⟩
  obtain rfl := Option.some.inj e
  exact ⟨r.real, r.attached, r.banks, r.adapters, r.bios, r.noBios, r.others, r.topology, r.snoops,
    ⟨by decide, rfl⟩, ⟨by decide, rfl⟩⟩

theorem machineOf_ok {E : Env} {cart : Option Cart} (h : ∀ k, cart = some k → k.Ok E) :
    (machineOf E cart).Ok E := by
  have f := machine_facts (E := E) (by decide : MachType.ntsc ≠ .bare) cart none
    (fun _ h => nomatch h) []
  exact withChips_ok (f.ok (by decide) h fun _ h => nomatch h) f.chips

theorem machine_ok {cart : Option Cart} (h : ∀ k, cart = some k → k.Ok Env.hw) :
    (machine cart).Ok Env.hw := machineOf_ok h

theorem machine_inv {cart : Option Cart} (h : ∀ k, cart = some k → k.Ok Env.hw) :
    (stateOf (machine cart)).Inv := stateOf_inv (machine_ok h)

theorem noCart_ok {E : Env} : ∀ k : Cart, none = some k → k.Ok E := fun _ h => by cases h

theorem machine_running (cart : Option Cart) :
    (stateOf (machine cart)).running = some (machine cart) :=
  State.running_eq_some.mpr ⟨rfl, rfl⟩

theorem bench_stateOf {c : Console} (h : c.chips = none) : (stateOf c).bench = some c :=
  State.bench_eq_some.mpr ⟨rfl, Console.phase_bench.mpr h⟩

/-! #### Encoding and fetching -/

theorem witness_EncodeThenDecodeIsIdentity :
    (Instr.mkmach 255 true true).wellFormed ∧ (Instr.mkcart 255).wellFormed ∧
    (Instr.mkram 0xFF 4294967295).wellFormed ∧ (Instr.map 0xFF 0xFFFF 4294967295).wellFormed ∧
    (Instr.mapc 0xFF 0xFFFF 4294967295).wellFormed ∧ (Instr.busWr 0xFFFF 0xFF).wellFormed := by decide

theorem witness_DecodedWordEncodesBack :
    decode (.command 0x1100123400000000) = .ok (.rd 0x1234) ∧
    decode (.bus 0x1FFFFFF) = .ok (.busWr 0xFFFF 0xFF) := by decide

/-- A used-bits word, an unused bit, a reserved code; and the queue. -/
theorem witness_CommandWordsOutsideTheTableAreRefused :
    usedBits (opField 0x11FFFF0000000000).toNat = some 0xFF00FFFF00000000 ∧
    (0x1100FFFF00000000 : CommandWord) &&& ~~~0xFF00FFFF00000000 = 0 ∧
    (0x1100FFFF00000001 : CommandWord) &&& ~~~0xFF00FFFF00000000 ≠ 0 ∧
    usedBits (opField 0x0B00000000000000).toNat = none ∧
    (State.reset.withFetchWord 64 0x0B00000000000000).queue =
      .request (.command 0x0B00000000000000) :: [] := by decide

theorem witness_StepRunsTheDecodedInstruction :
    (State.reset.withFetchWord 64 0x1400000000000000).queue =
      .request (.command 0x1400000000000000) :: [] ∧
    decode (.command 0x1400000000000000) = .ok .poll ∧ State.reset.queue = [] ∧
    ({ State.reset with queue := [.romPort [1], .sin [2]] } : State).queue =
      .romPort [1] :: [.sin [2]] ∧
    ({ State.reset with queue := [.sin [2]] } : State).queue = .sin [2] :: [] ∧
    (0x0000001 : BusWord).getLsbD 24 = false ∧ busDataField 0x0000001 ≠ 0 := by decide

/-! #### Outcomes and the invariant -/

theorem reset_inv : State.reset.Inv := ⟨(fun _ h => nomatch h), (fun _ h => nomatch h), rfl⟩

theorem witness_PhaseTableIsEnforced :
    Instr.frame.isCommand ∧ phaseAllows State.reset.phase .frame = false ∧
    phaseAllows (stateOf ramBench).phase (.rd 0x1805) = true ∧
    ∃ t, exec (.rd 0x1805) (stateOf ramBench) = .next t := by
  refine ⟨rfl, rfl, rfl, ?_⟩
  have h : (after (exec (.rd 0x1805) (stateOf ramBench)) fun t => t.status) = some .ok := by
    decide +kernel
  cases e : exec (.rd 0x1805) (stateOf ramBench) with
  | next t => exact ⟨t, rfl⟩
  | fault f => rw [e] at h; cases h
  | refused r => rw [e] at h; cases h

theorem witness_RefusalsAndErrorsChangeOnlyStatus :
    exec .frame State.reset = .next { State.reset with status := .refusedPhase } ∧
    exec (.mkmach 3 false false) State.reset = .next { State.reset with status := .badMachineTag } ∧
    Status.refusedPhase ≠ .ok := ⟨rfl, rfl, by decide⟩

theorem witness_OutcomesAreThoseOfTheTable :
    State.reset.Inv ∧ (stateOf ramBench).Inv ∧ (stateOf (machine none)).Inv :=
  ⟨reset_inv, stateOf_inv (ramBench_ok _).1, machine_inv noCart_ok⟩

/-- A bench command, and `MKMACH` from power-on. -/
theorem witness_EveryStepKeepsTheInvariant :
    State.reset.Inv ∧
    ∃ t, step { State.reset with queue := [.request (.command 0x0100000000000000)] } = .next t :=
  ⟨reset_inv, _, rfl⟩

theorem witness_TopologyIsFixedInRun :
    (stateOf (machine none)).Inv ∧ (stateOf (machine none)).running = some (machine none) ∧
    Instr.poll.replacesMachine = false ∧
    ∃ t, exec .poll (stateOf (machine none)) = .next t :=
  ⟨machine_inv noCart_ok, machine_running none, rfl, _, rfl⟩

/-- `FRAME` is none of the operations each clause excludes but the last two; `BUS.WR` is no command. -/
theorem witness_HostRegistersHaveTheirWriters :
    (∃ t, exec .mreset State.reset = .next t) ∧ Instr.mreset ≠ .save ∧
    (∀ tag, Instr.mreset ≠ .mkcart tag) ∧ (∀ ty b, Instr.mreset ≠ .mkmach ty true b) ∧
    (∀ a, Instr.mreset ≠ .rd a) ∧ (∀ h, Instr.mreset ≠ .selfmap h) ∧ Instr.mreset ≠ .frame ∧
    Instr.mreset ≠ .poll ∧ (∀ a, Instr.mreset ≠ .busRd a) ∧
    (∃ t, exec (.busWr 0x1805 1) (stateOf ramBench) = .next t) ∧
    (Instr.busWr 0x1805 1).isCommand = false := by
  refine ⟨⟨_, rfl⟩, ?_⟩
  refine ⟨by decide, by simp, by simp, by simp, by simp, by decide, by decide, by simp, ?_, rfl⟩
  obtain ⟨c', e⟩ := memWrite_total (E := Env.hw) (ramBench_ok _).1.wired
    (show ramBench.CartReady from fun k hk => by
      have : ramBench.cart? = none := by decide +kernel
      rw [this] at hk; cases hk) (0x1805 : Addr).toNat 1
  have hc : (stateOf ramBench).console = some ramBench := rfl
  exact ⟨_, by rw [exec, execBusWr, hc]; simp only [e]; rfl⟩

/-! #### Construction -/

/-- One state and operands for each test, at its boundary. -/
theorem witness_MkmachTestsInOrder :
    2 < 3 ∧ (2 ≤ 2 ∧ State.reset.stage = none) ∧
    (({ State.reset with stage := some (cartOf .f2k) } : State).stage ≠ none) ∧
    State.reset.romPort.length ≠ 4096 ∧
    ({ State.reset with romPort := img 4097 } : State).romPort.length ≠ 4096 := by
  refine ⟨by decide, by decide, by simp, by decide, ?_⟩
  show (img 4097).length ≠ 4096
  rw [img_length]; decide

theorem witness_MkmachBareMakesABench :
    (false = true → State.reset.stage ≠ none) ∧
    (true = true → ({ State.reset with stage := some (cartOf .f2k) } : State).stage ≠ none) := by
  simp

theorem staged_inv (t : CartTag) : ({ State.reset with stage := some (cartOf t) } : State).Inv :=
  ⟨(fun _ h => nomatch h), (fun k hk => by obtain rfl := Option.some.inj hk; exact ⟨cartOf_ok _ t, rfl⟩),
    rfl⟩

/-- Construction with a DMA chip that writes cell 5 of `DEV[2]` inside its `Create`, newest first. -/
theorem writing_construct :
    ∃ c, construct (writer (cpuScript 2 none none)) .ntsc none none [] = .ok c ∧
      c.calls = [⟨.busWrite .dma 0x1805 0xAB, 0xAB, 0⟩] ++ [⟨.dma .create, 0, 0⟩, ⟨.cpu .create, 0, 0⟩] ∧
      c.stores (BitVec.ofNat 16 0x1805) 2 5 := by
  obtain ⟨c, e⟩ := construct_total (E := writer (cpuScript 2 none none)) (type := .ntsc) (cart := none)
    (bios := none) (fun _ h => nomatch h) (fun _ _ h => nomatch h) []
  have h : (construct (writer (cpuScript 2 none none)) .ntsc none none []).toOption.map
      (fun c => (c.calls, c.storedCell (c.mappedHandle (BitVec.ofNat 16 0x1805)) (BitVec.ofNat 16 0x1805))) =
      some ([⟨.busWrite .dma 0x1805 0xAB, 0xAB, 0⟩] ++ [⟨.dma .create, 0, 0⟩, ⟨.cpu .create, 0, 0⟩],
        some (2, 5)) := by decide +kernel
  rw [e] at h
  obtain ⟨h1, h2⟩ := Prod.mk.inj (Option.some.inj h)
  exact ⟨c, e, h1, .inr h2⟩

/-- A command with all three parts; a construction with a bus write, and one without, with a chip. -/
theorem witness_MkmachMakesTheMachine :
    (({ State.reset with stage := some (cartOf .c16kp), romPort := img 4096 } : State).Inv ∧
      ({ State.reset with stage := some (cartOf .c16kp), romPort := img 4096 } : State).stage ≠ none ∧
      ({ State.reset with stage := some (cartOf .c16kp), romPort := img 4096 } : State).romPort.length =
        4096) ∧
    (∃ c, construct (writer (cpuScript 2 none none)) .ntsc none none [] = .ok c ∧
      c.calls = [⟨.busWrite .dma 0x1805 0xAB, 0xAB, 0⟩] ++ [⟨.dma .create, 0, 0⟩, ⟨.cpu .create, 0, 0⟩] ∧
      c.stores (BitVec.ofNat 16 0x1805) 2 5) ∧
    (cartOf .c16kp).Ok (scripted (cpuScript 2 none none) 0) ∧ (cartOf .c16kp).attached = false ∧
    (construct (scripted (cpuScript 2 none none) 0) .pal (some (cartOf .c16kp)) (some (img 4096))
      []).toOption.map Console.calls =
        some [⟨.dma .create, 0, 0⟩, ⟨.cpu .create, 0, 0⟩, ⟨.chip 1 .create, 0, 0⟩] :=
  ⟨⟨⟨(staged_inv .c16kp).console, (staged_inv .c16kp).stage, rfl⟩, by simp, img_length 4096⟩,
    writing_construct, cartOf_ok _ _, rfl, by decide +kernel⟩

theorem witness_MkcartTestsTagThenLength :
    15 < 16 ∧
    (({ State.reset with romPort := img 2048 } : State).romPort.length, CartTag.f2k) ∈
      inferTable ∧
    ({ State.reset with romPort := img 2049 } : State).romPort.length ∉
      [2048, 4096, 8192, 16384, 32768] ∧
    (15, CartTag.f32k) ∈ tagTable ∧
    ({ State.reset with romPort := img 2048 } : State).romPort.length ∉ romLengths .f32k := by
  simp only [img_length]
  decide

theorem witness_MkcartStagesANewCart :
    (12, CartTag.mc4k) ∈ tagTable ∧ (11, CartTag.df12k) ∈ tagTable ∧
    ({ State.reset with romPort := img 0x40000 } : State).romPort.length ∈ romLengths .mc4k ∧
    ({ State.reset with romPort := img 0x3000 } : State).romPort.length ∈ romLengths .df12k ∧
    (({ State.reset with romPort := img 0x8000 } : State).romPort.length, CartTag.l32k) ∈ inferTable ∧
    (5, CartTag.l32k) ∈ tagTable ∧
    (.f2k ∈ fixedTags ∧ CartTag.f2k ≠ .mc4k) ∧ (.l8k ∉ fixedTags ∧ CartTag.l8k ≠ .c16kp) := by
  simp only [img_length]
  decide

/-! #### The bench -/

/-- A reserved handle, a filled one, a free one; the sizes at both ends and outside. -/
theorem witness_ConstructorsFillAFreeHandle :
    (stateOf ramBench).bench = some ramBench ∧ (1 : Handle).toNat < 2 ∧
    ramBench.device 2 ≠ .absent ∧ (2 ≤ (3 : Handle).toNat ∧ ramBench.device 3 = .absent) ∧
    (6 ≤ 6 ∧ 64 = 2 ^ 6) ∧ (16 ≤ 16 ∧ 65536 = 2 ^ 16) ∧ (¬∃ n, 6 ≤ n ∧ n ≤ 16 ∧ 100 = 2 ^ n) ∧
    (¬∃ n, 6 ≤ n ∧ n ≤ 16 ∧ (stateOf ramBench).romPort.length = 2 ^ n) ∧
    (∃ n, 6 ≤ n ∧ n ≤ 16 ∧
      ({ stateOf ramBench with romPort := img 64 } : State).romPort.length = 2 ^ n) ∧
    (255 : Byte) ≠ 0 := by
  refine ⟨bench_stateOf (ramBench_ok Env.hw).2, by decide, by decide +kernel, by decide +kernel,
    by decide, by decide, ?_, ?_, ⟨6, by decide, by decide, img_length 64⟩, by decide⟩
  · rw [← mem_blockSizes]; decide
  · rw [← mem_blockSizes]
    show ([] : Bytes).length ∉ blockSizes
    decide

theorem witness_MapClaimsOverlappedPages :
    State.reset.phase ≠ .bench ∧ (stateOf ramBench).bench = some ramBench ∧
    ramBench.device 3 = .absent ∧ ramBench.device 2 ≠ .absent ∧ overlapsPage 0xFFC0 0x80 0 ∧
    ¬overlapsPage 0xFFC0 0x80 1 := by
  refine ⟨by decide, bench_stateOf (ramBench_ok Env.hw).2, by decide +kernel, by decide +kernel, ?_, ?_⟩
  · rw [← mapClaims_iff (by decide)]; decide
  · rw [← mapClaims_iff (by decide)]; decide

theorem snoop_bench : (stateOf snoopBench).bench = some snoopBench :=
  bench_stateOf (snoopBench_ok Env.hw).2

theorem snoop_cart : snoopBench.device 1 = .cart (attachedCart .ls8k) := rfl

theorem witness_MapcInstallsTheSnooper :
    State.reset.phase ≠ .bench ∧ (stateOf snoopBench).bench = some snoopBench ∧ (2 : Handle) ≠ 1 ∧
    (∀ k, ramBench.device 1 ≠ .cart k) ∧ snoopBench.device 1 = .cart (attachedCart .ls8k) ∧
    (cartBench .l8k).device 1 = .cart (attachedCart .l8k) ∧ overlapsPage 0xF000 0x1000 0x3FF ∧
    ¬overlapsPage 0xF000 0x1000 0x3BF := by
  refine ⟨by decide, snoop_bench, by decide, fun k => ?_, snoop_cart, rfl, ?_, ?_⟩
  · rw [show ramBench.device 1 = .absent from rfl]; exact Device.noConfusion
  · rw [← mapClaims_iff (by decide)]; decide
  · rw [← mapClaims_iff (by decide)]; decide

/-- A bench with an unattached cart. -/
theorem plain_bench (t : CartTag) :
    (stateOf (benchConsole (some (cartOf t)))).bench = some (benchConsole (some (cartOf t))) :=
  bench_stateOf rfl

theorem plain_inv (t : CartTag) : (stateOf (benchConsole (some (cartOf t)))).Inv :=
  stateOf_inv (bench_ok fun k hk => by obtain rfl := Option.some.inj hk; exact cartOf_ok _ t).1

theorem plain_cart (t : CartTag) :
    (benchConsole (some (cartOf t))).device 1 = .cart (cartOf t) :=
  Console.cart?_eq_some.mp (bench_cart _)

theorem witness_SelfmapMapsTheWindows :
    (stateOf (benchConsole (some (cartOf .c16kp)))).bench =
      some (benchConsole (some (cartOf .c16kp))) ∧
    (benchConsole (some (cartOf .c16kp))).device 1 = .cart (cartOf .c16kp) ∧
    (cartOf .c16kp).tag = .c16kp ∧ (cartOf .l8k).tag ≠ .c16kp ∧
    ((0x100 ≤ 0x1FF ∧ 0x1FF ≤ 0x1FF) ∨ (0x300 ≤ 0x1FF ∧ 0x1FF ≤ 0x3FF)) ∧
    ¬((0x100 ≤ 0x200 ∧ 0x200 ≤ 0x1FF) ∨ (0x300 ≤ 0x200 ∧ 0x200 ≤ 0x3FF)) :=
  ⟨plain_bench _, plain_cart _, rfl, by decide, by decide, by decide⟩

theorem witness_AttachHappensOnce :
    (stateOf (benchConsole (some (cartOf .c16kp)))).bench =
      some (benchConsole (some (cartOf .c16kp))) ∧
    (benchConsole (some (cartOf .c16kp))).device 1 = .cart (cartOf .c16kp) ∧
    (cartOf .c16kp).attached = false ∧ (attachedCart .ls8k).attached = true ∧
    (cartOf .df12k).tag ≠ .c16kp :=
  ⟨plain_bench _, plain_cart _, rfl, rfl, by decide⟩

theorem witness_DresetActsByKind :
    (stateOf ramBench).Inv ∧ (stateOf ramBench).bench = some ramBench ∧
    ramBench.device 3 = .absent ∧ ramBench.device 0 = .null ∧ ramBench.device 2 ≠ .absent ∧
    (∀ t, (stateOf (benchConsole (some (cartOf t)))).Inv ∧
      (benchConsole (some (cartOf t))).device 1 ≠ .absent) :=
  ⟨stateOf_inv (ramBench_ok _).1, bench_stateOf (ramBench_ok Env.hw).2, by decide +kernel,
    by decide +kernel, by decide +kernel,
    fun t => ⟨plain_inv t, by rw [plain_cart]; exact Device.noConfusion⟩⟩

/-! #### The bus -/

/-- A console without a cart is ready for any access. -/
theorem ram_ready : ramBench.CartReady := by
  intro k hk
  rw [show ramBench.cart? = none from rfl] at hk
  cases hk

theorem witness_BusAccessesAreTwoPhase :
    devRead Env.hw ramBench.snooper 0x1805 ramBench = .ok (0x00, ramBench) ∧
    devRead Env.hw (ramBench.pageAt ((0x1805 : Addr).toNat / 64)) 0x1805
      { ramBench with lbv := 0x00 } = .ok (0x00, { ramBench with lbv := 0x00 }) ∧
    devWrite Env.hw ramBench.snooper 0x1805 0 { ramBench with lbv := 0x00 } =
      .ok { ramBench with lbv := 0x00 } ∧
    (∃ c, devWrite Env.hw (ramBench.pageAt ((0x1805 : Addr).toNat / 64)) 0x1805 0
      { ramBench with lbv := 0x00 } = .ok c) ∧
    (stateOf ramBench).console = some ramBench ∧
    (∃ r, memRead Env.hw (0x1805 : Addr).toNat ramBench = .ok r) ∧
    ∃ c, memWrite Env.hw (0x1805 : Addr).toNat 0 ramBench = .ok c := by
  have w := (ramBench_ok Env.hw).1.wired
  refine ⟨rfl, ?_, rfl, ?_, rfl, memRead_total w ram_ready _, memWrite_total w ram_ready _ _⟩
  · rw [show ramBench.pageAt ((0x1805 : Addr).toNat / 64) = 2 by decide +kernel]
    rfl
  · rw [show ramBench.pageAt ((0x1805 : Addr).toNat / 64) = 2 by decide +kernel]
    exact ⟨_, rfl⟩

theorem witness_SimpleDevicesReadAndWrite :
    ramBench.Wired Env.hw ∧ ramBench.device 0 = .null ∧ ramBench.device 2 = .ram 0x0800 [] ∧
    ((benchConsole none).setDevice 2 (.rom (img 64))).Wired Env.hw ∧
    ((benchConsole none).setDevice 2 (.rom (img 64))).device 2 = .rom (img 64) := by
  refine ⟨(ramBench_ok _).1.wired, rfl, rfl, ?_, Console.device_setDevice_same _ _ _⟩
  refine (bench_ok noCart_ok).1.wired.fill (bench_free none) ?_ (by decide)
  show (img 64).length ∈ blockSizes
  rw [img_length]; decide

/-- An attached cart with a chip, by hand: any image its `LoadState` takes. -/
def chipCart : Cart := { cartOf .c16kp with attached := true, chip := some [] }

theorem chipCart_ok (E : Env) : chipCart.Ok E := by
  have k := cartOf_ok E .c16kp
  refine ⟨k.romLength, k.bankCount, k.banks, k.overlay, k.fetcher, k.remainder, rfl, fun i hi => ?_⟩
  obtain rfl : ([] : Bytes) = i := Option.some.inj hi
  exact ⟨by decide, rfl⟩

theorem witness_ChipAccessesCallTheChip :
    ((benchConsole none).setDevice 4 (.adapter 2 0x3F)).device 4 = .adapter 2 0x3F ∧
    chipCart.Ok Env.hw ∧ chipCart.tag = .c16kp ∧ chipCart.attached = true ∧
    (cartOf .c16kp).Ok Env.hw ∧ (cartOf .c16kp).tag = .c16kp ∧ (cartOf .c16kp).attached = false ∧
    (0x4000 ≤ (0x4000 : Addr).toNat ∧ (0x4000 : Addr).toNat < 0x8000) ∧
    (0x4000 ≤ (0x7FFF : Addr).toNat ∧ (0x7FFF : Addr).toNat < 0x8000) ∧
    ¬(0x4000 ≤ (0x8000 : Addr).toNat ∧ (0x8000 : Addr).toNat < 0x8000) :=
  ⟨Console.device_setDevice_same _ _ _, chipCart_ok _, rfl, rfl, cartOf_ok _ _, rfl, rfl, by decide,
    by decide, by decide⟩

theorem witness_BusAccessesComplete :
    ((stateOf ramBench).Inv ∧ (stateOf ramBench).console = some ramBench ∧ ramBench.CartReady) ∧
    ((stateOf (machine none)).Inv ∧ (stateOf (machine none)).console = some (machine none) ∧
      (stateOf (machine none)).phase = .run) :=
  ⟨⟨stateOf_inv (ramBench_ok _).1, rfl, ram_ready⟩, machine_inv noCart_ok, rfl, rfl⟩

/-- An unattached cart in every page. -/
def unattachedBench (t : CartTag) : Console := mapPages 0 0x10000 1 (benchConsole (some (cartOf t)))

theorem unattached_facts (t : CartTag) :
    (stateOf (unattachedBench t)).Inv ∧
    (stateOf (unattachedBench t)).bench = some (unattachedBench t) ∧
    (unattachedBench t).device 1 = .cart (cartOf t) ∧ (cartOf t).attached = false ∧
    (unattachedBench t).snooper = 0 ∧ ∀ a, (unattachedBench t).mappedHandle a = 1 := by
  have h := map_ok (E := Env.hw) (g := 1)
    (bench_ok fun k hk => by obtain rfl := Option.some.inj hk; exact cartOf_ok _ t)
    (by rw [plain_cart]; exact Device.noConfusion) 0 0x10000
  have hd : (unattachedBench t).device 1 = .cart (cartOf t) :=
    (Console.device_congr (mapPages_dev _ _ _ _) 1).trans (plain_cart t)
  have hs : (unattachedBench t).snooper = 0 := mapPages_snooper _ _ _ _
  refine ⟨stateOf_inv h.1, bench_stateOf h.2, hd, rfl, hs, fun a => ?_⟩
  have hp : pageIndex a < 1024 := by have := a.isLt; rw [pageIndex_eq]; omega
  have hc : mapClaims 0 0x10000 (pageIndex a) = true := by
    refine (mapClaims_iff hp).mpr ⟨pageIndex a * 64, by omega, ?_⟩
    show (0 + pageIndex a * 64) / 64 % 1024 = pageIndex a
    omega
  exact (Console.pageAt_mapPages _ _ _ _ hp).trans (if_pos hc)

theorem witness_UnattachedAccessFaults :
    (∀ t, (stateOf (unattachedBench t)).Inv ∧
      (stateOf (unattachedBench t)).bench = some (unattachedBench t) ∧
      (unattachedBench t).device 1 = .cart (cartOf t) ∧ (cartOf t).attached = false ∧
      (unattachedBench t).snooper = 0 ∧ ∀ a, (unattachedBench t).mappedHandle a = 1) ∧
    (cartOf .c16kp).tag = .c16kp ∧ (cartOf .df12k).tag = .df12k ∧
    (0x4000 ≤ (0x7FFF : Addr).toNat ∧ (0x7FFF : Addr).toNat < 0x8000) ∧
    (0xF005 : Addr).toNat % 0x1000 = 0x005 ∧ 0x070 ≤ (0xF072 : Addr).toNat % 0x1000 ∧
    (0xF072 : Addr).toNat % 0x1000 ≤ 0x072 :=
  ⟨unattached_facts, rfl, rfl, by decide⟩

theorem ram_access (a : Addr) (v : Byte) :
    (∃ t, exec (.wr a v) (stateOf ramBench) = .next t) ∧
    (∃ t, exec (.busWr a v) (stateOf ramBench) = .next t) ∧
    (∃ t, exec (.rd a) (stateOf ramBench) = .next t) ∧
    ∃ t, exec (.busRd a) (stateOf ramBench) = .next t := by
  have w := (ramBench_ok Env.hw).1.wired
  obtain ⟨c, e⟩ := memWrite_total w ram_ready a.toNat v
  obtain ⟨⟨b, d⟩, f⟩ := memRead_total w ram_ready a.toNat
  have hc : (stateOf ramBench).console = some ramBench := rfl
  exact ⟨⟨_, by rw [exec, execWr, hc]; simp only [e]; rfl⟩,
    ⟨_, by rw [exec, execBusWr, hc]; simp only [e]; rfl⟩,
    ⟨_, by rw [exec, execRd, hc]; simp only [f]; rfl⟩,
    ⟨_, by rw [exec, execBusRd, hc]; simp only [f]; rfl⟩⟩

theorem witness_AccessesStoreExactlyTheirCells :
    (stateOf ramBench).Inv ∧ (stateOf ramBench).console = some ramBench ∧
    (∃ t, exec (.wr 0x1805 0xAB) (stateOf ramBench) = .next t) ∧
    (∃ t, exec (.rd 0x1805) (stateOf ramBench) = .next t) ∧ ramBench.stores 0x1805 2 5 ∧
    ¬ramBench.stores 0x1805 2 6 := by
  refine ⟨stateOf_inv (ramBench_ok _).1, rfl, (ram_access _ _).1, (ram_access 0x1805 0).2.2.1, ?_, ?_⟩ <;>
  · unfold Console.stores
    rw [show ramBench.storedCell ramBench.snooper 0x1805 = none by decide +kernel,
      show ramBench.storedCell (ramBench.mappedHandle 0x1805) 0x1805 = some (2, 5) by decide +kernel]
    simp

theorem witness_RamWriteThenReadReturnsTheByte :
    (stateOf ramBench).Inv ∧ (stateOf ramBench).console = some ramBench ∧ ramBench.CartReady ∧
    ramBench.device (ramBench.mappedHandle 0x1FFF) = .ram 0x0800 [] := by
  refine ⟨stateOf_inv (ramBench_ok _).1, rfl, ram_ready, ?_⟩
  rw [show ramBench.mappedHandle 0x1FFF = 2 by decide +kernel]
  rfl

/-- No call of the record is a bus write. -/
def noBusWrite (l : List Call) : Bool :=
  l.all fun x => match x.kind with
    | .busWrite _ _ _ => false
    | _ => true

theorem of_noBusWrite {l : List Call} (h : noBusWrite l = true) :
    ∀ x ∈ l, ∀ who addr v, x.kind ≠ .busWrite who addr v := by
  intro x hx who addr v e
  have := List.all_eq_true.mp h x hx
  simp only [e] at this
  cases this

/-- A machine whose DMA chip writes cell 5 of `DEV[2]` inside its reset. -/
def writing : Console := machineOf (writer (cpuScript 2 none none)) none

/-- Its reset, and the record of it, newest first. -/
theorem writing_reset :
    ∃ d, machineReset (writer (cpuScript 2 none none)) writing = .ok d ∧
      d.calls = [⟨.cpu .reset, 0xAB, 0⟩] ++ ⟨.busWrite .dma 0x1805 0xAB, 0xAB, 0⟩ ::
        ([⟨.dma .reset, 0, 0⟩, ⟨.chip 3 .reset, 0, 0⟩, ⟨.chip 2 .reset, 0, 0⟩] ++ writing.calls) := by
  have ok := machineOf_ok (E := writer (cpuScript 2 none none)) noCart_ok
  obtain ⟨d, e⟩ := machineReset_total ok.wired (ok.running testChips rfl).ready
  have h : (machineReset (writer (cpuScript 2 none none)) writing).toOption.map Console.calls = some
      ([⟨.cpu .reset, 0xAB, 0⟩] ++ ⟨.busWrite .dma 0x1805 0xAB, 0xAB, 0⟩ ::
        ([⟨.dma .reset, 0, 0⟩, ⟨.chip 3 .reset, 0, 0⟩, ⟨.chip 2 .reset, 0, 0⟩] ++ writing.calls)) := by
    decide +kernel
  have e : machineReset (writer (cpuScript 2 none none)) writing = .ok d := e
  refine ⟨d, e, ?_⟩
  rw [e] at h
  exact Option.some.inj h

/-- A cell that the bus write of that reset stores to, and one that it does not. -/
theorem writing_stores : writing.Wired (writer (cpuScript 2 none none)) ∧
    writing.stores (BitVec.ofNat 16 0x1805) 2 5 ∧ ¬writing.stores (BitVec.ofNat 16 0x1805) 2 6 ∧
    writing.neverStored 2 5 [⟨.cpu .reset, 0xAB, 0⟩] := by
  have hs : ∀ j, writing.stores (BitVec.ofNat 16 0x1805) 2 j ↔ j = 5 := by
    intro j
    unfold Console.stores
    rw [show writing.storedCell writing.snooper (BitVec.ofNat 16 0x1805) = none by decide +kernel,
      show writing.storedCell (writing.mappedHandle (BitVec.ofNat 16 0x1805)) (BitVec.ofNat 16 0x1805) =
        some (2, 5) by decide +kernel]
    simp [eq_comm]
  refine ⟨(machineOf_ok noCart_ok).wired, (hs 5).mpr rfl, fun h => absurd ((hs 6).mp h) (by decide), ?_⟩
  intro x hx who addr v e
  rw [List.mem_singleton.mp hx] at e
  cases e

/-- A frame whose collaborators make no bus write, with its record; and a reset with one. -/
theorem witness_CellsChangeOnlyByBusWrites :
    (∃ d new newer older x, machineReset (writer (cpuScript 2 none none)) writing = .ok d ∧
      d.calls = new ++ writing.calls ∧ writing.Wired (writer (cpuScript 2 none none)) ∧
      new = newer ++ x :: older ∧ x.kind = .busWrite .dma 0x1805 0xAB ∧
      writing.stores (BitVec.ofNat 16 0x1805) 2 5 ∧ writing.neverStored 2 5 newer ∧
      writing.neverStored 2 6 new) ∧
    (∃ t d, runFrame (scripted (cpuScript 2 (some 0) none) 0) (runner 0 0) = .ok (t, d) ∧
      d.calls = d.calls ++ (runner 0 0).calls ∧
      ∀ x ∈ d.calls, ∀ who addr v, x.kind ≠ .busWrite who addr v) ∧
    (stateOf (machine none)).running = some (machine none) ∧
    (∃ d, machineReset Env.hw (machine none) = .ok d) ∧
    (machine none).halt = false ∧ (machine none).jammed = false ∧
    ∃ r, runFrame Env.hw (machine none) = .ok r := by
  have ok := machine_ok noCart_ok
  have r := ok.running testChips rfl
  refine ⟨?_, ?_, machine_running none, ?_, rfl, rfl, ?_⟩
  · obtain ⟨d, e, h⟩ := writing_reset
    obtain ⟨w, s5, s6, n⟩ := writing_stores
    refine ⟨d, [⟨.cpu .reset, 0xAB, 0⟩] ++ ⟨.busWrite .dma 0x1805 0xAB, 0xAB, 0⟩ ::
      [⟨.dma .reset, 0, 0⟩, ⟨.chip 3 .reset, 0, 0⟩, ⟨.chip 2 .reset, 0, 0⟩], _, _, _, e, h, w, rfl, rfl,
      s5, n, ?_⟩
    intro x hx who addr v hk hs
    simp only [List.mem_append, List.mem_cons, List.not_mem_nil, or_false] at hx
    rcases hx with rfl | rfl | rfl | rfl | rfl <;> cases hk
    exact s6 hs
  · exact ⟨_, _, rfl, (List.append_nil _).symm, of_noBusWrite (by decide +kernel)⟩
  · exact machineReset_total ok.wired r.ready
  · exact runFrame_total rfl ok.wired r.attached rfl (ok.carry.carry rfl) rfl

/-! #### Cart families -/

theorem witness_BankLatchActsOnAnyAccess :
    (cartOf .l32k).Ok Env.hw ∧ (cartOf .l32k).tag ∈ latchTags ∧
    (cartOf .ls8k).Ok Env.hw ∧ (cartOf .ls8k).tag ∈ latchTags :=
  ⟨cartOf_ok _ _, by decide, cartOf_ok _ _, by decide⟩

/-- Both ports, at both ends, and the first address above them. -/
theorem witness_RamShadowPortsReachTheOverlay :
    (cartOf .l8kr).Ok Env.hw ∧ (cartOf .l8kr).tag ∈ shadowTags ∧
    (0xF07F : Addr).toNat % 0x1000 < 0x80 ∧ 0x80 ≤ (0xF080 : Addr).toNat % 0x1000 ∧
    (0x80 ≤ (0xF0FF : Addr).toNat % 0x1000 ∧ (0xF0FF : Addr).toNat % 0x1000 < 0x100) ∧
    0x100 ≤ (0xF100 : Addr).toNat % 0x1000 :=
  ⟨cartOf_ok _ _, by decide, by decide⟩

theorem witness_FixedAndMulticartNeverChange :
    (cartOf .f2k).Ok Env.hw ∧ (cartOf .f2k).tag ∈ fixedTags ∧
    (cartOf .mc4k).Ok Env.hw ∧ (cartOf .mc4k).tag = .mc4k :=
  ⟨cartOf_ok _ _, by decide, cartOf_ok _ _, rfl⟩

theorem witness_SnoopingCartLatchesEverywhere :
    (stateOf snoopBench).Inv ∧ (stateOf snoopBench).console = some snoopBench ∧
    snoopBench.snooper = 1 ∧ snoopBench.device 1 = .cart (attachedCart .ls8k) ∧
    (attachedCart .ls8k).tag = .ls8k ∧ (0x1FF8 : Addr).toNat % 0x1000 = 0xFF8 ∧
    (0x1FF9 : Addr).toNat % 0x1000 = 0xFF9 ∧ (0x1FFA : Addr).toNat % 0x1000 ≠ 0xFF9 :=
  ⟨stateOf_inv (snoopBench_ok _).1, rfl, rfl, snoop_cart, rfl, by decide⟩

/-- An attached cart that is neither snooper nor mapped at 0x1805, beside a RAM block. -/
def besideBench : Console :=
  mapPages 0x1800 0x0800 2 ((benchConsole (some (attachedCart .l8k))).setDevice 2 (newRam 0x0800))

theorem besideBench_ok (E : Env) : besideBench.Ok E ∧ besideBench.chips = none := by
  refine withRam_ok (bench_ok fun k hk => ?_) (bench_free _)
  obtain rfl := Option.some.inj hk
  exact attachedCart_ok E rfl

theorem witness_UnaddressedCartIsUntouched :
    (stateOf besideBench).Inv ∧ (stateOf besideBench).console = some besideBench ∧
    besideBench.device 1 = .cart (attachedCart .l8k) ∧ besideBench.snooper ≠ 1 ∧
    besideBench.mappedHandle 0x1805 ≠ 1 ∧
    ∃ t, exec (.wr 0x1805 1) (stateOf besideBench) = .next t := by
  have ok := (besideBench_ok Env.hw).1
  have hd : besideBench.device 1 = .cart (attachedCart .l8k) := by
    unfold besideBench
    rw [Console.device_congr (mapPages_dev _ _ _ _), Console.device_setDevice_ne _ _ (by decide)]
    exact Console.cart?_eq_some.mp (bench_cart _)
  refine ⟨stateOf_inv ok, rfl, hd, by decide +kernel, by decide +kernel, ?_⟩
  obtain ⟨c, e⟩ := memWrite_total (E := Env.hw) ok.wired (fun k hk => by
    have := (Console.cart?_eq_some.mp hk).symm.trans hd
    cases this
    exact .inl rfl) (0x1805 : Addr).toNat 1
  have hc : (stateOf besideBench).console = some besideBench := rfl
  exact ⟨_, by rw [exec, execWr, hc]; simp only [e]; rfl⟩

/-! #### The coprocessor -/

/-- Both windows at both ends, the program ROM's first offset, a read that answers and one that faults,
a write that answers and one that faults. -/
theorem witness_DataFetcherDecodesThreeRegions :
    (cartOf .df12k).Ok Env.hw ∧ (cartOf .df12k).tag = .df12k ∧
    (cartOf .df12k).df = some (DataFetcher.initial 0) ∧ (0xF03F : Addr).toNat % 0x1000 < 0x40 ∧
    (0x40 ≤ (0xF040 : Addr).toNat % 0x1000 ∧ (0xF07F : Addr).toNat % 0x1000 < 0x80) ∧
    0x80 ≤ (0xF080 : Addr).toNat % 0x1000 ∧
    regRead false 0 (img 0x3000) ((0xF03F : Addr).toNat % 0x1000) (DataFetcher.initial 0) =
      .ok (0, DataFetcher.initial 0) ∧
    regRead false 0 (img 0x3000) ((0xF005 : Addr).toNat % 0x1000) (DataFetcher.initial 0) =
      .error .chipNotAttached ∧
    regWrite false 0 ((0xF07F : Addr).toNat % 0x1000) 0 (DataFetcher.initial 0) =
      .ok (DataFetcher.initial 0) ∧
    regWrite false 0 ((0xF070 : Addr).toNat % 0x1000) 0 (DataFetcher.initial 0) =
      .error .chipNotAttached :=
  ⟨cartOf_ok _ _, rfl, rfl, by decide, by decide, by decide, rfl, rfl, rfl, rfl⟩

/-- The flag of channel 2 at V78b and V78d, as the statement counts it. -/
theorem witness_CoprocessorReadRegisters :
    (img 0x3000).length = 0x3000 ∧ (0x20 + 256 - 0x10) % 256 < (0x20 + 256 - 0x008 % 256) % 256 ∧
    ¬(0x20 + 256 - 0x10) % 256 < (0x20 + 256 - 0x010 % 256) % 256 ∧
    (0x28 ≤ 0x28 ∧ 0x28 < 0x40) ∧ (0x28 ≤ 0x3F ∧ 0x3F < 0x40) :=
  ⟨img_length _, by decide⟩

theorem witness_CoprocessorWriteRegisters :
    (0x78 ≤ 0x78 ∧ 0x78 < 0x80) ∧ (0x78 ≤ 0x7F ∧ 0x7F < 0x80) ∧ (3 : Nat) < 4 := by decide

theorem witness_GeneratorCutPointsDoNotMatter : 0 < 1193182 ∧ 1193181 < 1193182 := by decide

/-! #### The scheduler -/

/-- V119's first slice; an `Execute` with no budget. -/
theorem witness_ExecuteKeepsTheAccounts :
    (∃ d, execute (scripted (cpuScript 7 none none) 0) (runner 0 28) = .ok d) ∧
    -28 < (runner 0 28).budget.toInt ∧
    (∃ d, execute (scripted (cpuScript 7 none none) 0) (runner 0 (-24)) = .ok d) ∧
    (runner 0 (-24)).budget.toInt ≤ 0 :=
  ⟨⟨_, rfl⟩, by decide, ⟨_, rfl⟩, by decide⟩

/-- The registers of a line that begins at clock 0, and a machine in that line. -/
def lineZero : Sched := { phase := .slice1, sl := some 0, start := some 0, rem := some 428 }
def inLine : Console := { runner 0 0 with sched := lineZero }

/-- A machine whose DMA chip may break its contract. -/
def looseRunner : Console :=
  { runner 0 0 with chips := some { testChips with dmaHonest := false } }

/-- A CPU that reads from an instruction that begins at `from7` on, in a console without devices. -/
def reader (from7 : Nat) : Env :=
  { scripted (cpuScript 7 none none) 0 with
    collab := { (scripted (cpuScript 7 none none) 0).collab with
      cpuInsn := fun
        | c :: _ =>
          if from7 ≤ c.clock.toNat then .read 0 fun _ => .done (cpuScript 7 none none 0)
          else .done (cpuScript 7 none none 0)
        | [] => default } }
def deviceless : Console := { runner 0 0 with dev := Vector.replicate 256 .absent }

/-- The first slice of line 0 granted, and the second after a DMA step that takes nothing. -/
def grantedZero (c : Console) : Console := { c with sched := lineZero, budget := c.budget + 28 }
def regrantedZero (c : Console) : Console :=
  { c with sched := { lineZero with phase := .slice2 }, budget := c.budget + 428 }

/-- A count of each sign, the count 5 of T6, and the ways a line can go. -/
theorem witness_DmaCountArithmetic :
    ((0 : Int) ≤ 0 ∧ 2147483647 < 2 ^ 31 ∧ (262 = 262 ∧ 203 = 203 ∧ 152 = 152)) ∧
    (looseRunner.dmaHonest = false ∧
      (scripted (cpuScript 7 none none) (-1)).collab.dmaProcess
        (looseRunner.entry (.dma .doProcessing) :: looseRunner.calls) = .done (BitVec.ofInt 32 (-1)) ∧
      (BitVec.ofInt 32 (-1)).toInt < 0 ∧ (0 : Int) ≤ (0 : Word32).toInt ∧
      dmaProcessing (scripted (cpuScript 7 none none) (-1)) (looseRunner.enter .dma) =
        .error .badDmaClocks) ∧
    (inLine.sched.rem = some 428 ∧ inLine.type ≠ .bare ∧
      5 ≤ inLine.budget.toInt + (428 : Word32).toInt ∧
      ∃ c, dmaProcessing (scripted (cpuScript 7 none none) 5) (inLine.enter .dma) = .ok (5, c)) ∧
    ((scripted (cpuScript 7 none none) 0).debugChecks = true ∧ 0 < (runner 0 4).budget.toInt ∧
      (runner 0 0).budget.toInt ≤ 0 ∧ (runner 0 0).budget.toInt % 4 = 0 ∧
      (runner 0 0).nominal = 0) ∧
    (∃ f, execute (reader 0) (grantedZero deviceless) = .error f) ∧
    (∃ c, execute (scripted (cpuScript 2 (some 0) none) 0) (grantedZero (runner 0 0)) = .ok c ∧
      c.jammed = true) ∧
    (∃ c x d, execute (scripted (cpuScript 2 none (some 0)) 0) (grantedZero (runner 0 0)) = .ok c ∧
      c.jammed = false ∧ c.preempt = true ∧
      dmaProcessing (scripted (cpuScript 2 none (some 0)) 0) c = .ok (x, d)) ∧
    (∃ c d e, execute (scripted (cpuScript 7 none none) 0) (grantedZero (runner 0 0)) = .ok c ∧
      c.jammed = false ∧ c.preempt = false ∧
      dmaSlice (scripted (cpuScript 7 none none) 0) 0 c = .ok d ∧
      execute (scripted (cpuScript 7 none none) 0) (regrantedZero d) = .ok e) ∧
    (∃ c d f, execute (reader 7) (grantedZero deviceless) = .ok c ∧ c.jammed = false ∧
      c.preempt = false ∧ dmaSlice (reader 7) 0 c = .ok d ∧
      execute (reader 7) (regrantedZero d) = .error f) ∧
    ∃ t d, runFrame (scripted (cpuScript 2 (some 0) none) 0) (runner 0 0) = .ok (t, d) :=
  ⟨by decide, ⟨rfl, rfl, by decide, by decide, rfl⟩, ⟨rfl, by decide, by decide, _, rfl⟩,
    ⟨rfl, by decide, by decide, by decide, by decide⟩, ⟨_, rfl⟩, ⟨_, rfl, rfl⟩,
    ⟨_, _, _, rfl, rfl, rfl, rfl⟩, ⟨_, _, _, rfl, rfl, rfl, rfl, rfl⟩,
    ⟨_, _, _, rfl, rfl, rfl, rfl, rfl⟩, _, _, rfl⟩

/-- Both ends of the budget's range; a line that goes on and one that jams (V110). -/
theorem witness_ScanlineAdvancesTheNominalClock :
    (∃ d, scanline (scripted (cpuScript 7 none none) 0) 0 (runner 344 (-24)) = .ok (.goOn, d)) ∧
    (∃ d, scanline (scripted (cpuScript 2 (some 344) none) 0) 0 (runner 342 0) =
      .ok (.jammed, d)) ∧
    (runner 344 (-24)).jammed = false ∧ (runner 344 (-24)).budget.toInt % 4 = 0 ∧
    -28 < (runner 344 (-24)).budget.toInt ∧ (runner 344 (-24)).budget.toInt ≤ 0 ∧
    (runner 342 0).budget.toInt ≤ 0 :=
  ⟨⟨_, rfl⟩, ⟨_, rfl⟩, by decide⟩

/-- V115, V117: a preempt in the first slice and one in the second. -/
theorem witness_PreemptFastForwardsTheLine :
    (∃ d, scanline (scripted (cpuScript 2 none (some 230)) 100) 0 (runner 228 0) =
      .ok (.preempted, d)) ∧
    (∃ d, scanline (scripted (cpuScript 2 none (some 301)) 100) 0 (runner 228 0) =
      .ok (.preempted, d)) ∧
    (scripted (cpuScript 2 none none) 0).preemptEndsCall = true ∧
    (runner 228 0).jammed = false ∧ (runner 228 0).budget.toInt % 4 = 0 ∧
    -28 < (runner 228 0).budget.toInt ∧ (runner 228 0).budget.toInt ≤ 0 :=
  ⟨⟨_, rfl⟩, ⟨_, rfl⟩, rfl, by decide⟩

theorem witness_OneDmaStepPerScanline :
    (∃ d, scanline (scripted (cpuScript 2 (some 344) none) 0) 0 (runner 342 0) =
      .ok (.jammed, d)) ∧
    ∃ d, scanline (scripted (cpuScript 2 none none) 0) 0 (runner 342 0) = .ok (.goOn, d) :=
  ⟨⟨_, rfl⟩, ⟨_, rfl⟩⟩

/-- A halted machine. -/
def haltedMachine : Console := { machine none with halt := true, jammed := true }

theorem halted_running : (stateOf haltedMachine).running = some haltedMachine :=
  State.running_eq_some.mpr ⟨rfl, rfl⟩

theorem witness_HaltIsSetOnlyByAJam :
    Instr.frame.replacesMachine = false ∧ (stateOf haltedMachine).running = some haltedMachine ∧
    haltedMachine.halt = true ∧ (∃ t, exec .frame (stateOf haltedMachine) = .next t) ∧
    (stateOf (machine none)).running = some (machine none) ∧ (machine none).halt = false ∧
    ∃ t, exec .frame (stateOf (machine none)) = .next t := by
  have ok := machine_ok noCart_ok
  obtain ⟨⟨t, d⟩, e⟩ := runFrame_total (E := Env.hw) rfl ok.wired (ok.running testChips rfl).attached
    rfl (ok.carry.carry rfl) rfl
  refine ⟨rfl, halted_running, rfl, ⟨_, by rw [exec, execFrame, halted_running]; rfl⟩,
    machine_running none, rfl,
    { stateOf (machine none) with console := some d, status := .ok, result := t.code }, ?_⟩
  rw [exec, execFrame, machine_running]
  simp only [e]
  rfl

/-- A machine with an embedded chip, at a clock and a budget. -/
def chipRunner : Console := { runner 0 0 with dev := powerOnDevices.set 1 (.cart chipCart) }

/-- The machine's frame, and two scripted ones: with a bus write in the hooks, and with an embedded
chip. -/
theorem witness_FrameCompletes :
    (stateOf (machine none)).Inv ∧ (stateOf (machine none)).running = some (machine none) ∧
    (machine none).halt = false ∧ (machine none).jammed = false ∧ (machine none).dmaHonest = true ∧
    (∃ t d, runFrame (writer (cpuScript 2 (some 0) none)) (runner 0 0) = .ok (t, d)) ∧
    (runner 0 0).cartTag ≠ some .c16kp ∧
    (∃ t d, runFrame (scripted (cpuScript 2 (some 0) none) 0) chipRunner = .ok (t, d)) ∧
    chipRunner.cartTag = some .c16kp :=
  ⟨machine_inv noCart_ok, machine_running none, rfl, rfl, rfl, ⟨_, _, rfl⟩, by decide, ⟨_, _, rfl⟩,
    rfl⟩

/-- The record of the frame with an embedded chip, newest first: the frame jams in its first
instruction (R292, R305). -/
theorem test_frame_hooks :
    (runFrame (scripted (cpuScript 2 (some 0) none) 0) chipRunner).toOption.map
      (fun r => (r.1, r.2.calls.map Call.kind)) =
      some (.jammed, [.dma .endFrame, .chip 1 .endFrame, .cpu (.instruction 28), .cpu .execute,
        .chip 1 .startFrame, .dma .startFrame]) := by decide +kernel

/-- A whole frame of a CPU of 7-cycle instructions whose lines end in the DMA step. -/
theorem witness_WholeFrameAdvancesTheClock :
    (runFrame (scripted (cpuScript 7 none none) 428) (runner 0 0)).toOption.map
      (fun r => (r.1, r.2.clock.toNat, r.2.budget.toInt)) = some (.goOn, 29868, 0) ∧
    (runner 0 0).type ≠ .bare ∧ (runner 0 0).jammed = false ∧ (runner 0 0).budget.toInt % 4 = 0 ∧
    -28 < (runner 0 0).budget.toInt ∧ (runner 0 0).budget.toInt ≤ 0 := by decide +kernel

theorem witness_PollAndHaltedFrameChangeNothing :
    State.reset.phase ≠ .run ∧ (stateOf (machine none)).running = some (machine none) ∧
    (stateOf haltedMachine).running = some haltedMachine ∧ haltedMachine.halt = true :=
  ⟨by decide, machine_running none, halted_running, rfl⟩

/-- `FRAME`, `POLL` and an unsuccessful `RESTORE` on a halted machine. -/
theorem witness_HaltIsForever :
    (stateOf haltedMachine).running = some haltedMachine ∧ haltedMachine.halt = true ∧
    (∀ i ∈ [Instr.frame, .poll, .restore], (∀ ty a b, i ≠ .mkmach ty a b) ∧
      (i = .restore → ∃ e, parseStream Env.hw (stateOf haltedMachine).sin = .error e)) ∧
    (∃ t, runAll [.frame, .poll, .restore] (stateOf haltedMachine) = some t) ∧
    (stateOf haltedMachine).done = true ∧ State.reset.done = true ∧
    (State.reset.withFetchWord 64 0x1400000000000000).done = false ∧
    (∃ t, step (State.reset.withFetchWord 64 0x1400000000000000) = .next t) ∧
    (∃ t, runUntilDone (State.reset.withFetchWord 64 0x1400000000000000) = .next t) ∧
    (∃ r, step (State.reset.withFetchWord 32 0x0F00000) = .refused r) ∧
    (((stateOf (unattachedBench .c16kp)).withFetchWord 32 0x0400000).done = false) ∧
    ∃ f, step ((stateOf (unattachedBench .c16kp)).withFetchWord 32 0x0400000) = .fault f := by
  refine ⟨halted_running, rfl, ?_, ⟨_, rfl⟩, rfl, rfl, rfl, ⟨_, rfl⟩, ⟨_, rfl⟩, ⟨_, rfl⟩, rfl, ?_⟩
  on_goal 2 =>
    have h : seen (step ((stateOf (unattachedBench .c16kp)).withFetchWord 32 0x0400000)) =
        .fault (some 0xF0) := by decide +kernel
    cases e : step ((stateOf (unattachedBench .c16kp)).withFetchWord 32 0x0400000) with
    | next t => rw [e] at h; cases h
    | fault f => exact ⟨f, rfl⟩
    | refused r => rw [e] at h; cases h
  intro i hi
  simp only [List.mem_cons, List.not_mem_nil, or_false] at hi
  rcases hi with rfl | rfl | rfl <;> exact ⟨by simp, fun _ => ⟨.truncated, rfl⟩⟩

/-- A reset with a bus access of the DMA chip, and one without any, of a machine with an embedded
chip. -/
theorem witness_MresetLeavesTheAccounts :
    (stateOf (machine none)).Inv ∧ (stateOf (machine none)).running = some (machine none) ∧
    (writing.Ok (writer (cpuScript 2 none none)) ∧ writing.chips = some testChips ∧
      ∃ d, machineReset (writer (cpuScript 2 none none)) writing = .ok d) ∧
    ((machineOf (scripted (cpuScript 2 none none) 0) (some (cartOf .c16kp))).Ok
        (scripted (cpuScript 2 none none) 0) ∧
      (machineReset (scripted (cpuScript 2 none none) 0)
        (machineOf (scripted (cpuScript 2 none none) 0) (some (cartOf .c16kp)))).toOption.map
          (fun d => (d.calls.take 5).map Call.kind) =
        some [.cpu .reset, .dma .reset, .chip 3 .reset, .chip 2 .reset, .chip 1 .reset]) := by
  obtain ⟨d, e, -⟩ := writing_reset
  refine ⟨machine_inv noCart_ok, machine_running none, ⟨machineOf_ok noCart_ok, rfl, d, e⟩,
    machineOf_ok fun k hk => ?_, by decide +kernel⟩
  obtain rfl := Option.some.inj hk
  exact cartOf_ok _ _

/-! #### The serializer -/

/-- A machine without a cart has no generator. -/
theorem machine_saveable : (machine none).Saveable := by
  intro k d hk
  rw [show (machine none).cart? = none from rfl] at hk
  cases hk

/-- The stream `SAVE` writes of the machine. -/
def savedStream : Bytes := putRoot (machine none) testChips

theorem save_machine :
    exec .save (stateOf (machine none)) =
      .next { stateOf (machine none) with sout := savedStream, status := .ok } := rfl

theorem witness_RestoreUndoesSave :
    (stateOf (machine none)).Inv ∧ (stateOf (machine none)).running = some (machine none) ∧
    (machine none).chips = some testChips ∧ (machine none).Saveable ∧
    ∃ u : State, u.sin = savedStream :=
  ⟨machine_inv noCart_ok, machine_running none, rfl, machine_saveable,
    { State.reset with sin := savedStream }, rfl⟩

theorem witness_SaveChangesNoMachine :
    (stateOf (machine none)).running = some (machine none) ∧
    (stateOf haltedMachine).running = some haltedMachine ∧ (stateOf (machine none)).Inv ∧
    (machine none).chips = some testChips :=
  ⟨machine_running none, halted_running, machine_inv noCart_ok, rfl⟩

theorem witness_StreamMustBeWhole :
    (stateOf (machine none)).Inv ∧ (stateOf (machine none)).running = some (machine none) ∧
    (machine none).Saveable ∧
    exec .save (stateOf (machine none)) =
      .next { stateOf (machine none) with sout := savedStream, status := .ok } ∧
    (∃ u : State, u.sin <+: savedStream ∧ u.sin ≠ savedStream) ∧
    ∃ u : State, u.sin = savedStream ++ 0 :: [] := by
  refine ⟨machine_inv noCart_ok, machine_running none, machine_saveable, save_machine,
    ⟨State.reset, List.nil_prefix, ?_⟩, { State.reset with sin := savedStream ++ [0] }, rfl⟩
  intro h
  have h : ([] : Bytes).head? = savedStream.head? := congrArg List.head? h
  cases h

theorem witness_RestoreBuildsFromTheStream :
    parseStream Env.hw State.reset.sin = .error .truncated ∧
    ∃ r, parseStream Env.hw savedStream = .ok r := by
  have ok := machine_ok noCart_ok
  exact ⟨rfl, _, parse_putRoot ok rfl machine_saveable⟩

theorem witness_IntegersAreLittleEndian : 3 < 4 ∧ 0x78000087 < 256 ^ 4 ∧ 0 < 1 := by decide

/-- Each test of a length at its boundary; the three headers; a text of each length and range; a text
that names nothing; a legal budget and one over the bound; a cart with and without a bank register, its
images, banks and booleans; the coprocessor's fields at both sides of their bounds. -/
theorem witness_LengthsAndHeadersAreTested :
    (0xFFFFFFFF : Word32).toInt < 0 ∧
    (0 ≤ (262145 : Word32).toInt ∧ 262144 < (262145 : Word32).toNat) ∧
    ((262144 : Word32).toNat ≤ 262144 ∧ (262144 : Word32).toNat ∉ [2048]) ∧
    (([] : Bytes).length < (1 : Word32).toNat ∧ (1 : Word32).toNat ∈ [1]) ∧
    ((1 : Word32).toNat ≤ ([0] : Bytes).length) ∧
    (0x87000078 : Word32) ≠ 0x78000087 ∧ (2 : Word32) ≠ 1 ∧
    (64 < (65 : Byte).toNat ∧ (64 : Byte) ≠ 0 ∧ (64 : Byte).toNat ≤ 64) ∧
    (([0x20] : Bytes).length < (2 : Byte).toNat ∧ (1 : Byte).toNat ≤ ([0x1F] : Bytes).length) ∧
    ((∃ b ∈ ([0x1F] : Bytes), b.toNat < 0x20 ∨ 0x7E < b.toNat) ∧
      (∃ b ∈ ([0x7F] : Bytes), b.toNat < 0x20 ∨ 0x7E < b.toNat) ∧
      ∀ b ∈ ([0x20, 0x7E] : Bytes), 0x20 ≤ b.toNat ∧ b.toNat ≤ 0x7E) ∧
    (([0x20] : Bytes) ≠ typeText .ntsc ∧ ([0x20] : Bytes) ≠ typeText .pal ∧
      ∀ tag, ([0x20] : Bytes) ≠ tagText tag) ∧ MachType.pal ≠ .bare ∧
    ((428 : Word32).toInt % 4 = 0 ∧ -28 < (-24 : Word32).toInt ∧ ¬-28 < (-28 : Word32).toInt) ∧
    (∀ tag, (Config.cartTable tag).chip = none →
      (attachedCart tag).Ok Env.hw ∧ (attachedCart tag).attached = true ∧
      ∀ d, (attachedCart tag).df = some d → d.last.toNat ≤ (0 : Word64).toNat) ∧
    (chipCart.Ok Env.hw ∧ chipCart.attached = true ∧ chipCart.df = none) ∧
    (0x2000 : Word32).toNat ∉ romLengths .df12k ∧ (.df12k ∉ fixedTags ∧ CartTag.df12k ≠ .c16kp) ∧
    ((0x1000 : Word32).toNat + 0x1000 ≤ 0x2000 ∧ ¬(0x2000 : Word32).toNat + 0x1000 ≤ 0x2000) ∧
    (true ≠ decide (CartTag.l8k ∈ shadowTags) ∧ true ≠ decide (CartTag.l8k = .df12k) ∧
      true ≠ decide (CartTag.l8k = .c16kp)) ∧
    (1193181 < 2 ^ 32 ∧ ¬1193182 < 1193182 ∧ 0x0FFF < 0x1000 ∧ 0x1000 < 2 ^ 16 ∧
      2 ^ 20 ≤ 2 ^ 20 ∧ 2 ^ 20 < 2 ^ 32 ∧ 7 < 8) := by
  refine ⟨by decide, by decide, by decide, by decide, by decide, by decide, by decide, by decide,
    by decide, by decide, ⟨by decide, by decide, fun tag => by cases tag <;> decide⟩, by decide,
    by decide, fun tag h => ⟨attachedCart_ok _ h, rfl, fun d hd => ?_⟩, ⟨chipCart_ok _, rfl, rfl⟩,
    by decide, by decide, by decide, by decide, by decide⟩
  cases tag <;> first | (cases hd; decide) | cases hd

end Sys2Proof.Tests
end

/-! The block's state (10_state.md): O13, which operation writes which register of the host's side;
O12, the topology of a running machine; O11, the invariant. -/

namespace Sys2Proof.Machine

section StateFamily

variable {i : Instr} {s t : State}

/-! ### Commands turned away -/

theorem BenchRefused.exists_raised {codes : List Status} (h : BenchRefused s t codes) :
    ∃ e, t = s.raised e := by
  obtain ⟨_, h⟩ | ⟨_, e, _, h⟩ := h
  · exact ⟨_, h⟩
  · exact ⟨e, h⟩

/-! ### The writers of the host's registers (10_state.md R42, R43, R44, R50) -/

/-- The commands that leave an answer in `RESULT` (10_state.md R44). -/
def writesResult : Instr → Bool
  | .rd _ | .selfmap _ | .frame | .poll => true
  | .mkmach _ _ _ | .mkcart _ | .mkram _ _ | .mkrom _ | .mkadp _ _ _ | .attach _ | .map _ _ _
  | .mapc _ _ _ | .dreset _ | .mreset | .wr _ _ | .save | .restore | .busRd _ | .busWr _ _ => false

/-- What instruction `i`, taking `s` to `t`, leaves of the registers of the host interface, the factory
and the stage. -/
structure HostFrame (i : Instr) (s t : State) : Prop where
  queue   : t.queue = s.queue
  cmd     : t.cmd = s.cmd
  romPort : t.romPort = s.romPort
  sin     : t.sin = s.sin
  sout    : i ≠ .save → t.sout = s.sout
  mcSel   : (∀ tag, i ≠ .mkcart tag) → t.mcSel = s.mcSel
  stage   : (∀ tag, i ≠ .mkcart tag) → (∀ ty b, i ≠ .mkmach ty true b) → t.stage = s.stage
  result  : writesResult i = false → t.result = s.result
  busData : (∀ a, i ≠ .busRd a) → t.busData = s.busData
  status  : i.isCommand = false → t.status = s.status

/-- Every command may write the console and `STATUS`. -/
theorem HostFrame.console_status (hi : i.isCommand = true) (c : Option Console) (e : Status) :
    HostFrame i s { s with console := c, status := e } :=
  ⟨rfl, rfl, rfl, rfl, fun _ => rfl, fun _ => rfl, fun _ _ => rfl, fun _ => rfl, fun _ => rfl,
    fun h => Bool.noConfusion (hi.symm.trans h)⟩

/-- A command that answers may write `RESULT` too. -/
theorem HostFrame.answer (hi : i.isCommand = true) (ha : writesResult i = true) (c : Option Console)
    (e : Status) (r : Byte) : HostFrame i s { s with console := c, status := e, result := r } :=
  ⟨rfl, rfl, rfl, rfl, fun _ => rfl, fun _ => rfl, fun _ _ => rfl,
    fun h => Bool.noConfusion (ha.symm.trans h), fun _ => rfl,
    fun h => Bool.noConfusion (hi.symm.trans h)⟩

theorem HostFrame.raised (hi : i.isCommand = true) (e : Status) : HostFrame i s (s.raised e) :=
  .console_status hi s.console e

theorem HostFrame.benchRefused (hi : i.isCommand = true) {codes : List Status}
    (h : BenchRefused s t codes) : HostFrame i s t := by
  obtain ⟨e, rfl⟩ := h.exists_raised
  exact .raised hi e

/-- `MKMACH` empties the stage only when it takes the staged cart (43_scheduler.md R280). -/
theorem execMkmach_hostFrame {type : Nat} {useCart hasBios : Bool}
    (h : execMkmach type useCart hasBios s = .next t) :
    HostFrame (.mkmach type useCart hasBios) s t := by
  obtain ⟨_, rfl⟩ | ⟨ty, _, ⟨_, _, rfl⟩ | ⟨_, _, rfl⟩ | ⟨_, _, rfl⟩ | ⟨_, c, _, rfl⟩⟩ :=
    execMkmach_next h
  · exact .raised rfl _
  · exact .raised rfl _
  · exact .raised rfl _
  · exact .raised rfl _
  · cases useCart
    · exact .console_status rfl _ _
    · exact { HostFrame.console_status rfl (some c) .ok with
        stage := fun _ hm => absurd rfl (hm type hasBios) }

theorem exec_hostFrame (h : exec i s = .next t) : HostFrame i s t := by
  cases i
  case mkmach => exact execMkmach_hostFrame h
  case mkcart tag =>
    obtain ⟨_, _, rfl⟩ | ⟨v, _, rfl⟩ := execMkcart_next h
    · exact .raised rfl _
    · exact { HostFrame.console_status rfl s.console .ok with
        mcSel := fun hm => absurd rfl (hm tag)
        stage := fun hm => absurd rfl (hm tag) }
  case mkram =>
    obtain h | ⟨_, _, _, _, rfl⟩ := execMkram_next h
    · exact .benchRefused rfl h
    · exact .console_status rfl _ _
  case mkrom =>
    obtain h | ⟨_, _, _, _, rfl⟩ := execMkrom_next h
    · exact .benchRefused rfl h
    · exact .console_status rfl _ _
  case mkadp =>
    obtain h | ⟨_, _, _, _, rfl⟩ := execMkadp_next h
    · exact .benchRefused rfl h
    · exact .console_status rfl _ _
  case attach =>
    obtain h | ⟨_, _, _, _, _, rfl⟩ := execAttach_next h
    · exact .benchRefused rfl h
    · exact .console_status rfl _ _
  case map =>
    obtain h | ⟨_, _, _, rfl⟩ := execMap_next h
    · exact .benchRefused rfl h
    · exact .console_status rfl _ _
  case mapc =>
    obtain h | ⟨_, _, _, _, _, rfl⟩ := execMapc_next h
    · exact .benchRefused rfl h
    · exact .console_status rfl _ _
  case selfmap =>
    obtain h | ⟨_, _, _, _, rfl⟩ := execSelfmap_next h
    · exact .benchRefused rfl h
    · exact .answer rfl rfl _ _ _
  case dreset =>
    obtain h | ⟨_, _, _, rfl⟩ := execDreset_next h
    · exact .benchRefused rfl h
    · exact .console_status rfl _ _
  case mreset =>
    obtain ⟨_, rfl⟩ | ⟨_, _, _, _, rfl⟩ := execMreset_next h
    · exact .raised rfl _
    · exact .console_status rfl _ _
  case rd =>
    obtain ⟨_, rfl⟩ | ⟨_, _, _, _, _, rfl⟩ := execRd_next h
    · exact .raised rfl _
    · exact .answer rfl rfl _ _ _
  case wr =>
    obtain ⟨_, rfl⟩ | ⟨_, _, _, _, rfl⟩ := execWr_next h
    · exact .raised rfl _
    · exact .console_status rfl _ _
  case frame =>
    obtain ⟨_, rfl⟩ | ⟨_, _, ⟨_, rfl⟩ | ⟨_, _, _, _, _, rfl⟩⟩ := execFrame_next h
    · exact .raised rfl _
    · exact .answer rfl rfl s.console _ _
    · exact .answer rfl rfl _ _ _
  case poll =>
    obtain ⟨_, rfl⟩ | ⟨_, _, rfl⟩ := execPoll_next h
    · exact .raised rfl _
    · exact .answer rfl rfl s.console _ _
  case save =>
    obtain ⟨_, rfl⟩ | ⟨_, _, _, _, rfl⟩ := execSave_next h
    · exact .raised rfl _
    · exact { HostFrame.console_status rfl s.console .ok with sout := fun hn => absurd rfl hn }
  case restore =>
    obtain ⟨_, _, rfl⟩ | ⟨_, c, _, _, rfl⟩ := execRestore_next h
    · exact .raised rfl _
    · exact { HostFrame.console_status rfl (some c) .ok with }
  case busRd a =>
    obtain ⟨_, _, _, _, _, rfl⟩ := execBusRd_next h
    exact ⟨rfl, rfl, rfl, rfl, fun _ => rfl, fun _ => rfl, fun _ _ => rfl, fun _ => rfl,
      fun hn => absurd rfl (hn a), fun _ => rfl⟩
  case busWr =>
    obtain ⟨_, _, _, _, rfl⟩ := execBusWr_next h
    exact ⟨rfl, rfl, rfl, rfl, fun _ => rfl, fun _ => rfl, fun _ _ => rfl, fun _ => rfl,
      fun _ => rfl, fun _ => rfl⟩

theorem writesResult_eq_false (hrd : ∀ a, i ≠ .rd a) (hself : ∀ h, i ≠ .selfmap h)
    (hframe : i ≠ .frame) (hpoll : i ≠ .poll) : writesResult i = false := by
  cases i
  case rd a => exact absurd rfl (hrd a)
  case selfmap h => exact absurd rfl (hself h)
  case frame => exact absurd rfl hframe
  case poll => exact absurd rfl hpoll
  all_goals rfl

/-! ### The topology of a running machine (10_state.md R21, R22, R32) -/

theorem State.running_of_honest {c d : Console} (hr : s.running = some c)
    (hh : d.chips.map Chips.dmaHonest = c.chips.map Chips.dmaHonest) (ht : t.console = some d) :
    t.running = some d :=
  State.running_eq_some.mpr ⟨ht, Console.phase_of_honest hh (State.running_eq_some.mp hr).2⟩

/-- A frame of a running machine keeps its topology and leaves it running (43_scheduler.md R291). -/
theorem runFrame_machine {c d : Console} {u : LineEnd} (hc : c.Ok Env.hw) (hj : c.jammed = false)
    (h : runFrame Env.hw c = .ok (u, d)) : MachineStep Env.hw c d :=
  (runFrame_step h (hc.carry.carry hj) hj).machine

/-! ### What keeps the invariant -/

/-- The invariant speaks of the console, the stage and `CUR.pos` only. -/
theorem State.Inv.congr (hs : s.Inv) (hc : t.console = s.console) (hk : t.stage = s.stage)
    (hp : t.cur = s.cur) : t.Inv :=
  ⟨fun c h => hs.console c (hc ▸ h), fun k h => hs.stage k (hk ▸ h), hp.trans hs.cursor⟩

/-- A well-formed console in the place of the old one. -/
theorem State.Inv.withConsole (hs : s.Inv) {d : Console} (hd : d.Ok Env.hw)
    (hc : t.console = some d) (hk : t.stage = s.stage) (hp : t.cur = s.cur) : t.Inv :=
  ⟨fun c h => by rw [hc] at h; cases h; exact hd, fun k h => hs.stage k (hk ▸ h),
    hp.trans hs.cursor⟩

theorem State.Inv.raised (hs : s.Inv) (e : Status) : (s.raised e).Inv := hs.congr rfl rfl rfl

theorem State.Inv.benchRefused (hs : s.Inv) {codes : List Status} (h : BenchRefused s t codes) :
    t.Inv := by
  obtain ⟨e, rfl⟩ := h.exists_raised
  exact hs.raised e

/-- A bench operation writes the tables, the devices and the record only, so it keeps the console
well formed when it keeps it wired. -/
theorem State.Inv.built (hs : s.Inv) {c d : Console} (hb : s.bench = some c) (b : c.Built d)
    (hn : c.chips = none → d.chips = none) (hw : c.Wired Env.hw → d.Wired Env.hw) :
    d.Ok Env.hw := by
  obtain ⟨ok, hc⟩ := hs.benchOk hb
  obtain ⟨_, htype, _, hsched⟩ := b.keep
  exact ok.bench_keep hc (hn hc) (hw ok.wired) htype hsched.budget hsched.jammed hsched.sched

/-- Filling a free handle (40_address_space.md R143, R144, R146). -/
theorem State.Inv.filled (hs : s.Inv) {c : Console} (hb : s.bench = some c) {g : Handle}
    (hf : c.freeHandle g = true) {d : Device} (hd : d.Ok Env.hw)
    (hk : d.kind ≠ .null ∧ d.kind ≠ .cart ∧ d.kind ≠ .none) :
    State.Inv { s with console := some (c.setDevice g d), status := .ok } :=
  hs.withConsole (hs.built hb (Built.setDevice c g d) id fun hw => hw.fill hf hd hk) rfl rfl rfl

theorem Console.cart?_of_namedCart {c : Console} {dev : Handle} {k : Cart}
    (h : c.namedCart dev = some k) : c.cart? = some k := by
  unfold Console.namedCart at h
  split at h
  · exact h
  · cases h

/-- `MKMACH` builds from well-formed parts: the staged cart and a BIOS of a legal size
(43_scheduler.md R280). -/
theorem State.Inv.mkmach (hs : s.Inv) {type : Nat} {useCart hasBios : Bool}
    (h : execMkmach type useCart hasBios s = .next t) : t.Inv := by
  obtain ⟨_, rfl⟩ | ⟨ty, _, ⟨_, _, rfl⟩ | ⟨_, _, rfl⟩ | ⟨_, _, rfl⟩ | ⟨hbios, c, hc, rfl⟩⟩ :=
    execMkmach_next h
  · exact hs.raised _
  · exact hs.raised _
  · exact hs.raised _
  · exact hs.raised _
  · have hcart : ∀ k, (if useCart then s.stage else none) = some k → k.Ok Env.hw := by
      intro k hk
      cases useCart
      · cases hk
      · exact (hs.stage k hk).1
    have himg : ty ≠ .bare → ∀ img, (if hasBios then some s.romPort else none) = some img →
        img.length ∈ Config.biosSizes := by
      intro _ img hi
      cases hasBios
      · cases hi
      · cases hi; exact (hbios rfl).2
    refine ⟨fun d hd => ?_, fun k hk => ?_, hs.cursor⟩
    · cases hd; exact buildMachine_ok hcart himg hc
    · cases useCart
      · exact hs.stage k hk
      · cases hk

/-- `MKCART` stages a new cart, which is not attached (41_cart_family.md R180). -/
theorem State.Inv.mkcart (hs : s.Inv) {tag : Nat} (h : execMkcart tag s = .next t) : t.Inv := by
  obtain ⟨_, _, rfl⟩ | ⟨v, hv, rfl⟩ := execMkcart_next h
  · exact hs.raised _
  · refine ⟨hs.console, fun k hk => ?_, hs.cursor⟩
    cases hk
    exact ⟨newCart_ok (mem_romlens_of_select hv) s.mcSel, rfl⟩

/-- `RESTORE` builds from an accepted stream (44_serializer.md R371). -/
theorem State.Inv.restore (hs : s.Inv) (h : execRestore s = .next t) : t.Inv := by
  obtain ⟨_, _, rfl⟩ | ⟨r, c, hr, hc, rfl⟩ := execRestore_next h
  · exact hs.raised _
  · have ok := parseStream_ok hr
    exact hs.withConsole ((restored ok hc).ok ok) rfl rfl hs.cursor.symm

/-- `FRAME` keeps the budget carry in its range (43_scheduler.md R294). -/
theorem State.Inv.frame (hs : s.Inv) (h : execFrame s = .next t) : t.Inv := by
  obtain ⟨_, rfl⟩ | ⟨c, hr, ⟨_, rfl⟩ | ⟨_, hj, u, d, hd, rfl⟩⟩ := execFrame_next h
  · exact hs.raised _
  · exact hs.congr rfl rfl rfl
  · have ok := (hs.runOk hr).1
    exact hs.withConsole (ok.frame (runFrame_step hd (ok.carry.carry hj) hj)) rfl rfl rfl

theorem exec_keeps_inv (hs : s.Inv) (h : exec i s = .next t) : t.Inv := by
  cases i
  case mkmach => exact hs.mkmach h
  case mkcart => exact hs.mkcart h
  case mkram =>
    obtain h | ⟨c, hb, hf, hsize, rfl⟩ := execMkram_next h
    · exact hs.benchRefused h
    · exact hs.filled hb hf ⟨hsize, rfl⟩ (by simp [newRam, Device.kind])
  case mkrom =>
    obtain h | ⟨c, hb, hf, hsize, rfl⟩ := execMkrom_next h
    · exact hs.benchRefused h
    · exact hs.filled hb hf hsize (by simp [Device.kind])
  case mkadp =>
    obtain h | ⟨c, hb, hf, hchip, rfl⟩ := execMkadp_next h
    · exact hs.benchRefused h
    · exact hs.filled hb hf hchip (by simp [Device.kind])
  case attach =>
    obtain h | ⟨c, k, hb, hk, _, rfl⟩ := execAttach_next h
    · exact hs.benchRefused h
    · have hk := Console.cart?_of_namedCart hk
      obtain ⟨b, _, _, _, _, hn, _⟩ := attach_facts Env.hw hk
      exact hs.withConsole (hs.built hb b hn fun hw => hw.attach hk) rfl rfl rfl
  case map =>
    obtain h | ⟨c, hb, hd, rfl⟩ := execMap_next h
    · exact hs.benchRefused h
    · exact hs.withConsole (hs.built hb (Built.mapPages _ _ _ c) id fun hw => hw.map hd _ _)
        rfl rfl rfl
  case mapc base size =>
    obtain h | ⟨c, k, hb, _, hk, rfl⟩ := execMapc_next h
    · exact hs.benchRefused h
    · exact hs.withConsole (hs.built hb (Built.mapCart base size c) (mapCart_chips base size c).trans
        fun hw => hw.mapCart hk base size) rfl rfl rfl
  case selfmap =>
    obtain h | ⟨c, k, hb, hk, rfl⟩ := execSelfmap_next h
    · exact hs.benchRefused h
    · have hk := Console.cart?_of_namedCart hk
      obtain ⟨b, hn⟩ := selfMap_built hk
      exact hs.withConsole (hs.built hb b hn.trans fun hw => hw.selfMap hk) rfl rfl rfl
  case dreset dev =>
    obtain h | ⟨c, hb, _, rfl⟩ := execDreset_next h
    · exact hs.benchRefused h
    · exact hs.withConsole ((hs.benchOk hb).1.bus (devReset_step Env.hw dev c).bus) rfl rfl rfl
  case mreset =>
    obtain ⟨_, rfl⟩ | ⟨c, d, hr, hd, rfl⟩ := execMreset_next h
    · exact hs.raised _
    · exact hs.withConsole ((hs.runOk hr).1.cpu (machineReset_step hd)) rfl rfl rfl
  case rd =>
    obtain ⟨_, rfl⟩ | ⟨c, v, d, hc, hd, rfl⟩ := execRd_next h
    · exact hs.raised _
    · exact hs.withConsole ((hs.console c hc).bus (memRead_step hd).1) rfl rfl rfl
  case wr =>
    obtain ⟨_, rfl⟩ | ⟨c, d, hc, hd, rfl⟩ := execWr_next h
    · exact hs.raised _
    · exact hs.withConsole ((hs.console c hc).bus (memWrite_step hd).1) rfl rfl rfl
  case busRd =>
    obtain ⟨c, v, d, hc, hd, rfl⟩ := execBusRd_next h
    exact hs.withConsole ((hs.console c hc).bus (memRead_step hd).1) rfl rfl rfl
  case busWr =>
    obtain ⟨c, d, hc, hd, rfl⟩ := execBusWr_next h
    exact hs.withConsole ((hs.console c hc).bus (memWrite_step hd).1) rfl rfl rfl
  case frame => exact hs.frame h
  case poll =>
    obtain ⟨_, rfl⟩ | ⟨_, _, rfl⟩ := execPoll_next h
    · exact hs.raised _
    · exact hs.congr rfl rfl rfl
  case save =>
    obtain ⟨_, rfl⟩ | ⟨_, _, _, _, rfl⟩ := execSave_next h
    · exact hs.raised _
    · exact hs.congr rfl rfl rfl
  case restore => exact hs.restore h

/-! ### Fetching (10_state.md R43, R44) -/

/-- Fetching a request writes the queue and `CMD` only. -/
theorem fetch_run_inv (hs : s.Inv) (h : fetch s = .run i t) : t.Inv := by
  unfold fetch at h
  split at h
  · cases h
  · cases h
  · cases h
  · split at h <;> cases h
    exact hs.congr rfl rfl rfl
  · split at h <;> cases h
    exact hs.congr rfl rfl rfl

/-- An input that is no request to run fills a buffer, or ends in `STATUS`. -/
theorem fetch_ended_inv (hs : s.Inv) (h : fetch s = .ended (.next t)) : t.Inv := by
  unfold fetch at h
  split at h
  · cases h; exact hs
  · cases h; exact hs.congr rfl rfl rfl
  · cases h; exact hs.congr rfl rfl rfl
  · split at h <;> cases h
    exact hs.congr rfl rfl rfl
  · split at h <;> cases h

theorem step_keeps_inv (hs : s.Inv) (h : step s = .next t) : t.Inv := by
  unfold step at h
  split at h
  · next i u hf => exact exec_keeps_inv (fetch_run_inv hs hf) h
  · next r hf => subst h; exact fetch_ended_inv hs hf

end StateFamily

/-! ### The statements -/

/-- Settles O13, by what each meaning writes besides the console and `STATUS`. -/
theorem hostRegistersHaveTheirWriters : Obligations.HostRegistersHaveTheirWriters := by
  intro i s t h
  have f := exec_hostFrame h
  exact ⟨f.queue, f.cmd, f.romPort, f.sin, f.sout, f.mcSel, f.stage,
    fun hrd hself hframe hpoll => f.result (writesResult_eq_false hrd hself hframe hpoll), f.busData,
    f.status⟩

/-- Settles O12: in `RUN` the machine stays, takes a step of bus accesses and collaborator calls, or
runs a frame, and each of the three keeps the topology. -/
theorem topologyIsFixedInRun : Obligations.TopologyIsFixedInRun := by
  intro i s t c hs hr hi h
  obtain ⟨ht, _⟩ | ⟨d, ht, step, _⟩ | ⟨_, _, hj, u, d, hd, rfl⟩ := running_next hr hi h
  · exact ⟨c, ht, .refl c⟩
  · exact ⟨d, ht, step.topology⟩
  · have m := runFrame_machine (hs.runOk hr).1 hj hd
    exact ⟨d, State.running_of_honest hr m.honest rfl, m.topology⟩

/-- Settles O11: every meaning keeps the invariant, and fetching touches nothing it speaks of. -/
theorem everyStepKeepsTheInvariant : Obligations.EveryStepKeepsTheInvariant :=
  fun _ _ hs h => step_keeps_inv hs h

end Sys2Proof.Machine

/-! The bus (20_memory.md): an access is two device accesses, the four access operations perform it, and
what it stores is what is read back. -/

namespace Sys2Proof.Machine

section BusFamily

variable {E : Env} {s t : State} {c d : Console} {a : Addr} {v : Byte}

/-! ### An access is two device accesses (20_memory.md R71, R76, R77) -/

/-- 20_memory.md R76 -/
theorem memRead_ok_iff {addr : Nat} : memRead E addr c = .ok (v, d) ↔
    ∃ b c₁ c₂, devRead E c.snooper (BitVec.ofNat 16 addr) c = .ok (b, c₁) ∧
      devRead E (c₁.mappedHandle (BitVec.ofNat 16 addr)) (BitVec.ofNat 16 addr) (c₁.latch b) =
        .ok (v, c₂) ∧
      d = c₂.latch v := by
  unfold memRead
  simp only [reduceAddr_eq]
  constructor
  · intro h
    obtain ⟨⟨b, c₁⟩, h₁, h⟩ := Except.bind_ok_iff.mp h
    obtain ⟨⟨w, c₂⟩, h₂, h⟩ := Except.bind_ok_iff.mp h
    cases h
    exact ⟨b, c₁, c₂, h₁, h₂, rfl⟩
  · rintro ⟨b, c₁, c₂, h₁, h₂, rfl⟩
    exact Except.bind_ok_iff.mpr ⟨_, h₁, Except.bind_ok_iff.mpr ⟨_, h₂, rfl⟩⟩

/-- 20_memory.md R77 -/
theorem memWrite_ok_iff {addr : Nat} : memWrite E addr v c = .ok d ↔
    ∃ c₁, devWrite E c.snooper (BitVec.ofNat 16 addr) v (c.latch v) = .ok c₁ ∧
      devWrite E (c₁.mappedHandle (BitVec.ofNat 16 addr)) (BitVec.ofNat 16 addr) v c₁ = .ok d := by
  unfold memWrite
  simp only [reduceAddr_eq]
  exact Except.bind_ok_iff

/-! ### The operations that perform an access (40_address_space.md R152, R153) -/

theorem exec_rd_of_memRead (hc : s.console = some c) (h : memRead Env.hw a.toNat c = .ok (v, d)) :
    exec (.rd a) s = .next { s with console := some d, status := .ok, result := v } := by
  simp only [exec, execRd, hc, h, completeWith_eq]

theorem exec_busRd_of_memRead (hc : s.console = some c)
    (h : memRead Env.hw a.toNat c = .ok (v, d)) :
    exec (.busRd a) s = .next { s with console := some d, busData := v } := by
  simp only [exec, execBusRd, hc, h]

theorem exec_wr_of_memWrite (hc : s.console = some c) (h : memWrite Env.hw a.toNat v c = .ok d) :
    exec (.wr a v) s = .next { s with console := some d, status := .ok } := by
  simp only [exec, execWr, hc, h, complete_eq]

theorem exec_busWr_of_memWrite (hc : s.console = some c)
    (h : memWrite Env.hw a.toNat v c = .ok d) :
    exec (.busWr a v) s = .next { s with console := some d } := by
  simp only [exec, execBusWr, hc, h]

/-- Where a console exists, a next state of `RD` or `BUS.RD` is that of a bus read. -/
theorem memRead_of_exec (hc : s.console = some c)
    (h : exec (.rd a) s = .next t ∨ exec (.busRd a) s = .next t) :
    ∃ v d, memRead Env.hw a.toNat c = .ok (v, d) ∧ t.console = some d := by
  rcases h with h | h
  · obtain ⟨hn, _⟩ | ⟨c', v, d, hc', hd, rfl⟩ := execRd_next h
    · cases hc.symm.trans hn
    · cases hc.symm.trans hc'
      exact ⟨v, d, hd, rfl⟩
  · obtain ⟨c', v, d, hc', hd, rfl⟩ := execBusRd_next h
    cases hc.symm.trans hc'
    exact ⟨v, d, hd, rfl⟩

/-- Where a console exists, a next state of `WR` or `BUS.WR` is that of a bus write. -/
theorem memWrite_of_exec (hc : s.console = some c)
    (h : exec (.wr a v) s = .next t ∨ exec (.busWr a v) s = .next t) :
    ∃ d, memWrite Env.hw a.toNat v c = .ok d ∧ t.console = some d := by
  rcases h with h | h
  · obtain ⟨hn, _⟩ | ⟨c', d, hc', hd, rfl⟩ := execWr_next h
    · cases hc.symm.trans hn
    · cases hc.symm.trans hc'
      exact ⟨d, hd, rfl⟩
  · obtain ⟨c', d, hc', hd, rfl⟩ := execBusWr_next h
    cases hc.symm.trans hc'
    exact ⟨d, hd, rfl⟩

/-! ### What an access leaves alone -/

/-- A running machine's cart is attached (43_scheduler.md R280), so its accesses cannot fail. -/
theorem State.Inv.cartReady (hs : s.Inv) (hc : s.console = some c)
    (h : c.CartReady ∨ s.phase = .run) : c.CartReady := by
  obtain h | hrun := h
  · exact h
  · rw [State.phase_of_console hc] at hrun
    obtain ⟨ch, hch⟩ := Console.phase_run.mp hrun
    exact ((hs.console c hc).running ch hch).ready

/-- A read changes no cell (20_memory.md R76, R84). -/
theorem Records.cell_eq (r : Records E ofAccess c d) (h : Handle) (i : Nat) :
    (d.device h).cell i = (c.device h).cell i := by
  obtain ⟨-, -, l, -, hl, quiet, -⟩ := r
  refine quiet (fun x hx who addr b hk => ?_) h i
  have := hl x hx
  rw [hk] at this
  exact this

/-- A write of a reduced address changes exactly the cells it stores to (20_memory.md R77). -/
theorem memWrite_stores (hw : c.Wired E) (h : memWrite E a.toNat v c = .ok d) (g : Handle) (i : Nat) :
    (c.stores a g i → (d.device g).cell i = v) ∧
      (¬c.stores a g i → (d.device g).cell i = (c.device g).cell i) := by
  have cells := memWrite_cells hw h g i
  rwa [BitVec.ofNat_toNat, BitVec.setWidth_eq] at cells

/-- A RAM block stays one, of its size. -/
theorem Console.SameTopology.ram (same : c.SameTopology d) {h : Handle} {size : Nat} {mem : Memory}
    (hr : c.device h = .ram size mem) : ∃ mem', d.device h = .ram size mem' := by
  have hcon := same.devices h
  rw [hr] at hcon
  cases hd : d.device h <;> rw [hd] at hcon <;> cases hcon
  exact ⟨_, rfl⟩

theorem Console.SameTopology.mappedHandle (same : c.SameTopology d) (a : Addr) :
    d.mappedHandle a = c.mappedHandle a := Console.pageAt_congr same.page _

/-! ### A page of RAM (20_memory.md R87, 40_address_space.md R154) -/

theorem devRead_ram {h : Handle} {size : Nat} {mem : Memory} (hr : c.device h = .ram size mem) :
    devRead E h a c = .ok (mem.read (reduceBy size a), c) := by
  unfold devRead
  simp only [hr]

/-- A read through a page of RAM answers the cell the address reduces to. -/
theorem memRead_ram {size : Nat} {mem : Memory}
    (hr : c.device (c.mappedHandle a) = .ram size mem) (h : memRead E a.toNat c = .ok (v, d)) :
    v = (c.device (c.mappedHandle a)).cell (reduceBy size a) := by
  obtain ⟨b, c₁, c₂, h₁, h₂, -⟩ := memRead_ok_iff.mp h
  rw [BitVec.ofNat_toNat, BitVec.setWidth_eq] at h₁ h₂
  have snoop := devRead_records h₁
  obtain ⟨mem₁, hr₁⟩ := snoop.topology.ram hr
  rw [snoop.topology.mappedHandle,
    devRead_ram ((Console.device_congr (c₁.latch_dev b) _).trans hr₁)] at h₂
  cases h₂
  rw [← snoop.cell_eq, hr₁]
  rfl

/-- A write through a page of RAM stores to the cell the address reduces to. -/
theorem Console.stores_ram {size : Nat} {mem : Memory}
    (hr : c.device (c.mappedHandle a) = .ram size mem) :
    c.stores a (c.mappedHandle a) (reduceBy size a) := by
  unfold Console.stores Console.storedCell
  simp only [hr, or_true]

/-- The byte written through a page of RAM is the byte read through it. -/
theorem memRead_memWrite_ram {e : Console} {b : Byte} {size : Nat} {mem : Memory} (hw : c.Wired E)
    (hr : c.device (c.mappedHandle a) = .ram size mem) (hwr : memWrite E a.toNat v c = .ok d)
    (hrd : memRead E a.toNat d = .ok (b, e)) : b = v := by
  have same := (memWrite_step hwr).1.touched.topology
  obtain ⟨mem', hr'⟩ := same.ram hr
  rw [← same.mappedHandle] at hr'
  rw [memRead_ram hr' hrd, same.mappedHandle]
  exact (memWrite_stores hw hwr _ _).1 (Console.stores_ram hr)

end BusFamily

/-! ### The statements -/

/-- Settles O28: an access of a wired console with a ready cart does not fail, and what it does is a bus
step. -/
theorem busAccessesComplete : Obligations.BusAccessesComplete := by
  intro s c a v hs hc hready
  have hw := (hs.console c hc).wired
  have hr := hs.cartReady hc hready
  obtain ⟨⟨b, cr⟩, hrd⟩ := memRead_total hw hr a.toNat
  obtain ⟨cw, hwr⟩ := memWrite_total hw hr a.toNat v
  obtain ⟨⟨tr, -, -⟩, lr⟩ := memRead_step hrd
  obtain ⟨⟨tw, -, -⟩, lw⟩ := memWrite_step hwr
  exact ⟨
    ⟨cr, b, exec_rd_of_memRead hc hrd, lr, tr.topology, tr.scheduler, tr.collaborators⟩,
    ⟨cr, b, exec_busRd_of_memRead hc hrd, lr, tr.topology, tr.scheduler, tr.collaborators⟩,
    ⟨cw, exec_wr_of_memWrite hc hwr, lw, tw.topology, tw.scheduler, tw.collaborators⟩,
    ⟨cw, exec_busWr_of_memWrite hc hwr, lw, tw.topology, tw.scheduler, tw.collaborators⟩⟩

/-- Settles O30: the cells after a write are those of its two device writes, and a read's record holds
no bus write. -/
theorem accessesStoreExactlyTheirCells : Obligations.AccessesStoreExactlyTheirCells := by
  intro s t c a v hs hc
  refine ⟨fun h g i => ?_, fun h g i => ?_⟩
  · obtain ⟨d, hd, ht⟩ := memWrite_of_exec hc h
    rw [State.cell_of_console ht, State.cell_of_console hc]
    exact memWrite_stores (hs.console c hc).wired hd g i
  · obtain ⟨b, d, hd, ht⟩ := memRead_of_exec hc h
    rw [State.cell_of_console ht, State.cell_of_console hc]
    exact (memRead_records hd).cell_eq g i

/-- Settles O31: the write leaves the byte in the cell of the RAM block, and the read answers that cell
after the snooper's read, which changes no cell. -/
theorem ramWriteThenReadReturnsTheByte : Obligations.RamWriteThenReadReturnsTheByte := by
  intro s c a v size mem hs hc hready hram
  have hw := (hs.console c hc).wired
  obtain ⟨d, hwr⟩ := memWrite_total hw hready a.toNat v
  have step := (memWrite_step hwr).1
  obtain ⟨⟨b, e⟩, hrd⟩ := memRead_total (step.wired hw) (step.ready hw hready) a.toNat
  obtain rfl := memRead_memWrite_ram hw hram hwr hrd
  exact ⟨_, _, exec_wr_of_memWrite hc hwr, exec_rd_of_memRead rfl hrd, rfl, rfl⟩

/-- Settles O25: an access is its two device accesses, and the four operations perform it. -/
theorem busAccessesAreTwoPhase : Obligations.BusAccessesAreTwoPhase := by
  refine ⟨fun E addr c c₁ c₂ b v h₁ h₂ => ?_, fun E addr v c c₁ c₂ h₁ h₂ => ?_,
    fun s c d a v hc h => ?_, fun s c d a v hc h => ?_⟩
  · exact memRead_ok_iff.mpr ⟨b, c₁, c₂, h₁, h₂, rfl⟩
  · exact memWrite_ok_iff.mpr ⟨c₁, h₁, h₂⟩
  · exact ⟨exec_rd_of_memRead hc h, exec_busRd_of_memRead hc h⟩
  · exact ⟨exec_wr_of_memWrite hc h, exec_busWr_of_memWrite hc h⟩

end Sys2Proof.Machine

/-! Encoding (30_encoding.md): a request decodes to an instruction exactly when it is that instruction's
word, which settles both directions of the round trip (O1, O2); the used bits of a command (O3); fetching
(O5); the phase table (O6). -/

namespace Sys2Proof.Machine

section EncodingFamily

open Sys2Proof.Laws

variable {f : Operands} {i : Instr} {w : CommandWord} {s t : State}

/-! ### The argument field (30_encoding.md R107) -/

theorem argFits_eq_true {n : Nat} : argFits f n = true ↔ f.arg.toNat < 2 ^ n := decide_eq_true_iff

theorem ofNat_argCode (h : f.arg.toNat < 2 ^ 8) : BitVec.ofNat 32 (argCode f) = f.arg := by
  rw [argCode, Nat.mod_eq_of_lt h, BitVec.ofNat_toNat, BitVec.setWidth_eq]

theorem setWidth_argByte (h : f.arg.toNat < 2 ^ 8) : (argByte f).setWidth 32 = f.arg := by
  apply BitVec.eq_of_toNat_eq
  rw [argByte, BitVec.toNat_setWidth, BitVec.toNat_setWidth, Nat.mod_eq_of_lt h,
    Nat.mod_eq_of_lt f.arg.isLt]

/-- The parts of `MKMACH`'s argument are those it was assembled from, and nothing is above bit 9. -/
theorem toNat_machArg {type : Nat} (h : type < 2 ^ 8) (useCart hasBios : Bool) :
    (machArg type useCart hasBios).toNat = type + 2 ^ 8 * useCart.toNat + 2 ^ 9 * hasBios.toNat := by
  have := useCart.toNat_le
  have := hasBios.toNat_le
  rw [machArg, BitVec.toNat_ofNat]
  omega

/-- An argument below `2^10` is assembled from its code and its two flags. -/
theorem machArg_parts (h : f.arg.toNat < 2 ^ 10) :
    machArg (argCode f) (f.arg.getLsbD 8) (f.arg.getLsbD 9) = f.arg := by
  apply BitVec.eq_of_toNat_eq
  rw [toNat_machArg (show argCode f < 2 ^ 8 from Nat.mod_lt _ (by decide)), argCode,
    BitVec.getLsbD, BitVec.getLsbD, Nat.toNat_testBit, Nat.toNat_testBit]
  omega

theorem toNat_ofNat_size {n : Nat} (h : n < 2 ^ 32) : (BitVec.ofNat 32 n).toNat = n :=
  (BitVec.toNat_ofNat n 32).trans (Nat.mod_eq_of_lt h)

theorem argFits_ofNat {n : Nat} (h : n < 2 ^ 8) (d : Handle) (a : Addr) :
    argFits ⟨d, a, BitVec.ofNat 32 n⟩ 8 = true :=
  argFits_eq_true.mpr (by rw [BitVec.toNat_ofNat]; omega)

theorem argFits_setWidth (b : Byte) (d : Handle) (a : Addr) :
    argFits ⟨d, a, b.setWidth 32⟩ 8 = true :=
  argFits_eq_true.mpr (by rw [BitVec.toNat_setWidth]; omega)

theorem argCode_ofNat {n : Nat} (h : n < 2 ^ 8) (d : Handle) (a : Addr) :
    argCode ⟨d, a, BitVec.ofNat 32 n⟩ = n := by
  simp only [argCode, BitVec.toNat_ofNat]
  omega

theorem argByte_setWidth (b : Byte) (d : Handle) (a : Addr) :
    argByte ⟨d, a, b.setWidth 32⟩ = b := by
  simp [argByte]

theorem argFits_machArg {type : Nat} (h : type < 2 ^ 8) (useCart hasBios : Bool) (d : Handle)
    (a : Addr) : argFits ⟨d, a, machArg type useCart hasBios⟩ 10 = true := by
  have := useCart.toNat_le
  have := hasBios.toNat_le
  rw [argFits_eq_true, toNat_machArg h]
  omega

theorem argCode_machArg {type : Nat} (h : type < 2 ^ 8) (useCart hasBios : Bool) (d : Handle)
    (a : Addr) : argCode ⟨d, a, machArg type useCart hasBios⟩ = type := by
  rw [argCode, toNat_machArg h]
  omega

/-- A flag above the code and below the next one, read back. -/
theorem getLsbD_machArg {type : Nat} (h : type < 2 ^ 8) (useCart hasBios : Bool) :
    (machArg type useCart hasBios).getLsbD 8 = useCart ∧
      (machArg type useCart hasBios).getLsbD 9 = hasBios := by
  have := useCart.toNat_le
  simp only [BitVec.getLsbD, toNat_machArg h, Nat.testBit_eq_decide_div_mod_eq]
  constructor
  · cases useCart <;> simp <;> omega
  · cases hasBios <;> simp <;> omega

/-! ### The fields of a word (30_encoding.md R103, R104) -/

theorem decodeCommand_packCommand (op : BitVec 8) (dev : Handle) (addr : Addr) (arg : Word32) :
    decodeCommand (packCommand op dev addr arg) = decodeOp op.toNat ⟨dev, addr, arg⟩ := by
  obtain ⟨hop, hf⟩ := fields_packCommand op dev addr arg
  rw [decodeCommand, hop, hf]

/-- A format B word is its three fields. -/
theorem packBus_fields (w : BusWord) :
    packBus (w.getLsbD 24) (busAddrField w) (busDataField w) = w := by
  apply BitVec.eq_of_getLsbD_eq
  intro n hn
  simp only [packBus, busAddrField, busDataField, BitVec.getLsbD_append, BitVec.getLsbD_extractLsb',
    BitVec.getLsbD_ofBool]
  split
  · next h => simp [h]
  · split
    · next h h' =>
      have : 8 + (n - 8) = n := by omega
      simp [this, h']
    · obtain rfl : n = 24 := by omega
      simp

/-- The fields of a packed format B word. -/
theorem fields_packBus (b : Bool) (addr : Addr) (data : Byte) :
    (packBus b addr data).getLsbD 24 = b ∧ busAddrField (packBus b addr data) = addr ∧
      busDataField (packBus b addr data) = data := by
  have h := packBus_fields (packBus b addr data)
  unfold packBus at h ⊢
  rw [append_inj, append_inj] at h
  obtain ⟨⟨hb, ha⟩, hd⟩ := h
  exact ⟨BitVec.ofBool_eq_iff_eq.mp hb, ha, hd⟩

/-! ### Decoding a command (30_encoding.md R104, R105) -/

theorem ifUnusedZero_ok {b : Bool} {j : Instr} : ifUnusedZero b j = .ok i ↔ b = true ∧ j = i := by
  cases b <;> simp [ifUnusedZero]

/-- The word of a decoded command is made of the fields it was decoded from, operation by operation. -/
theorem encode_of_decodeOp {n : Nat} (h : decodeOp n f = .ok i) :
    i.wellFormed = true ∧
      encode i = .command (packCommand (BitVec.ofNat 8 n) f.dev f.addr f.arg) := by
  have code : codeFits (argCode f) := Nat.mod_lt _ (by decide)
  have size : sizeFits f.arg.toNat := f.arg.isLt
  unfold decodeOp at h
  split at h <;>
    simp only [ifUnusedZero_ok, Bool.and_eq_true, beq_iff_eq, argFits_eq_true, Except.ok.injEq,
      reduceCtorEq] at h
  -- MKMACH, MKCART
  · obtain ⟨⟨⟨hd, ha⟩, hg⟩, rfl⟩ := h
    exact ⟨decide_eq_true code, by simp only [encode, hd, ha, machArg_parts hg]; rfl⟩
  · obtain ⟨⟨⟨hd, ha⟩, hg⟩, rfl⟩ := h
    exact ⟨decide_eq_true code, by simp [encode, hd, ha, ofNat_argCode hg]⟩
  -- MKRAM, MKROM, MKADP, ATTACH
  · obtain ⟨ha, rfl⟩ := h
    exact ⟨decide_eq_true size, by simp [encode, ha]⟩
  · obtain ⟨⟨ha, hg⟩, rfl⟩ := h
    exact ⟨rfl, by simp [encode, ha, hg]⟩
  · obtain ⟨hg, rfl⟩ := h
    exact ⟨rfl, by simp [encode, setWidth_argByte hg]⟩
  · obtain ⟨⟨ha, hg⟩, rfl⟩ := h
    exact ⟨rfl, by simp [encode, ha, hg]⟩
  -- MAP, MAPC
  · obtain rfl := h
    exact ⟨decide_eq_true size, by simp [encode]⟩
  · obtain rfl := h
    exact ⟨decide_eq_true size, by simp [encode]⟩
  -- SELFMAP, DRESET
  · obtain ⟨⟨ha, hg⟩, rfl⟩ := h
    exact ⟨rfl, by simp [encode, ha, hg]⟩
  · obtain ⟨⟨ha, hg⟩, rfl⟩ := h
    exact ⟨rfl, by simp [encode, ha, hg]⟩
  -- MRESET
  · obtain ⟨⟨⟨hd, ha⟩, hg⟩, rfl⟩ := h
    exact ⟨rfl, by simp [encode, hd, ha, hg]⟩
  -- RD, WR
  · obtain ⟨⟨hd, hg⟩, rfl⟩ := h
    exact ⟨rfl, by simp [encode, hd, hg]⟩
  · obtain ⟨⟨hd, hg⟩, rfl⟩ := h
    exact ⟨rfl, by simp [encode, hd, setWidth_argByte hg]⟩
  -- FRAME, POLL, SAVE, RESTORE
  all_goals
    obtain ⟨⟨⟨hd, ha⟩, hg⟩, rfl⟩ := h
    exact ⟨rfl, by simp [encode, hd, ha, hg]⟩

theorem encode_of_decodeBus {w : BusWord} (h : decodeBus w = .ok i) :
    i.wellFormed = true ∧ encode i = .bus w := by
  have hw := packBus_fields w
  unfold decodeBus at h
  split at h
  · next hb =>
    cases h
    rw [hb] at hw
    exact ⟨rfl, congrArg Request.bus hw⟩
  · next hb =>
    split at h <;> cases h
    next hd =>
      rw [Bool.eq_false_iff.mpr hb, beq_iff_eq.mp hd] at hw
      exact ⟨rfl, congrArg Request.bus hw⟩

/-- A word that decodes is the word of a well-formed instruction. -/
theorem encode_of_decode {r : Request} (h : decode r = .ok i) :
    i.wellFormed = true ∧ encode i = r := by
  cases r with
  | command w =>
    obtain ⟨hi, he⟩ := encode_of_decodeOp h
    refine ⟨hi, he.trans (congrArg Request.command ?_)⟩
    rw [BitVec.ofNat_toNat, BitVec.setWidth_eq]
    exact packCommand_fields w
  | bus w => exact encode_of_decodeBus h

/-- A command whose unused bits are 0 in the word the encoder makes decodes to itself. -/
theorem decodeCommand_pack_of_unusedZero {op : BitVec 8} {dev : Handle} {addr : Addr} {arg : Word32}
    {b : Bool} {j : Instr} (hop : decodeOp op.toNat ⟨dev, addr, arg⟩ = ifUnusedZero b j)
    (hb : b = true) (hj : j = i) : decodeCommand (packCommand op dev addr arg) = .ok i := by
  rw [decodeCommand_packCommand, hop]
  exact ifUnusedZero_ok.mpr ⟨hb, hj⟩

/-- A well-formed instruction decodes from its word, operation by operation. -/
theorem decode_encode (h : i.wellFormed = true) : decode (encode i) = .ok i := by
  cases i
  case mkmach type useCart hasBios =>
    have ht : type < 2 ^ 8 := of_decide_eq_true h
    obtain ⟨h8, h9⟩ := getLsbD_machArg ht useCart hasBios
    refine decodeCommand_pack_of_unusedZero rfl (argFits_machArg ht useCart hasBios 0 0) ?_
    rw [argCode_machArg ht, h8, h9]
  case mkcart tag =>
    have ht : tag < 2 ^ 8 := of_decide_eq_true h
    exact decodeCommand_pack_of_unusedZero rfl (argFits_ofNat ht 0 0)
      (congrArg _ (argCode_ofNat ht 0 0))
  case mkram dev size =>
    have hs : size < 2 ^ 32 := of_decide_eq_true h
    exact decodeCommand_pack_of_unusedZero rfl rfl (congrArg _ (toNat_ofNat_size hs))
  case mkrom => exact decodeCommand_pack_of_unusedZero rfl rfl rfl
  case mkadp dev mask chip =>
    exact decodeCommand_pack_of_unusedZero rfl (argFits_setWidth chip dev mask)
      (congrArg _ (argByte_setWidth chip dev mask))
  case attach => exact decodeCommand_pack_of_unusedZero rfl rfl rfl
  case map dev base size =>
    have hs : size < 2 ^ 32 := of_decide_eq_true h
    exact (decodeCommand_packCommand _ _ _ _).trans
      (congrArg (fun n => Except.ok (Instr.map dev base n)) (toNat_ofNat_size hs))
  case mapc dev base size =>
    have hs : size < 2 ^ 32 := of_decide_eq_true h
    exact (decodeCommand_packCommand _ _ _ _).trans
      (congrArg (fun n => Except.ok (Instr.mapc dev base n)) (toNat_ofNat_size hs))
  case wr addr value =>
    exact decodeCommand_pack_of_unusedZero rfl (argFits_setWidth value 0 addr)
      (congrArg _ (argByte_setWidth value 0 addr))
  case busRd addr =>
    obtain ⟨hb, ha, hd⟩ := fields_packBus false addr 0
    simp only [encode, decode, decodeBus, hb, ha, hd]
    rfl
  case busWr addr data =>
    obtain ⟨hb, ha, hd⟩ := fields_packBus true addr data
    simp only [encode, decode, decodeBus, hb, ha, hd]
    rfl
  all_goals exact decodeCommand_pack_of_unusedZero rfl rfl rfl

/-- A request decodes to an instruction exactly when it is its word (30_encoding.md R105). -/
theorem decode_eq_ok {r : Request} : decode r = .ok i ↔ i.wellFormed = true ∧ encode i = r := by
  refine ⟨encode_of_decode, ?_⟩
  rintro ⟨hi, rfl⟩
  exact decode_encode hi

/-! ### The used bits of a command (30_encoding.md R104, R105) -/

theorem isCommand_of_encode (h : encode i = .command w) : i.isCommand = true := by
  cases i
  case busRd => cases h
  case busWr => cases h
  all_goals rfl

theorem decodeOp_of_usedBits_eq_none {n : Nat} (h : usedBits n = none) :
    decodeOp n f = .error .unknownOp := by
  unfold decodeOp
  split
  case h_18 => rfl
  all_goals cases h

theorem and_allOnes_eq_zero {n : Nat} {x : BitVec n} : x &&& BitVec.allOnes n = 0 ↔ x = 0 := by
  rw [BitVec.and_allOnes]

theorem and_zero_eq_zero {n : Nat} {x : BitVec n} : x &&& 0 = 0 ↔ True :=
  iff_true_intro BitVec.and_zero

/-- One row of the table: a test `b` that says of each operand field what its unused bits say is the
test of the word's unused bits. -/
theorem unusedTest {n : Nat} {used : CommandWord} {b : Bool} {j : Instr} {d : Handle} {a : Addr}
    {g : Word32} {dev addr arg : Prop} (hd : devField w &&& d = 0 ↔ dev)
    (ha : addrField w &&& a = 0 ↔ addr) (hg : argField w &&& g = 0 ↔ arg)
    (hm : ~~~used = packCommand 0 d a g) (hop : decodeOp n (operandsOf w) = ifUnusedZero b j)
    (hb : b = true ↔ dev ∧ addr ∧ arg) :
    ∃ b j, decodeOp n (operandsOf w) = ifUnusedZero b j ∧ (b = true ↔ w &&& ~~~used = 0) :=
  ⟨b, j, hop, by rw [unused_iff w d a g used hm, hd, ha, hg, hb]⟩

/-- A command's test of its operand fields is that of its unused bits. -/
theorem decodeOp_of_usedBits_eq_some {n : Nat} {used : CommandWord} (h : usedBits n = some used)
    (w : CommandWord) : ∃ b j, decodeOp n (operandsOf w) = ifUnusedZero b j ∧
      (b = true ↔ w &&& ~~~used = 0) := by
  have dev : devField w &&& BitVec.allOnes 8 = 0 ↔ devField w = 0 := and_allOnes_eq_zero
  have addr : addrField w &&& BitVec.allOnes 16 = 0 ↔ addrField w = 0 := and_allOnes_eq_zero
  have arg : argField w &&& BitVec.allOnes 32 = 0 ↔ argField w = 0 := and_allOnes_eq_zero
  have noOperand : (devField w == 0 && addrField w == 0 && argField w == 0) = true ↔
      devField w = 0 ∧ addrField w = 0 ∧ argField w = 0 := by simp [and_assoc]
  have devOnly : (addrField w == 0 && argField w == 0) = true ↔
      True ∧ addrField w = 0 ∧ argField w = 0 := by simp
  unfold usedBits at h
  split at h <;> cases h
  -- MKMACH, MKCART
  · exact unusedTest dev addr (argFits_iff (n := 10)) (by decide) rfl
      (by simp [argFits_eq_true, operandsOf, and_assoc])
  · exact unusedTest dev addr (argFits_iff (n := 8)) (by decide) rfl
      (by simp [argFits_eq_true, operandsOf, and_assoc])
  -- MKRAM, MKROM, MKADP, ATTACH
  · exact unusedTest and_zero_eq_zero addr and_zero_eq_zero (by decide) rfl (by simp [operandsOf])
  · exact unusedTest and_zero_eq_zero addr arg (by decide) rfl devOnly
  · exact unusedTest and_zero_eq_zero and_zero_eq_zero (argFits_iff (n := 8)) (by decide) rfl
      (by simp [argFits_eq_true, operandsOf])
  · exact unusedTest and_zero_eq_zero addr arg (by decide) rfl devOnly
  -- MAP, MAPC: every bit is used
  · exact ⟨true, _, rfl, iff_of_true rfl BitVec.and_zero⟩
  · exact ⟨true, _, rfl, iff_of_true rfl BitVec.and_zero⟩
  -- SELFMAP, DRESET
  · exact unusedTest and_zero_eq_zero addr arg (by decide) rfl devOnly
  · exact unusedTest and_zero_eq_zero addr arg (by decide) rfl devOnly
  -- MRESET, RD, WR
  · exact unusedTest dev addr arg (by decide) rfl noOperand
  · exact unusedTest dev and_zero_eq_zero arg (by decide) rfl (by simp [operandsOf])
  · exact unusedTest dev and_zero_eq_zero (argFits_iff (n := 8)) (by decide) rfl
      (by simp [argFits_eq_true, operandsOf])
  -- FRAME, POLL, SAVE, RESTORE
  all_goals exact unusedTest dev addr arg (by decide) rfl noOperand

/-- A word of the table whose unused bits are 0 decodes to a command (30_encoding.md R105). -/
theorem decodeCommand_of_unused_zero {used : CommandWord}
    (h : usedBits (opField w).toNat = some used) (hw : w &&& ~~~used = 0) :
    ∃ i, decodeCommand w = .ok i ∧ i.isCommand = true := by
  obtain ⟨b, j, hdec, hb⟩ := decodeOp_of_usedBits_eq_some h w
  have hok : decodeCommand w = .ok j := hdec.trans (ifUnusedZero_ok.mpr ⟨hb.mpr hw, rfl⟩)
  exact ⟨j, hok, isCommand_of_encode (encode_of_decode (r := .command w) hok).2⟩

theorem decodeCommand_of_unused_ne_zero {used : CommandWord}
    (h : usedBits (opField w).toNat = some used) (hw : w &&& ~~~used ≠ 0) :
    decodeCommand w = .error .unusedBits := by
  obtain ⟨b, j, hdec, hb⟩ := decodeOp_of_usedBits_eq_some h w
  obtain rfl : b = false := Bool.eq_false_iff.mpr fun ht => hw (hb.mp ht)
  exact hdec

/-- A word that is no command is rejected by name. -/
theorem decodeCommand_rejects
    (h : ∀ used, usedBits (opField w).toNat = some used → w &&& ~~~used ≠ 0) :
    ∃ e, decodeCommand w = .error e := by
  cases hu : usedBits (opField w).toNat with
  | none => exact ⟨_, decodeOp_of_usedBits_eq_none hu⟩
  | some used => exact ⟨_, decodeCommand_of_unused_ne_zero hu (h used hu)⟩

/-! ### Fetching (10_state.md R43, R44) -/

section Fetch

variable {rest : List HostInput}

theorem step_of_command_ok (hq : s.queue = .request (.command w) :: rest)
    (h : decodeCommand w = .ok i) : step s = exec i { s with queue := rest, cmd := w } := by
  simp only [step, fetch, hq, h]

theorem step_of_command_error {e : DecodeError} (hq : s.queue = .request (.command w) :: rest)
    (h : decodeCommand w = .error e) :
    step s = .next { s with queue := rest, cmd := w, status := .refusedBadCommand } := by
  simp only [step, fetch, hq, h, raise_eq]

theorem step_of_bus_ok {w : BusWord} (hq : s.queue = .request (.bus w) :: rest)
    (h : decodeBus w = .ok i) : step s = exec i { s with queue := rest } := by
  simp only [step, fetch, hq, h]

theorem step_of_bus_error {w : BusWord} {e : DecodeError}
    (hq : s.queue = .request (.bus w) :: rest) (h : decodeBus w = .error e) :
    step s = .refused .notATransaction := by
  simp only [step, fetch, hq, h]

/-- A format B read that carries data is no transaction (30_encoding.md R103). -/
theorem decodeBus_readData {w : BusWord} (hrw : w.getLsbD 24 = false) (hd : busDataField w ≠ 0) :
    decodeBus w = .error .busReadData := by
  rw [decodeBus, hrw, if_neg Bool.false_ne_true, if_neg (mt beq_iff_eq.mp hd)]

end Fetch

/-! ### The phase table (30_encoding.md R106) -/

theorem State.running_eq_none : s.running = none ↔ s.phase ≠ .run := by
  unfold State.phase State.running
  cases s.console <;> simp [Option.filter]

theorem execSave_of_not_running (h : s.running = none) :
    execSave s = .next (s.raised .refusedPhase) := by
  unfold execSave
  split
  · rfl
  · next c hc =>
    split
    · rfl
    · next ch hch =>
      exact absurd (State.running_eq_some.mpr ⟨hc, Console.phase_run.mpr ⟨ch, hch⟩⟩) (by simp [h])

/-- A command the table has no mark for tests its phase first. -/
theorem exec_of_not_phaseAllows (h : phaseAllows s.phase i = false) :
    exec i s = .next (s.raised .refusedPhase) := by
  have bench (hp : decide (s.phase = .bench) = false) : s.bench = none :=
    State.bench_eq_none.mpr (of_decide_eq_false hp)
  have running (hp : decide (s.phase = .run) = false) : s.running = none :=
    State.running_eq_none.mpr (of_decide_eq_false hp)
  have console (hp : decide (s.phase ≠ .empty) = false) : s.console = none :=
    State.phase_empty.mp (not_not.mp (of_decide_eq_false hp))
  cases i
  case mkmach => cases h
  case mkcart => cases h
  case restore => cases h
  case busRd => cases h
  case busWr => cases h
  case mkram => simp only [exec, execMkram, bench h, raise_eq]
  case mkrom => simp only [exec, execMkrom, bench h, raise_eq]
  case mkadp => simp only [exec, execMkadp, bench h, raise_eq]
  case attach => simp only [exec, execAttach, bench h, raise_eq]
  case map => simp only [exec, execMap, bench h, raise_eq]
  case mapc => simp only [exec, execMapc, bench h, raise_eq]
  case selfmap => simp only [exec, execSelfmap, bench h, raise_eq]
  case dreset => simp only [exec, execDreset, bench h, raise_eq]
  case mreset => simp only [exec, execMreset, running h, raise_eq]
  case frame => simp only [exec, execFrame, running h, raise_eq]
  case poll => simp only [exec, execPoll, running h, raise_eq]
  case save => exact execSave_of_not_running (running h)
  case rd => simp only [exec, execRd, console h, raise_eq, State.raised]
  case wr => simp only [exec, execWr, console h, raise_eq, State.raised]

theorem BenchRefused.status_ne_refusedPhase {codes : List Status} (h : BenchRefused s t codes)
    (hp : s.phase = .bench) (hc : .refusedPhase ∉ codes) : t.status ≠ .refusedPhase := by
  obtain ⟨hb, _⟩ | ⟨_, e, he, rfl⟩ := h
  · exact absurd hp (State.bench_eq_none.mp hb)
  · exact fun h => hc (h ▸ he)

/-- A command turned away for its operands, or completed, says so. -/
theorem status_ne_refusedPhase_of_phaseAllows (hi : i.isCommand = true)
    (hp : phaseAllows s.phase i = true) (h : exec i s = .next t) : t.status ≠ .refusedPhase := by
  have bench {codes : List Status} (hb : decide (s.phase = .bench) = true)
      (hc : .refusedPhase ∉ codes) (hr : BenchRefused s t codes) : t.status ≠ .refusedPhase :=
    hr.status_ne_refusedPhase (of_decide_eq_true hb) hc
  have running (hr : decide (s.phase = .run) = true) : s.running ≠ none :=
    fun hn => State.running_eq_none.mp hn (of_decide_eq_true hr)
  have console (hc : decide (s.phase ≠ .empty) = true) : s.console ≠ none :=
    fun hn => of_decide_eq_true hc (State.phase_empty.mpr hn)
  cases i
  case busRd => cases hi
  case busWr => cases hi
  case mkmach =>
    obtain ⟨_, rfl⟩ | ⟨_, _, ⟨_, _, rfl⟩ | ⟨_, _, rfl⟩ | ⟨_, _, rfl⟩ | ⟨_, _, _, rfl⟩⟩ :=
      execMkmach_next h <;> exact Status.noConfusion
  case mkcart =>
    obtain ⟨e, he, rfl⟩ | ⟨_, _, rfl⟩ := execMkcart_next h
    · obtain rfl | rfl := selectVariant_error he <;> exact Status.noConfusion
    · exact Status.noConfusion
  case restore =>
    obtain ⟨e, he, rfl⟩ | ⟨_, _, _, _, rfl⟩ := execRestore_next h
    · exact ne_of_mem_of_not_mem (parseStream_error he) (by decide)
    · exact Status.noConfusion
  case mkram =>
    obtain h | ⟨_, _, _, _, rfl⟩ := execMkram_next h
    · exact bench hp (by decide) h
    · exact Status.noConfusion
  case mkrom =>
    obtain h | ⟨_, _, _, _, rfl⟩ := execMkrom_next h
    · exact bench hp (by decide) h
    · exact Status.noConfusion
  case mkadp =>
    obtain h | ⟨_, _, _, _, rfl⟩ := execMkadp_next h
    · exact bench hp (by decide) h
    · exact Status.noConfusion
  case attach =>
    obtain h | ⟨_, _, _, _, _, rfl⟩ := execAttach_next h
    · exact bench hp (by decide) h
    · exact Status.noConfusion
  case map =>
    obtain h | ⟨_, _, _, rfl⟩ := execMap_next h
    · exact bench hp (by decide) h
    · exact Status.noConfusion
  case mapc =>
    obtain h | ⟨_, _, _, _, _, rfl⟩ := execMapc_next h
    · exact bench hp (by decide) h
    · exact Status.noConfusion
  case selfmap =>
    obtain h | ⟨_, _, _, _, rfl⟩ := execSelfmap_next h
    · exact bench hp (by decide) h
    · exact Status.noConfusion
  case dreset =>
    obtain h | ⟨_, _, _, rfl⟩ := execDreset_next h
    · exact bench hp (by decide) h
    · exact Status.noConfusion
  case mreset =>
    obtain ⟨hn, _⟩ | ⟨_, _, _, _, rfl⟩ := execMreset_next h
    · exact absurd hn (running hp)
    · exact Status.noConfusion
  case frame =>
    obtain ⟨hn, _⟩ | ⟨_, _, ⟨_, rfl⟩ | ⟨_, _, _, _, _, rfl⟩⟩ := execFrame_next h
    · exact absurd hn (running hp)
    · exact Status.noConfusion
    · exact Status.noConfusion
  case poll =>
    obtain ⟨hn, _⟩ | ⟨_, _, rfl⟩ := execPoll_next h
    · exact absurd hn (running hp)
    · exact Status.noConfusion
  case save =>
    obtain ⟨hn, _⟩ | ⟨_, _, _, _, rfl⟩ := execSave_next h
    · exact absurd hn (running hp)
    · exact Status.noConfusion
  case rd =>
    obtain ⟨hn, _⟩ | ⟨_, _, _, _, _, rfl⟩ := execRd_next h
    · exact absurd hn (console hp)
    · exact Status.noConfusion
  case wr =>
    obtain ⟨hn, _⟩ | ⟨_, _, _, _, rfl⟩ := execWr_next h
    · exact absurd hn (console hp)
    · exact Status.noConfusion

end EncodingFamily

/-! ### The statements -/

/-- Settles O1: a request decodes to an instruction exactly when it is its word. -/
theorem encodeThenDecodeIsIdentity : Obligations.EncodeThenDecodeIsIdentity :=
  fun _ hi => decode_eq_ok.mpr ⟨hi, rfl⟩

/-- Settles O2, by the same equivalence. -/
theorem decodedWordEncodesBack : Obligations.DecodedWordEncodesBack :=
  fun _ _ h => decode_eq_ok.mp h

/-- Settles O3: a command's test of its operand fields is that of its unused bits, and a word that
is rejected ends in `STATUS`. -/
theorem commandWordsOutsideTheTableAreRefused :
    Obligations.CommandWordsOutsideTheTableAreRefused := by
  refine fun w => ⟨?_, fun s rest hq hw => ?_⟩
  · split
    · next hu => exact decodeOp_of_usedBits_eq_none hu
    · next used hu => exact ⟨decodeCommand_of_unused_zero hu, decodeCommand_of_unused_ne_zero hu⟩
  · obtain ⟨e, he⟩ := decodeCommand_rejects hw
    exact step_of_command_error hq he

/-- Settles O6: a command without a mark tests its phase first, and one with a mark answers something
else. -/
theorem phaseTableIsEnforced : Obligations.PhaseTableIsEnforced :=
  fun _ _ hi => ⟨exec_of_not_phaseAllows, fun _ => status_ne_refusedPhase_of_phaseAllows hi⟩

/-- Settles O4, by decoding each word. -/
theorem sampleWordsDecode : Obligations.SampleWordsDecode := by
  unfold Obligations.SampleWordsDecode
  decide

/-- Settles O5, by what fetching does with each input. -/
theorem stepRunsTheDecodedInstruction : Obligations.StepRunsTheDecodedInstruction := by
  refine ⟨fun s r rest i hq h => ?_, fun s hq => ?_, fun s bs rest hq => ?_,
    fun s bs rest hq => ?_, fun s w rest hq hrw hd => ?_⟩
  · cases r with
    | command w => exact step_of_command_ok hq h
    | bus w => exact step_of_bus_ok hq h
  · simp only [step, fetch, hq]
  · simp only [step, fetch, hq]
  · simp only [step, fetch, hq]
  · exact step_of_bus_error hq (decodeBus_readData hrw hd)

end Sys2Proof.Machine

/-! The address space (40_address_space.md): the constructors (O19), mapping (O20, O21), the reset of a
device (O24), the accesses of a null device, a RAM block and a ROM block (O26), and those of an adapter and
of a chip window (O27). -/

namespace Sys2Proof.Machine

section AddressSpaceFamily

variable {E : Env} {s : State} {c : Console} {h : Handle} {a : Addr} {v : Byte} {k : Cart}

/-! ### The commands on the bench, handle before operand (40_address_space.md R143, R144, R146) -/

theorem exec_mkram_of_bench {size : Nat} (hb : s.bench = some c) : exec (.mkram h size) s =
    if c.freeHandle h then
      if size ∈ blockSizes then
        .next { s with console := some (c.setDevice h (.ram size [])), status := .ok }
      else .next (s.raised .refusedBadOperand)
    else .next (s.raised .refusedBadHandle) := by
  simp only [exec, execMkram, hb, newRam, raise_eq, complete_eq]

theorem exec_mkrom_of_bench (hb : s.bench = some c) : exec (.mkrom h) s =
    if c.freeHandle h then
      if s.romPort.length ∈ blockSizes then
        .next { s with console := some (c.setDevice h (.rom s.romPort)), status := .ok }
      else .next (s.raised .refusedBadOperand)
    else .next (s.raised .refusedBadHandle) := by
  simp only [exec, execMkrom, hb, raise_eq, complete_eq]

theorem exec_mkadp_of_bench {mask : Addr} {chip : Byte} (hb : s.bench = some c) :
    exec (.mkadp h mask chip) s =
      if c.freeHandle h then
        if chip = 0 then .next (s.raised .refusedBadOperand)
        else .next { s with console := some (c.setDevice h (.adapter chip mask)), status := .ok }
      else .next (s.raised .refusedBadHandle) := by
  simp only [exec, execMkadp, hb, raise_eq, complete_eq]

theorem exec_map_of_bench {base : Addr} {size : Nat} (hb : s.bench = some c) :
    exec (.map h base size) s =
      if c.device h = .absent then .next (s.raised .refusedBadHandle)
      else .next { s with console := some (mapPages base size h c), status := .ok } := by
  simp only [exec, execMap, hb, raise_eq, complete_eq]

theorem exec_mapc_of_bench {base : Addr} {size : Nat} (hb : s.bench = some c) :
    exec (.mapc h base size) s =
      if h = cartHandle ∧ c.cart?.isSome then
        .next { s with console := some (mapCart base size c), status := .ok }
      else .next (s.raised .refusedBadHandle) := by
  simp only [exec, execMapc, hb, raise_eq, complete_eq]

theorem exec_dreset_of_bench (hb : s.bench = some c) : exec (.dreset h) s =
    if c.device h = .absent then .next (s.raised .refusedBadHandle)
    else .next { s with console := some (devReset Env.hw h c), status := .ok } := by
  simp only [exec, execDreset, hb, raise_eq, complete_eq]

/-! ### Mapping (40_address_space.md R147 to R149) -/

/-- The page table after `Map` holds the device in the pages the range overlaps, and elsewhere what it
held (40_address_space.md R147, R148). -/
theorem mapPages_page (base : Addr) (size : Nat) (h : Handle) (c : Console) {p : Nat} (hp : p < 1024) :
    (overlapsPage base size p → (mapPages base size h c).page[p] = h) ∧
      (¬overlapsPage base size p → (mapPages base size h c).page[p] = c.page[p]) := by
  rw [← Console.pageAt_eq_get, ← Console.pageAt_eq_get, Console.pageAt_mapPages base size h c hp,
    ← mapClaims_iff hp]
  exact ⟨fun hc => if_pos hc, fun hc => if_neg hc⟩

/-- Mapping the cart writes the page table, and the snooper where the variant wants snooping
(40_address_space.md R149, 41_cart_family.md R183). -/
theorem mapCart_eq (base : Addr) (size : Nat) (hk : c.cart? = some k) : mapCart base size c =
    { c with
      page := (mapPages base size 1 c).page
      snooper := if k.tag = .ls8k then 1 else c.snooper } := by
  have hk' : (mapPages base size cartHandle c).cart? = some k := hk
  have hs : k.variant.wantsSnoop = true ↔ k.tag = .ls8k := wantsSnoop_iff
  simp only [mapCart, hk', hs]
  split <;> rfl

/-- The cart's handle is 1 (10_state.md R22). -/
theorem Console.cart?_isSome_iff : c.cart?.isSome = true ↔ ∃ k, c.device 1 = .cart k := by
  simp only [Option.isSome_iff_exists, Console.cart?_eq_some, cartHandle]

/-! ### The simple devices (40_address_space.md R142, R145, R154) -/

/-- The address operand of a block is the remainder by its size (40_address_space.md R143, R144). -/
theorem reduceBy_of_mem_blockSizes {n : Nat} (hn : n ∈ blockSizes) (a : Addr) :
    reduceBy n a = a.toNat % n := by
  obtain ⟨m, _, _, rfl⟩ := mem_blockSizes.mp hn
  exact reduceBy_two_pow m a

theorem pos_of_mem_blockSizes {n : Nat} (hn : n ∈ blockSizes) : 0 < n := by
  obtain ⟨m, _, _, rfl⟩ := mem_blockSizes.mp hn
  exact Nat.two_pow_pos m

theorem devRead_null (hd : c.device h = .null) : devRead E h a c = .ok (0, c) := by
  simp only [devRead, hd]

theorem devWrite_null (hd : c.device h = .null) : devWrite E h a v c = .ok c := by
  simp only [devWrite, hd]

theorem devWrite_ram {size : Nat} {mem : Memory} (hd : c.device h = .ram size mem) :
    devWrite E h a v c = .ok (c.setDevice h (.ram size (mem.write (reduceBy size a) v))) := by
  simp only [devWrite, hd]

theorem devRead_rom {img : Bytes} (hd : c.device h = .rom img) (hlen : img.length ∈ blockSizes) :
    devRead E h a c = .ok (img.getD (a.toNat % img.length) 0, c) := by
  have hlt := reduceBy_lt a (pos_of_mem_blockSizes hlen)
  rw [← reduceBy_of_mem_blockSizes hlen]
  simp only [devRead, hd, romByte_of_lt hlt, Except.ok_bind]

theorem devWrite_rom {img : Bytes} (hd : c.device h = .rom img) : devWrite E h a v c = .ok c := by
  simp only [devWrite, hd]

/-- Only adapters and carts have a reset (40_address_space.md R142, R145, R154). -/
theorem devReset_eq_self (hk : (c.device h).kind ≠ .adp ∧ (c.device h).kind ≠ .cart) :
    devReset E h c = c := by
  cases hd : c.device h with
  | absent | null | ram | rom => simp only [devReset, hd]
  | adapter => exact absurd (congrArg Device.kind hd) hk.1
  | cart => exact absurd (congrArg Device.kind hd) hk.2

/-! ### Adapters (40_address_space.md R146) -/

theorem devRead_adapter {chip : Byte} {mask : Addr} (hd : c.device h = .adapter chip mask) :
    devRead E h a c = .ok (chipRead E chip (a &&& mask) c) := by
  simp only [devRead, hd]

theorem devWrite_adapter {chip : Byte} {mask : Addr} (hd : c.device h = .adapter chip mask) :
    devWrite E h a v c = .ok (c.call E (.chip chip (.update (a &&& mask) v))) := by
  simp only [devWrite, hd]

/-! ### The window of an embedded chip (41_cart_family.md R208 to R210, R217) -/

theorem cartRead_inChip {w : ChipWindow} (hf : k.variant.family = .chipAug)
    (hw : k.variant.chip = some w) (hin : inChip w a = true) : cartRead E a k c =
      if k.attached then
        .ok ((chipRead E w.id (a &&& w.mask) c).1,
          k.refreshChip E (c.call E (.chip w.id (.read (a &&& w.mask)))),
          c.call E (.chip w.id (.read (a &&& w.mask))))
      else .error .chipNotAttached := by
  simp only [cartRead, hf, hw, Option.filter_some, hin, if_true]
  rfl

theorem cartWrite_inChip {w : ChipWindow} (hf : k.variant.family = .chipAug)
    (hw : k.variant.chip = some w) (hin : inChip w a = true) : cartWrite E a v k c =
      if k.attached then .ok (callEmbedded E w.id (.update (a &&& w.mask) v) k c)
      else .error .chipNotAttached := by
  simp only [cartWrite, hf, hw, Option.filter_some, hin, if_true]

theorem cartRead_notInChip {w : ChipWindow} (hk : k.Ok E) (hf : k.variant.family = .chipAug)
    (hw : k.variant.chip = some w) (hout : inChip w a = false) :
    cartRead E a k c = .ok (k.rom.getD (reduceBy k.rom.length a) 0, k, c) := by
  simp only [cartRead, hf, hw, Option.filter_some, hout, Bool.false_eq_true, if_false, hk.fixedByte,
    Except.ok_bind]

theorem cartWrite_notInChip {w : ChipWindow} (hf : k.variant.family = .chipAug)
    (hw : k.variant.chip = some w) (hout : inChip w a = false) :
    cartWrite E a v k c = .ok (k, c) := by
  simp only [cartWrite, hf, hw, Option.filter_some, hout, Bool.false_eq_true, if_false]

/-- The window of the table's only embedded chip (41_cart_family.md R183). -/
def c16kpWindow : ChipWindow := { id := 1, base := 0x4000, size := 0x4000, mask := 0x000F }

theorem chip_of_c16kp (ht : k.tag = .c16kp) : k.variant.chip = some c16kpWindow :=
  (chip_eq k.tag).trans (if_pos ht)

theorem family_of_c16kp (ht : k.tag = .c16kp) : k.variant.family = .chipAug := by
  rw [Cart.variant, ht]; rfl

/-- The window begins at a multiple of its size: an address is in it exactly when its top two bits are
the base's. -/
theorem inChip_c16kpWindow_iff :
    inChip c16kpWindow a = true ↔ 0x4000 ≤ a.toNat ∧ a.toNat < 0x8000 := by
  have hmask : a &&& ~~~(BitVec.ofNat 16 (0x4000 - 1)) = a >>> 14 <<< 14 := by
    rw [BitVec.shiftLeft_ushiftRight,
      show ~~~(BitVec.ofNat 16 (0x4000 - 1)) = BitVec.allOnes 16 <<< 14 by decide]
  have ha := a.isLt
  simp only [inChip, c16kpWindow, hmask, beq_iff_eq, ← BitVec.toNat_inj, BitVec.toNat_shiftLeft,
    BitVec.toNat_ushiftRight, Nat.shiftLeft_eq, Nat.shiftRight_eq_div_pow, BitVec.reduceToNat]
  omega

theorem Cart.Ok.rom_of_c16kp (hk : k.Ok E) (ht : k.tag = .c16kp) : k.rom.length = 0x4000 := by
  have hlen := hk.romLength
  rw [Cart.variant, ht] at hlen
  exact List.mem_singleton.mp hlen

end AddressSpaceFamily

/-! ### The statements -/

/-- Settles O19: each constructor tests the handle, then its operand. -/
theorem constructorsFillAFreeHandle : Obligations.ConstructorsFillAFreeHandle := by
  intro s c h size mask chip hb
  rw [exec_mkram_of_bench hb, exec_mkrom_of_bench hb, exec_mkadp_of_bench hb]
  simp only [← mem_blockSizes]
  refine ⟨fun hused => ?_, fun hge habs => ?_⟩
  · have hf : ¬c.freeHandle h = true := by
      rw [Console.freeHandle_iff]
      rintro ⟨hge, habs⟩
      exact hused.elim (Nat.not_lt.mpr hge) (absurd habs)
    exact ⟨if_neg hf, if_neg hf, if_neg hf⟩
  · simp only [if_pos (Console.freeHandle_iff.mpr ⟨hge, habs⟩)]
    exact ⟨fun hs => ⟨[], Memory.read_nil, if_pos hs⟩, fun hs => if_neg hs, fun hs => if_pos hs,
      fun hs => if_neg hs, fun hc => if_neg hc, fun hc => if_pos hc⟩

/-- Settles O20: the pages `Map` claims are those the range overlaps. -/
theorem mapClaimsOverlappedPages : Obligations.MapClaimsOverlappedPages := by
  refine fun s h base size => ⟨fun hp => exec_of_not_phaseAllows (decide_eq_false hp),
    fun c hb => ?_⟩
  rw [exec_map_of_bench hb]
  exact ⟨fun habs => if_pos habs, fun hthere => ⟨(mapPages base size h c).page, if_neg hthere,
    fun _ hp => mapPages_page base size h c hp⟩⟩

/-- Settles O21: `MapCart` is `Map` of handle 1, and only `LS8K` wants snooping. -/
theorem mapcInstallsTheSnooper : Obligations.MapcInstallsTheSnooper := by
  refine fun s h base size => ⟨fun hp => exec_of_not_phaseAllows (decide_eq_false hp),
    fun c hb => ?_⟩
  rw [exec_mapc_of_bench hb]
  refine ⟨fun hno => if_neg ?_, fun k h1 hk => ⟨(mapPages base size 1 c).page, ?_,
    fun _ hp => mapPages_page base size 1 c hp⟩⟩
  · rw [Console.cart?_isSome_iff]
    rintro ⟨h1, k, hk⟩
    exact hno.elim (absurd h1) fun hn => hn k hk
  · rw [if_pos ⟨h1, Console.cart?_isSome_iff.mpr ⟨k, hk⟩⟩,
      mapCart_eq base size (Console.cart?_eq_some.mpr hk)]

/-- Settles O24: a device reset makes the call of its kind and leaves what its kind says, and like every
call of the device capability it touches device state and the record only. -/
theorem dresetActsByKind : Obligations.DresetActsByKind := by
  intro s c h hs hb
  obtain ⟨ok, hchips⟩ := hs.benchOk hb
  obtain ⟨hcalls, hother, -, hlbv, -⟩ := devReset_facts Env.hw h c
  obtain ⟨⟨topology, scheduler, collaborators, -⟩, -, -, -⟩ := devReset_step Env.hw h c
  have hnone : (devReset Env.hw h c).chips = none := by
    rw [Console.collaborators, Console.collaborators, hchips] at collaborators
    exact Option.map_eq_none_iff.mp collaborators
  rw [exec_dreset_of_bench hb]
  exact ⟨fun habs => if_pos habs, fun hthere => ⟨devReset Env.hw h c, if_neg hthere,
    devReset_resetTo (ok.wired.devices h), hcalls, hother, topology.page, topology.snooper, hlbv,
    topology.type, topology.hasBios, scheduler, hnone⟩⟩

/-- Settles O26: a block's size is a power of two, so its address is the remainder. -/
theorem simpleDevicesReadAndWrite : Obligations.SimpleDevicesReadAndWrite := by
  intro E c h a v hw
  have ok := hw.devices h
  refine ⟨fun hd => ?_, fun size mem hd => ?_, fun img hd => ?_⟩
  · exact ⟨devRead_null hd, devWrite_null hd, devReset_eq_self (by simp [hd, Device.kind])⟩
  · rw [hd] at ok
    obtain ⟨hsize, hmem⟩ := ok
    rw [devRead_ram hd, devWrite_ram hd, reduceBy_of_mem_blockSizes hsize]
    exact ⟨rfl, devReset_eq_self (by simp [hd, Device.kind]), _, rfl,
      fun i => Memory.read_write hmem _ i v⟩
  · rw [hd] at ok
    exact ⟨devRead_rom hd ok, devWrite_rom hd, devReset_eq_self (by simp [hd, Device.kind])⟩

/-- Settles O27: an adapter's access is a call of its chip; an access of the cart is one inside the
window, and outside it goes to the image. -/
theorem chipAccessesCallTheChip : Obligations.ChipAccessesCallTheChip := by
  refine ⟨fun E c h a mask v chip hd => ?_, fun E c k a v hk ht => ⟨fun hin => ?_, fun hout => ?_⟩⟩
  · exact ⟨⟨_, devRead_adapter hd, rfl, rfl, rfl⟩, _, devWrite_adapter hd, rfl, rfl, rfl⟩
  · have hf := family_of_c16kp ht
    have hw := chip_of_c16kp ht
    have hin := inChip_c16kpWindow_iff.mpr hin
    rw [cartRead_inChip hf hw hin, cartWrite_inChip hf hw hin]
    refine ⟨fun ha => ?_, fun ha => ?_⟩
    · have ha : ¬k.attached = true := Bool.eq_false_iff.mp ha
      exact ⟨if_neg ha, if_neg ha⟩
    · exact ⟨⟨_, _, if_pos ha, rfl, rfl, rfl⟩, _, _, if_pos ha, rfl, rfl, rfl⟩
  · have hf := family_of_c16kp ht
    have hw := chip_of_c16kp ht
    have hout : inChip c16kpWindow a = false :=
      Bool.eq_false_iff.mpr (mt inChip_c16kpWindow_iff.mp hout)
    rw [cartRead_notInChip hk hf hw hout, cartWrite_notInChip hf hw hout, hk.rom_of_c16kp ht]
    exact ⟨by rw [reduceBy_of_mem_blockSizes (by decide)], rfl⟩

end Sys2Proof.Machine

/-! The cart family (41_cart_family.md): the factory (O17, O18), `SELFMAP` and `ATTACH` (O22, O23), the
accesses of an unattached cart (O29), the decode families (O33 to O35), and which accesses reach the cart
(O36, O37). -/

namespace Sys2Proof.Machine

section CartFamily

variable {E : Env} {s t : State} {c d : Console} {k : Cart} {a : Addr} {g h : Handle} {v : Byte}

/-! ### The factory (30_encoding.md R109, 41_cart_family.md R180 to R183, R211) -/

section Factory

variable {tag n : Nat} {ty : CartTag}

/-- A tag is looked up under its code, which is 1 to 15 (30_encoding.md R109). -/
theorem lookup_tagCodes : ∀ p ∈ tagTable,
    p.1 ≠ 0 ∧ p.1 ≤ Config.maxTagCode ∧ Config.tagCodes.lookup p.1 = some p.2 := by decide

/-- A length that infers a variant is one of the variant's (41_cart_family.md R181, R183). -/
theorem lookup_inferTable : ∀ p ∈ inferTable,
    Config.inferTable.lookup p.1 = some p.2 ∧ p.1 ∈ romLengths p.2 ∧ p.2 ≠ .mc4k := by decide

theorem selectVariant_of_gt (h : 15 < tag) : selectVariant tag n = .error .badCartTag := if_pos h

theorem selectVariant_of_code (h : (tag, ty) ∈ tagTable) :
    selectVariant tag n = if n ∈ romLengths ty then .ok ty else .error .badRomSize := by
  obtain ⟨h0, hle, hl⟩ := lookup_tagCodes _ h
  simp only [selectVariant, if_neg (Nat.not_lt.mpr hle), if_neg h0, hl, romLengths_eq]

theorem selectVariant_unknown (h : (n, ty) ∈ inferTable) : selectVariant 0 n = .ok ty := by
  obtain ⟨hl, hlen, -⟩ := lookup_inferTable _ h
  rw [romLengths_eq] at hlen
  simp only [selectVariant, Nat.not_lt_zero, if_false, if_true, hl, if_pos hlen]

theorem selectVariant_unknown_of_not_mem (h : n ∉ [2048, 4096, 8192, 16384, 32768]) :
    selectVariant 0 n = .error .badRomSize := by
  have hl : Config.inferTable.lookup n = none := by
    simpa [Config.inferTable, List.lookup_eq_none_iff] using h
  simp only [selectVariant, Nat.not_lt_zero, if_false, if_true, hl]

/-- The two ways a `MKCART` has a legal length select the variant, and the length is the variant's. -/
theorem selectVariant_of_legal
    (h : ((tag, ty) ∈ tagTable ∧ n ∈ romLengths ty) ∨ (tag = 0 ∧ (n, ty) ∈ inferTable)) :
    selectVariant tag n = .ok ty ∧ n ∈ romLengths ty := by
  obtain ⟨hcode, hlen⟩ | ⟨rfl, hinfer⟩ := h
  · exact ⟨(selectVariant_of_code hcode).trans (if_pos hlen), hlen⟩
  · exact ⟨selectVariant_unknown hinfer, (lookup_inferTable _ hinfer).2.1⟩

theorem exec_mkcart_of_error {e : Status} (h : selectVariant tag s.romPort.length = .error e) :
    exec (.mkcart tag) s = .next (s.raised e) := by
  simp only [exec, execMkcart, h, raise_eq]

theorem exec_mkcart_of_ok (h : selectVariant tag s.romPort.length = .ok ty) :
    exec (.mkcart tag) s = .next
      { s with
        stage := some (newCart ty s.romPort s.mcSel)
        mcSel := nextMcSel ty s.mcSel
        status := .ok } := by
  simp only [exec, execMkcart, h, complete_eq]

/-- Only a multicart counts the selector up (41_cart_family.md R211). -/
theorem nextMcSel_eq (ty : CartTag) (sel : Word32) :
    nextMcSel ty sel = if ty = .mc4k then sel + 1 else sel := by
  simp only [nextMcSel, multicart_iff]

/-- The banked families have one bank register (41_cart_family.md R183). -/
theorem nb_eq (ty : CartTag) :
    (Config.cartTable ty).nb = if ty ∈ fixedTags ∨ ty = .c16kp then 0 else 1 := by
  cases ty <;> rfl

/-- The bank registers of a new cart (41_cart_family.md R180, R211). -/
theorem newCart_bank (ty : CartTag) (rom : Bytes) (sel : Word32) : (newCart ty rom sel).bank =
    if ty = .mc4k then [BitVec.ofNat 32 (sel.toNat % (rom.length / 0x1000) * 0x1000)]
    else if ty ∈ fixedTags ∨ ty = .c16kp then [] else [0] := by
  by_cases hm : ty = .mc4k
  · subst hm; rfl
  · simp only [newCart, nb_eq, ← multicart_iff, if_neg hm]
    split <;> rfl

theorem dataFetcher_iff : ty = .df12k ↔ (Config.cartTable ty).family = .dataFetcher :=
  ⟨fun h => h ▸ rfl, family_dataFetcher⟩

/-- A new cart has a coprocessor exactly in the data-fetcher variant (42_cart_datafetcher.md R241). -/
theorem newCart_df (ty : CartTag) (rom : Bytes) (sel : Word32) : (newCart ty rom sel).df =
    if ty = .df12k then some (DataFetcher.initial 0) else none := by
  simp only [newCart, dataFetcher_iff]

/-- The coprocessor's registers at construction (42_cart_datafetcher.md R241, R258). -/
theorem DataFetcher.initial_registers (last : Word64) :
    (DataFetcher.initial last).lfsr = 0x2B435044 ∧ (DataFetcher.initial last).rem = 0 ∧
      (DataFetcher.initial last).last = last ∧
      (∀ i : Fin 8, (DataFetcher.initial last).channel i =
        { ctr := 0, fctr := 0, finc := 0, top := 0, bot := 0 }) ∧
      ∀ i : Fin 3, (DataFetcher.initial last).vphase[i] = 0 ∧
        (DataFetcher.initial last).vfreq[i] = 0 := by
  refine ⟨rfl, rfl, rfl, fun i => ?_, fun i => ?_⟩
  · simp [DataFetcher.channel, DataFetcher.initial, Channel.zero]
  · simp [DataFetcher.initial]

end Factory

/-! ### `SELFMAP` and `ATTACH` (41_cart_family.md R186, R189, R218) -/

theorem Console.namedCart_eq_some : c.namedCart h = some k ↔ h = 1 ∧ c.device 1 = .cart k := by
  unfold Console.namedCart
  split
  · next h1 => exact Console.cart?_eq_some.trans (and_iff_right h1).symm
  · next h1 => exact ⟨nofun, fun hk => absurd hk.1 h1⟩

theorem Console.namedCart_eq_none (hn : h ≠ 1 ∨ ∀ k, c.device 1 ≠ .cart k) :
    c.namedCart h = none := by
  refine Option.eq_none_iff_forall_ne_some.mpr fun k hk => ?_
  obtain ⟨h1, hd⟩ := Console.namedCart_eq_some.mp hk
  exact hn.elim (absurd h1) fun hn => hn k hd

theorem exec_selfmap_of_none (hb : s.bench = some c) (hn : c.namedCart h = none) :
    exec (.selfmap h) s = .next (s.raised .refusedBadHandle) := by
  simp only [exec, execSelfmap, hb, hn, raise_eq]

theorem exec_selfmap_of_cart (hb : s.bench = some c) (hk : c.namedCart h = some k) :
    exec (.selfmap h) s = .next
      { s with console := some (selfMap c).2, status := .ok, result := bit (selfMap c).1 } := by
  simp only [exec, execSelfmap, hb, hk, completeWith_eq]

theorem exec_attach_of_none (hb : s.bench = some c) (hn : c.namedCart h = none) :
    exec (.attach h) s = .next (s.raised .refusedBadHandle) := by
  simp only [exec, execAttach, hb, hn, raise_eq]

theorem exec_attach_of_cart (hb : s.bench = some c) (hk : c.namedCart h = some k) :
    exec (.attach h) s =
      if k.attached then .next (s.raised .refusedBadOperand)
      else .next { s with console := some (attach Env.hw c), status := .ok } := by
  simp only [exec, execAttach, hb, hk, raise_eq, complete_eq]

/-- Mapping a cart that does not want snooping into windows writes the page table only. -/
theorem mapWindows_eq (l : List (Addr × Nat)) (hk : c.cart? = some k) (hs : k.tag ≠ .ls8k) :
    mapWindows l c = { c with page := (mapWindows l c).page } := by
  obtain ⟨hdev, built, -, hsnoop, hchips, hcalls⟩ := mapWindows_facts l c hk
  have hw : ¬k.variant.wantsSnoop = true := mt wantsSnoop_iff.mp hs
  rw [if_neg fun h => hw h.2] at hsnoop
  have := built.eq
  rw [hdev, hsnoop, hchips, hcalls] at this
  exact this

/-- `SelfMap()` on a `C16KP` cart: its two windows name the cart (41_cart_family.md R218). -/
theorem selfMap_c16kp (hk : c.cart? = some k) (ht : k.tag = .c16kp) :
    ∃ page, selfMap c = (true, { c with page := page }) ∧ ∀ p (hp : p < 1024),
      page[p] = if cartClaims .c16kp p then 1 else c.page[p] := by
  obtain ⟨hmaps, -, hcon⟩ := selfMap_facts hk
  have hv : k.variant = Config.cartTable .c16kp := by rw [Cart.variant, ht]
  have hself : k.variant.selfMaps = true := by rw [hv]; rfl
  have hwin : k.variant.selfWindows = cartWindows (Config.cartTable .c16kp) := by rw [hv]; rfl
  have heq := mapWindows_eq k.variant.selfWindows hk (by rw [ht]; decide)
  refine ⟨_, Prod.ext (hmaps.trans hself) ((hcon hself).trans heq), fun p hp => ?_⟩
  obtain ⟨-, -, hpages, -⟩ := mapWindows_facts k.variant.selfWindows c hk
  rw [← Console.pageAt_eq_get, ← Console.pageAt_eq_get, hpages p hp, hwin,
    cartWindows_claims .c16kp hp]

/-- `SelfMap()` on any other cart does nothing (41_cart_family.md R189). -/
theorem selfMap_other (hk : c.cart? = some k) (ht : k.tag ≠ .c16kp) : selfMap c = (false, c) := by
  obtain ⟨hmaps, hcon, -⟩ := selfMap_facts hk
  have hself : k.variant.selfMaps = false := Bool.eq_false_iff.mpr (mt selfMaps_iff.mp ht)
  exact Prod.ext (hmaps.trans hself) (hcon hself)

/-- The cart after `Attach()`, by its tag (41_cart_family.md R186). -/
theorem attachCart_eq (E : Env) (k : Cart) (c : Console) : (attachCart E k c).1 =
    { k with
      attached := true
      chip := (attachCart E k c).1.chip
      df := if k.tag = .df12k then k.df.map fun d => { d with last := c.clock } else k.df } := by
  rw [attachCart_fst]
  congr 1
  exact if_congr dataFetcher_iff.symm rfl rfl

/-! ### The decode families (41_cart_family.md R193 to R206, R212) -/

/-- Every family but the fixed and the chip-augmented one has a bank register
(41_cart_family.md R183). -/
theorem Cart.nb_eq_one {f : Family} (hf : k.variant.family = f) (h1 : f ≠ .fixed)
    (h2 : f ≠ .chipAug) : k.variant.nb = 1 :=
  Machine.nb_eq_one (hf ▸ h1 :) (hf ▸ h2 :)

theorem cartWrite_bankLatch (hk : k.Ok E) (ht : k.tag ∈ latchTags) :
    cartWrite E a v k c = .ok (k.showing (bankAfter k a), c) := by
  have hf : k.variant.family = .bankLatch := mem_latchTags.mp ht
  simp only [cartWrite, hf, hk.updateBank_showing (Cart.nb_eq_one hf nofun nofun)]

theorem cartRead_bankLatch (hk : k.Ok E) (ht : k.tag ∈ latchTags) :
    cartRead E a k c = .ok
      (k.rom.getD (bankAfter k a + a.toNat % 0x1000) 0, k.showing (bankAfter k a), c) := by
  have hf : k.variant.family = .bankLatch := mem_latchTags.mp ht
  simp only [cartRead, hf, (hk.latchedRead_showing (Cart.nb_eq_one hf nofun nofun) a).2, Except.ok_bind]

/-- The overlay's read port is the table's (41_cart_family.md R183, R204). -/
theorem readPort_iff (ht : k.tag ∈ shadowTags) :
    inPort k.variant.rport k.variant.rs (windowOffset a) = true ↔
      0x80 ≤ a.toNat % 0x1000 ∧ a.toNat % 0x1000 < 0x100 := by
  obtain ⟨hrs, -, hrport⟩ := overlay_eq ht
  rw [Cart.variant, hrs, hrport, windowOffset_eq, inPort, decide_eq_true_eq]

theorem cartWrite_ramShadow (hk : k.Ok E) (ht : k.tag ∈ shadowTags) : cartWrite E a v k c =
    if a.toNat % 0x1000 < 0x80 then .ok ({ k with ram := k.ram.write (a.toNat % 0x1000) v }, c)
    else .ok (k.showing (bankAfter k a), c) := by
  have hf : k.variant.family = .ramShadow := mem_shadowTags.mp ht
  have hport : inPort k.variant.wport k.variant.rs (windowOffset a) = true ↔
      a.toNat % 0x1000 < 0x80 := by
    simpa only [hf, ht, true_and] using writePort_iff (k := k) (a := a)
  have hw : k.variant.wport = 0 := (overlay_eq ht).2.1
  simp only [cartWrite, hf, hport]
  simp only [hw, windowOffset_eq, Nat.sub_zero, hk.updateBank_showing (Cart.nb_eq_one hf nofun nofun)]

theorem cartRead_ramShadow (hk : k.Ok E) (ht : k.tag ∈ shadowTags) : cartRead E a k c =
    if 0x80 ≤ a.toNat % 0x1000 ∧ a.toNat % 0x1000 < 0x100 then
      .ok (k.ram.read (a.toNat % 0x1000 - 0x80), k, c)
    else .ok (k.rom.getD (bankAfter k a + a.toNat % 0x1000) 0, k.showing (bankAfter k a), c) := by
  have hf : k.variant.family = .ramShadow := mem_shadowTags.mp ht
  have hr : k.variant.rport = 0x80 := (overlay_eq ht).2.2
  simp only [cartRead, hf, readPort_iff ht]
  simp only [hr, windowOffset_eq, (hk.latchedRead_showing (Cart.nb_eq_one hf nofun nofun) a).2,
    Except.ok_bind]

/-- The lengths of the fixed variants are powers of two (41_cart_family.md R183). -/
theorem romLengths_fixed : ∀ ty ∈ fixedTags, ∀ n ∈ romLengths ty, n ∈ blockSizes := by decide

theorem Cart.Ok.length_mem (hk : k.Ok E) : k.rom.length ∈ romLengths k.tag :=
  romLengths_eq k.tag ▸ hk.romLength

theorem cartRead_fixed (hk : k.Ok E) (ht : k.tag ∈ fixedTags) :
    cartRead E a k c = .ok (k.rom.getD (a.toNat % k.rom.length) 0, k, c) := by
  have hf : k.variant.family = .fixed := mem_fixedTags.mp ht
  simp only [cartRead, hf, hk.fixedByte, Except.ok_bind,
    reduceBy_of_mem_blockSizes (romLengths_fixed _ ht _ hk.length_mem)]

theorem cartWrite_fixed (ht : k.tag ∈ fixedTags) : cartWrite E a v k c = .ok (k, c) := by
  have hf : k.variant.family = .fixed := mem_fixedTags.mp ht
  simp only [cartWrite, hf]

theorem cartRead_multicart (hk : k.Ok E) (ht : k.tag = .mc4k) :
    cartRead E a k c = .ok (k.rom.getD (k.bankBase + a.toNat % 0x1000) 0, k, c) := by
  have hf : k.variant.family = .multicart := multicart_iff.mp ht
  simp only [cartRead, hf, hk.bankedByte (Cart.nb_eq_one hf nofun nofun), Except.ok_bind]

theorem cartWrite_multicart (ht : k.tag = .mc4k) : cartWrite E a v k c = .ok (k, c) := by
  have hf : k.variant.family = .multicart := multicart_iff.mp ht
  simp only [cartWrite, hf]

theorem cartRead_coprocessor {df : DataFetcher} (ht : k.tag = .df12k) (hdf : k.df = some df)
    (ho : a.toNat % 0x1000 < 0x40) : cartRead E a k c =
      (regRead k.attached c.clock k.rom (a.toNat % 0x1000) df >>= fun r =>
        .ok (r.1, { k with df := some r.2 }, c)) := by
  have hf : k.variant.family = .dataFetcher := dataFetcher_iff.mp ht
  simp only [cartRead, hf, windowOffset_eq, if_pos ho, Cart.fetcher, hdf, Except.ok_bind]

theorem cartWrite_coprocessor {df : DataFetcher} (ht : k.tag = .df12k) (hdf : k.df = some df)
    (ho : 0x40 ≤ a.toNat % 0x1000) (ho' : a.toNat % 0x1000 < 0x80) : cartWrite E a v k c =
      (regWrite k.attached c.clock (a.toNat % 0x1000) v df >>= fun df =>
        .ok ({ k with df := some df }, c)) := by
  have hf : k.variant.family = .dataFetcher := dataFetcher_iff.mp ht
  simp only [cartWrite, hf, windowOffset_eq, if_neg (Nat.not_lt.mpr ho), if_pos ho', Cart.fetcher, hdf,
    Except.ok_bind]

/-! ### The access of an unattached cart (41_cart_family.md R217, 42_cart_datafetcher.md R252) -/

theorem cartRead_window_unattached (ht : k.tag = .c16kp) (ha : k.attached = false)
    (hin : 0x4000 ≤ a.toNat ∧ a.toNat < 0x8000) : cartRead E a k c = .error .chipNotAttached :=
  (cartRead_inChip (family_of_c16kp ht) (chip_of_c16kp ht) (inChip_c16kpWindow_iff.mpr hin)).trans
    (if_neg (Bool.eq_false_iff.mp ha))

theorem cartWrite_window_unattached (ht : k.tag = .c16kp) (ha : k.attached = false)
    (hin : 0x4000 ≤ a.toNat ∧ a.toNat < 0x8000) : cartWrite E a v k c = .error .chipNotAttached :=
  (cartWrite_inChip (family_of_c16kp ht) (chip_of_c16kp ht) (inChip_c16kpWindow_iff.mpr hin)).trans
    (if_neg (Bool.eq_false_iff.mp ha))

theorem cartRead_wave_unattached (hk : k.Ok E) (ht : k.tag = .df12k) (ha : k.attached = false)
    (ho : a.toNat % 0x1000 = 0x005) : cartRead E a k c = .error .chipNotAttached := by
  obtain ⟨df, hdf⟩ := hk.df_of_fetcher (dataFetcher_iff.mp ht)
  rw [cartRead_coprocessor ht hdf (by omega), ho, ha]
  rfl

theorem regWrite_vfreq_unattached {clock : Word64} {o : Nat} {df : DataFetcher} (ho : 0x070 ≤ o)
    (ho' : o ≤ 0x072) : regWrite false clock o v df = .error .chipNotAttached := by
  obtain rfl | rfl | rfl : o = 0x070 ∨ o = 0x071 ∨ o = 0x072 := by omega
  all_goals rfl

theorem cartWrite_vfreq_unattached (hk : k.Ok E) (ht : k.tag = .df12k) (ha : k.attached = false)
    (ho : 0x070 ≤ a.toNat % 0x1000) (ho' : a.toNat % 0x1000 ≤ 0x072) :
    cartWrite E a v k c = .error .chipNotAttached := by
  obtain ⟨df, hdf⟩ := hk.df_of_fetcher (dataFetcher_iff.mp ht)
  rw [cartWrite_coprocessor ht hdf (by omega) (by omega), ha, regWrite_vfreq_unattached ho ho']
  rfl

theorem devRead_cart (hd : c.device h = .cart k) : devRead E h a c =
    (cartRead E a k c >>= fun r => .ok (r.1, r.2.2.setDevice h (.cart r.2.1))) := by
  simp only [devRead, hd]

theorem devWrite_cart (hd : c.device h = .cart k) : devWrite E h a v c =
    (cartWrite E a v k c >>= fun r => .ok (r.2.setDevice h (.cart r.1))) := by
  simp only [devWrite, hd]

/-- With the null device as snooper, an access of the cart's pages faults where the cart's does
(20_memory.md R76, 40_address_space.md R142). -/
theorem memRead_error_of_cart {f : Fault} (hn : c.device c.snooper = .null)
    (hd : c.device (c.mappedHandle a) = .cart k) (h : ∀ c, cartRead E a k c = .error f) :
    memRead E a.toNat c = .error f := by
  have hd' : (c.latch 0).device ((c.latch 0).mappedHandle a) = .cart k := hd
  simp only [memRead, reduceAddr_eq, BitVec.ofNat_toNat, BitVec.setWidth_eq, devRead_null hn,
    Except.ok_bind, devRead_cart hd', h, Except.error_bind]

/-- With the null device as snooper, a write to the cart's pages faults where the cart's does
(20_memory.md R77, 40_address_space.md R142). -/
theorem memWrite_error_of_cart {f : Fault} (hn : c.device c.snooper = .null)
    (hd : c.device (c.mappedHandle a) = .cart k) (h : ∀ c, cartWrite E a v k c = .error f) :
    memWrite E a.toNat v c = .error f := by
  have hn' : (c.latch v).device (c.latch v).snooper = .null := hn
  have hd' : (c.latch v).device ((c.latch v).mappedHandle a) = .cart k := hd
  simp only [memWrite, reduceAddr_eq, BitVec.ofNat_toNat, BitVec.setWidth_eq, devWrite_null hn',
    Except.ok_bind, devWrite_cart hd', h, Except.error_bind]

theorem exec_read_of_memRead_error {f : Fault} (hc : s.console = some c)
    (h : memRead Env.hw a.toNat c = .error f) :
    exec (.rd a) s = .fault f ∧ exec (.busRd a) s = .fault f := by
  simp only [exec, execRd, execBusRd, hc, h, and_self]

theorem exec_write_of_memWrite_error {f : Fault} (hc : s.console = some c)
    (h : memWrite Env.hw a.toNat v c = .error f) :
    exec (.wr a v) s = .fault f ∧ exec (.busWr a v) s = .fault f := by
  simp only [exec, execWr, execBusWr, hc, h, and_self]

/-! ### Which accesses reach the cart (20_memory.md R72, R86, 41_cart_family.md R200, R201) -/

/-- An access of one device changes no other entry of the device table. -/
theorem devRead_device_ne (hg : g ≠ h) (e : devRead E h a c = .ok (v, d)) :
    d.device g = c.device g := by
  cases hd : c.device h with
  | absent => simp only [devRead, hd, reduceCtorEq] at e
  | null => rw [devRead_null hd] at e; cases e; rfl
  | ram => rw [devRead_ram hd] at e; cases e; rfl
  | rom =>
    simp only [devRead, hd] at e
    obtain ⟨_, -, e⟩ := Except.bind_ok_iff.mp e
    cases e; rfl
  | adapter => rw [devRead_adapter hd] at e; cases e; rfl
  | cart k =>
    rw [devRead_cart hd] at e
    obtain ⟨⟨w, k', d'⟩, hr, e⟩ := Except.bind_ok_iff.mp e
    cases e
    rw [Console.device_setDevice_ne _ _ hg, Console.device_congr (cartRead_step hr).1.dev]

theorem devWrite_device_ne (hg : g ≠ h) (e : devWrite E h a v c = .ok d) :
    d.device g = c.device g := by
  cases hd : c.device h with
  | absent => simp only [devWrite, hd, reduceCtorEq] at e
  | null => rw [devWrite_null hd] at e; cases e; rfl
  | ram => rw [devWrite_ram hd] at e; cases e; exact Console.device_setDevice_ne _ _ hg
  | rom => rw [devWrite_rom hd] at e; cases e; rfl
  | adapter => rw [devWrite_adapter hd] at e; cases e; rfl
  | cart k =>
    rw [devWrite_cart hd] at e
    obtain ⟨⟨k', d'⟩, hr, e⟩ := Except.bind_ok_iff.mp e
    cases e
    rw [Console.device_setDevice_ne _ _ hg, Console.device_congr (cartWrite_step hr).dev]

/-- 20_memory.md R76 at a reduced address -/
theorem memRead_ok_addr : memRead E a.toNat c = .ok (v, d) ↔
    ∃ b c₁ c₂, devRead E c.snooper a c = .ok (b, c₁) ∧
      devRead E (c.mappedHandle a) a (c₁.latch b) = .ok (v, c₂) ∧ d = c₂.latch v := by
  rw [memRead_ok_iff, BitVec.ofNat_toNat, BitVec.setWidth_eq]
  refine exists_congr fun b => exists_congr fun c₁ => exists_congr fun c₂ =>
    and_congr_right fun h₁ => ?_
  rw [(devRead_step h₁).touched.topology.mappedHandle]

/-- 20_memory.md R77 at a reduced address -/
theorem memWrite_ok_addr : memWrite E a.toNat v c = .ok d ↔
    ∃ c₁, devWrite E c.snooper a v (c.latch v) = .ok c₁ ∧
      devWrite E (c.mappedHandle a) a v c₁ = .ok d := by
  rw [memWrite_ok_iff, BitVec.ofNat_toNat, BitVec.setWidth_eq]
  refine exists_congr fun c₁ => and_congr_right fun h₁ => ?_
  rw [(devWrite_step h₁).touched.topology.mappedHandle]
  rfl

/-- A device that is neither the snooper nor the mapped device is not reached (20_memory.md R72). -/
theorem memRead_device_ne (hs : g ≠ c.snooper) (hm : g ≠ c.mappedHandle a)
    (e : memRead E a.toNat c = .ok (v, d)) : d.device g = c.device g := by
  obtain ⟨b, c₁, c₂, h₁, h₂, rfl⟩ := memRead_ok_addr.mp e
  have snoop := devRead_device_ne hs h₁
  have mapped := devRead_device_ne hm h₂
  exact mapped.trans snoop

theorem memWrite_device_ne (hs : g ≠ c.snooper) (hm : g ≠ c.mappedHandle a)
    (e : memWrite E a.toNat v c = .ok d) : d.device g = c.device g := by
  obtain ⟨c₁, h₁, h₂⟩ := memWrite_ok_addr.mp e
  have snoop := devWrite_device_ne hs h₁
  have mapped := devWrite_device_ne hm h₂
  exact mapped.trans snoop

/-- Latching twice at one address is latching once. -/
theorem Cart.showing_bankAfter_showing (k : Cart) (a : Addr) :
    (k.showing (bankAfter k a)).showing (bankAfter (k.showing (bankAfter k a)) a) =
      k.showing (bankAfter k a) := by
  have : bankAfter (k.showing (bankAfter k a)) a = bankAfter k a := by
    rw [bankAfter_eq (k.showing _), Cart.bankBase_showing]
    split
    · next n hn =>
      have hn : triggeredBank k.variant a = some n := hn
      rw [bankAfter_eq, hn]
    · rfl
  rw [this]
  rfl

/-- What an access through any handle leaves of a bank-latch cart. -/
theorem devRead_bankLatch (hd : c.device 1 = .cart k) (hk : k.Ok E) (ht : k.tag ∈ latchTags)
    (e : devRead E h a c = .ok (v, d)) :
    d.device 1 = .cart (if h = 1 then k.showing (bankAfter k a) else k) := by
  by_cases h1 : h = 1
  · subst h1
    rw [devRead_cart hd, cartRead_bankLatch hk ht] at e
    cases e
    rw [if_pos rfl]; exact Console.device_setDevice_same _ _ _
  · rw [devRead_device_ne (Ne.symm h1) e, hd, if_neg h1]

theorem devWrite_bankLatch (hd : c.device 1 = .cart k) (hk : k.Ok E) (ht : k.tag ∈ latchTags)
    (e : devWrite E h a v c = .ok d) :
    d.device 1 = .cart (if h = 1 then k.showing (bankAfter k a) else k) := by
  by_cases h1 : h = 1
  · subst h1
    rw [devWrite_cart hd, cartWrite_bankLatch hk ht] at e
    cases e
    rw [if_pos rfl]; exact Console.device_setDevice_same _ _ _
  · rw [devWrite_device_ne (Ne.symm h1) e, hd, if_neg h1]

theorem Cart.Ok.showing (hk : k.Ok E) (ht : k.tag ∈ latchTags) : (k.showing (bankAfter k a)).Ok E :=
  hk.updateBank_showing (Cart.nb_eq_one (mem_latchTags.mp ht) nofun nofun) a ▸ hk.updateBank a

/-- A snooping bank-latch cart latches on every read: first as snooper, and again, to no effect, where
the page is its own (41_cart_family.md R200). -/
theorem memRead_snooping (hs : c.snooper = 1) (hd : c.device 1 = .cart k) (hk : k.Ok E)
    (ht : k.tag ∈ latchTags) (e : memRead E a.toNat c = .ok (v, d)) :
    d.device 1 = .cart (k.showing (bankAfter k a)) := by
  obtain ⟨b, c₁, c₂, h₁, h₂, rfl⟩ := memRead_ok_addr.mp e
  have snoop := (devRead_bankLatch hd hk ht h₁).trans (by rw [if_pos hs])
  have mapped := devRead_bankLatch (c := c₁.latch b) snoop (hk.showing ht) ht h₂
  rwa [Cart.showing_bankAfter_showing, ite_self] at mapped

theorem memWrite_snooping (hs : c.snooper = 1) (hd : c.device 1 = .cart k) (hk : k.Ok E)
    (ht : k.tag ∈ latchTags) (e : memWrite E a.toNat v c = .ok d) :
    d.device 1 = .cart (k.showing (bankAfter k a)) := by
  obtain ⟨c₁, h₁, h₂⟩ := memWrite_ok_addr.mp e
  have snoop := (devWrite_bankLatch (c := c.latch v) hd hk ht h₁).trans (by rw [if_pos hs])
  have mapped := devWrite_bankLatch snoop (hk.showing ht) ht h₂
  rwa [Cart.showing_bankAfter_showing, ite_self] at mapped

/-- `LS8K` has two trigger addresses (41_cart_family.md R183). -/
theorem bankAfter_ls8k (ht : k.tag = .ls8k) : bankAfter k a =
    if a.toNat % 0x1000 = 0xFF8 then 0 else if a.toNat % 0x1000 = 0xFF9 then 0x1000 else k.bankBase := by
  simp only [bankAfter, ht, triggerRange]
  by_cases h8 : a.toNat % 0x1000 = 0xFF8
  · simp [h8]
  by_cases h9 : a.toNat % 0x1000 = 0xFF9
  · simp [h9]
  rw [if_neg (by omega), if_neg h8, if_neg h9]

/-- A bank-latch cart has no embedded chip and no coprocessor, so it needs no machine
(41_cart_family.md R183, R217). -/
theorem Console.cartReady_of_bankLatch (hd : c.device 1 = .cart k) (hk : k.Ok E)
    (ht : k.tag ∈ latchTags) : c.CartReady := by
  intro k' hk'
  cases hd.symm.trans (Console.cart?_eq_some.mp hk')
  have hf : k.variant.family = .bankLatch := mem_latchTags.mp ht
  have hchip : k.variant.chip = none :=
    (chip_eq k.tag).trans (if_neg (ne_of_mem_of_not_mem ht (by decide)))
  have hdf : k.df = none := by simpa [hf] using hk.fetcher
  exact .inr ⟨hchip, hdf⟩

/-- Where a console exists, a next state of any of the four accesses is that of a bus access. -/
theorem busAccess_of_exec {i : Instr}
    (hi : i = .rd a ∨ i = .wr a v ∨ i = .busRd a ∨ i = .busWr a v) (hc : s.console = some c)
    (h : exec i s = .next t) :
    ∃ d, t.console = some d ∧
      ((∃ b, memRead Env.hw a.toNat c = .ok (b, d)) ∨ memWrite Env.hw a.toNat v c = .ok d) := by
  obtain rfl | rfl | rfl | rfl := hi
  · obtain ⟨b, d, hd, ht⟩ := memRead_of_exec hc (.inl h); exact ⟨d, ht, .inl ⟨b, hd⟩⟩
  · obtain ⟨d, hd, ht⟩ := memWrite_of_exec hc (.inl h); exact ⟨d, ht, .inr hd⟩
  · obtain ⟨b, d, hd, ht⟩ := memRead_of_exec hc (.inr h); exact ⟨d, ht, .inl ⟨b, hd⟩⟩
  · obtain ⟨d, hd, ht⟩ := memWrite_of_exec hc (.inr h); exact ⟨d, ht, .inr hd⟩

theorem Console.Wired.cart (hw : c.Wired E) (hd : c.device h = .cart k) : k.Ok E := by
  have ok := hw.devices h
  rw [hd] at ok
  exact ok

theorem State.device_of_console (hc : s.console = some c) (g : Handle) : s.device g = c.device g := by
  simp only [State.device, hc]

/-- The four accesses complete where the cart is ready (20_memory.md R74). -/
theorem exec_access_total {i : Instr}
    (hi : i = .rd a ∨ i = .wr a v ∨ i = .busRd a ∨ i = .busWr a v) (hs : s.Inv)
    (hc : s.console = some c) (hr : c.CartReady) : ∃ t, exec i s = .next t := by
  obtain ⟨⟨_, _, hrd, -⟩, ⟨_, _, hbusRd, -⟩, ⟨_, hwr, -⟩, ⟨_, hbusWr, -⟩⟩ :=
    busAccessesComplete s c a v hs hc (.inl hr)
  obtain rfl | rfl | rfl | rfl := hi
  · exact ⟨_, hrd⟩
  · exact ⟨_, hwr⟩
  · exact ⟨_, hbusRd⟩
  · exact ⟨_, hbusWr⟩

end CartFamily

/-! ### The statements -/

/-- Settles O17: the tag is tested before the length, and the length against the variant's list. -/
theorem mkcartTestsTagThenLength : Obligations.MkcartTestsTagThenLength := by
  refine fun s tag => ⟨fun htag => exec_mkcart_of_error (selectVariant_of_gt htag), fun t hinfer => ?_,
    fun hlen => exec_mkcart_of_error (selectVariant_unknown_of_not_mem hlen), fun t hcode hlen =>
    exec_mkcart_of_error ((selectVariant_of_code hcode).trans (if_neg hlen))⟩
  have hsel : nextMcSel t s.mcSel = s.mcSel :=
    (nextMcSel_eq t s.mcSel).trans (if_neg (lookup_inferTable _ hinfer).2.2)
  have hexec := exec_mkcart_of_ok (selectVariant_unknown hinfer)
  rw [hsel] at hexec
  exact ⟨_, hexec, rfl⟩

/-- Settles O18: both ways of naming a variant select it, and the factory's cart has its construction
values. -/
theorem mkcartStagesANewCart : Obligations.MkcartStagesANewCart := by
  intro s tag t hlegal
  obtain ⟨hsel, hlen⟩ := selectVariant_of_legal hlegal
  have hexec := exec_mkcart_of_ok hsel
  refine ⟨fun code hcode => hexec.trans
    (exec_mkcart_of_ok ((selectVariant_of_code hcode).trans (if_pos hlen))).symm,
    newCart t s.romPort s.mcSel, ?_, rfl, rfl, rfl, rfl, fun i => rfl, newCart_bank t _ _,
    fun ht => (newCart_df t _ _).trans (if_neg ht), fun ht => ?_⟩
  · rw [hexec, nextMcSel_eq]
  · exact ⟨_, (newCart_df t _ _).trans (if_pos ht), DataFetcher.initial_registers 0⟩

/-- Settles O22: only `C16KP` maps itself, into the two windows of the table. -/
theorem selfmapMapsTheWindows : Obligations.SelfmapMapsTheWindows := by
  refine fun s c h hb => ⟨fun hn => exec_selfmap_of_none hb (Console.namedCart_eq_none hn),
    fun k h1 hd => ?_⟩
  have hk : c.cart? = some k := Console.cart?_eq_some.mpr hd
  rw [exec_selfmap_of_cart hb (Console.namedCart_eq_some.mpr ⟨h1, hd⟩)]
  refine ⟨fun ht => ?_, fun ht => ?_⟩
  · rw [selfMap_other hk ht, ← (State.bench_eq_some.mp hb).1]
    rfl
  · obtain ⟨page, hself, hpage⟩ := selfMap_c16kp hk ht
    refine ⟨page, by rw [hself]; rfl, fun p hp => ?_⟩
    rw [hpage p hp]
    simp only [cartClaims, if_true, decide_eq_true_eq]
    exact ⟨fun hin => if_pos hin, fun hout => if_neg hout⟩

/-- Settles O23: `Attach()` sets the flag and the generator's clock, and calls the chip's creation where
the variant has one. -/
theorem attachHappensOnce : Obligations.AttachHappensOnce := by
  refine fun s c h hb => ⟨fun hn => exec_attach_of_none hb (Console.namedCart_eq_none hn),
    fun k h1 hd => ?_⟩
  have hk : c.cart? = some k := Console.cart?_eq_some.mpr hd
  have hchip : k.variant.chip = if k.tag = .c16kp then some c16kpWindow else none := chip_eq k.tag
  obtain ⟨built, hcart, hother, hpage, hsnoop, hchips, hcalls⟩ := attach_facts Env.hw hk
  obtain ⟨hlbv, htype, hbios, hsched⟩ := built.keep
  rw [exec_attach_of_cart hb (Console.namedCart_eq_some.mpr ⟨h1, hd⟩)]
  refine ⟨fun ha => if_pos ha, fun ha => ⟨attach Env.hw c, (attachCart Env.hw k c).1.chip,
    if_neg (Bool.eq_false_iff.mp ha), hcart.trans (congrArg Device.cart (attachCart_eq Env.hw k c)),
    fun ht => ?_, fun ht => ?_, hother, hpage, hsnoop, hlbv, htype, hbios, hsched,
    hchips (Console.phase_bench.mp (State.bench_eq_some.mp hb).2)⟩⟩
  · rw [if_neg ht] at hchip
    rw [hcalls, attachCart_fst, hchip]
    exact ⟨rfl, rfl⟩
  · rw [if_pos ht] at hchip
    rw [hcalls, attachCart_fst, hchip]
    exact ⟨rfl, rfl⟩

/-- Settles O29: the snooper's half of the access cannot fault, the cart's does. -/
theorem unattachedAccessFaults : Obligations.UnattachedAccessFaults := by
  intro s c k a v hs hb hd ha hsnoop hmap
  obtain ⟨ok, -⟩ := hs.benchOk hb
  have hc := (State.bench_eq_some.mp hb).1
  have hk : k.Ok Env.hw := ok.wired.cart hd
  have hn : c.device c.snooper = .null := by rw [hsnoop]; exact ok.wired.nullDevice
  rw [← hmap] at hd
  have read (h : ∀ c, cartRead Env.hw a k c = .error .chipNotAttached) :=
    exec_read_of_memRead_error hc (memRead_error_of_cart hn hd h)
  have write (h : ∀ c, cartWrite Env.hw a v k c = .error .chipNotAttached) :=
    exec_write_of_memWrite_error hc (memWrite_error_of_cart hn hd h)
  refine ⟨fun ht hlo hhi => ?_, fun ht ho => read fun _ => cartRead_wave_unattached hk ht ha ho,
    fun ht hlo hhi => write fun _ => cartWrite_vfreq_unattached hk ht ha hlo hhi⟩
  obtain ⟨hrd, hbusRd⟩ := read fun _ => cartRead_window_unattached ht ha ⟨hlo, hhi⟩
  obtain ⟨hwr, hbusWr⟩ := write fun _ => cartWrite_window_unattached ht ha ⟨hlo, hhi⟩
  exact ⟨hrd, hwr, hbusRd, hbusWr⟩

/-- Settles O33: both accesses latch, and the bank latched lies inside the image. -/
theorem bankLatchActsOnAnyAccess : Obligations.BankLatchActsOnAnyAccess := by
  intro E c k a v hk ht
  have hnb : k.variant.nb = 1 := Cart.nb_eq_one (mem_latchTags.mp ht) nofun nofun
  exact ⟨(hk.latchedRead_showing hnb a).1, cartWrite_bankLatch hk ht, cartRead_bankLatch hk ht⟩

/-- Settles O34: a port is tested by the offset, and every other access is the latch's. -/
theorem ramShadowPortsReachTheOverlay : Obligations.RamShadowPortsReachTheOverlay := by
  intro E c k a v hk ht
  rw [cartWrite_ramShadow hk ht, cartRead_ramShadow hk ht]
  refine ⟨fun hw => ⟨_, if_pos hw, fun i => Memory.read_write hk.overlay _ i v⟩,
    fun hw => if_neg (Nat.not_lt.mpr hw), fun hlo hhi => if_pos ⟨hlo, hhi⟩, fun hout => if_neg ?_⟩
  omega

/-- Settles O35: an access of either family is a look into the image. -/
theorem fixedAndMulticartNeverChange : Obligations.FixedAndMulticartNeverChange :=
  fun _ _ _ _ _ hk => ⟨fun ht => ⟨cartRead_fixed hk ht, cartWrite_fixed ht⟩,
    fun ht => ⟨cartRead_multicart hk ht, cartWrite_multicart ht⟩⟩

/-- Settles O36: the access completes, since an `LS8K` cart is always ready, and the snooper's half of it
latches. -/
theorem snoopingCartLatchesEverywhere : Obligations.SnoopingCartLatchesEverywhere := by
  intro s c k a v hs hc hsnoop hd htag i hi
  have hw := (hs.console c hc).wired
  have hk : k.Ok Env.hw := hw.cart hd
  have ht : k.tag ∈ latchTags := by rw [htag]; decide
  obtain ⟨t, h⟩ := exec_access_total hi hs hc (Console.cartReady_of_bankLatch hd hk ht)
  obtain ⟨d, hcon, hacc⟩ := busAccess_of_exec hi hc h
  refine ⟨t, h, ?_⟩
  rw [State.device_of_console hcon, ← bankAfter_ls8k htag]
  obtain ⟨b, e⟩ | e := hacc
  · exact memRead_snooping hsnoop hd hk ht e
  · exact memWrite_snooping hsnoop hd hk ht e

/-- Settles O37: each half of an access changes the device it addresses only. -/
theorem unaddressedCartIsUntouched : Obligations.UnaddressedCartIsUntouched := by
  intro s t c k a v _ hc hd hsnoop hmap i hi h
  obtain ⟨d, hcon, hacc⟩ := busAccess_of_exec hi hc h
  rw [State.device_of_console hcon, ← hd]
  obtain ⟨b, e⟩ | e := hacc
  · exact memRead_device_ne hsnoop.symm hmap.symm e
  · exact memWrite_device_ne hsnoop.symm hmap.symm e

end Sys2Proof.Machine

/-! The data-fetcher's coprocessor (42_cart_datafetcher.md): the regions of the cart's window (O38), the
LFSR (O39), the registers of the two windows (O40, O41), and the waveform generator (O42, O43). -/

namespace Sys2Proof.Machine

section CoprocessorFamily

variable {E : Env} {c : Console} {k : Cart} {a : Addr} {v : Byte}

/-! ### The regions above the register windows (42_cart_datafetcher.md R256, R257) -/

/-- The read region takes no write. -/
theorem cartWrite_readRegion (ht : k.tag = .df12k) (ho : a.toNat % 0x1000 < 0x40) :
    cartWrite E a v k c = .ok (k, c) := by
  have hf : k.variant.family = .dataFetcher := dataFetcher_iff.mp ht
  simp only [cartWrite, hf, windowOffset_eq, if_pos ho]

/-- The write region reads as 0. -/
theorem cartRead_writeRegion (ht : k.tag = .df12k) (ho : 0x40 ≤ a.toNat % 0x1000)
    (ho' : a.toNat % 0x1000 < 0x80) : cartRead E a k c = .ok (0, k, c) := by
  have hf : k.variant.family = .dataFetcher := dataFetcher_iff.mp ht
  simp only [cartRead, hf, windowOffset_eq, if_neg (Nat.not_lt.mpr ho), if_pos ho']

theorem cartWrite_programRom (hk : k.Ok E) (ht : k.tag = .df12k) (ho : 0x80 ≤ a.toNat % 0x1000) :
    cartWrite E a v k c = .ok (k.showing (bankAfter k a), c) := by
  have hf : k.variant.family = .dataFetcher := dataFetcher_iff.mp ht
  have ho40 : ¬a.toNat % 0x1000 < 0x40 := by omega
  simp only [cartWrite, hf, windowOffset_eq, if_neg ho40, if_neg (Nat.not_lt.mpr ho),
    hk.updateBank_showing (Cart.nb_eq_one hf nofun nofun)]

theorem cartRead_programRom (hk : k.Ok E) (ht : k.tag = .df12k) (ho : 0x80 ≤ a.toNat % 0x1000) :
    cartRead E a k c = .ok
      (k.rom.getD (bankAfter k a + a.toNat % 0x1000) 0, k.showing (bankAfter k a), c) := by
  have hf : k.variant.family = .dataFetcher := dataFetcher_iff.mp ht
  have hnb : k.variant.nb = 1 := Cart.nb_eq_one hf nofun nofun
  have ho40 : ¬a.toNat % 0x1000 < 0x40 := by omega
  have hbyte : romByte k.rom (bankAfter k a + a.toNat % 0x1000) =
      .ok (k.rom.getD (bankAfter k a + a.toNat % 0x1000) 0) := by
    have hbank := (hk.latchedRead_showing hnb a).1
    exact romByte_of_lt (by omega)
  have hrom : (k.showing (bankAfter k a)).rom = k.rom := rfl
  simp only [cartRead, hf, windowOffset_eq, if_neg ho40, if_neg (Nat.not_lt.mpr ho),
    hk.updateBank_showing hnb, Cart.bankBase_showing, hrom, hbyte, Except.ok_bind]

/-! ### The LFSR (42_cart_datafetcher.md R249, R250, R259) -/

theorem rotateLeft_rotateRight {w r : Nat} (hr : r < w) (x : BitVec w) :
    (x.rotateRight r).rotateLeft r = x := by
  ext i hi
  simp only [BitVec.getElem_rotateLeft, BitVec.getElem_rotateRight, Nat.mod_eq_of_lt hr]
  split
  · rw [dif_neg (by omega)]
    congr 1; omega
  · rw [dif_pos (by omega)]
    congr 1; omega

theorem lfsrNext_eq (x : Word32) : Config.lfsrNext x =
    x.rotateRight 11 ^^^ if x.getLsbD 10 then Config.lfsrTap else 0 := rfl

theorem lfsrPrev_eq (x : Word32) : Config.lfsrPrev x =
    (x ^^^ if x.getLsbD 31 then Config.lfsrTap else 0).rotateLeft 11 := by
  unfold Config.lfsrPrev
  split
  · rfl
  · exact (congrArg (BitVec.rotateLeft · 11) BitVec.xor_zero).symm

/-- The tap word leaves bit 31 alone, so bit 10 before a step is bit 31 after it. -/
theorem lfsrNext_msb (x : Word32) : (Config.lfsrNext x).getLsbD 31 = x.getLsbD 10 := by
  have htap : (if x.getLsbD 10 then Config.lfsrTap else 0).getLsbD 31 = false := by
    split <;> rfl
  rw [lfsrNext_eq, BitVec.getLsbD_xor, htap, Bool.xor_false, BitVec.getLsbD_rotateRight]
  rfl

theorem lfsrPrev_lfsrNext (x : Word32) : Config.lfsrPrev (Config.lfsrNext x) = x := by
  rw [lfsrPrev_eq, lfsrNext_msb, lfsrNext_eq, BitVec.xor_assoc, BitVec.xor_self, BitVec.xor_zero,
    rotateLeft_rotateRight (by decide)]

/-- There are finitely many words, so an inverse on one side is one on the other. -/
theorem lfsrNext_lfsrPrev (x : Word32) : Config.lfsrNext (Config.lfsrPrev x) = x := by
  have hinv : Function.LeftInverse Config.lfsrPrev Config.lfsrNext := lfsrPrev_lfsrNext
  exact hinv.rightInverse_of_surjective (Finite.surjective_of_injective hinv.injective) x

theorem lfsrByte_toNat (x : Word32) (i : Nat) : (lfsrByte x i).toNat = x.toNat / 2 ^ (8 * i) % 256 := by
  rw [lfsrByte, BitVec.extractLsb'_toNat, Nat.shiftRight_eq_div_pow]

/-- A byte written is the byte read, and the others stay. -/
theorem lfsrByte_setLfsrByte (x : Word32) (v : Byte) {i j : Nat} (hi : i < 4) (hj : j < 4) :
    lfsrByte (setLfsrByte x j v) i = if i = j then v else lfsrByte x i := by
  have hmask (m : Nat) : (0xFF : Word32).getLsbD m = decide (m < 8) := by
    show (BitVec.ofNat 32 (2 ^ 8 - 1)).getLsbD m = _
    rw [BitVec.getLsbD_ofNat, Nat.testBit_two_pow_sub_one]
    simp only [Bool.and_eq_decide, decide_eq_true_eq, decide_eq_decide]
    omega
  ext b hb
  rw [← BitVec.getLsbD_eq_getElem, ← BitVec.getLsbD_eq_getElem]
  have h32 : 8 * i + b < 32 := by omega
  simp only [lfsrByte, setLfsrByte, BitVec.getLsbD_extractLsb', BitVec.getLsbD_or, BitVec.getLsbD_and,
    BitVec.getLsbD_not, BitVec.getLsbD_shiftLeft, hmask, BitVec.getLsbD_setWidth]
  obtain hlt | rfl | hgt := lt_trichotomy i j
  · have : 8 * i + b < 8 * j := by omega
    simp [hlt.ne, this, hb, h32]
  · have : 8 * i + b - 8 * i = b := by omega
    have hb32 : b < 32 := by omega
    simp [this, hb, hb32, h32]
  · have hge : ¬8 * i + b < 8 * j := by omega
    have hout : ¬8 * i + b - 8 * j < 8 := by omega
    have hv : v.getLsbD (8 * i + b - 8 * j) = false := BitVec.getLsbD_of_ge v _ (by omega)
    simp [hgt.ne', hge, hout, hv, hb, h32]

/-! ### The register map (42_cart_datafetcher.md R255) -/

/-- A block of eight registers begins at a multiple of 8, so an offset in it names its channel. -/
theorem channelNumber_add {base : Nat} (hbase : base % 8 = 0) (n : Fin 8) :
    channelNumber (base + n) = n := by
  refine Fin.ext ?_
  show (base + n) % 8 = n
  omega

theorem dfReadMap_channel : ∀ n : Fin 8,
    Config.dfReadMap (0x08 + n) = .data ∧ Config.dfReadMap (0x10 + n) = .dataMasked ∧
    Config.dfReadMap (0x18 + n) = .dataFraction ∧ Config.dfReadMap (0x20 + n) = .flag := by decide

theorem dfReadMap_reserved {o : Nat} (ho : o = 0x06 ∨ o = 0x07 ∨ (0x28 ≤ o ∧ o < 0x40)) :
    Config.dfReadMap o = .reserved := by
  obtain rfl | rfl | ⟨hlo, -⟩ := ho
  · rfl
  · rfl
  · unfold Config.dfReadMap
    iterate 9 rw [if_neg (by omega)]

theorem dfWriteMap_channel : ∀ n : Fin 8,
    Config.dfWriteMap (0x40 + n) = .top ∧ Config.dfWriteMap (0x48 + n) = .bot ∧
    Config.dfWriteMap (0x50 + n) = .ctrLow ∧ Config.dfWriteMap (0x58 + n) = .ctrHigh ∧
    Config.dfWriteMap (0x60 + n) = .finc ∧ Config.dfWriteMap (0x68 + n) = .fsync := by decide

theorem dfWriteMap_vfreq : ∀ k : Fin 3, Config.dfWriteMap (0x70 + k) = .vfreq k := by decide

theorem dfWriteMap_rndByte : ∀ j : Fin 4, Config.dfWriteMap (0x74 + j) = .rndByte j := by decide

theorem dfWriteMap_reserved {o : Nat} (ho : 0x78 ≤ o) : Config.dfWriteMap o = .reserved := by
  unfold Config.dfWriteMap
  iterate 11 rw [if_neg (by omega)]

/-! ### The counters of a channel (42_cart_datafetcher.md R245, R246, R255) -/

theorem channelFlag_iff (ch : Channel) : channelFlag ch = true ↔
    (ch.top.toNat + 256 - ch.bot.toNat) % 256 <
      (ch.top.toNat + 256 - ch.ctr.toNat % 256) % 256 := by
  have hbot := ch.bot.isLt
  rw [channelFlag, flagRelation, Config.dfFlagRel, decide_eq_true_eq, BitVec.toNat_sub,
    BitVec.toNat_sub, BitVec.toNat_setWidth]
  omega

theorem Channel.stepFctr_eq (ch : Channel) :
    ch.stepFctr = { ch with fctr := BitVec.ofNat 20 (ch.fctr.toNat + ch.finc.toNat) } := by
  rw [stepFctr, BitVec.ofNat_add, BitVec.ofNat_toNat, BitVec.setWidth_eq, BitVec.ofNat_toNat]

/-- A word of a high and a low byte is their sum. -/
theorem highByte_or_lowByte (h : BitVec 12) {l : BitVec 12} (hl : l.toNat < 256) :
    h <<< 8 ||| l = BitVec.ofNat 12 (h.toNat * 256 + l.toNat) := by
  have hhigh : h.toNat <<< 8 % 2 ^ 12 = (h.toNat % 16) <<< 8 := by
    rw [Nat.shiftLeft_eq, Nat.shiftLeft_eq]; omega
  apply BitVec.eq_of_toNat_eq
  rw [BitVec.toNat_or, BitVec.toNat_shiftLeft, hhigh, ← Nat.shiftLeft_add_eq_or_of_lt hl,
    BitVec.toNat_ofNat, Nat.shiftLeft_eq]
  omega

theorem and_highMask (x : BitVec 12) : x &&& (0xF00 : BitVec 12) = x >>> 8 <<< 8 := by
  have hmask : ∀ i : Fin 12, (0xF00 : BitVec 12)[i] = decide (8 ≤ i.val) := by decide
  ext i hi
  have hbit : (0xF00 : BitVec 12)[i] = decide (8 ≤ i) := hmask ⟨i, hi⟩
  rw [BitVec.getElem_and, hbit, BitVec.getElem_shiftLeft, BitVec.getElem_ushiftRight]
  obtain h8 | h8 := lt_or_ge i 8
  · simp [h8]
  · simp [h8, hi]

/-- The low byte of a counter replaced (`CTRLO`). -/
theorem ctrLow_eq (ctr : BitVec 12) (v : Byte) :
    (ctr &&& 0xF00) ||| v.setWidth 12 = BitVec.ofNat 12 (ctr.toNat / 256 * 256 + v.toNat) := by
  have hlow : (v.setWidth 12).toNat = v.toNat := BitVec.toNat_setWidth_of_le (by decide)
  rw [and_highMask, highByte_or_lowByte _ (hlow ▸ v.isLt), hlow, BitVec.toNat_ushiftRight,
    Nat.shiftRight_eq_div_pow]

/-- The high four bits of a counter replaced (`CTRHI`). -/
theorem ctrHigh_eq (ctr : BitVec 12) (v : Byte) :
    (v.setWidth 12 &&& 0x00F) <<< 8 ||| (ctr &&& 0x0FF) =
      BitVec.ofNat 12 (v.toNat % 16 * 256 + ctr.toNat % 256) := by
  have hlow : (ctr &&& 0x0FF).toNat = ctr.toNat % 256 :=
    (BitVec.toNat_and _ _).trans (Nat.and_two_pow_sub_one_eq_mod _ 8)
  have hhigh : (v.setWidth 12 &&& 0x00F).toNat = v.toNat % 16 := by
    rw [BitVec.toNat_and, BitVec.toNat_setWidth_of_le (by decide)]
    exact Nat.and_two_pow_sub_one_eq_mod _ 4
  rw [highByte_or_lowByte _ (hlow ▸ Nat.mod_lt _ (by decide)), hlow, hhigh]

/-- The fractional counter at a counter's place (`FSYNC`). -/
theorem fsync_eq (ctr : BitVec 12) :
    ctr.setWidth 20 <<< 8 = BitVec.ofNat 20 (ctr.toNat * 256) := by
  apply BitVec.eq_of_toNat_eq
  rw [BitVec.toNat_shiftLeft, BitVec.toNat_setWidth, BitVec.toNat_ofNat, Nat.shiftLeft_eq]
  omega

/-! ### The registers of a channel (42_cart_datafetcher.md R247, R248, R251, R254, R255) -/

section ChannelRegisters

variable {att : Bool} {clock : Word64} {rom : Bytes} {d : DataFetcher} {n : Fin 8}

theorem regRead_data (hlen : rom.length = 0x3000) : regRead att clock rom (0x08 + n) d =
    .ok (rom.getD (0x2000 + (d.channel n).ctr.toNat) 0,
      d.setChannel n { d.channel n with ctr := (d.channel n).ctr + 1 }) := by
  simp only [regRead, dfReadMap_channel n, channelNumber_add,
    display_total hlen (d.channel n).ctr.isLt, Channel.stepCtr, Except.ok_bind]

theorem regRead_dataMasked (hlen : rom.length = 0x3000) : regRead att clock rom (0x10 + n) d =
    .ok (if channelFlag (d.channel n) then rom.getD (0x2000 + (d.channel n).ctr.toNat) 0 else 0,
      d.setChannel n { d.channel n with ctr := (d.channel n).ctr + 1 }) := by
  simp only [regRead, dfReadMap_channel n, channelNumber_add,
    display_total hlen (d.channel n).ctr.isLt, Channel.stepCtr, Except.ok_bind]

theorem regRead_dataFraction (hlen : rom.length = 0x3000) : regRead att clock rom (0x18 + n) d =
    .ok (rom.getD (0x2000 + (d.channel n).fctr.toNat / 256) 0,
      d.setChannel n { d.channel n with
        fctr := BitVec.ofNat 20 ((d.channel n).fctr.toNat + (d.channel n).finc.toNat) }) := by
  have hindex : ((d.channel n).fctr >>> 8).toNat = (d.channel n).fctr.toNat / 256 :=
    (BitVec.toNat_ushiftRight _ _).trans (Nat.shiftRight_eq_div_pow _ 8)
  have hbyte := display_total hlen (fctr_index_lt (d.channel n).fctr)
  rw [hindex] at hbyte
  simp only [regRead, dfReadMap_channel n, channelNumber_add, hindex, hbyte, Channel.stepFctr_eq,
    Except.ok_bind]

theorem regRead_flag : regRead att clock rom (0x20 + n) d =
    .ok (if channelFlag (d.channel n) then 0xFF else 0x00, d) := by
  simp only [regRead, dfReadMap_channel n, channelNumber_add]

theorem regWrite_top : regWrite att clock (0x40 + n) v d =
    .ok (d.setChannel n { d.channel n with top := v }) := by
  simp only [regWrite, dfWriteMap_channel n, channelNumber_add]

theorem regWrite_bot : regWrite att clock (0x48 + n) v d =
    .ok (d.setChannel n { d.channel n with bot := v }) := by
  simp only [regWrite, dfWriteMap_channel n, channelNumber_add]

theorem regWrite_ctrLow : regWrite att clock (0x50 + n) v d =
    .ok (d.setChannel n { d.channel n with
      ctr := BitVec.ofNat 12 ((d.channel n).ctr.toNat / 256 * 256 + v.toNat) }) := by
  simp only [regWrite, dfWriteMap_channel n, channelNumber_add, ctrLow_eq]

theorem regWrite_ctrHigh : regWrite att clock (0x58 + n) v d =
    .ok (d.setChannel n { d.channel n with
      ctr := BitVec.ofNat 12 (v.toNat % 16 * 256 + (d.channel n).ctr.toNat % 256) }) := by
  simp only [regWrite, dfWriteMap_channel n, channelNumber_add, ctrHigh_eq]

theorem regWrite_finc : regWrite att clock (0x60 + n) v d =
    .ok (d.setChannel n { d.channel n with finc := v }) := by
  simp only [regWrite, dfWriteMap_channel n, channelNumber_add]

theorem regWrite_fsync : regWrite att clock (0x68 + n) v d =
    .ok (d.setChannel n { d.channel n with
      fctr := BitVec.ofNat 20 ((d.channel n).ctr.toNat * 256) }) := by
  simp only [regWrite, dfWriteMap_channel n, channelNumber_add, fsync_eq]

end ChannelRegisters

/-! ### The registers of the LFSR (42_cart_datafetcher.md R259) -/

theorem regWrite_rndByte {att : Bool} {clock : Word64} {d : DataFetcher} (j : Fin 4) :
    regWrite att clock (0x74 + j) v d = .ok { d with lfsr := setLfsrByte d.lfsr j v } := by
  simp only [regWrite, dfWriteMap_rndByte]

/-! ### The waveform generator (42_cart_datafetcher.md R252, R253) -/

section Generator

variable {clock : Word64} {d : DataFetcher}

theorem generatorTicks_eq (e r : Nat) :
    generatorTicks e r = ((e * 20000 + r) / 1193182, (e * 20000 + r) % 1193182) := rfl

theorem generatorRun_cons (e : Nat) (es : List Nat) (r : Nat) : generatorRun (e :: es) r =
    ((generatorTicks e r).1 + (generatorRun es (generatorTicks e r).2).1,
      (generatorRun es (generatorTicks e r).2).2) := rfl

/-- A voice's phase counts its frequency once per tick (R252). -/
theorem genAdvance_vphase (k : Fin 3) : (genAdvance clock d).vphase[k].toNat =
    (d.vphase[k].toNat +
      d.vfreq[k].toNat * (((clock - d.last).toNat * 20000 + d.rem) / 1193182)) % 2 ^ 32 := by
  have hphase : (genAdvance clock d).vphase[k] = d.vphase[k] +
      d.vfreq[k] * BitVec.ofNat 32 (((clock - d.last).toNat * 20000 + d.rem) / 1193182) := by
    fin_cases k <;> rfl
  rw [hphase, BitVec.toNat_add, BitVec.toNat_mul, BitVec.toNat_ofNat, Nat.mul_mod_mod,
    Nat.add_mod_mod]

/-- The triangle's level in the top five bits of a phase (R253). -/
def triangleLevel (phase : Nat) : Nat :=
  if phase / 2 ^ 27 < 16 then phase / 2 ^ 27 else 31 - phase / 2 ^ 27

theorem triangleLevel_lt (phase : Nat) : triangleLevel phase < 16 := by
  unfold triangleLevel; split <;> omega

theorem voiceSample_toNat (x : Word32) : (voiceSample x).toNat = triangleLevel x.toNat := by
  have hindex : (x >>> 27).toNat = x.toNat / 2 ^ 27 := by
    rw [BitVec.toNat_ushiftRight, Nat.shiftRight_eq_div_pow]
  have hlt := triangleLevel_lt x.toNat
  rw [voiceSample, hindex, Config.wave]
  rw [triangleLevel] at hlt ⊢
  split <;> (rw [BitVec.toNat_ofNat]; omega)

/-- The sum of three levels fits in a byte. -/
theorem waveSample_toNat (d : DataFetcher) : (waveSample d).toNat =
    triangleLevel d.vphase[0].toNat + triangleLevel d.vphase[1].toNat +
      triangleLevel d.vphase[2].toNat := by
  have h0 := triangleLevel_lt d.vphase[0].toNat
  have h1 := triangleLevel_lt d.vphase[1].toNat
  have h2 := triangleLevel_lt d.vphase[2].toNat
  rw [waveSample, BitVec.toNat_add, BitVec.toNat_add, voiceSample_toNat, voiceSample_toNat,
    voiceSample_toNat]
  omega

theorem regWrite_vfreq (att : Bool) (k : Fin 3) :
    regWrite att clock (0x70 + k) v d = writeVfreq att clock k v d := by
  simp only [regWrite, dfWriteMap_vfreq]

end Generator

end CoprocessorFamily

/-! ### The statements -/

/-- Settles O38: in each region the access is the region's own. -/
theorem dataFetcherDecodesThreeRegions : Obligations.DataFetcherDecodesThreeRegions := by
  intro E c k d a v hk ht hdf
  refine ⟨fun ho => ⟨cartWrite_readRegion ht ho, fun b d' h => ?_, fun f h => ?_⟩,
    fun ho ho' => ⟨cartRead_writeRegion ht ho ho', fun d' h => ?_, fun f h => ?_⟩,
    fun ho => ⟨cartWrite_programRom hk ht ho, cartRead_programRom hk ht ho⟩⟩
  · rw [cartRead_coprocessor ht hdf ho, h, Except.ok_bind]
  · rw [cartRead_coprocessor ht hdf ho, h, Except.error_bind]
  · rw [cartWrite_coprocessor ht hdf ho ho', h, Except.ok_bind]
  · rw [cartWrite_coprocessor ht hdf ho ho', h, Except.error_bind]

/-- Settles O39: the steps rotate by 11 either way, and the bit that chooses the tap word moves with
them. -/
theorem lfsrStepsAreInverse : Obligations.LfsrStepsAreInverse :=
  ⟨fun x => ⟨lfsrPrev_lfsrNext x, lfsrNext_lfsrPrev x⟩, fun _ => ⟨rfl, rfl⟩, rfl, rfl, rfl, rfl, rfl,
    rfl, rfl, rfl⟩

/-- Settles O40, register by register. -/
theorem coprocessorReadRegisters : Obligations.CoprocessorReadRegisters := by
  intro att clock rom d n hlen ch shown flag get
  have hflag : channelFlag ch = true ↔ flag := channelFlag_iff ch
  refine ⟨⟨_, rfl, ?_⟩, ⟨_, rfl, lfsrByte_toNat _ 1⟩, ⟨_, rfl, lfsrByte_toNat _ 2⟩,
    ⟨_, rfl, ?_⟩, ⟨_, rfl, ?_⟩, regRead_data hlen, fun h => ?_, fun h => ?_, regRead_dataFraction hlen,
    fun h => ?_, fun h => ?_, fun o ho => ?_⟩
  · simpa using lfsrByte_toNat (Config.lfsrNext d.lfsr) 0
  · have := d.lfsr.isLt
    rw [lfsrByte_toNat]; omega
  · simpa using lfsrByte_toNat (Config.lfsrPrev d.lfsr) 0
  · exact (regRead_dataMasked hlen).trans (by rw [if_pos (hflag.mpr h)])
  · exact (regRead_dataMasked hlen).trans (by rw [if_neg (mt hflag.mp h)])
  · exact regRead_flag.trans (by rw [if_pos (hflag.mpr h)])
  · exact regRead_flag.trans (by rw [if_neg (mt hflag.mp h)])
  · simp only [get, regRead, dfReadMap_reserved ho]

/-- Settles O41, register by register; a byte of the LFSR is one digit of it to base 256. -/
theorem coprocessorWriteRegisters : Obligations.CoprocessorWriteRegisters := by
  intro att clock d v n ch put
  have hdigit (x : Word32) (i : Nat) : x.toNat / 256 ^ i % 256 = (lfsrByte x i).toNat := by
    rw [lfsrByte_toNat, Nat.pow_mul]
  refine ⟨regWrite_top, regWrite_bot, regWrite_ctrLow, regWrite_ctrHigh, regWrite_finc, regWrite_fsync,
    rfl, fun j => ⟨_, regWrite_rndByte j, fun i hi => ?_⟩, fun o ho _ => ?_⟩
  · rw [hdigit, hdigit, lfsrByte_setLfsrByte _ _ hi j.isLt, apply_ite BitVec.toNat]
  · simp only [put, regWrite, dfWriteMap_reserved ho]

/-- Settles O42, by induction on the list of elapsed times. -/
theorem generatorCutPointsDoNotMatter : Obligations.GeneratorCutPointsDoNotMatter := by
  intro es
  induction es with
  | nil =>
    intro r hr
    rw [generatorRun, List.sum_nil, Nat.zero_mul, Nat.zero_add, Nat.div_eq_of_lt hr, Nat.mod_eq_of_lt hr]
  | cons e es ih =>
    intro r _
    rw [generatorRun_cons, generatorTicks_eq, ih _ (Nat.mod_lt _ (by decide)), List.sum_cons,
      Prod.mk.injEq]
    omega

/-- Settles O43: the state both registers leave is the advanced generator's. -/
theorem waveformAdvancesFirst : Obligations.WaveformAdvancesFirst := by
  intro clock rom d v total phase level
  have hphase (k : Fin 3) : (genAdvance clock d).vphase[k].toNat = phase k := genAdvance_vphase k
  refine ⟨genAdvance clock d, rfl, rfl, rfl, rfl, rfl, hphase, ⟨_, rfl, ?_⟩, rfl, fun k =>
    ⟨regWrite_vfreq true k, regWrite_vfreq false k⟩⟩
  rw [← hphase 0, ← hphase 1, ← hphase 2]
  exact waveSample_toNat _

end Sys2Proof.Machine

/-! The scheduler (43_scheduler.md): construction (O14, O15, O16), the machine reset (O54), `Execute`
(O44), the scanline (O45 to O48), the frame (O49 to O52), and the cells a frame and a machine reset
change (O32). -/

namespace Sys2Proof.Machine

section SchedulerFamily

variable {E : Env} {s : State} {c d : Console} {t : LineEnd} {i : Nat}

/-! ### What a scanline and a frame consist of (43_scheduler.md R291, R296) -/

/-- The end of a line after its last `Execute`: jam and preempt are looked at (43_scheduler.md R307). -/
def lineEnd (E : Env) (start : Word64) (c : Console) : LineEnd × Console :=
  if c.jammed then (.jammed, c.setHalt)
  else if c.preempt then (preemptEnd E, c.fastForward start)
  else (.goOn, c)

/-- The line after its first slice: it ends at a jam, is cut short by a preempt, or goes on with the DMA
step and the second slice (43_scheduler.md R298, R299, R300). -/
def restOfLine (E : Env) (i : Nat) (start : Word64) (c : Console) : Except Fault (LineEnd × Console) :=
  if c.jammed then .ok (.jammed, c.setHalt)
  else if c.preempt then preemptedLine E start c
  else dmaSlice E i c >>= secondSlice E start

theorem firstSlice_eq (start : Word64) : firstSlice E i start c = execute E
    { c with
      sched := { phase := .slice1, sl := some i, start := some start, rem := some 428 }
      budget := c.budget + 28 } := by
  show execute E (Console.addBudget _ _) = _
  rw [addBudget_eq]
  rfl

theorem secondSlice_eq (start : Word64) :
    secondSlice E start c =
      execute E ((c.enter .slice2).addBudget c.lineRest) >>= fun c => .ok (lineEnd E start c) := by
  show (execute E ((c.enter .slice2).addBudget c.lineRest) >>= _) = _
  congr 1
  funext c
  unfold lineEnd
  split
  · rfl
  · split <;> rfl

theorem scanline_eq (h : (E.debugChecks && debugFails i c.nominal c) = false) :
    scanline E i c = firstSlice E i c.nominal c >>= restOfLine E i c.nominal := by
  unfold scanline
  simp only [h, Bool.false_eq_true, if_false]
  rfl

/-- A line that completes is its first slice and the rest. -/
theorem scanline_ok (e : scanline E i c = .ok (t, d)) :
    ∃ c₁, firstSlice E i c.nominal c = .ok c₁ ∧ restOfLine E i c.nominal c₁ = .ok (t, d) := by
  cases hd : E.debugChecks && debugFails i c.nominal c
  · rw [scanline_eq hd] at e
    exact Except.bind_ok_iff.mp e
  · unfold scanline at e
    simp only [hd, if_true] at e
    cases e

theorem dmaSlice_ok (e : dmaSlice E i c = .ok d) :
    ∃ x n c₁, dmaProcessing E (c.enter .dma) = .ok (x, c₁) ∧ d = c₁.steal n := by
  obtain ⟨⟨x, c₁⟩, h, e⟩ := Except.bind_ok_iff.mp e
  obtain ⟨n, -, e⟩ := Except.bind_ok_iff.mp e
  cases e
  exact ⟨x, _, c₁, h, rfl⟩

/-- How the rest of a line can complete: at once, after a DMA step, or after a DMA step and an
`Execute`. -/
theorem restOfLine_ok {start : Word64} (e : restOfLine E i start c = .ok (t, d)) :
    (c.jammed = true ∧ t = .jammed ∧ d = c.setHalt) ∨
    (c.jammed = false ∧ t = preemptEnd E ∧
      ∃ x c₁, dmaProcessing E c = .ok (x, c₁) ∧ d = c₁.fastForward start) ∨
    (c.jammed = false ∧ ∃ c₁ c₂, dmaSlice E i c = .ok c₁ ∧
      execute E ((c₁.enter .slice2).addBudget c₁.lineRest) = .ok c₂ ∧ (t, d) = lineEnd E start c₂) := by
  unfold restOfLine at e
  split at e
  · next hj => cases e; exact .inl ⟨hj, rfl, rfl⟩
  · next hj =>
    have hj := Bool.not_eq_true _ ▸ hj
    split at e
    · obtain ⟨⟨x, c₁⟩, h, e⟩ := Except.bind_ok_iff.mp e
      cases e
      exact .inr (.inl ⟨hj, rfl, x, c₁, h, rfl⟩)
    · obtain ⟨c₁, h₁, e⟩ := Except.bind_ok_iff.mp e
      rw [secondSlice_eq] at e
      obtain ⟨c₂, h₂, e⟩ := Except.bind_ok_iff.mp e
      exact .inr (.inr ⟨hj, c₁, c₂, h₁, h₂, (Except.ok.inj e).symm⟩)

/-- The parts of a frame that completes. -/
theorem runFrame_ok (e : runFrame E c = .ok (t, d)) :
    ∃ first lines last,
      dmaCall E .startFrame ({ c with frame := c.frame + 1 }.enter .notStarted) = .ok first ∧
      frameLines E (Config.scanlines c.type) 0 (cartStartFrame E first) = .ok (t, lines) ∧
      dmaCall E .endFrame (cartEndFrame E (lines.enter t.phase)) = .ok last ∧
      d = { last with sched := Sched.idle } := by
  obtain ⟨first, h₁, e⟩ := Except.bind_ok_iff.mp e
  obtain ⟨⟨u, lines⟩, h₂, e⟩ := Except.bind_ok_iff.mp e
  obtain ⟨last, h₃, e⟩ := Except.bind_ok_iff.mp e
  cases e
  have htype : (cartStartFrame E first).type = c.type :=
    ((dmaCall_step h₁).trans (cartHook_step E .startFrame first)).touched.topology.type
  rw [htype] at h₂
  exact ⟨first, lines, last, h₁, h₂, h₃, rfl⟩

/-! ### `Execute` (43_scheduler.md R285, R286, R287) -/

theorem execute_overrun (h : execute E c = .ok d) (h0 : -28 < c.budget.toInt) :
    -28 < d.budget.toInt := by
  obtain ⟨k, ran, overrun, noBudget, -⟩ := execute_step h
  rcases Int.lt_or_le 0 c.budget.toInt with hpos | hneg
  · exact overrun hpos
  · have hk := noBudget (.inl hneg)
    have hb := ran.budget
    omega

theorem execute_ends (h : execute E c = .ok d) :
    d.jammed = true ∨ d.preempt = true ∨ d.budget.toInt ≤ 0 := by
  obtain ⟨_, -, -, -, used, -⟩ := execute_step h
  by_cases hj : d.jammed = true
  · exact .inl hj
  · by_cases hp : d.preempt = true
    · exact .inr (.inl hp)
    · exact .inr (.inr (used (Bool.eq_false_iff.mpr hj) (Bool.eq_false_iff.mpr hp)))

/-! ### The DMA steps in the record (43_scheduler.md R290) -/

theorem dmaSteps_of_records {P : CallKind → Prop} (r : Records E P c d)
    (hP : ¬P (.dma .doProcessing)) : d.dmaSteps = c.dmaSteps := by
  obtain ⟨l, hl, hk, -⟩ := r.calls
  have hno : (l.filter fun x => decide (x.kind = .dma .doProcessing)) = [] := by
    rw [List.filter_eq_nil_iff]
    intro x hx hd
    exact hP (of_decide_eq_true hd ▸ hk x hx)
  unfold Console.dmaSteps
  rw [hl, List.filter_append, hno, List.nil_append]

theorem execute_dmaSteps (h : execute E c = .ok d) : d.dmaSteps = c.dmaSteps :=
  dmaSteps_of_records (execute_records h) fun hk => by
    obtain h | ⟨op, h⟩ := hk
    · exact h
    · cases h

theorem dmaProcessing_dmaSteps {n : Nat} (h : dmaProcessing E c = .ok (n, d)) :
    d.dmaSteps = c.dmaSteps + 1 := by
  obtain ⟨⟨x, c₁⟩, hrun, h⟩ := Except.bind_ok_iff.mp h
  have hbus : c₁.dmaSteps = (c.call E (.dma .doProcessing)).dmaSteps :=
    dmaSteps_of_records (runProgram_records hrun) id
  have hcall : (c.call E (.dma .doProcessing)).dmaSteps = c.dmaSteps + 1 := by
    simp [Console.dmaSteps]
  simp only at h
  split at h
  · cases h
  · cases h
    exact hbus.trans hcall

theorem lineEnd_dmaSteps (start : Word64) (c : Console) :
    (lineEnd E start c).2.dmaSteps = c.dmaSteps := by
  unfold lineEnd
  split
  · rfl
  · split <;> rfl

theorem restOfLine_dmaSteps {start : Word64} (e : restOfLine E i start c = .ok (t, d)) :
    d.dmaSteps = c.dmaSteps + if c.jammed then 0 else 1 := by
  obtain ⟨hj, -, rfl⟩ | ⟨hj, -, x, c₁, h, rfl⟩ | ⟨hj, c₁, c₂, h₁, h₂, hd⟩ := restOfLine_ok e
  · rw [hj]; rfl
  · rw [hj]
    exact (dmaProcessing_dmaSteps h :)
  · obtain ⟨x, n, c₀, h₀, rfl⟩ := dmaSlice_ok h₁
    have hend : d.dmaSteps = c₂.dmaSteps := by
      rw [← lineEnd_dmaSteps (E := E) start c₂, ← hd]
    rw [hj, hend, execute_dmaSteps h₂]
    exact (dmaProcessing_dmaSteps h₀ :)

/-! ### The halt flag (43_scheduler.md R302)

Without a premise on the budget: a jam sets the flag whatever the carry was. -/

theorem MachineStep.grant (E : Env) (p : Sched) (b : Word32) (c : Console) :
    MachineStep E c { c with sched := p, budget := b } :=
  .registers rfl rfl rfl rfl rfl rfl rfl

theorem MachineStep.enter (E : Env) (p : SchedPhase) (c : Console) : MachineStep E c (c.enter p) :=
  .registers rfl rfl rfl rfl rfl rfl rfl

/-- A step that ends in one of the three ways: a jam sets the halt flag, and nothing else touches it. -/
structure EndingStep (E : Env) (c : Console) (t : LineEnd) (d : Console) : Prop where
  machine : MachineStep E c d
  jam     : t = .jammed → d.jammed = true ∧ d.halt = true
  other   : t ≠ .jammed → d.halt = c.halt

/-- A step that leaves the halt flag alone may stand before one that ends so. -/
theorem EndingStep.after {c c₁ : Console} (h : EndingStep E c₁ t d) (m : MachineStep E c c₁)
    (hh : c₁.halt = c.halt) : EndingStep E c t d :=
  ⟨m.trans h.machine, h.jam, fun ht => (h.other ht).trans hh⟩

theorem EndingStep.goOn (E : Env) (c : Console) : EndingStep E c .goOn c :=
  ⟨.refl E c, fun ht => (nomatch ht), fun _ => rfl⟩

theorem EndingStep.jammed (hj : c.jammed = true) : EndingStep E c .jammed c.setHalt :=
  ⟨.registers rfl rfl rfl rfl rfl rfl rfl, fun _ => ⟨hj, rfl⟩, fun ht => absurd rfl ht⟩

theorem EndingStep.preempted (E : Env) (start : Word64) (c : Console) :
    EndingStep E c (preemptEnd E) (c.fastForward start) := by
  refine ⟨.registers rfl rfl rfl rfl rfl rfl rfl, fun ht => ?_, fun _ => rfl⟩
  unfold preemptEnd at ht
  split at ht <;> cases ht

theorem lineEnd_ending {start : Word64} (h : (t, d) = lineEnd E start c) : EndingStep E c t d := by
  unfold lineEnd at h
  split at h
  · next hj => cases h; exact .jammed hj
  · split at h
    · cases h; exact .preempted E start c
    · cases h; exact .goOn E c

/-- The steal takes clocks; the rest of the DMA step is the chip's. -/
theorem dmaSlice_machine (h : dmaSlice E i c = .ok d) : MachineStep E c d ∧ d.halt = c.halt := by
  obtain ⟨x, n, c₁, h₁, rfl⟩ := dmaSlice_ok h
  have q := (dmaProcessing_step h₁).1
  have stolen : MachineStep E c₁ (c₁.steal n) := .registers rfl rfl rfl rfl rfl rfl rfl
  exact ⟨((MachineStep.enter E .dma c).trans q.machine).trans stolen, q.scheduler.halt⟩

theorem restOfLine_ending {start : Word64} (e : restOfLine E i start c = .ok (t, d)) :
    EndingStep E c t d := by
  obtain ⟨hj, rfl, rfl⟩ | ⟨-, rfl, x, c₁, h, rfl⟩ | ⟨-, c₁, c₂, h₁, h₂, hd⟩ := restOfLine_ok e
  · exact .jammed hj
  · have q := (dmaProcessing_step h).1
    exact (EndingStep.preempted E start c₁).after q.machine q.scheduler.halt
  · obtain ⟨m, hh⟩ := dmaSlice_machine h₁
    obtain ⟨k, ran, -⟩ := execute_step h₂
    have granted : c₂.halt = c₁.halt := ran.halt
    exact (lineEnd_ending hd).after ((m.trans (.grant E _ _ c₁)).trans ran.machine) (granted.trans hh)

theorem scanline_ending (e : scanline E i c = .ok (t, d)) : EndingStep E c t d := by
  obtain ⟨c₁, h₁, e⟩ := scanline_ok e
  obtain ⟨k, ran, -⟩ := execute_step (firstSlice_eq c.nominal ▸ h₁)
  exact (restOfLine_ending e).after ((MachineStep.grant E _ _ c).trans ran.machine) ran.halt

theorem frameLines_ending : ∀ (n i : Nat) {c d : Console} {t : LineEnd},
    frameLines E n i c = .ok (t, d) → EndingStep E c t d
  | 0, _, c, _, _, e => by cases e; exact .goOn E c
  | n + 1, i, c, d, t, e => by
    obtain ⟨⟨u, c₁⟩, h₁, e⟩ := Except.bind_ok_iff.mp e
    have line := scanline_ending h₁
    cases u with
    | jammed => cases e; exact line
    | preempted => cases e; exact line
    | goOn => exact (frameLines_ending n (i + 1) e).after line.machine (line.other (by decide))

theorem runFrame_ending (e : runFrame E c = .ok (t, d)) : EndingStep E c t d := by
  obtain ⟨first, lines, last, h₁, h₂, h₃, rfl⟩ := runFrame_ok e
  have counted : MachineStep E c ({ c with frame := c.frame + 1 }.enter .notStarted) :=
    .registers rfl rfl rfl rfl rfl rfl rfl
  have start := (dmaCall_step h₁).trans (cartHook_step E .startFrame first)
  have body := (frameLines_ending _ _ h₂).after (counted.trans start.machine)
    start.touched.scheduler.halt
  have close := (cartHook_step E .endFrame (lines.enter t.phase)).trans (dmaCall_step h₃)
  have idle := MachineStep.grant E Sched.idle last.budget last
  have hs := close.touched.scheduler
  refine ⟨((body.machine.trans (.enter E t.phase lines)).trans close.machine).trans idle, fun ht => ?_,
    fun ht => hs.halt.trans (body.other ht)⟩
  obtain ⟨hj, hh⟩ := body.jam ht
  exact ⟨hs.jammed.trans hj, hs.halt.trans hh⟩

theorem EndingStep.halt_iff (h : EndingStep E c t d) (hc : c.halt = false) :
    d.halt = true ↔ t = .jammed := by
  by_cases ht : t = .jammed
  · exact iff_of_true (h.jam ht).2 ht
  · rw [h.other ht, hc]
    exact iff_of_false Bool.false_ne_true ht

theorem LineEnd.code_eq_two {t : LineEnd} : t.code = 2 ↔ t = .jammed := by
  cases t <;> decide

/-! ### The DMA count (43_scheduler.md R290, R300, R301, R303, R304, R306) -/

theorem fixApplies_iff {lines n x : Nat} : fixApplies lines n x = true ↔
    (lines = 262 ∧ n = 203 ∧ x = 152) ∨ (lines = 312 ∧ n = 228 ∧ x = 162) := by
  unfold fixApplies
  simp only [Bool.or_eq_true, Bool.and_eq_true, decide_eq_true_iff, and_assoc]
  rfl

theorem correctClocks_eq (lines n x : Nat) : correctClocks lines n x =
    if (lines = 262 ∧ n = 203 ∧ x = 152) ∨ (lines = 312 ∧ n = 228 ∧ x = 162) then x - 4 else x := by
  unfold correctClocks
  rw [if_congr fixApplies_iff rfl rfl]
  congr 1
  simp only [Config.fixDelta]
  omega

/-- The step of a chip that makes no bus access and whose answer is taken as it is (log 26). -/
theorem dmaProcessing_done {x : Word32} (hfree : c.dmaHonest = false)
    (hx : E.collab.dmaProcess (c.entry (.dma .doProcessing) :: c.calls) = .done x) :
    dmaProcessing E c = if x.toInt < 0 then .error .badDmaClocks
      else .ok (x.toNat, (c.call E (.dma .doProcessing)).refreshImages E) := by
  have honest : (c.call E (.dma .doProcessing)).dmaHonest = false :=
    (dmaHonest_of_step (BusStep.call E _ c).machine).trans hfree
  have prog : E.collab.dmaProcess (c.call E (.dma .doProcessing)).calls = .done x := hx
  unfold dmaProcessing
  simp only [prog, runProgram, Except.ok_bind, honest, returnedClocks, Bool.false_eq_true, if_false]

theorem dmaSlice_error {f : Fault} (h : dmaProcessing E (c.enter .dma) = .error f) :
    dmaSlice E i c = .error f := by
  unfold dmaSlice
  rw [h]
  rfl

/-- The DMA step of a line whose rest is not negative: the corrected count is halved until it fits, then
rounded up, then stolen. -/
theorem dmaSlice_halves {rest : Word32} {x : Nat} {c₁ : Console} (hr : c.sched.rem = some rest)
    (h : dmaProcessing E (c.enter .dma) = .ok (x, c₁)) (ha : 0 ≤ c.budget.toInt + rest.toInt) :
    ∃ n, ((correctClocks (Config.scanlines c.type) i x / 2 ^ n : Nat) : Int) ≤
        c.budget.toInt + rest.toInt ∧
      (∀ m, m < n → c.budget.toInt + rest.toInt <
        ((correctClocks (Config.scanlines c.type) i x / 2 ^ m : Nat) : Int)) ∧
      dmaSlice E i c =
        .ok (c₁.steal (roundClocks (correctClocks (Config.scanlines c.type) i x / 2 ^ n))) := by
  have hx := (dmaProcessing_step h).2
  obtain ⟨n, hn, fits, least⟩ :=
    limitClocks_eq ha (Nat.lt_of_le_of_lt (correctClocks_le (Config.scanlines c.type) i x) hx)
  exact ⟨n, fits, least, dmaSlice_eq hr h hn⟩

/-- A raw count of 5 that fits takes 8 clocks. -/
theorem dmaSlice_five {rest : Word32} {c₁ : Console} (hr : c.sched.rem = some rest)
    (h : dmaProcessing E (c.enter .dma) = .ok (5, c₁)) (ha : 5 ≤ c.budget.toInt + rest.toInt) :
    dmaSlice E i c = .ok (c₁.steal 8) := by
  obtain ⟨n, -, least, e⟩ := dmaSlice_halves (i := i) hr h (by omega)
  have raw : correctClocks (Config.scanlines c.type) i 5 = 5 := by
    rw [correctClocks_eq, if_neg (by omega)]
  rw [raw] at least e
  have hn : n = 0 := by
    by_contra h0
    have := least 0 (by omega)
    omega
  rw [e, hn]
  rfl

theorem dmaSlice_sched (h : dmaSlice E i c = .ok d) : d.sched = { c.sched with phase := .dma } := by
  obtain ⟨x, n, c₁, h₁, rfl⟩ := dmaSlice_ok h
  exact (dmaProcessing_step h₁).1.scheduler.sched

/-! ### The cases of a scanline (43_scheduler.md R297, R298, R299, R307, R311) -/

theorem debugFails_eq_false {start : Word64} : debugFails i start c = false ↔
    c.budget.toInt ≤ 0 ∧ c.budget.toInt % 4 = 0 ∧
      (0 < i → ∃ p, c.sched.start = some p ∧ start = p + 114) := by
  have hstart : c.sched.start.map (· + BitVec.ofNat 64 Config.scanlineCycles) = some start ↔
      ∃ p, c.sched.start = some p ∧ start = p + 114 := by
    rw [Option.map_eq_some_iff]
    exact exists_congr fun p => and_congr_right fun _ => eq_comm
  have hm : (Config.m : Int) = 4 := rfl
  unfold debugFails
  rw [← hstart, hm]
  simp only [Bool.or_eq_false_iff, Bool.and_eq_false_iff, decide_eq_false_iff_not, not_not, not_lt,
    and_assoc, ne_eq, Nat.pos_iff_ne_zero, Decidable.imp_iff_not_or]

theorem scanline_debugAssert (hE : E.debugChecks = true) (h : debugFails i c.nominal c ≠ false) :
    scanline E i c = .error .debugAssert := by
  unfold scanline
  simp [hE, Bool.eq_true_of_not_eq_false h]

theorem execute_sched (h : execute E c = .ok d) : d.sched = c.sched := by
  obtain ⟨k, ran, -⟩ := execute_step h
  exact ran.sched

theorem restOfLine_jam (start : Word64) (hj : c.jammed = true) :
    restOfLine E i start c = .ok (.jammed, c.setHalt) := by
  unfold restOfLine
  rw [if_pos hj]

theorem restOfLine_preempt (start : Word64) (hj : c.jammed = false) (hp : c.preempt = true) :
    restOfLine E i start c =
      dmaProcessing E c >>= fun r => .ok (preemptEnd E, r.2.fastForward start) := by
  unfold restOfLine
  rw [if_neg (by rw [hj]; decide), if_pos hp]
  rfl

theorem restOfLine_slices (start : Word64) (hj : c.jammed = false) (hp : c.preempt = false) :
    restOfLine E i start c = dmaSlice E i c >>= secondSlice E start := by
  unfold restOfLine
  rw [if_neg (by rw [hj]; decide), if_neg (by rw [hp]; decide)]

/-- The second grant: the 428 clocks the first slice left. -/
theorem regranted_eq (hr : c.sched.rem = some 428) : (c.enter .slice2).addBudget c.lineRest =
    { c with sched := { c.sched with phase := .slice2 }, budget := c.budget + 428 } := by
  have hrest : c.lineRest = 428 := by
    unfold Console.lineRest
    rw [hr]
    rfl
  rw [hrest, addBudget_eq]
  rfl

/-! ### The two operations on a running machine (43_scheduler.md R283, R291) -/

theorem exec_mreset_of_ok (hr : s.running = some c) (h : machineReset Env.hw c = .ok d) :
    exec .mreset s = .next { s with console := some d, status := .ok } := by
  show execMreset s = _
  simp [execMreset, hr, h, complete]

theorem exec_frame_of_ok (hr : s.running = some c) (hh : c.halt = false) (hj : c.jammed = false)
    (h : runFrame Env.hw c = .ok (t, d)) :
    exec .frame s = .next { s with console := some d, status := .ok, result := t.code } := by
  show execFrame s = _
  simp [execFrame, hr, hh, hj, h, completeWith]

/-! ### Cells and the record (43_scheduler.md R283, R285, R290) -/

/-- What the bus writes of a record leave in a cell: the old byte if none stores to it, else the byte of
the last one that does. -/
theorem cellAfter_cases (c : Console) (h : Handle) (j : Nat) (l : List Call) (old : Byte) :
    (c.neverStored h j l → c.cellAfter h j l old = old) ∧
      ∀ (newer older : List Call) (x : Call) (who : Master) (addr : Nat) (v : Byte),
        l = newer ++ x :: older → x.kind = .busWrite who addr v →
        c.stores (BitVec.ofNat 16 addr) h j → c.neverStored h j newer →
        c.cellAfter h j l old = v := by
  refine ⟨cellAfter_neverStored old, ?_⟩
  rintro newer older x who addr v rfl hx hs hn
  exact cellAfter_last old hx hs hn

/-! ### `MKMACH` (43_scheduler.md R280) -/

theorem typeCodes_none {type : Nat} (h : 2 < type) : Config.typeCodes.lookup type = none := by
  rw [List.lookup_eq_none_iff]
  simp only [Config.typeCodes, List.mem_cons, List.not_mem_nil, or_false]
  rintro p (rfl | rfl | rfl) <;> simp <;> omega

theorem typeCodes_some {type : Nat} (h : type ≤ 2) :
    ∃ ty, Config.typeCodes.lookup type = some ty ∧ (ty = .bare ↔ type = 0) := by
  interval_cases type
  · exact ⟨.bare, rfl, by decide⟩
  · exact ⟨.ntsc, rfl, by decide⟩
  · exact ⟨.pal, rfl, by decide⟩

theorem mem_biosSizes {n : Nat} : n ∈ Config.biosSizes ↔ n = 4096 := by simp [Config.biosSizes]

section Mkmach

variable {type : Nat} {ty : MachType} {useCart hasBios : Bool}

/-- A `MKMACH` that passes its tests answers the machine it builds. -/
theorem execMkmach_built (ht : Config.typeCodes.lookup type = some ty)
    (hcart : useCart = true → s.stage ≠ none)
    (hbios : hasBios = true → ty ≠ .bare ∧ s.romPort.length = 4096)
    (hc : buildMachine Env.hw ty (if useCart then s.stage else none)
      (if hasBios then some s.romPort else none) s.calls = .ok c) :
    exec (.mkmach type useCart hasBios) s = .next
      { s with console := some c, stage := if useCart then none else s.stage, status := .ok } := by
  show execMkmach type useCart hasBios s = _
  unfold execMkmach
  simp only [ht]
  rw [if_neg fun h => hcart h.1 h.2, if_neg fun h => (hbios h.1).1 h.2,
    if_neg fun h => h.2 (mem_biosSizes.mpr (hbios h.1).2), hc]
  rfl

theorem State.Inv.askedCart (hs : s.Inv) {k : Cart}
    (hk : (if useCart then s.stage else none) = some k) : k.Ok Env.hw := by
  cases useCart
  · cases hk
  · exact (hs.stage k hk).1

theorem askedBios_isSome : (if hasBios then some s.romPort else none).isSome = hasBios := by
  cases hasBios <;> rfl

theorem askedBios_size (hlen : hasBios = true → s.romPort.length = 4096) {img : Bytes}
    (himg : (if hasBios then some s.romPort else none) = some img) :
    img.length ∈ Config.biosSizes := by
  cases hasBios
  · cases himg
  · cases himg
    exact mem_biosSizes.mpr (hlen rfl)

end Mkmach

/-! ### The constructed machine (43_scheduler.md R280, R282) -/

section Construction

variable {type : MachType} {cart : Option Cart} {bios : Option Bytes}

/-- Construction leaves the cart slot as it was built, but for the cart's attachment, which touches
neither its constants nor its overlay (41_cart_family.md R186). -/
theorem MachineFacts.built (f : MachineFacts E type cart bios c) (h : Handle) :
    (c.device h).constants = (builtDevice cart bios h).constants ∧
      ∀ j, (c.device h).cell j = (builtDevice cart bios h).cell j := by
  by_cases h1 : h = 1
  · subst h1
    cases hcart : cart with
    | none =>
      rw [f.noCart hcart]
      exact ⟨rfl, fun _ => rfl⟩
    | some k =>
      obtain ⟨k', hk', att, -⟩ := f.device1 k hcart
      rw [hk']
      refine ⟨?_, fun j => ?_⟩
      · show Device.cart _ = Device.cart _
        rw [att.tag, att.rom, att.attached]
      · show k'.ram.read j = k.ram.read j
        rw [att.ram]
  · rw [f.device_eq h1]
    exact ⟨rfl, fun _ => rfl⟩

/-- The cart of a machine whose construction made no bus access (41_cart_family.md R183, R186). -/
theorem MachineFacts.attachedCart (f : MachineFacts E type cart bios c) {k : Cart} (hk : cart = some k)
    (hok : k.Ok E) : ∃ chip : Option Bytes,
      c.device 1 = .cart
        { k with
          attached := true
          chip := chip
          df := k.df.map fun d => { d with last := 0 } } ∧
      chip.isSome = decide (k.tag = .c16kp) := by
  obtain ⟨k', hk', att, hok'⟩ := f.device1 k hk
  refine ⟨k'.chip, hk'.trans (congrArg Device.cart (att.eq hok)), ?_⟩
  have hchip : k'.variant.chip = _ := chip_eq k'.tag
  rw [(hok' hok).chipThere, att.attached, hchip, att.tag]
  by_cases ht : k.tag = .c16kp
  · simp [ht]
  · simp [ht]

/-- What the record gains in construction: the cart's chip, `CPU.Create`, `DMA.Create`. -/
theorem giveChips_calls (hreal : type ≠ .bare)
    (hbios : ∀ img, bios = some img → img.length ∈ Config.biosSizes) (calls : List Call) :
    (giveChips E (hull E type cart bios calls)).calls =
      firstEntry (.dma .create) :: firstEntry (.cpu .create) ::
        ((if cart.map Cart.tag = some .c16kp then [firstEntry (.chip 1 .create)] else []) ++
          calls) := by
  have regs := (machine_facts (E := E) hreal cart bios hbios calls).registers
  have hlbv : (hull E type cart bios calls).lbv = 0 := regs.lbv
  have hclock : (hull E type cart bios calls).clock = 0 := regs.clock
  rw [← hull_calls hreal cart bios hbios calls]
  unfold firstEntry
  rw [← hlbv, ← hclock]
  rfl

/-- Construction of a real machine ends with `DMA.Create`, the only part that may use the bus
(log 19). -/
theorem construct_eq (hreal : type ≠ .bare) (calls : List Call) :
    construct E type cart bios calls = dmaProgram E (giveChips E (hull E type cart bios calls)) := by
  cases type
  · exact absurd rfl hreal
  · rfl
  · rfl

end Construction

end SchedulerFamily

/-! ### The statements -/

/-- Settles O44: an `Execute` is a run of instructions, each of which moves budget and clock alike. -/
theorem executeKeepsTheAccounts : Obligations.ExecuteKeepsTheAccounts := by
  intro E c d h
  obtain ⟨k, ran, -, noBudget, -, flags, -⟩ := execute_step h
  exact ⟨⟨k, ran.clock, ran.budget, fun h0 => ⟨noBudget (.inl h0), (flags h0).2⟩⟩, ran.nominal,
    execute_overrun h, execute_ends h, ran.halt, ran.frame, ran.sched⟩

/-- Settles O46, by the line's account. -/
theorem scanlineAdvancesTheNominalClock : Obligations.ScanlineAdvancesTheNominalClock := by
  intro E i c d t h _ hmod hlow hhigh
  have line := scanline_step h ⟨hmod, hlow, hhigh⟩
  by_cases ht : t = .jammed
  · obtain ⟨hj, hh, dmod, dlow, dhigh⟩ := line.jam ht
    exact ⟨line.frame, dmod, dlow, fun hne => absurd ht hne, fun _ => ⟨hj, hh, dhigh⟩⟩
  · obtain ⟨hj, hh, ⟨dmod, dlow, dhigh⟩, hn⟩ := line.goes ht
    exact ⟨line.frame, dmod, dlow, fun _ => ⟨hn, dhigh, hj, hh⟩, fun he => absurd he ht⟩

/-- Settles O47: a line that goes on has no preempt request left, one that jams is jammed. -/
theorem preemptFastForwardsTheLine : Obligations.PreemptFastForwardsTheLine := by
  intro E i c d t hE h _ hmod hlow hhigh
  have line := scanline_step h ⟨hmod, hlow, hhigh⟩
  refine ⟨⟨fun ht => ?_, fun ⟨hj, hp⟩ => ?_⟩, fun ht => (line.early ht).2⟩
  · exact ⟨(line.goes (by rw [ht]; decide)).1, (line.early ht).1⟩
  · cases t with
    | goOn => exact absurd (hp.symm.trans (line.full hE rfl)) (by decide)
    | jammed => exact absurd (hj.symm.trans (line.jam rfl).1) (by decide)
    | preempted => rfl

/-- Settles O48: neither `Execute` of a line makes a DMA step, and the rest of a line makes one unless
the first slice jammed. -/
theorem oneDmaStepPerScanline : Obligations.OneDmaStepPerScanline := by
  intro E i c d t h
  obtain ⟨c₁, h₁, h⟩ := scanline_ok h
  refine ⟨c₁, h₁, ?_⟩
  rw [firstSlice_eq] at h₁
  rw [restOfLine_dmaSteps h, execute_dmaSteps h₁]
  rfl

/-- Settles O49: the machine stays, takes a step that leaves the scheduler alone, or runs a frame, whose
halt flag follows its end. -/
theorem haltIsSetOnlyByAJam : Obligations.HaltIsSetOnlyByAJam := by
  intro i s t c hi hr h
  obtain ⟨ht, noop⟩ | ⟨d, ht, step, hne⟩ | ⟨rfl, hh, hj, u, d, hd, rfl⟩ := running_next hr hi h
  · refine ⟨c, ht, id, fun hh => ?_, .inl⟩
    rw [hh]
    refine ⟨fun e => (nomatch e), fun ⟨hf, h2⟩ => ?_⟩
    exact absurd ((noop hf).2.symm.trans h2) (by decide)
  · have hhalt := step.scheduler.halt
    refine ⟨d, ht, hhalt.trans, fun hh => ?_, fun e => .inl (hhalt.symm.trans e)⟩
    rw [hhalt, hh]
    exact ⟨fun e => (nomatch e), fun hf => absurd hf.1 hne⟩
  · have frame := runFrame_ending hd
    refine ⟨d, State.running_of_honest hr frame.machine.honest rfl, fun e => ?_, fun _ => ?_,
      fun e => ?_⟩
    · exact absurd (hh.symm.trans e) (by decide)
    · simp only [frame.halt_iff hh, true_and]
      exact LineEnd.code_eq_two.symm
    · exact .inr (frame.jam ((frame.halt_iff hh).mp e)).1

/-- Settles O50: a frame of a well-formed machine does not fail, and its record has the hooks first and
last. -/
theorem frameCompletes : Obligations.FrameCompletes := by
  refine ⟨fun s c hs hr hh hj hhonest => ?_, fun E c d t h => runFrame_hooks h⟩
  obtain ⟨ok, ch, -, run⟩ := hs.runOk hr
  have hcarry := ok.carry.carry hj
  obtain ⟨⟨t, d⟩, h⟩ := runFrame_total (E := Env.hw) rfl ok.wired run.attached hhonest hcarry hj
  have frame := runFrame_step h hcarry hj
  exact ⟨t, d, t.code, h, exec_frame_of_ok hr hh hj h, by cases t <;> rfl, frame.frame,
    frame.machine.topology, frame.sched⟩

/-- Settles O51, by the frame's account: each line moves the nominal clock by 114. -/
theorem wholeFrameAdvancesTheClock : Obligations.WholeFrameAdvancesTheClock := by
  intro E c d hreal hj hmod hlow hhigh h
  have frame := runFrame_step h ⟨hmod, hlow, hhigh⟩ hj
  have hn : d.nominal = c.nominal + if c.type = .ntsc then 29868 else 35568 := by
    rw [frame.nominal rfl, scanlines_eq hreal]
    split <;> rfl
  obtain ⟨hj', hh⟩ := frame.goes (by decide)
  refine ⟨hn, fun hb => ?_, frame.frame, hh, hj'⟩
  unfold Console.nominal at hn
  rw [hb] at hn
  generalize BitVec.ofInt 64 _ = carry at hn
  generalize (if c.type = .ntsc then 29868 else 35568 : Word64) = lines at hn ⊢
  exact (BitVec.add_left_inj carry).mp (by rw [hn]; ac_rfl)

/-- Settles O52: both commands look at the halt flag, and `FRAME` at the jam flag, before anything
else. -/
theorem pollAndHaltedFrameChangeNothing : Obligations.PollAndHaltedFrameChangeNothing := by
  refine ⟨fun s hs => ?_, fun s c hr => ⟨?_, fun h => ?_⟩⟩
  · have hnone : s.running = none := State.running_eq_none.mpr hs
    show execPoll s = _
    simp [execPoll, hnone, raise]
  · show execPoll s = _
    simp [execPoll, hr, completeWith, bit]
  · show execFrame s = _
    simp [execFrame, hr, h, completeWith, haltedCode]

/-- Settles O32: each operation leaves in a cell what the bus writes it records leave there. -/
theorem cellsChangeOnlyByBusWrites : Obligations.CellsChangeOnlyByBusWrites := by
  refine ⟨fun E c d t new h hnew => ?_,
    fun s c d hr => ⟨exec_mreset_of_ok hr, fun t hh hj => exec_frame_of_ok hr hh hj⟩⟩
  have records : Records E (fun _ => True) c d := h.elim runFrame_records machineReset_records
  obtain ⟨l, hl, -, quiet, cells⟩ := records.calls
  obtain rfl : new = l := List.append_cancel_right (hnew.symm.trans hl)
  refine ⟨quiet, fun hw h j => ?_⟩
  rw [cells hw h j]
  exact cellAfter_cases c h j new _

/-- Settles O54: a machine reset of a well-formed machine does not fail, leaves topology and scheduler,
and makes its calls in order. -/
theorem mresetLeavesTheAccounts : Obligations.MresetLeavesTheAccounts := by
  refine ⟨fun s c hs hr => ?_, fun E c d ch ok hch h => ?_⟩
  · obtain ⟨ok, ch, -, run⟩ := hs.runOk hr
    obtain ⟨d, h⟩ := machineReset_total ok.wired run.ready
    have step := machineReset_step h
    exact ⟨d, h, exec_mreset_of_ok hr h,
      Console.phase_of_honest step.honest (State.running_eq_some.mp hr).2, step.topology,
      step.scheduler⟩
  · obtain ⟨cpuBus, dmaBus, v, hcalls, hcpu, hdma, silent⟩ := machineReset_entries ok.wired h
    rw [(ok.running ch hch).resetCalls ok.wired] at hcalls
    exact ⟨cpuBus, dmaBus, v, hcalls, hcpu, hdma, silent⟩

/-- Settles O14: the tests stand in this order. -/
theorem mkmachTestsInOrder : Obligations.MkmachTestsInOrder := by
  intro s type useCart hasBios
  refine ⟨fun h => ?_, fun h hc hn => ?_, fun h hc hb h0 => ?_, fun h hc hb h0 hlen => ?_⟩
  · show execMkmach type useCart hasBios s = _
    simp only [execMkmach, typeCodes_none h, raise]
  all_goals
    obtain ⟨ty, hty, hbare⟩ := typeCodes_some h
    show execMkmach type useCart hasBios s = _
    simp only [execMkmach, hty, raise]
  · rw [if_pos ⟨hc, hn⟩]
  · rw [if_neg fun h => hc h.1 h.2, if_pos ⟨hb, hbare.mpr h0⟩]
  · rw [if_neg fun h => hc h.1 h.2, if_neg fun h => h0 (hbare.mp h.2),
      if_pos ⟨hb, mt mem_biosSizes.mp hlen⟩]

/-- Settles O15: the bench is a fresh console with the staged cart in its slot. -/
theorem mkmachBareMakesABench : Obligations.MkmachBareMakesABench := by
  intro s useCart hcart
  generalize hcartEq : (if useCart then s.stage else none) = cart
  have regs := placed_registers .bare false s.calls cart
  have eq := placed_eq .bare false s.calls cart
  refine ⟨placeCart cart (freshConsole .bare false s.calls),
    execMkmach_built rfl hcart (fun h => absurd h Bool.false_ne_true) (by rw [hcartEq]; rfl),
    Console.phase_bench.mpr (fresh_chips .bare false s.calls cart), regs.type, regs.hasBios, regs.halt,
    regs.frame, regs.clock, regs.budget, regs.jammed, regs.preempt, regs.sched, regs.lbv,
    by rw [eq]; rfl, fun p _ => ?_, by rw [eq]; rfl, placed_device .bare false s.calls cart⟩
  rw [eq]
  exact fresh_pageAt .bare false s.calls p

/-- Settles O16: the parts are legal, so construction and the machine reset do not fail, and from the
built devices they go by bus accesses only, each of which stands in the record. -/
theorem mkmachMakesTheMachine : Obligations.MkmachMakesTheMachine := by
  refine ⟨fun s type useCart hasBios hs htype hcart hbios => ?_,
    fun E type cart bios calls c hreal hcart hbios h => ?_⟩
  · generalize hty : (if type = 1 then MachType.ntsc else .pal) = ty
    have hreal : ty ≠ .bare := by rw [← hty]; split <;> decide
    have hlookup : Config.typeCodes.lookup type = some ty := by
      subst hty; rcases htype with rfl | rfl <;> rfl
    have biosOk := fun img => askedBios_size hbios (img := img)
    obtain ⟨c, built⟩ := buildMachine_total (fun k => hs.askedCart) (fun _ => biosOk) s.calls
    obtain ⟨c₀, h₀, -, reset⟩ := buildMachine_cases built
    have facts := machine_facts (E := Env.hw) hreal (if useCart then s.stage else none) _ biosOk s.calls
    have step := buildMachine_real hreal built
    have regs := facts.registers
    have sch := step.scheduler
    have top := step.topology
    refine ⟨c, execMkmach_built hlookup hcart (fun h => ⟨hreal, hbios h⟩) built,
      ⟨c₀, h₀, reset hreal⟩,
      Console.phase_of_honest step.honest (Console.phase_run.mpr facts.chips), top.type.trans regs.type,
      top.hasBios.trans (regs.hasBios.trans askedBios_isSome), sch.halt.trans regs.halt,
      sch.frame.trans regs.frame, sch.clock.trans regs.clock, sch.budget.trans regs.budget,
      sch.jammed.trans regs.jammed, sch.preempt.trans regs.preempt, sch.sched.trans regs.sched,
      fun h => (top.devices h).trans (facts.built h).1, fun p hp => ?_, top.snooper.trans facts.snooper⟩
    rw [Console.pageAt_congr top.page, facts.pages p hp, askedBios_isSome]
  · have biosOk : ∀ img, bios = some img → img.length ∈ Config.biosSizes :=
      fun img himg => mem_biosSizes.mpr (hbios img himg)
    have facts := machine_facts (E := E) hreal cart bios biosOk calls
    have cartOk := fun k hk => (hcart k hk).1
    have wired := (facts.ok hreal cartOk biosOk).wired
    have top := (construct_step hreal h).touched.topology
    obtain ⟨dmaBus, hcalls, hbus, cells, silent⟩ := dmaProgram_entries (construct_eq hreal calls ▸ h)
    refine ⟨dmaBus, hcalls.trans (by rw [giveChips_calls hreal biosOk]), hbus, ?_, fun g j => ?_,
      fun hnil => ?_⟩
    · simp only [List.mem_cons, List.not_mem_nil, or_false]
      rintro h (rfl | rfl) j <;> rfl
    · rw [cells wired g j, ← cellAfter_congr top, (facts.built g).2 j]
      exact cellAfter_cases c g j dmaBus _
    · obtain ⟨hdev, hlbv, -⟩ := silent hnil
      have hd := Console.device_congr hdev
      exact ⟨hlbv.trans facts.registers.lbv, fun g hg => (hd g).trans (facts.device_eq hg),
        fun hn => (hd 1).trans (facts.noCart hn), fun k hk => by
          rw [hd 1]; exact facts.attachedCart hk (cartOk k hk)⟩

/-- Settles O45: the arithmetic of the count, the DMA step that applies it, the parts of a scanline and
the lines of a frame. -/
theorem dmaCountArithmetic : Obligations.DmaCountArithmetic := by
  refine ⟨correctClocks_eq, fun avail d => limitClocks_eq, fun d => ?_, fun E c x hfree hx => ?_,
    fun E i c rest hr => ⟨fun f => dmaSlice_error, fun c₁ x h => ?_⟩, fun E i c => ?_,
    fun E c d t hreal h => ?_⟩
  · obtain ⟨h4, hle, hlt⟩ := roundClocks_facts d
    exact ⟨Nat.dvd_of_mod_eq_zero h4, hle, hlt⟩
  · rw [dmaProcessing_done hfree hx]
    exact ⟨fun hneg => if_pos hneg, fun h0 => ⟨_, if_neg (by omega)⟩⟩
  · have q := (dmaProcessing_step h).1.scheduler
    refine ⟨q.clock, q.budget, fun hreal ha => ?_, fun h5 ha => ?_⟩
    · obtain ⟨n, fits, least, e⟩ := dmaSlice_halves (i := i) hr h ha
      rw [scanlines_eq hreal] at fits least e
      rw [steal_eq] at e
      exact ⟨n, fits, least, e⟩
    · subst h5
      exact (dmaSlice_five hr h ha).trans (congrArg Except.ok (steal_eq c₁ 8))
  · refine ⟨fun hE hs => scanline_debugAssert hE (mt debugFails_eq_false.mp hs), fun hs => ?_⟩
    have pass : (E.debugChecks && debugFails i c.nominal c) = false :=
      Bool.and_eq_false_iff.mpr (hs.imp id debugFails_eq_false.mpr)
    rw [scanline_eq pass, firstSlice_eq]
    refine ⟨fun f h => by rw [h]; rfl, fun c₁ h₁ => ?_⟩
    have hsched := execute_sched h₁
    rw [h₁, Except.ok_bind]
    refine ⟨hsched, restOfLine_jam _, fun hj hp => ?_, fun hj hp => ?_⟩
    · rw [restOfLine_preempt _ hj hp]
      exact ⟨fun f h => by rw [h]; rfl, fun x c₂ h => by rw [h]; rfl⟩
    · rw [restOfLine_slices _ hj hp]
      refine ⟨fun f h => by rw [h]; rfl, fun c₂ h₂ => ?_⟩
      have hsched₂ : c₂.sched = { c₁.sched with phase := .dma } := dmaSlice_sched h₂
      rw [hsched] at hsched₂
      rw [h₂, Except.ok_bind, secondSlice_eq, regranted_eq (by rw [hsched₂]), hsched₂]
      exact ⟨fun f h => by rw [h]; rfl, fun c₃ h => by rw [h]; rfl⟩
  · obtain ⟨first, lines, last, h₁, h₂, h₃, rfl⟩ := runFrame_ok h
    rw [scanlines_eq hreal] at h₂
    obtain ⟨n, line, hn, h0, goes, ends, full, rfl⟩ := frameLines_trace _ 0 (by split <;> decide) h₂
    simp only [Nat.zero_add] at goes ends
    exact ⟨n, line, first, last, hn, h₁, h0, goes, ends, full, h₃, rfl⟩

end Sys2Proof.Machine

/-! The serializer (44_serializer.md): the tokens (O59, O60), the objects (O60), what `SAVE` writes (O56,
O57) and what `RESTORE` builds (O55, O58). -/

namespace Sys2Proof.Machine

section SerializerFamily

variable {E : Env} {s : State} {c d : Console} {ch dh : Chips} {bs rest : Bytes} {e : Status}

/-! ### A machine is determined by its record (44_serializer.md R355, R371, R374) -/

theorem Console.dev_ext (h : ∀ g, d.device g = c.device g) : d.dev = c.dev := by
  ext i hi
  have hg : (BitVec.ofNat 8 i : Handle).toNat = i := Nat.mod_eq_of_lt hi
  have := h (BitVec.ofNat 8 i)
  unfold Console.device at this
  simpa only [hg] using this

theorem Console.page_ext (h : ∀ p, p < 1024 → d.pageAt p = c.pageAt p) : d.page = c.page := by
  ext1 p hp
  have := h p hp
  unfold Console.pageAt at this
  simpa only [Vector.getElem?_eq_getElem hp, Option.getD_some] using this

/-- A bank of a machine is the storage of its image (R357). -/
theorem Console.Ok.bank_ofBytes (h : c.Ok E) (hr : c.RunOk E ch) {g : Handle}
    (hg : g ∈ Config.ramBanks) :
    .ram Config.ramBankSize (Memory.ofBytes (c.bankImage g)) = c.device g := by
  obtain ⟨mem, hmem⟩ := hr.banks g hg
  have hok := h.wired.devices g
  unfold Console.bankImage
  rw [hmem] at hok ⊢
  exact congrArg _ (Memory.ofBytes_toBytes hok.2)

/-- The BIOS image is the one in `DEV[6]` (R358). -/
theorem Console.RunOk.biosImage (hr : c.RunOk E ch) :
    biosDevice c.biosImage = c.device 6 ∧ c.biosImage.isSome = c.hasBios := by
  unfold Console.biosImage
  cases hb : c.hasBios with
  | false => exact ⟨(hr.noBios hb).symm, rfl⟩
  | true =>
    obtain ⟨img, himg, -⟩ := hr.bios hb
    rw [himg]
    exact ⟨himg.symm, rfl⟩

/-- The cart slot is empty or holds the saved cart. -/
theorem recordOf_device_cart (h : c.Wired E) (ch : Chips) :
    (recordOf c ch).device 1 = c.device 1 := by
  have hslot := h.cartSlot
  show (match c.cart? with | some k => Device.cart k | none => .absent) = c.device 1
  unfold Console.cart? cartHandle
  cases hd : c.device 1 <;> rw [hd] at hslot <;> simp [Device.kind] at hslot ⊢

/-- A saved machine has the devices its record says (R374). -/
theorem recordOf_device (h : c.Ok E) (hch : c.chips = some ch) (g : Handle) :
    (recordOf c ch).device g = c.device g := by
  have hr := h.running ch hch
  rcases handle_cases g with rfl | rfl | rfl | rfl | rfl | rfl | rfl | hg
  · exact h.wired.nullDevice.symm
  · exact recordOf_device_cart h.wired ch
  · exact h.bank_ofBytes hr (by decide)
  · exact h.bank_ofBytes hr (by decide)
  · exact hr.adapters.1.symm
  · exact hr.adapters.2.symm
  · exact hr.biosImage.1
  · rw [(recordOf c ch).device_other hg, hr.others g hg]

/-- The machine restored from a saved one's record has its device table, page table and snooper: they
follow from the record (R355). -/
theorem Restored.tables (h : c.Ok E) (hch : c.chips = some ch) (hd : Restored (recordOf c ch) d) :
    d.dev = c.dev ∧ d.page = c.page ∧ d.snooper = c.snooper ∧ d.hasBios = c.hasBios := by
  have hr := h.running ch hch
  have hbios : (recordOf c ch).bios.isSome = c.hasBios := hr.biosImage.2
  refine ⟨Console.dev_ext fun g => (hd.device g).trans (recordOf_device h hch g),
    Console.page_ext fun p hp => ?_, hd.snooper.trans hr.snoops.symm, hd.hasBios.trans hbios⟩
  rw [hd.page p hp, hr.topology p hp, hbios]
  rfl

/-- The machine restored from a saved one's record has its scheduler's registers (R371). -/
theorem Restored.scheduler (h : c.Ok E) (hd : Restored (recordOf c ch) d) : c.SameScheduler d :=
  ⟨hd.halt, hd.frame, hd.clock, hd.budget, hd.jammed, hd.preempt, hd.sched.trans h.idle.symm⟩

/-! ### `SAVE` and `RESTORE` (44_serializer.md R370, R371) -/

/-- The bytes `SAVE` writes are a function of what the grammar names. -/
theorem putRoot_congr (hdev : d.dev = c.dev) (htype : d.type = c.type) (hbios : d.hasBios = c.hasBios)
    (hlbv : d.lbv = c.lbv) (hs : c.SameScheduler d) (hcpu : dh.cpu = ch.cpu) (hdma : dh.dma = ch.dma)
    (hinput : dh.input = ch.input) : putRoot d dh = putRoot c ch := by
  have device := Console.device_congr hdev
  have banks : d.bankImage = c.bankImage := by
    funext g
    unfold Console.bankImage
    rw [device g]
  have bios : d.biosImage = c.biosImage := by
    unfold Console.biosImage
    rw [hbios, device]
  have cart : d.cart? = c.cart? := by
    unfold Console.cart?
    rw [device]
  unfold putRoot putCpu
  rw [banks, bios, cart, htype, hlbv, hcpu, hdma, hinput, hs.halt, hs.frame, hs.clock, hs.budget,
    hs.jammed, hs.preempt]

theorem exec_save_of_chips (hc : s.console = some c) (hch : c.chips = some ch) :
    exec .save s = .next { s with sout := putRoot c ch, status := .ok } := by
  show execSave s = _
  unfold execSave
  rw [hc]
  simp only [hch, complete_eq]

theorem State.running_chips (hr : s.running = some c) : s.console = some c ∧ ∃ ch, c.chips = some ch :=
  (State.running_eq_some.mp hr).imp_right Console.phase_run.mp

theorem exec_restore_of_error (h : parseStream Env.hw s.sin = .error e) :
    exec .restore s = .next { s with status := e } := by
  show execRestore s = _
  unfold execRestore
  rw [h]
  rfl

theorem parseStream_of_error (h : getRoot E bs = .error e) : parseStream E bs = .error e := by
  unfold parseStream
  rw [h]

theorem parseStream_of_trailing {r : Root} {b : Byte} (h : getRoot E bs = .ok (r, b :: rest)) :
    parseStream E bs = .error .trailingData := by
  unfold parseStream
  rw [h]

/-! ### Readers that fail -/

theorem Reader.bind_error {α β : Type} {g : Reader α} (f : α → Reader β) (h : g bs = .error e) :
    (g >>= f) bs = .error e := by
  rw [Reader.bind_apply, h]
  rfl

/-- A reader that fails after a part that is read. -/
theorem Reads.error {α β : Type} {g : Reader α} {f : α → Reader β} {p : Bytes} {x : α}
    (hg : Reads g p x) (h : f x rest = .error e) : (g >>= f) (p ++ rest) = .error e :=
  (hg.next f rest).trans h

theorem ensure_bind_error {β : Type} {b : Bool} {f : Unit → Reader β} (h : b = false) :
    (ensure b e >>= f) bs = .error e := by
  rw [ensure_bind, h]
  rfl

theorem ensure_bind_of {β : Type} {b : Bool} {f : Unit → Reader β} (h : b = true) :
    (ensure b e >>= f) bs = f () bs := by
  rw [ensure_bind, if_pos h]

/-- An object of a row that fails, after those that are read. -/
theorem getMany_error {α : Type} {get : Reader α} {put : α → Bytes} (h : get rest = .error e) :
    ∀ (xs : List α) (m : Nat), (∀ x ∈ xs, Reads get (put x) x) → xs.length < m →
      getMany get m (xs.flatMap put ++ rest) = .error e
  | [], m + 1, _, _ => Reader.bind_error _ h
  | x :: xs, m + 1, hx, hm => by
    rw [List.flatMap_cons, List.append_assoc]
    exact (hx x List.mem_cons_self).error (Reader.bind_error _
      (getMany_error h xs m (fun y hy => hx y (List.mem_cons_of_mem x hy)) (Nat.lt_of_succ_lt_succ hm)))

/-! ### Integers (44_serializer.md R341) -/

theorem putInt_getElem? (n v : Nat) {i : Nat} (hi : i < n) :
    (putInt n v)[i]? = some (BitVec.ofNat 8 (v / 256 ^ i)) := by
  induction n generalizing v i with
  | zero => exact absurd hi (Nat.not_lt_zero i)
  | succ n ih =>
    cases i with
    | zero =>
      have : BitVec.ofNat 8 (v % 256) = BitVec.ofNat 8 v :=
        BitVec.eq_of_toNat_eq (by simp)
      simp [putInt, this]
    | succ i =>
      rw [putInt, List.getElem?_cons_succ, ih _ (Nat.lt_of_succ_lt_succ hi), Nat.div_div_eq_div_mul,
        ← Nat.pow_succ']

/-! ### The tests of the tokens (44_serializer.md R343, R348 to R351) -/

/-- A length: its sign, then the cap (R349). -/
theorem getLength_putU32 (n : Word32) (rest : Bytes) : getLength (putU32 n ++ rest) =
    if n.toInt < 0 then .error .badLength
    else if 262144 < n.toNat then .error .overCap
    else .ok (n.toNat, rest) := by
  unfold getLength
  rw [(reads_u32 n).next, ensure_bind, ensure_bind]
  simp only [Config.maxBytes, decide_eq_true_eq, ← not_lt (a := n.toInt), ← not_lt (b := n.toNat),
    ite_not]
  rfl

theorem toInt_nonneg_of_le {n : Word32} (h : n.toNat ≤ 262144) : 0 ≤ n.toInt := by
  rw [BitVec.toInt_eq_toNat_of_lt (by omega)]
  omega

theorem getLength_of_le {n : Word32} (h : n.toNat ≤ 262144) (rest : Bytes) :
    getLength (putU32 n ++ rest) = .ok (n.toNat, rest) := by
  rw [getLength_putU32, if_neg (not_lt.mpr (toInt_nonneg_of_le h)), if_neg (not_lt.mpr h)]

theorem getBytes_of_le {n : Word32} (h : n.toNat ≤ 262144) (rest : Bytes) :
    getBytes (putU32 n ++ rest) = getRaw n.toNat rest := by
  unfold getBytes
  rw [Reader.bind_apply, getLength_of_le h]
  rfl

theorem getBytesOf_of_le {n : Word32} (h : n.toNat ≤ 262144) (allowed : List Nat) (rest : Bytes) :
    getBytesOf allowed (putU32 n ++ rest) =
      if n.toNat ∈ allowed then getRaw n.toNat rest else .error .badLength := by
  unfold getBytesOf
  rw [Reader.bind_apply, getLength_of_le h, Except.ok_bind, ensure_bind]
  exact if_congr decide_eq_true_iff rfl rfl

theorem getRaw_of_lt {n : Nat} (h : rest.length < n) : getRaw n rest = .error .truncated := if_pos h

theorem getRaw_of_le {n : Nat} (h : n ≤ rest.length) :
    getRaw n rest = .ok (rest.take n, rest.drop n) := if_neg (not_lt.mpr h)

/-- The first word of a header is another than the magic (R351). -/
theorem getHeader_badMagic (cls : Config.StreamClass) {m : Word32} (hm : m ≠ 0x78000087)
    (rest : Bytes) : getHeader cls (putU32 m ++ rest) = .error .badMagic := by
  have read : Reads (getInt 4) (putU32 m) m.toNat := reads_int m.isLt
  exact read.error (ensure_bind_error (decide_eq_false fun h => hm (BitVec.eq_of_toNat_eq h)))

/-- A header's version is tested after its magic (R351). -/
theorem getHeader_magic (cls : Config.StreamClass) (v : Word32) (rest : Bytes) :
    getHeader cls (putU32 0x78000087 ++ (putU32 v ++ rest)) =
      if v = 1 then .ok ((), rest) else .error .badVersion := by
  have read : Reads (getInt 4) (putU32 0x78000087) Config.magic := reads_int (by decide)
  have versions : v.toInt ∈ Config.versions cls ↔ v = 1 := by
    cases cls <;> exact List.mem_singleton.trans (BitVec.toInt_inj (y := 1))
  unfold getHeader
  rw [read.next, ensure_bind_of (decide_eq_true rfl), (reads_u32 v).next]
  unfold ensure
  by_cases h : v = 1
  · rw [if_pos (decide_eq_true (versions.mpr h)), if_pos h]
    rfl
  · rw [if_neg (by simpa only [decide_eq_true_eq] using mt versions.mp h), if_neg h]
    rfl

theorem getBool_cons (b : Byte) (rest : Bytes) : getBool (b :: rest) =
    if b = 0 then .ok (false, rest) else if b = 1 then .ok (true, rest) else .error .badBool := by
  have h : getBool (putU8 b ++ rest) = _ := (reads_u8 b).next _ rest
  rw [show b :: rest = putU8 b ++ rest from rfl, h]
  split
  · rfl
  · split <;> rfl

theorem allPrintable_iff {text : Bytes} :
    text.all printable = true ↔ ∀ b ∈ text, 0x20 ≤ b.toNat ∧ b.toNat ≤ 0x7E := by
  simp only [List.all_eq_true, printable, decide_eq_true_eq]

/-- A text: its length, the bytes there are, their range (R348, log 18). -/
theorem getStr_cons (n : Byte) (rest : Bytes) : getStr (n :: rest) =
    if n = 0 ∨ 64 < n.toNat then .error .badString
    else if rest.length < n.toNat then .error .truncated
    else if ∀ b ∈ rest.take n.toNat, 0x20 ≤ b.toNat ∧ b.toNat ≤ 0x7E then
      .ok (rest.take n.toNat, rest.drop n.toNat)
    else .error .badString := by
  have zero : n = 0 ↔ n.toNat = 0 := BitVec.toNat_inj.symm
  have counted : 1 ≤ n.toNat ∧ n.toNat ≤ Config.maxStringLength ↔ ¬(n = 0 ∨ 64 < n.toNat) := by
    rw [show Config.maxStringLength = 64 from rfl, zero]
    omega
  unfold getStr
  rw [show n :: rest = putU8 n ++ rest from rfl, (reads_u8 n).next]
  by_cases hn : n = 0 ∨ 64 < n.toNat
  · rw [if_pos hn]
    exact ensure_bind_error (decide_eq_false fun h => counted.mp h hn)
  rw [if_neg hn, ensure_bind_of (decide_eq_true (counted.mpr hn))]
  by_cases hr : rest.length < n.toNat
  · rw [if_pos hr]
    exact Reader.bind_error _ (getRaw_of_lt hr)
  · rw [if_neg hr, Reader.bind_apply, getRaw_of_le (not_lt.mp hr), Except.ok_bind, ensure_bind]
    exact if_congr allPrintable_iff rfl rfl

/-! ### Discriminants (44_serializer.md R353, R359) -/

/-- A text that is no name of the table. -/
theorem getNamed_badDiscriminant {α : Type} {names : List (Bytes × α)} {text : Bytes}
    (h1 : 1 ≤ text.length) (h2 : text.length ≤ 64)
    (h3 : ∀ b ∈ text, 0x20 ≤ b.toNat ∧ b.toNat ≤ 0x7E) (h : ∀ p ∈ names, text ≠ p.1) :
    getNamed names (layoutText text ++ rest) = .error .badDiscriminant := by
  have hnone : names.lookup text = none :=
    List.lookup_eq_none_iff.mpr fun p hp => by simpa using h p hp
  refine (reads_str h1 h2 (allPrintable_iff.mpr h3)).error ?_
  simp only [hnone]
  rfl

theorem reads_tagText (tag : CartTag) : Reads (getNamed Config.cartNames) (layoutText (tagText tag)) tag :=
  cartName_eq tag ▸ reads_cartName tag

theorem reads_typeText {type : MachType} (h : type ≠ .bare) :
    Reads (getNamed Config.typeNames) (layoutText (typeText type)) type :=
  typeName_eq type ▸ reads_typeName h

theorem reads_layoutHeader (cls : Config.StreamClass) : Reads (getHeader cls) layoutHeader () :=
  putHeader_eq cls ▸ reads_header cls

theorem reads_layoutFlag (b : Bool) : Reads getBool (layoutFlag b) b :=
  putBool_eq b ▸ reads_bool b

/-! ### `CPUOBJ` (44_serializer.md R354) -/

/-- The whole object is read, then the budget is tested. -/
theorem getCpu_layoutCpu (r : CpuRecord) (rest : Bytes) : getCpu (layoutCpu r ++ rest) =
    if budgetLegal r.budget r.jammed = true then .ok (r, rest) else .error .badValue := by
  have regs : Reads (getBytesOf [Config.cpuRegBytes]) (layoutBytes r.regs.regs.toList)
      r.regs.regs.toList :=
    reads_bytesOf (by rw [Vector.length_toList]; decide) (by rw [Vector.length_toList]; decide)
  unfold getCpu layoutCpu
  simp only [List.append_assoc]
  rw [(reads_layoutHeader .cpu).next]
  refine ((reads_u64 r.clock).next _ _).trans ?_
  refine ((reads_u32 r.budget).next _ _).trans ?_
  rw [(reads_layoutFlag r.jammed).next, (reads_layoutFlag r.preempt).next]
  refine ((reads_u16 r.regs.pc).next _ _).trans ?_
  rw [regs.next, ensure_bind, regsOf_toList]
  rfl

/-! ### `DFOBJ` (44_serializer.md R360) -/

theorem reads_layoutChannel (ch : Channel) : Reads getChannel (layoutChannel ch) ch :=
  putChannel_eq ch ▸ reads_channel ch

/-- The fields after the voices, each tested as it is read. -/
theorem getFetcher_layoutFetcher (clock : Word64) {d : DataFetcher} (hrem : d.rem < 2 ^ 32)
    (rest : Bytes) : getFetcher clock (layoutFetcher d ++ rest) =
    if d.rem < 1193182 ∧ d.last.toNat ≤ clock.toNat then .ok (d, rest) else .error .badValue := by
  rw [← putFetcher_eq]
  by_cases hlegal : d.rem < 1193182 ∧ d.last.toNat ≤ clock.toNat
  · rw [if_pos hlegal]
    exact (reads_fetcher hlegal.1 hlegal.2).whole rest
  · rw [if_neg hlegal]
    have channels := reads_many (put := putChannel) d.channels.toList fun x _ => reads_channel x
    rw [Vector.length_toList] at channels
    have voices := reads_many (put := putVoice) d.voices fun x _ => reads_voice x
    unfold getFetcher putFetcher
    simp only [List.append_assoc]
    refine (reads_header _).error (channels.error ((reads_u32 _).error (voices.error
      ((reads_int (v := d.rem) hrem).error ?_))))
    by_cases h : d.rem < Config.genDen
    · rw [ensure_bind_of (decide_eq_true h)]
      exact (reads_u64 d.last).error (ensure_bind_error (decide_eq_false fun hl => hlegal ⟨h, hl⟩))
    · exact ensure_bind_error (decide_eq_false h)

theorem getChannel_badCounter {ctr : Nat} (h : 0x0FFF < ctr) (hlt : ctr < 2 ^ 16) (rest : Bytes) :
    getChannel (putInt 2 ctr ++ rest) = .error .badValue := by
  obtain ⟨v, rfl⟩ : ∃ v : BitVec 16, v.toNat = ctr := ⟨⟨ctr, hlt⟩, rfl⟩
  exact (reads_u16 v).error (ensure_bind_error (decide_eq_false (not_le.mpr h)))

theorem getChannel_badFraction {ctr fctr : Nat} (hctr : ctr ≤ 0x0FFF) (h : 2 ^ 20 ≤ fctr)
    (hlt : fctr < 2 ^ 32) (rest : Bytes) :
    getChannel (putInt 2 ctr ++ (putInt 4 fctr ++ rest)) = .error .badValue := by
  obtain ⟨v, rfl⟩ : ∃ v : BitVec 16, v.toNat = ctr := ⟨⟨ctr, by omega⟩, rfl⟩
  obtain ⟨w, rfl⟩ : ∃ w : Word32, w.toNat = fctr := ⟨⟨fctr, hlt⟩, rfl⟩
  refine (reads_u16 v).error ?_
  rw [ensure_bind_of (decide_eq_true hctr)]
  exact (reads_u32 w).error (ensure_bind_error (decide_eq_false (not_lt.mpr h)))

/-- A channel that fails ends the object, wherever it stands. -/
theorem getFetcher_badChannel (clock : Word64) {channels : List Channel} (hn : channels.length < 8)
    (h : getChannel rest = .error e) :
    getFetcher clock (layoutHeader ++ channels.flatMap layoutChannel ++ rest) = .error e := by
  unfold getFetcher
  rw [List.append_assoc]
  exact (reads_layoutHeader _).error (Reader.bind_error _
    (getMany_error h channels 8 (fun x _ => reads_layoutChannel x) hn))

/-! ### `CART` (44_serializer.md R359) -/

section CartObject

variable {k : Cart} {clock : Word64}

theorem chip_isSome (tag : CartTag) : (Config.cartTable tag).chip.isSome = decide (tag = .c16kp) := by
  cases tag <;> rfl

theorem getCart_badLength (tag : CartTag) {n : Word32} (hn : n.toNat ≤ 262144)
    (h : n.toNat ∉ romLengths tag) (rest : Bytes) :
    getCart E clock (layoutText (tagText tag) ++ (layoutHeader ++ (putU32 n ++ rest))) =
      .error .badLength := by
  rw [romLengths_eq] at h
  exact (reads_tagText tag).error ((reads_layoutHeader .cart).error (Reader.bind_error _
    ((getBytesOf_of_le hn _ rest).trans (if_neg h))))

theorem reads_rom (hk : k.Ok E) : Reads (getBytesOf k.variant.romlens) (layoutBytes k.rom) k.rom :=
  reads_bytesOf (romlens_le hk.romLength) hk.romLength

theorem reads_banks (hk : k.Ok E) : Reads (getMany (getBank k.variant k.rom.length) k.variant.nb)
    (k.bank.flatMap putU32) k.bank :=
  hk.bankCount ▸ reads_many k.bank fun b hb => reads_bank (hk.banks b hb)

theorem Cart.overlay_isSome (k : Cart) : k.overlay.isSome = decide (0 < k.variant.rs) := by
  unfold Cart.overlay
  split
  · next h => exact (decide_eq_true h).symm
  · next h => exact (decide_eq_false h).symm

theorem reads_overlay (k : Cart) : Reads
    (getFixedOption (decide (0 < k.variant.rs)) (getBytesOf [k.variant.rs])) (layoutOverlay k)
    k.overlay := by
  rw [← putOverlay_eq]
  refine reads_fixedOption k.overlay_isSome fun x hx => ?_
  have hlen : x.length = k.variant.rs := by
    unfold Cart.overlay at hx
    split at hx
    · cases hx
      exact Memory.length_toBytes _ _
    · cases hx
  have hle : k.variant.rs ≤ 0x80 := rs_le k.tag
  exact reads_bytesOf (by rw [hlen]; exact hle.trans (by decide)) (List.mem_singleton.mpr hlen)

theorem reads_coprocessor (hk : k.Ok E) (hl : ∀ d, k.df = some d → d.last.toNat ≤ clock.toNat) :
    Reads (getFixedOption (decide (k.variant.family = .dataFetcher)) (getFetcher clock))
      (layoutCoprocessor k) k.df :=
  putCoprocessor_eq k ▸ reads_fixedOption hk.fetcher fun d hd =>
    reads_fetcher (hk.remainder d hd) (hl d hd)

/-- A boolean other than the variant's (R359). -/
theorem getFixedOption_badValue {α : Type} {present b : Bool} (h : b ≠ present) (get : Reader α) :
    getFixedOption present get (layoutFlag b ++ rest) = .error .badValue :=
  (reads_layoutFlag b).error (ensure_bind_error (beq_eq_false_iff_ne.mpr h))

theorem getCart_wrongOverlay (hk : k.Ok E) {b : Bool} (h : b ≠ decide (k.tag ∈ shadowTags)) :
    getCart E clock (layoutCartHead k ++ (layoutFlag b ++ rest)) = .error .badValue := by
  rw [← decide_eq_decide.mpr (rs_pos_iff (tag := k.tag))] at h
  unfold layoutCartHead
  simp only [List.append_assoc]
  exact (reads_tagText k.tag).error ((reads_layoutHeader .cart).error ((reads_rom hk).error
    ((reads_banks hk).error (Reader.bind_error _ (getFixedOption_badValue h _)))))

theorem getCart_wrongCoprocessor (hk : k.Ok E) {b : Bool} (h : b ≠ decide (k.tag = .df12k)) :
    getCart E clock (layoutCartHead k ++ (layoutOverlay k ++ (layoutFlag b ++ rest))) =
      .error .badValue := by
  rw [decide_eq_decide.mpr (dataFetcher_iff (ty := k.tag))] at h
  unfold layoutCartHead
  simp only [List.append_assoc]
  exact (reads_tagText k.tag).error ((reads_layoutHeader .cart).error ((reads_rom hk).error
    ((reads_banks hk).error ((reads_overlay k).error
      (Reader.bind_error _ (getFixedOption_badValue h _))))))

theorem getCart_wrongChip (hk : k.Ok E) (hl : ∀ d, k.df = some d → d.last.toNat ≤ clock.toNat)
    {b : Bool} (h : b ≠ decide (k.tag = .c16kp)) :
    getCart E clock (layoutCartHead k ++ (layoutOverlay k ++ (layoutCoprocessor k ++
      (layoutFlag b ++ rest)))) = .error .badValue := by
  rw [← chip_isSome] at h
  unfold layoutCartHead
  simp only [List.append_assoc]
  exact (reads_tagText k.tag).error ((reads_layoutHeader .cart).error ((reads_rom hk).error
    ((reads_banks hk).error ((reads_overlay k).error ((reads_coprocessor hk hl).error
      (Reader.bind_error _ (getFixedOption_badValue h _)))))))

/-- Every variant but the fixed ones and `C16KP` has a bank register (41_cart_family.md R183). -/
theorem Cart.nb_of_tag (hf : k.tag ∉ fixedTags) (hc : k.tag ≠ .c16kp) : k.variant.nb = 1 :=
  Machine.nb_eq_one (mt mem_fixedTags.mpr hf) (mt family_chipAug hc)

/-- What a bank register may hold, by the numbers of the spec (R359). -/
theorem bankLegal_iff (hk : k.Ok E) (hnb : k.variant.nb = 1) (b : Word32) :
    bankLegal k.variant k.rom.length b = true ↔ 0 ≤ b.toInt ∧ b.toNat % 0x1000 = 0 ∧
      b.toNat + 0x1000 ≤ (if k.tag = .df12k then 0x2000 else k.rom.length) := by
  have family : k.variant.family = .dataFetcher ↔ k.tag = .df12k := dataFetcher_iff.symm
  have hlen : bankedLength k.variant k.rom.length =
      if k.tag = .df12k then 0x2000 else k.rom.length := by
    unfold bankedLength
    by_cases ht : k.tag = .df12k
    · have hrom := hk.length_mem
      rw [ht] at hrom
      rw [if_pos (family.mpr ht), if_pos ht, List.mem_singleton.mp hrom]
      rfl
    · rw [if_neg (mt family.mp ht), if_neg ht]
  unfold bankLegal
  rw [hlen, show k.variant.bankSize = 0x1000 from bankSize_eq hnb]
  simp only [Bool.and_eq_true, decide_eq_true_iff, and_assoc]

theorem getCart_badBank (hk : k.Ok E) (hnb : k.variant.nb = 1) {b : Word32}
    (h : bankLegal k.variant k.rom.length b = false) (rest : Bytes) :
    getCart E clock (layoutText (tagText k.tag) ++ (layoutHeader ++ (layoutBytes k.rom ++
      (putU32 b ++ rest)))) = .error .badValue := by
  have bank : getMany (getBank k.variant k.rom.length) k.variant.nb (putU32 b ++ rest) =
      .error .badValue := by
    rw [hnb]
    exact Reader.bind_error _ ((reads_u32 b).error (ensure_bind_error h))
  exact (reads_tagText k.tag).error ((reads_layoutHeader .cart).error ((reads_rom hk).error
    (Reader.bind_error _ bank)))

/-- A legal bank register is passed: a stream that ends after it is cut short (R340). -/
theorem getCart_endsAfterBank (hk : k.Ok E) (hnb : k.variant.nb = 1) {b : Word32}
    (h : bankLegal k.variant k.rom.length b = true) :
    getCart E clock (layoutText (tagText k.tag) ++ (layoutHeader ++ (layoutBytes k.rom ++
      (putU32 b ++ [])))) = .error .truncated := by
  have bank : Reads (getMany (getBank k.variant k.rom.length) k.variant.nb) (putU32 b) [b] := by
    rw [hnb]
    exact (reads_bank h).map
  exact (reads_tagText k.tag).error ((reads_layoutHeader .cart).error ((reads_rom hk).error
    (bank.error (Reader.bind_error _ rfl))))

end CartObject

end SerializerFamily

/-! ### The statements -/

/-- Settles O55: the restored machine is that of the saved machine's record, and a machine is determined
by its record. -/
theorem restoreUndoesSave : Obligations.RestoreUndoesSave := by
  intro s c ch hs hr hch hsave
  have ok := (hs.runOk hr).1
  refine ⟨putRoot c ch, exec_save_of_chips (State.running_chips hr).1 hch, fun u hu => ?_⟩
  obtain ⟨d, hexec, hd⟩ := execRestore_total (hu ▸ parse_putRoot ok hch hsave)
  obtain ⟨hdev, hpage, hsnoop, hbios⟩ := hd.tables ok hch
  obtain ⟨dh, hdh, hcpu, hdma, hinput⟩ := hd.chips
  have hsched := hd.scheduler ok
  refine ⟨d, dh, hexec, hdh, hdev, hpage, hsnoop, hd.lbv, hd.type, hbios, hsched, hcpu, hdma, hinput,
    fun t ht => ?_⟩
  obtain rfl : { u with console := some d, cur := none, status := .ok } = t :=
    Host.Outcome.next.inj (hexec.symm.trans ht)
  rw [exec_save_of_chips rfl hdh,
    putRoot_congr hdev hd.type hbios hd.lbv hsched hcpu hdma hinput]

/-- Settles O57: the reader of the root takes exactly the bytes `SAVE` wrote. -/
theorem streamMustBeWhole : Obligations.StreamMustBeWhole := by
  intro s t u c hs hr hsave ht
  obtain ⟨ok, ch, hch, -⟩ := hs.runOk hr
  obtain rfl : { s with sout := putRoot c ch, status := .ok } = t :=
    Host.Outcome.next.inj ((exec_save_of_chips (State.running_chips hr).1 hch).symm.trans ht)
  have reads := reads_root ok hch hsave
  refine ⟨fun hp hne => ?_, fun b bs hu => ?_⟩
  · exact exec_restore_of_error (parseStream_of_error (reads.short u.sin hp hne))
  · exact exec_restore_of_error (parseStream_of_trailing (hu ▸ reads.whole (b :: bs)))

/-- Settles O58: what `Restored` says of the machine of an accepted record. -/
theorem restoreBuildsFromTheStream : Obligations.RestoreBuildsFromTheStream := by
  refine fun s => ⟨fun e => exec_restore_of_error, fun r hparse => ?_⟩
  have ok := parseStream_ok hparse
  obtain ⟨d, hexec, hd⟩ := execRestore_total hparse
  obtain ⟨ch, hch, hcpu, hdma, hinput⟩ := hd.chips
  obtain ⟨b₀, b₁, hbanks, -, -⟩ := ok.banks
  refine ⟨d, ch, hexec, hch, hcpu, hdma, hinput, hd.type, hd.halt, hd.frame, hd.clock, hd.budget,
    hd.jammed, hd.preempt, hd.lbv, hd.hasBios, hd.sched, hd.cart?, fun k hk => ?_, hd.device 0,
    hd.partsOf.noCart, ⟨b₀, b₁, Memory.ofBytes b₀, Memory.ofBytes b₁, hbanks, ?_,
      fun i => Memory.read_ofBytes i b₀, ?_, fun i => Memory.read_ofBytes i b₁⟩, hd.device 4,
    hd.device 5, ?_, fun g hg => (hd.device g).trans (r.device_other hg), hd.page, hd.snooper⟩
  · exact (ok.cart k (hd.cart? ▸ hk)).2
  · rw [hd.device 2]
    simp [Root.device, hbanks, Config.ramBankSize]
  · rw [hd.device 3]
    simp [Root.device, hbanks, Config.ramBankSize]
  · rw [hd.device 6]
    show biosDevice r.bios = _
    cases r.bios <;> rfl

/-- Settles O59: the digits by the recursion of the writer, the reading back by the reader's. -/
theorem integersAreLittleEndian : Obligations.IntegersAreLittleEndian :=
  fun n v _ hi => ⟨putInt_length n v, putInt_getElem? n v hi, fun hv => (reads_int hv).whole⟩

/-- Settles O60: after the objects that are read, the test that fails ends the reader. -/
theorem lengthsAndHeadersAreTested : Obligations.LengthsAndHeadersAreTested := by
  refine ⟨fun n rest allowed => ?lengths, fun cls m v rest => ?header, getBool_cons,
    fun n rest => ?text, fun E clock text rest h1 h2 h3 => ?names, fun E clock m rest hm => ?magic,
    fun r rest => ?cpu, fun E clock k hk ha hl => ?cart, fun clock d rest => ?fetcher⟩
  case lengths =>
    have failed : ∀ {e}, getLength (putU32 n ++ rest) = .error e →
        getBytes (putU32 n ++ rest) = .error e ∧ getBytesOf allowed (putU32 n ++ rest) = .error e :=
      fun h => ⟨Reader.bind_error _ h, Reader.bind_error _ h⟩
    refine ⟨fun h => failed ?_, fun h0 h => failed ?_, fun h ha => ?_, fun h hr => ?_, fun h hr => ?_⟩
    · rw [getLength_putU32, if_pos h]
    · rw [getLength_putU32, if_neg (not_lt.mpr h0), if_pos h]
    · rw [getBytesOf_of_le h, if_neg ha]
    · rw [getBytes_of_le h, getBytesOf_of_le h, getRaw_of_lt hr]
      exact ⟨rfl, fun ha => if_pos ha⟩
    · rw [getBytes_of_le h, getBytesOf_of_le h, getRaw_of_le hr]
      exact ⟨rfl, fun ha => if_pos ha⟩
  case header =>
    refine ⟨fun hm => getHeader_badMagic cls hm rest, ?_, ?_, putHeader_eq cls⟩
    · rintro rfl hv
      rw [getHeader_magic, if_neg hv]
    · rintro rfl rfl
      rw [getHeader_magic, if_pos rfl]
  case text =>
    have counted : n ≠ 0 → n.toNat ≤ 64 → ¬(n = 0 ∨ 64 < n.toNat) :=
      fun h0 h => not_or.mpr ⟨h0, not_lt.mpr h⟩
    rw [getStr_cons]
    refine ⟨fun h => if_pos h, fun h0 h hr => ?_,
      fun h0 h hr => ⟨fun ⟨b, hb, hrange⟩ => ?_, fun hrange => ?_⟩⟩
    · rw [if_neg (counted h0 h), if_pos hr]
    · rw [if_neg (counted h0 h), if_neg (not_lt.mpr hr), if_neg fun hall => ?_]
      have := hall b hb
      omega
    · rw [if_neg (counted h0 h), if_neg (not_lt.mpr hr), if_pos hrange]
  case names =>
    refine ⟨fun hntsc hpal => parseStream_of_error ?_, fun h => ?_⟩
    · refine Reader.bind_error _ (getNamed_badDiscriminant h1 h2 h3 ?_)
      simp only [Config.typeNames, typeName_eq, List.mem_cons, List.not_mem_nil, or_false]
      rintro p (rfl | rfl)
      · exact hntsc
      · exact hpal
    · refine Reader.bind_error _ (getNamed_badDiscriminant h1 h2 h3 fun p hp => ?_)
      obtain ⟨q, -, rfl⟩ := List.mem_map.mp hp
      exact fun hname => h q.2 (hname.trans (cartName_eq q.2))
  case magic =>
    have header := fun cls => getHeader_badMagic cls hm rest
    exact ⟨fun type ht => parseStream_of_error
        ((reads_typeText ht).error (Reader.bind_error _ (header .machine))),
      fun tag => (reads_tagText tag).error (Reader.bind_error _ (header .cart))⟩
  case cpu =>
    rw [getCpu_layoutCpu]
    exact if_congr budgetLegal_iff rfl rfl
  case cart =>
    refine ⟨fun n rest hn => (getCart_badLength k.tag hn · rest), fun hf hc b rest => ?_,
      fun b rest => ⟨getCart_wrongOverlay hk, getCart_wrongCoprocessor hk, getCart_wrongChip hk hl⟩,
      fun rest => ?_⟩
    · have hnb := Cart.nb_of_tag hf hc
      have legal := bankLegal_iff hk hnb b
      exact ⟨fun h => getCart_endsAfterBank hk hnb (legal.mpr h),
        fun h => getCart_badBank hk hnb (Bool.eq_false_iff.mpr (mt legal.mp h)) rest⟩
    · rw [← putCart_eq]
      exact (reads_cart hk ha hl).whole rest
  case fetcher =>
    refine ⟨fun h => getFetcher_layoutFetcher clock h rest, fun n ctr fctr hn => ?_⟩
    have hlen : (d.channels.toList.take n).length < 8 := (List.length_take_le n _).trans_lt hn
    exact ⟨fun h hlt => getFetcher_badChannel clock hlen (getChannel_badCounter h hlt rest),
      fun hctr h hlt => getFetcher_badChannel clock hlen (getChannel_badFraction hctr h hlt rest)⟩

/-- Settles O56: `SAVE` tests only that the collaborators exist, and writes the grammar's bytes. -/
theorem saveChangesNoMachine : Obligations.SaveChangesNoMachine := by
  intro s c hr
  obtain ⟨hc, ch, hch⟩ := State.running_chips hr
  refine ⟨putRoot c ch, exec_save_of_chips hc hch, ?_, fun ch' hs hch' => ?_⟩
  · simp only [putRoot, putStr, putHeader, putBool, putU64, putCpu, List.length_append,
      List.length_cons, putInt_length, List.length_nil]
    omega
  · rw [hch] at hch'
    cases hch'
    exact putRoot_eq (hs.runOk hr).1 hch

end Sys2Proof.Machine

/-! Outcomes (60_exceptions.md): what a command that does not complete leaves (O7), and how an operation
of a well-formed state can end (O8). -/

namespace Sys2Proof.Machine

section OutcomeFamily

variable {i : Instr} {s t : State} {c : Console} {a : Addr} {v : Byte}

/-! ### A command completes, or it raises an outcome of its row (60_exceptions.md R401, R406) -/

/-- A command with a phase test has `Refused.Phase` in its row, after `OK`. -/
theorem exists_raised_refusedPhase (s : State) (codes : List Status) :
    ∃ e ∈ .ok :: .refusedPhase :: codes, s.raised .refusedPhase = s.raised e :=
  ⟨_, .tail _ (.head _), rfl⟩

theorem BenchRefused.exists_raised_mem {codes : List Status} (h : BenchRefused s t codes) :
    ∃ e ∈ .ok :: .refusedPhase :: codes, t = s.raised e := by
  obtain ⟨-, rfl⟩ | ⟨-, e, he, rfl⟩ := h
  · exact exists_raised_refusedPhase s codes
  · exact ⟨e, .tail _ (.tail _ he), rfl⟩

/-- A next state of a command has `STATUS` `OK`, or is the old state with an outcome of the command's
row. -/
theorem exec_ok_or_raised (hi : i.isCommand = true) (h : exec i s = .next t) :
    t.status = .ok ∨ ∃ e ∈ outcomesOf i, t = s.raised e := by
  cases i
  case busRd => cases hi
  case busWr => cases hi
  case mkmach =>
    obtain ⟨-, rfl⟩ | ⟨_, -, ⟨-, -, rfl⟩ | ⟨-, -, rfl⟩ | ⟨-, -, rfl⟩ | ⟨-, _, -, rfl⟩⟩ :=
      execMkmach_next h
    · exact .inr ⟨.badMachineTag, by simp [outcomesOf], rfl⟩
    · exact .inr ⟨.refusedBadOperand, by simp [outcomesOf], rfl⟩
    · exact .inr ⟨.refusedBadOperand, by simp [outcomesOf], rfl⟩
    · exact .inr ⟨.badRomSize, by simp [outcomesOf], rfl⟩
    · exact .inl rfl
  case mkcart =>
    obtain ⟨e, he, rfl⟩ | ⟨_, -, rfl⟩ := execMkcart_next h
    · exact .inr ⟨e, by simpa [outcomesOf] using .inr (selectVariant_error he), rfl⟩
    · exact .inl rfl
  case mkram =>
    obtain h | ⟨_, -, -, -, rfl⟩ := execMkram_next h
    · exact .inr h.exists_raised_mem
    · exact .inl rfl
  case mkrom =>
    obtain h | ⟨_, -, -, -, rfl⟩ := execMkrom_next h
    · exact .inr h.exists_raised_mem
    · exact .inl rfl
  case mkadp =>
    obtain h | ⟨_, -, -, -, rfl⟩ := execMkadp_next h
    · exact .inr h.exists_raised_mem
    · exact .inl rfl
  case attach =>
    obtain h | ⟨_, _, -, -, -, rfl⟩ := execAttach_next h
    · exact .inr h.exists_raised_mem
    · exact .inl rfl
  case map =>
    obtain h | ⟨_, -, -, rfl⟩ := execMap_next h
    · exact .inr h.exists_raised_mem
    · exact .inl rfl
  case mapc =>
    obtain h | ⟨_, _, -, -, -, rfl⟩ := execMapc_next h
    · exact .inr h.exists_raised_mem
    · exact .inl rfl
  case selfmap =>
    obtain h | ⟨_, _, -, -, rfl⟩ := execSelfmap_next h
    · exact .inr h.exists_raised_mem
    · exact .inl rfl
  case dreset =>
    obtain h | ⟨_, -, -, rfl⟩ := execDreset_next h
    · exact .inr h.exists_raised_mem
    · exact .inl rfl
  case mreset =>
    obtain ⟨-, rfl⟩ | ⟨_, _, -, -, rfl⟩ := execMreset_next h
    · exact .inr (exists_raised_refusedPhase s _)
    · exact .inl rfl
  case rd =>
    obtain ⟨-, rfl⟩ | ⟨_, _, _, -, -, rfl⟩ := execRd_next h
    · exact .inr (exists_raised_refusedPhase s _)
    · exact .inl rfl
  case wr =>
    obtain ⟨-, rfl⟩ | ⟨_, _, -, -, rfl⟩ := execWr_next h
    · exact .inr (exists_raised_refusedPhase s _)
    · exact .inl rfl
  case frame =>
    obtain ⟨-, rfl⟩ | ⟨_, -, ⟨-, rfl⟩ | ⟨-, -, _, _, -, rfl⟩⟩ := execFrame_next h
    · exact .inr (exists_raised_refusedPhase s _)
    · exact .inl rfl
    · exact .inl rfl
  case poll =>
    obtain ⟨-, rfl⟩ | ⟨_, -, rfl⟩ := execPoll_next h
    · exact .inr (exists_raised_refusedPhase s _)
    · exact .inl rfl
  case save =>
    obtain ⟨-, rfl⟩ | ⟨_, _, -, -, rfl⟩ := execSave_next h
    · exact .inr (exists_raised_refusedPhase s _)
    · exact .inl rfl
  case restore =>
    obtain ⟨e, he, rfl⟩ | ⟨_, _, -, -, rfl⟩ := execRestore_next h
    · exact .inr ⟨e, .tail _ (parseStream_error he), rfl⟩
    · exact .inl rfl

theorem ok_mem_outcomesOf (hi : i.isCommand = true) : .ok ∈ outcomesOf i := by
  cases i
  case busRd => cases hi
  case busWr => cases hi
  all_goals exact List.mem_cons_self

theorem status_mem_outcomesOf (hi : i.isCommand = true) (h : exec i s = .next t) :
    t.status ∈ outcomesOf i := by
  obtain hok | ⟨e, he, rfl⟩ := exec_ok_or_raised hi h
  · exact hok ▸ ok_mem_outcomesOf hi
  · exact he

/-! ### How an operation ends in a well-formed state (60_exceptions.md R401, R408) -/

/-- A computation that can have one fault only succeeds or has that fault. -/
theorem Except.ok_or_error {α : Type} {x : Except Fault α} {f : Fault}
    (h : ∀ {g}, x = .error g → g = f) : (∃ r, x = .ok r) ∨ x = .error f := by
  cases hx : x with
  | ok r => exact .inl ⟨r, rfl⟩
  | error g => exact .inr (congrArg _ (h hx))

/-- An access completes, or it reaches a chip that is not attached (41_cart_family.md R217). -/
theorem exec_access_ends (hi : i = .rd a ∨ i = .wr a v ∨ i = .busRd a ∨ i = .busWr a v)
    (hs : s.Inv) (hc : s.console = some c) :
    (∃ t, exec i s = .next t) ∨ exec i s = .fault .chipNotAttached := by
  have hw := (hs.console c hc).wired
  have read := Except.ok_or_error (memRead_error hw (addr := a.toNat))
  have write := Except.ok_or_error (memWrite_error hw (addr := a.toNat) (b := v))
  obtain rfl | rfl | rfl | rfl := hi
  · exact read.imp (fun ⟨_, h⟩ => ⟨_, exec_rd_of_memRead hc h⟩)
      fun h => (exec_read_of_memRead_error hc h).1
  · exact write.imp (fun ⟨_, h⟩ => ⟨_, exec_wr_of_memWrite hc h⟩)
      fun h => (exec_write_of_memWrite_error hc h).1
  · exact read.imp (fun ⟨_, h⟩ => ⟨_, exec_busRd_of_memRead hc h⟩)
      fun h => (exec_read_of_memRead_error hc h).2
  · exact write.imp (fun ⟨_, h⟩ => ⟨_, exec_busWr_of_memWrite hc h⟩)
      fun h => (exec_write_of_memWrite_error hc h).2

/-- In `RUN` the cart is attached, so an access faults on the bench only (60_exceptions.md R408). -/
theorem exec_access_ends_faultsOf (hi : i = .rd a ∨ i = .wr a v ∨ i = .busRd a ∨ i = .busWr a v)
    (hs : s.Inv) (hp : s.phase ≠ .empty) :
    (∃ t, exec i s = .next t) ∨ ∃ f ∈ faultsOf s.phase i, exec i s = .fault f := by
  obtain ⟨c, hc⟩ := Option.ne_none_iff_exists'.mp (mt State.phase_empty.mpr hp)
  cases hph : s.phase with
  | empty => exact absurd hph hp
  | run => exact .inl (exec_access_total hi hs hc (hs.cartReady hc (.inr hph)))
  | bench =>
    refine (exec_access_ends hi hs hc).imp_right fun h => ⟨_, ?_, h⟩
    obtain rfl | rfl | rfl | rfl := hi <;> exact List.mem_cons_self

theorem exec_bus_of_empty (hi : i.isCommand = false) (hp : s.phase = .empty) :
    exec i s = .refused .noAddressSpace := by
  have hc := State.phase_empty.mp hp
  cases i
  case busRd => simp only [exec, execBusRd, hc]
  case busWr => simp only [exec, execBusWr, hc]
  all_goals cases hi

theorem exec_frame_of_error {f : Fault} (hr : s.running = some c) (hh : c.halt = false)
    (hj : c.jammed = false) (h : runFrame Env.hw c = .error f) : exec .frame s = .fault f := by
  show execFrame s = _
  simp [execFrame, hr, hh, hj, h]

/-- A frame completes, or its DMA chip breaks the contract (43_scheduler.md R290). -/
theorem exec_frame_ends (hs : s.Inv) (hr : s.running = some c) :
    (∃ t, exec .frame s = .next t) ∨ exec .frame s = .fault .badDmaClocks := by
  by_cases hstop : c.halt = true ∨ c.jammed = true
  · exact .inl ⟨_, (pollAndHaltedFrameChangeNothing.2 s c hr).2 hstop⟩
  · simp only [not_or, Bool.not_eq_true] at hstop
    obtain ⟨hh, hj⟩ := hstop
    obtain ⟨ok, _, -, run⟩ := hs.runOk hr
    have ends := Except.ok_or_error (runFrame_error (E := Env.hw) rfl ok.wired run.attached
      (ok.carry.carry hj) hj)
    exact ends.imp (fun ⟨_, h⟩ => ⟨_, exec_frame_of_ok hr hh hj h⟩) (exec_frame_of_error hr hh hj)

/-- `MKMACH` fails one of its four tests or builds the machine (43_scheduler.md R280). -/
theorem exec_mkmach_total (hs : s.Inv) (type : Nat) (useCart hasBios : Bool) :
    ∃ t, exec (.mkmach type useCart hasBios) s = .next t := by
  obtain ⟨badTag, noStage, bareBios, badSize⟩ := mkmachTestsInOrder s type useCart hasBios
  by_cases htag : 2 < type
  · exact ⟨_, badTag htag⟩
  replace htag := not_lt.mp htag
  by_cases hcart : useCart = true ∧ s.stage = none
  · exact ⟨_, noStage htag hcart.1 hcart.2⟩
  replace hcart := not_and.mp hcart
  by_cases hbare : hasBios = true ∧ type = 0
  · exact ⟨_, bareBios htag hcart hbare.1 hbare.2⟩
  replace hbare := not_and.mp hbare
  by_cases hsize : hasBios = true → s.romPort.length = 4096
  · obtain ⟨ty, hty, hzero⟩ := typeCodes_some htag
    obtain ⟨c, built⟩ := buildMachine_total (type := ty) (fun _ => hs.askedCart)
      (fun _ _ => askedBios_size hsize) s.calls
    exact ⟨_, execMkmach_built hty hcart (fun h => ⟨mt hzero.mp (hbare h), hsize h⟩) built⟩
  · obtain ⟨hb, hlen⟩ := Classical.not_imp.mp hsize
    exact ⟨_, badSize htag hcart hb (hbare hb) hlen⟩

theorem exec_mkcart_total (s : State) (tag : Nat) : ∃ t, exec (.mkcart tag) s = .next t := by
  cases h : selectVariant tag s.romPort.length with
  | error e => exact ⟨_, exec_mkcart_of_error h⟩
  | ok ty => exact ⟨_, exec_mkcart_of_ok h⟩

theorem exec_restore_total (s : State) : ∃ t, exec .restore s = .next t := by
  cases h : parseStream Env.hw s.sin with
  | error e => exact ⟨_, exec_restore_of_error h⟩
  | ok r =>
    obtain ⟨d, hd, -⟩ := execRestore_total h
    exact ⟨_, hd⟩

theorem exec_attach_total (hb : s.bench = some c) (dev : Handle) :
    ∃ t, exec (.attach dev) s = .next t := by
  cases h : c.namedCart dev with
  | none => exact ⟨_, exec_attach_of_none hb h⟩
  | some k =>
    rw [exec_attach_of_cart hb h]
    split <;> exact ⟨_, rfl⟩

theorem exec_selfmap_total (hb : s.bench = some c) (dev : Handle) :
    ∃ t, exec (.selfmap dev) s = .next t := by
  cases h : c.namedCart dev with
  | none => exact ⟨_, exec_selfmap_of_none hb h⟩
  | some k => exact ⟨_, exec_selfmap_of_cart hb h⟩

/-- Every operation that is not refused for want of an address space reaches a next state or stops with a
fault of its row. -/
theorem exec_ends (hs : s.Inv) (hi : i.isCommand = true ∨ s.phase ≠ .empty) :
    (∃ t, exec i s = .next t) ∨ ∃ f ∈ faultsOf s.phase i, exec i s = .fault f := by
  cases hp : phaseAllows s.phase i
  case false => exact .inl ⟨_, exec_of_not_phaseAllows hp⟩
  have bench (h : decide (s.phase = .bench) = true) : ∃ c, s.bench = some c :=
    Option.ne_none_iff_exists'.mp fun hn => State.bench_eq_none.mp hn (of_decide_eq_true h)
  have running (h : decide (s.phase = .run) = true) : ∃ c, s.running = some c :=
    Option.ne_none_iff_exists'.mp fun hn => State.running_eq_none.mp hn (of_decide_eq_true h)
  cases i
  case mkmach => exact .inl (exec_mkmach_total hs _ _ _)
  case mkcart => exact .inl (exec_mkcart_total s _)
  case restore => exact .inl (exec_restore_total s)
  case mkram =>
    obtain ⟨c, hb⟩ := bench hp
    rw [exec_mkram_of_bench hb]
    split_ifs <;> exact .inl ⟨_, rfl⟩
  case mkrom =>
    obtain ⟨c, hb⟩ := bench hp
    rw [exec_mkrom_of_bench hb]
    split_ifs <;> exact .inl ⟨_, rfl⟩
  case mkadp =>
    obtain ⟨c, hb⟩ := bench hp
    rw [exec_mkadp_of_bench hb]
    split_ifs <;> exact .inl ⟨_, rfl⟩
  case map =>
    obtain ⟨c, hb⟩ := bench hp
    rw [exec_map_of_bench hb]
    split_ifs <;> exact .inl ⟨_, rfl⟩
  case mapc =>
    obtain ⟨c, hb⟩ := bench hp
    rw [exec_mapc_of_bench hb]
    split_ifs <;> exact .inl ⟨_, rfl⟩
  case dreset =>
    obtain ⟨c, hb⟩ := bench hp
    rw [exec_dreset_of_bench hb]
    split_ifs <;> exact .inl ⟨_, rfl⟩
  case attach =>
    obtain ⟨c, hb⟩ := bench hp
    exact .inl (exec_attach_total hb _)
  case selfmap =>
    obtain ⟨c, hb⟩ := bench hp
    exact .inl (exec_selfmap_total hb _)
  case mreset =>
    obtain ⟨c, hr⟩ := running hp
    obtain ⟨ok, _, -, run⟩ := hs.runOk hr
    obtain ⟨d, hd⟩ := machineReset_total ok.wired run.ready
    exact .inl ⟨_, exec_mreset_of_ok hr hd⟩
  case poll =>
    obtain ⟨c, hr⟩ := running hp
    exact .inl ⟨_, (pollAndHaltedFrameChangeNothing.2 s c hr).1⟩
  case save =>
    obtain ⟨c, hr⟩ := running hp
    obtain ⟨hc, ch, hch⟩ := State.running_chips hr
    exact .inl ⟨_, exec_save_of_chips hc hch⟩
  case frame =>
    obtain ⟨c, hr⟩ := running hp
    exact (exec_frame_ends hs hr).imp_right fun h => ⟨_, List.mem_cons_self, h⟩
  case rd a => exact exec_access_ends_faultsOf (v := 0) (.inl rfl) hs (of_decide_eq_true hp)
  case wr a v => exact exec_access_ends_faultsOf (.inr (.inl rfl)) hs (of_decide_eq_true hp)
  case busRd a =>
    exact exec_access_ends_faultsOf (v := 0) (.inr (.inr (.inl rfl))) hs (hi.resolve_left nofun)
  case busWr a v => exact exec_access_ends_faultsOf (.inr (.inr (.inr rfl))) hs (hi.resolve_left nofun)

end OutcomeFamily

/-! ### The statements -/

/-- Settles O7: a command that does not complete raises its outcome, and raising writes `STATUS` only. -/
theorem refusalsAndErrorsChangeOnlyStatus : Obligations.RefusalsAndErrorsChangeOnlyStatus := by
  intro i s t hi h hne
  obtain ⟨e, -, rfl⟩ := (exec_ok_or_raised hi h).resolve_left hne
  rfl

/-- Settles O8: an operation that is not a bus transaction in `EMPTY` reaches a next state or a fault of
its row, and a next state of a command reports an outcome of its row. -/
theorem outcomesAreThoseOfTheTable : Obligations.OutcomesAreThoseOfTheTable := by
  intro i s hs
  by_cases hi : i.isCommand = true ∨ s.phase ≠ .empty
  · obtain ⟨t, h⟩ | ⟨f, hf, h⟩ := exec_ends hs hi
    · rw [h]
      exact fun hc => status_mem_outcomesOf hc h
    · rw [h]
      exact hf
  · obtain ⟨hc, hp⟩ := not_or.mp hi
    replace hc := Bool.eq_false_iff.mpr hc
    replace hp := not_not.mp hp
    rw [exec_bus_of_empty hc hp]
    exact ⟨rfl, hc, hp⟩

end Sys2Proof.Machine

/-! Reset and the end of a run (70_reset_and_hazards.md): O9 and O10, power-on; O53, a halted machine
stays halted, and a run ends where the run-until-done predicate holds. -/

namespace Sys2Proof.Machine

section ResetFamily

variable {i : Instr} {s t : State} {c : Console} {n : Nat}

/-! ### Power-on (R441) -/

theorem State.reset_device (h : Handle) :
    State.reset.device h = if h = 0 then .null else .absent :=
  fresh_device .bare false [] h

/-- In `EMPTY` the phase table has a mark for the two factories and `RESTORE` only (30_encoding.md
R106). -/
theorem phaseAllows_empty_eq_false (hi : i.isCommand = true) (hmach : ∀ ty a b, i ≠ .mkmach ty a b)
    (hcart : ∀ tag, i ≠ .mkcart tag) (hrestore : i ≠ .restore) : phaseAllows .empty i = false := by
  cases i
  case mkmach ty a b => exact absurd rfl (hmach ty a b)
  case mkcart tag => exact absurd rfl (hcart tag)
  case restore => exact absurd rfl hrestore
  case busRd => cases hi
  case busWr => cases hi
  all_goals rfl

/-! ### A halted machine stays halted (R449, 43_scheduler.md R302) -/

/-- The instruction leaves the machine in place: it is no `MKMACH`, and no `RESTORE` of a stream that
parses. -/
def KeepsMachine (sin : Bytes) (i : Instr) : Prop :=
  (∀ ty a b, i ≠ .mkmach ty a b) ∧ (i = .restore → ∃ e, parseStream Env.hw sin = .error e)

theorem KeepsMachine.cases (h : KeepsMachine s.sin i) :
    i.replacesMachine = false ∨
      (i = .restore ∧ ∃ e, parseStream Env.hw s.sin = .error e) := by
  obtain ⟨hmach, hrestore⟩ := h
  cases i
  case mkmach ty a b => exact absurd rfl (hmach ty a b)
  case restore => exact .inr ⟨rfl, hrestore rfl⟩
  all_goals exact .inl rfl

/-- A `RESTORE` of a stream that does not parse leaves the machine as it is (44_serializer.md R371). -/
theorem exec_restore_running {e : Status} (he : parseStream Env.hw s.sin = .error e)
    (h : exec .restore s = .next t) : t.running = s.running := by
  obtain ⟨_, -, rfl⟩ | ⟨r, _, hr, -⟩ := execRestore_next h
  · rfl
  · cases he.symm.trans hr

theorem exec_keeps_halt (hr : s.running = some c) (hh : c.halt = true) (hi : KeepsMachine s.sin i)
    (h : exec i s = .next t) : ∃ d, t.running = some d ∧ d.halt = true := by
  obtain hi | ⟨rfl, e, he⟩ := hi.cases
  · obtain ⟨d, hd, keep, -⟩ := haltIsSetOnlyByAJam i s t c hi hr h
    exact ⟨d, hd, keep hh⟩
  · exact ⟨c, (exec_restore_running he h).trans hr, hh⟩

/-- No instruction writes `SIN`, so what `RESTORE` would read stays the same along the list. -/
theorem runAll_keeps_halt {is : List Instr} (hr : s.running = some c) (hh : c.halt = true)
    (hi : ∀ i ∈ is, KeepsMachine s.sin i) (h : runAll is s = some t) :
    ∃ d, t.running = some d ∧ d.halt = true := by
  induction is generalizing s c with
  | nil =>
    cases h
    exact ⟨c, hr, hh⟩
  | cons i is ih =>
    unfold runAll at h
    split at h
    · next u hu =>
      obtain ⟨hhead, htail⟩ := List.forall_mem_cons.mp hi
      obtain ⟨d, hd, hdh⟩ := exec_keeps_halt hr hh hhead hu
      rw [← (exec_hostFrame hu).sin] at htail
      exact ih hd hdh htail h
    · cases h
    · cases h

/-! ### The end of a run (R449) -/

theorem State.halted_iff : s.halted = true ↔ ∃ c, s.console = some c ∧ c.halt = true := by
  unfold State.halted
  cases s.console <;> simp

theorem State.done_iff :
    s.done = true ↔ (∃ c, s.console = some c ∧ c.halt = true) ∨ s.queue = [] := by
  rw [State.done, Bool.or_eq_true, State.halted_iff, List.isEmpty_iff]

theorem State.queue_ne_nil_of_not_done (h : s.done = false) : s.queue ≠ [] :=
  fun hq => Bool.false_ne_true (h.symm.trans (State.done_iff.mpr (.inr hq)))

theorem exec_queue (h : exec i s = .next t) : t.queue = s.queue := (exec_hostFrame h).queue

/-- A step takes one input (log 1). -/
theorem step_queue (h : step s = .next t) : t.queue = s.queue.tail := by
  obtain ⟨-, idle, fillRomPort, fillSin, -⟩ := stepRunsTheDecodedInstruction
  cases hq : s.queue with
  | nil =>
    rw [idle s hq] at h
    cases h
    exact hq
  | cons input rest =>
    cases input with
    | romPort bs =>
      rw [fillRomPort s bs rest hq] at h
      cases h
      rfl
    | sin bs =>
      rw [fillSin s bs rest hq] at h
      cases h
      rfl
    | request r =>
      cases r with
      | command w =>
        cases hw : decodeCommand w with
        | ok i =>
          rw [step_of_command_ok hq hw] at h
          exact exec_queue h
        | error e =>
          rw [step_of_command_error hq hw] at h
          cases h
          rfl
      | bus w =>
        cases hw : decodeBus w with
        | ok i =>
          rw [step_of_bus_ok hq hw] at h
          exact exec_queue h
        | error e =>
          rw [step_of_bus_error hq hw] at h
          cases h

theorem runFor_of_done (h : s.done = true) : runFor n s = .next s := by
  cases n with
  | zero => rfl
  | succ n => exact if_pos h

theorem runFor_succ_of_next (h : s.done = false) (ht : step s = .next t) :
    runFor (n + 1) s = runFor n t := by
  simp [runFor, h, ht]

theorem runFor_succ_of_fault {f : Fault} (h : s.done = false) (hf : step s = .fault f) :
    runFor (n + 1) s = .fault f := by
  simp [runFor, h, hf]

theorem runFor_succ_of_refused {r : Refusal} (h : s.done = false) (hr : step s = .refused r) :
    runFor (n + 1) s = .refused r := by
  simp [runFor, h, hr]

/-- As many steps as there are inputs are enough: the run ends where the predicate holds. -/
theorem done_of_runFor_next (hn : s.queue.length ≤ n) (h : runFor n s = .next t) :
    t.done = true := by
  induction n generalizing s with
  | zero =>
    cases h
    exact State.done_iff.mpr (.inr (List.length_eq_zero_iff.mp (Nat.le_zero.mp hn)))
  | succ n ih =>
    cases hd : s.done with
    | true =>
      rw [runFor_of_done hd] at h
      cases h
      exact hd
    | false =>
      cases hs : step s with
      | next u =>
        rw [runFor_succ_of_next hd hs] at h
        have hu : u.queue.length ≤ n := by
          rw [step_queue hs, List.length_tail]
          omega
        exact ih hu h
      | fault f =>
        rw [runFor_succ_of_fault hd hs] at h
        cases h
      | refused r =>
        rw [runFor_succ_of_refused hd hs] at h
        cases h

/-- A run that is not done has a step to take. -/
theorem runUntilDone_of_not_done (h : s.done = false) :
    runUntilDone s = runFor (s.queue.tail.length + 1) s := by
  have hpos := List.length_pos_iff.mpr (State.queue_ne_nil_of_not_done h)
  rw [runUntilDone, List.length_tail, Nat.sub_add_cancel hpos]

theorem runUntilDone_of_next (h : s.done = false) (ht : step s = .next t) :
    runUntilDone s = runUntilDone t := by
  rw [runUntilDone_of_not_done h, runFor_succ_of_next h ht, runUntilDone, step_queue ht]

end ResetFamily

/-! ### The statements -/

/-- Settles O9: the registers by evaluation, the refused commands by the phase table's column for
`EMPTY`. -/
theorem resetIsPowerOn : Obligations.ResetIsPowerOn :=
  ⟨rfl, rfl, State.reset_device, rfl, rfl, rfl, rfl, rfl, rfl, rfl, rfl, rfl,
    fun _ hi hmach hcart hrestore =>
      exec_of_not_phaseAllows (phaseAllows_empty_eq_false hi hmach hcart hrestore)⟩

/-- Settles O10: after power-on there is no console and no staged cart to speak of. -/
theorem resetSatisfiesTheInvariant : Obligations.ResetSatisfiesTheInvariant :=
  ⟨fun _ h => (nomatch h), fun _ h => (nomatch h), rfl⟩

/-- Settles O53: each instruction of the list keeps the halt flag, by O49 or because its `RESTORE` fails,
and each step of a run takes one of its inputs. -/
theorem haltIsForever : Obligations.HaltIsForever := by
  refine ⟨fun is s t c hr hh hi h => ?_, fun s => State.done_iff, fun s t => ?_⟩
  · obtain ⟨d, hd, hdh⟩ := runAll_keeps_halt hr hh hi h
    obtain ⟨poll, frame⟩ := pollAndHaltedFrameChangeNothing.2 t d hd
    rw [hdh] at poll
    exact ⟨d, hd, hdh, frame (.inl hdh), poll⟩
  · exact ⟨runFor_of_done, runUntilDone_of_next,
      fun f h hf => (runUntilDone_of_not_done h).trans (runFor_succ_of_fault h hf),
      fun r h hr => (runUntilDone_of_not_done h).trans (runFor_succ_of_refused h hr),
      done_of_runFor_next le_rfl⟩

end Sys2Proof.Machine
